-- ==== Sys2Proof/Word.lean ====
section
/-! DEFINITION. The word types of SYNTH-VOICE and the two number formats of the configuration parameter FMT.

A data word (DW, RW, a TABLE or OUTBUF word, a REAL state field) has FMT_BITS bits (spec/30_encoding.md R110). The model
holds every such word in 64 bits; in binary32 the high 32 bits are 0 (notes/assumptions/2.md), which `Fmt.fits` says. -/

namespace Sys2Proof

/-- One MIDI byte, one 8-bit field of a command word. -/
abbrev Byte := BitVec 8

/-- A data word: FMT_BITS bits, in the low end of 64 (R110, R116, R117). -/
abbrev Word := BitVec 64

/-- The configuration parameter FMT (spec/00_scope.md R5): the format of every real value of the block. -/
inductive Fmt where
  /-- IEEE 754 binary32, FMT_BITS = 32. -/
  | binary32
  /-- IEEE 754 binary64, FMT_BITS = 64. -/
  | binary64
  deriving DecidableEq, Repr, Inhabited

end Sys2Proof
end

