-- ==== Sys2Proof/Machine/Float.lean ====
section
/-! DEFINITION. FMT arithmetic: the IEEE 754 operations of spec/00_scope.md R9 to R13, written over exact integers.

Every finite FMT value is an integer multiple of the least subnormal, 2^-scale. `val` is that integer, so a comparison of
reals is a comparison of integers, and each operation computes its exact result as a quotient of naturals and rounds once,
to nearest with ties to even (`roundMag`). Bit patterns of one sign rise with the magnitude, which makes the rounded
pattern `sh * 2^fracBits + significand` right for subnormals, normals and the carry into the next binade alike. -/

namespace Sys2Proof

/-- Width of the exponent field: 8 in binary32, 11 in binary64 (R9). -/
def Fmt.expBits : Fmt → Nat
  | .binary32 => 8
  | .binary64 => 11

/-- Width of the fraction field: 23 in binary32, 52 in binary64 (R9). -/
def Fmt.fracBits : Fmt → Nat
  | .binary32 => 23
  | .binary64 => 52

/-- FMT_BITS (R5): 32 if FMT = binary32, 64 if binary64. -/
def Fmt.bits : Fmt → Nat
  | .binary32 => 32
  | .binary64 => 64

/-- The exponent bias, which is also the greatest exponent of a normal number: 127 or 1023. -/
def Fmt.bias : Fmt → Nat
  | .binary32 => 127
  | .binary64 => 1023

/-- Every finite value is an integer times 2^-scale: 149 or 1074. -/
def Fmt.scale : Fmt → Nat
  | .binary32 => 149
  | .binary64 => 1074

/-- A data word of the configuration has no bit above FMT_BITS (R110). -/
def Fmt.fits (f : Fmt) (w : Word) : Bool := w.toNat < 2 ^ f.bits

/-- The FMT_BITS wires of a data word: what lies above them does not exist (R110). -/
def Fmt.trunc (f : Fmt) (w : Word) : Word := BitVec.ofNat 64 (w.toNat % 2 ^ f.bits)

namespace Fp

/-- The sign bit. -/
def sign (f : Fmt) (w : Word) : Bool := w.toNat.testBit (f.bits - 1)

/-- The bits below the sign bit, read as a number. -/
def magBits (f : Fmt) (w : Word) : Nat := w.toNat % 2 ^ (f.bits - 1)

/-- The magnitude pattern of infinity: exponent all ones, fraction 0. -/
def infBits (f : Fmt) : Nat := (2 ^ f.expBits - 1) * 2 ^ f.fracBits

def isNaN (f : Fmt) (w : Word) : Bool := infBits f < magBits f w

def isInf (f : Fmt) (w : Word) : Bool := magBits f w == infBits f

/-- R10: neither an infinity nor a NaN. -/
def finite (f : Fmt) (w : Word) : Bool := magBits f w < infBits f

/-- The magnitude of a bit pattern without its sign, in units of 2^-scale. (Of the pattern of infinity: 2^(maximal
exponent + 1), above every finite magnitude, which is what the ordered comparisons need.) -/
def mag (f : Fmt) (m : Nat) : Nat :=
  if m / 2 ^ f.fracBits = 0 then m % 2 ^ f.fracBits
  else (2 ^ f.fracBits + m % 2 ^ f.fracBits) * 2 ^ (m / 2 ^ f.fracBits - 1)

/-- The value in units of 2^-scale; both zeros give 0. -/
def val (f : Fmt) (w : Word) : Int :=
  if sign f w then -(mag f (magBits f w) : Int) else (mag f (magBits f w) : Int)

def isZero (f : Fmt) (w : Word) : Bool := magBits f w == 0

/-- A word from a sign and a magnitude pattern. -/
def pack (f : Fmt) (s : Bool) (m : Nat) : Word :=
  BitVec.ofNat 64 ((if s then 2 ^ (f.bits - 1) else 0) + m)

/-- The canonical quiet NaN of R9: sign 0, exponent all ones, the top fraction bit 1, the rest 0. -/
def nan (f : Fmt) : Word := pack f false (infBits f + 2 ^ (f.fracBits - 1))

/-- The quotient n / d rounded to an integer, to nearest with ties to even. -/
def roundQuot (n d : Nat) : Nat :=
  if 2 * (n % d) < d then n / d
  else if d < 2 * (n % d) then n / d + 1
  else n / d + n / d % 2

/-- The magnitude pattern of n / d (in units of 2^-scale), rounded to nearest with ties to even; too large gives
infinity (R9: roundTiesToEven, subnormals supported). -/
def roundMag (f : Fmt) (n d : Nat) : Nat :=
  min (infBits f)
    (((n / d).log2 - f.fracBits) * 2 ^ f.fracBits
      + roundQuot n (d * 2 ^ ((n / d).log2 - f.fracBits)))

/-- R9 `+`. An exact zero sum is +0 under roundTiesToEven unless both operands are negative. -/
def add (f : Fmt) (a b : Word) : Word :=
  if isNaN f a || isNaN f b then nan f
  else if isInf f a then
    if isInf f b && (sign f a != sign f b) then nan f else pack f (sign f a) (infBits f)
  else if isInf f b then pack f (sign f b) (infBits f)
  else if val f a + val f b = 0 then pack f (sign f a && sign f b) 0
  else pack f (decide (val f a + val f b < 0)) (roundMag f (val f a + val f b).natAbs 1)

/-- The operand with its sign bit flipped. -/
def neg (f : Fmt) (a : Word) : Word := pack f (!sign f a) (magBits f a)

/-- |a|: the operand with its sign bit cleared (R334). -/
def abs (f : Fmt) (a : Word) : Word := pack f false (magBits f a)

/-- R9 `−`: a − b is a + (−b). -/
def sub (f : Fmt) (a b : Word) : Word := add f a (neg f b)

/-- R9 `×`. -/
def mul (f : Fmt) (a b : Word) : Word :=
  if isNaN f a || isNaN f b then nan f
  else if isInf f a || isInf f b then
    if isZero f a || isZero f b then nan f else pack f (sign f a != sign f b) (infBits f)
  else pack f (sign f a != sign f b)
    (roundMag f (mag f (magBits f a) * mag f (magBits f b)) (2 ^ f.scale))

/-- R9 `/`. -/
def div (f : Fmt) (a b : Word) : Word :=
  if isNaN f a || isNaN f b then nan f
  else if isInf f a then if isInf f b then nan f else pack f (sign f a != sign f b) (infBits f)
  else if isInf f b then pack f (sign f a != sign f b) 0
  else if isZero f b then
    if isZero f a then nan f else pack f (sign f a != sign f b) (infBits f)
  else pack f (sign f a != sign f b)
    (roundMag f (mag f (magBits f a) * 2 ^ f.scale) (mag f (magBits f b)))

/-- R12: the IEEE 754 ordered `<`; false if an operand is a NaN. -/
def lt (f : Fmt) (a b : Word) : Bool :=
  !isNaN f a && !isNaN f b && decide (val f a < val f b)

/-- R12: the IEEE 754 ordered `≤`. -/
def le (f : Fmt) (a b : Word) : Bool :=
  !isNaN f a && !isNaN f b && decide (val f a ≤ val f b)

/-- R12: the IEEE 754 ordered `=`, under which −0.0 = +0.0. -/
def eq (f : Fmt) (a b : Word) : Bool :=
  !isNaN f a && !isNaN f b && decide (val f a = val f b)

/-- +0.0. -/
def zero : Word := 0#64

/-- The FMT number n / d, rounded once (a real literal of the spec, R128). -/
def ofRat (f : Fmt) (n : Int) (d : Nat) : Word :=
  pack f (decide (n < 0)) (roundMag f (n.natAbs * 2 ^ f.scale) d)

/-- R13 `real(n)`: exact for |n| ≤ 2^24; real(0) is +0.0. -/
def ofInt (f : Fmt) (n : Int) : Word := ofRat f n 1

/-- 1.0. -/
def one (f : Fmt) : Word := ofInt f 1

/-- 2^n for n from −(bias − 1) to bias, the exponents of the normal numbers. -/
def pow2 (f : Fmt) (n : Int) : Word := pack f false ((n + f.bias).toNat * 2 ^ f.fracBits)

/-- The greatest integer not greater than the value (R13). -/
def floorInt (f : Fmt) (w : Word) : Int := val f w / (2 ^ f.scale : Nat)

/-- R13 `floor(v)`, in FMT. A zero result keeps the operand's sign, so floor(−0.0) = −0.0 (notes/assumptions/9.md). -/
def floor (f : Fmt) (w : Word) : Word :=
  if isNaN f w then nan f
  else if isInf f w then pack f (sign f w) (infBits f)
  else if floorInt f w = 0 then pack f (sign f w) 0
  else ofInt f (floorInt f w)

/-- R13 `int(v)` of a value that holds a non-negative integer. -/
def toNat (f : Fmt) (w : Word) : Nat := (floorInt f w).toNat

/-- R11: lerp(a, b, t) = a + ((b − a) × t), in the order written. -/
def lerp (f : Fmt) (a b t : Word) : Word := add f a (mul f (sub f b a) t)

/-- R12: `lo` if v < lo, otherwise `hi` if v > hi, otherwise v. -/
def clamp (f : Fmt) (v lo hi : Word) : Word :=
  if lt f v lo then lo else if lt f hi v then hi else v

/-- R12: min(a, b) is a if a ≤ b, otherwise b. -/
def fmin (f : Fmt) (a b : Word) : Word := if le f a b then a else b

/-- R12: max(a, b) is a if a ≥ b, otherwise b. -/
def fmax (f : Fmt) (a b : Word) : Word := if le f b a then a else b

/-- R16: PI_F, π rounded to FMT. -/
def pi : Fmt → Word
  | .binary32 => 0x40490FDB#64
  | .binary64 => 0x400921FB54442D18#64

/-- The greatest FMT number below π/2, so that "0 ≤ x < π/2" of R16 is "0 ≤ x ≤ belowHalfPi" (notes/assumptions/8.md). -/
def belowHalfPi : Fmt → Word
  | .binary32 => 0x3FC90FDA#64
  | .binary64 => 0x3FF921FB54442D18#64

/-- R39: RN(1/√2), the reset value of FILTER.q. -/
def invSqrt2 : Fmt → Word
  | .binary32 => 0x3F3504F3#64
  | .binary64 => 0x3FE6A09E667F3BCD#64

end Fp
end Sys2Proof
end

