-- ==== Sys2Proof/Syntax.lean ====
section
/-! DEFINITION. The host commands of SYNTH-VOICE: one constructor per row of spec/opcode_table.json, with the operands of
its format (spec/30_encoding.md R112 to R118), and the command as the host sends it, the pair (CW, DW) of R110. -/

namespace Sys2Proof

/-- R32: the unit codes 0 to 7. Codes 8 to 255 select no unit. -/
inductive UnitId where
  | voice
  | ramp
  | osc
  | env
  | gain
  | filter
  | midi
  | sys
  deriving DecidableEq, Repr

/-- R118. A command that ignores DW has no data operand; the others carry it as their last one. -/
inductive Instr where
  /-- NOP, format N. -/
  | nop
  /-- RESET, format N. -/
  | reset
  /-- TICK, format N. -/
  | tick
  /-- TICKB, format N. -/
  | tickb
  /-- RDBUF, format A. -/
  | rdbuf (addr : BitVec 24)
  /-- WPORT, format P, with a REAL data word. -/
  | wport (unit : UnitId) (sel : Byte) (dw : Word)
  /-- RPORT, format P. -/
  | rport (unit : UnitId) (sel : Byte)
  /-- WPARAM, format P, with a data word of the register's kind. -/
  | wparam (unit : UnitId) (sel : Byte) (dw : Word)
  /-- RPARAM, format P. -/
  | rparam (unit : UnitId) (sel : Byte)
  /-- TWRITE, format A, with a REAL data word. -/
  | twrite (addr : BitVec 24) (dw : Word)
  /-- TREAD, format A. -/
  | tread (addr : BitVec 24)
  /-- SEAL, format N. (The bare word is a command of Lean.) -/
  | sealTables
  /-- MPUSH, format B. -/
  | mpush (byte : Byte)
  /-- MPOP, format N. -/
  | mpop
  /-- MRESET, format N. -/
  | mreset
  deriving DecidableEq, Repr

/-- R110: a host command, its command word and its data word. -/
structure Cmd where
  cw : BitVec 32
  dw : Word
  deriving DecidableEq, Repr

end Sys2Proof
end

