-- ==== Sys2Proof/WellFormed.lean ====
section
/-! DEFINITION. What a well-formed command is. The types of Syntax.lean bound the unit, SEL, BYTE and ADDR; what is left to
check is that a data word has no bit above FMT_BITS (spec/30_encoding.md R110). -/

namespace Sys2Proof

/-- R110: the data operand, where there is one, is a word of FMT_BITS bits. -/
def Instr.wf (f : Fmt) : Instr → Bool
  | .nop => true
  | .reset => true
  | .tick => true
  | .tickb => true
  | .rdbuf _ => true
  | .wport _ _ dw => f.fits dw
  | .rport _ _ => true
  | .wparam _ _ dw => f.fits dw
  | .rparam _ _ => true
  | .twrite _ dw => f.fits dw
  | .tread _ => true
  | .sealTables => true
  | .mpush _ => true
  | .mpop => true
  | .mreset => true

/-- R110: a command whose data word has FMT_BITS bits. -/
def Cmd.wf (f : Fmt) (c : Cmd) : Bool := f.fits c.dw

end Sys2Proof
end

