-- ==== Sys2Proof/Decode.lean ====
section
/-! DEFINITION. The decoder of command words (spec/30_encoding.md R111 to R119), the encoder, and the byte transport of
spec/20_memory.md R86. A command that the decoder refuses is an illegal encoding of R119: Step.lean answers it with
ILLEGAL_COMMAND. (The illegal register ids of R119 are not a matter of the word's form: Machine/Params.lean refuses them.) -/

namespace Sys2Proof

/-- Why a command does not decode. -/
inductive DecodeError where
  /-- R118: OP is not in the opcode map. -/
  | undefinedOpcode (op : Byte)
  /-- R112 to R114: a must-be-0 field is not 0. -/
  | mustBeZero
  /-- R113: UNIT > 7. -/
  | noSuchUnit (code : Byte)
  /-- R86: a byte stream that ends inside a command. -/
  | shortStream
  deriving DecidableEq, Repr

/-! ### The fields of a command word -/

/-- R111: OP, CW[31:24]. -/
def Cmd.op (c : Cmd) : Byte := c.cw.extractLsb' 24 8

/-- CW[23:0]: ADDR in format A, must be 0 in format N (R112, R115). -/
def Cmd.addr (c : Cmd) : BitVec 24 := c.cw.extractLsb' 0 24

/-- R113: CW[23:16], must be 0 in format P. -/
def Cmd.high (c : Cmd) : Byte := c.cw.extractLsb' 16 8

/-- R113: UNIT, CW[15:8]. -/
def Cmd.unit (c : Cmd) : Byte := c.cw.extractLsb' 8 8

/-- R113, R114: SEL or BYTE, CW[7:0]. -/
def Cmd.low (c : Cmd) : Byte := c.cw.extractLsb' 0 8

/-- R114: CW[23:8], must be 0 in format B. -/
def Cmd.mid (c : Cmd) : BitVec 16 := c.cw.extractLsb' 8 16

/-- R32, the Code column. -/
def UnitId.code : UnitId → Byte
  | .voice => 0#8
  | .ramp => 1#8
  | .osc => 2#8
  | .env => 3#8
  | .gain => 4#8
  | .filter => 5#8
  | .midi => 6#8
  | .sys => 7#8

/-- R32: the unit a code selects; codes 8 to 255 select none. -/
def UnitId.ofCode (b : Byte) : Option UnitId :=
  match b.toNat with
  | 0 => some .voice
  | 1 => some .ramp
  | 2 => some .osc
  | 3 => some .env
  | 4 => some .gain
  | 5 => some .filter
  | 6 => some .midi
  | 7 => some .sys
  | _ => none

/-! ### The formats -/

/-- R112: no operand; CW[23:0] must be 0. -/
def decodeN (c : Cmd) (i : Instr) : Except DecodeError Instr :=
  if c.addr = 0#24 then .ok i else .error .mustBeZero

/-- R113: UNIT and SEL; CW[23:16] must be 0 and UNIT at most 7. -/
def decodeP (c : Cmd) (k : UnitId → Byte → Instr) : Except DecodeError Instr :=
  if c.high = 0#8 then
    match UnitId.ofCode c.unit with
    | some u => .ok (k u c.low)
    | none => .error (.noSuchUnit c.unit)
  else .error .mustBeZero

/-- R114: one MIDI byte; CW[23:8] must be 0. -/
def decodeB (c : Cmd) (k : Byte → Instr) : Except DecodeError Instr :=
  if c.mid = 0#16 then .ok (k c.low) else .error .mustBeZero

/-- R115: a word address; every CW[23:0] is one. -/
def decodeA (c : Cmd) (k : BitVec 24 → Instr) : Except DecodeError Instr := .ok (k c.addr)

/-- R118: the opcode map. Total: every other opcode is undefined. -/
def decode (f : Fmt) (c : Cmd) : Except DecodeError Instr :=
  match c.op.toNat with
  | 0x00 => decodeN c .nop
  | 0x01 => decodeN c .reset
  | 0x02 => decodeN c .tick
  | 0x03 => decodeN c .tickb
  | 0x04 => decodeA c fun a => .rdbuf a
  | 0x10 => decodeP c fun u s => .wport u s (f.trunc c.dw)
  | 0x11 => decodeP c fun u s => .rport u s
  | 0x12 => decodeP c fun u s => .wparam u s (f.trunc c.dw)
  | 0x13 => decodeP c fun u s => .rparam u s
  | 0x20 => decodeA c fun a => .twrite a (f.trunc c.dw)
  | 0x21 => decodeA c fun a => .tread a
  | 0x22 => decodeN c .sealTables
  | 0x30 => decodeB c fun b => .mpush b
  | 0x31 => decodeN c .mpop
  | 0x32 => decodeN c .mreset
  | _ => .error (.undefinedOpcode c.op)

/-! ### The encoder -/

/-- R112: OP and 24 zero bits. -/
def cwN (op : Byte) : BitVec 32 := op ++ 0#24

/-- R113: OP, 8 zero bits, UNIT, SEL. -/
def cwP (op : Byte) (u : UnitId) (sel : Byte) : BitVec 32 := op ++ (0#8 ++ (u.code ++ sel))

/-- R114: OP, 16 zero bits, BYTE. -/
def cwB (op : Byte) (b : Byte) : BitVec 32 := op ++ (0#16 ++ b)

/-- R115: OP and ADDR. -/
def cwA (op : Byte) (a : BitVec 24) : BitVec 32 := op ++ a

/-- R118: the words of a command. An ignored DW is sent as 0 (spec/95_test_vectors.md §0). -/
def encode : Instr → Cmd
  | .nop => ⟨cwN 0x00#8, 0#64⟩
  | .reset => ⟨cwN 0x01#8, 0#64⟩
  | .tick => ⟨cwN 0x02#8, 0#64⟩
  | .tickb => ⟨cwN 0x03#8, 0#64⟩
  | .rdbuf a => ⟨cwA 0x04#8 a, 0#64⟩
  | .wport u s dw => ⟨cwP 0x10#8 u s, dw⟩
  | .rport u s => ⟨cwP 0x11#8 u s, 0#64⟩
  | .wparam u s dw => ⟨cwP 0x12#8 u s, dw⟩
  | .rparam u s => ⟨cwP 0x13#8 u s, 0#64⟩
  | .twrite a dw => ⟨cwA 0x20#8 a, dw⟩
  | .tread a => ⟨cwA 0x21#8 a, 0#64⟩
  | .sealTables => ⟨cwN 0x22#8, 0#64⟩
  | .mpush b => ⟨cwB 0x30#8 b, 0#64⟩
  | .mpop => ⟨cwN 0x31#8, 0#64⟩
  | .mreset => ⟨cwN 0x32#8, 0#64⟩

/-! ### The byte transport (R86): each word little-endian, least significant byte first -/

/-- The `n` low bytes of a number, least significant first. -/
def leBytes : Nat → Nat → List Byte
  | 0, _ => []
  | n + 1, v => BitVec.ofNat 8 v :: leBytes n (v / 256)

/-- The number that bytes spell, least significant first. -/
def leNat : List Byte → Nat
  | [] => 0
  | b :: bs => b.toNat + 256 * leNat bs

/-- The bytes of one command: CW, then DW in FMT_BITS / 8 bytes. -/
def Cmd.toBytes (f : Fmt) (c : Cmd) : List Byte := leBytes 4 c.cw.toNat ++ leBytes (f.bits / 8) c.dw.toNat

/-- The first command of a byte stream and the rest of the stream; none if the stream ends inside it. -/
def Cmd.ofBytes (f : Fmt) (bs : List Byte) : Option (Cmd × List Byte) :=
  if bs.length < 4 + f.bits / 8 then none
  else some (⟨BitVec.ofNat 32 (leNat (bs.take 4)), BitVec.ofNat 64 (leNat ((bs.drop 4).take (f.bits / 8)))⟩,
    bs.drop (4 + f.bits / 8))

/-- The bytes of a command's words. -/
def encodeBytes (f : Fmt) (i : Instr) : List Byte := (encode i).toBytes f

/-- Decoding from a byte stream: the command and the rest of the stream. Total on any bytes. -/
def decodeBytes (f : Fmt) (bs : List Byte) : Except DecodeError (Instr × List Byte) :=
  match Cmd.ofBytes f bs with
  | none => .error .shortStream
  | some (c, rest) =>
    match decode f c with
    | .ok i => .ok (i, rest)
    | .error e => .error e

/-- The command whose words, numbered as spec/opcode_table.json numbers them, are the low `nbits` bits of `w`: bits 31 to 0
are CW and the bits above are DW. -/
def tableCmd (nbits w : Nat) : Cmd :=
  ⟨BitVec.ofNat 32 (w % 2 ^ nbits), BitVec.ofNat 64 (w % 2 ^ nbits / 2 ^ 32)⟩

/-- What the decoder reads from a table row's word. -/
def decodeTableWord (nbits w : Nat) : Option Instr :=
  match decode .binary32 (tableCmd nbits w) with
  | .ok i => some i
  | .error _ => none

end Sys2Proof
end

