-- ==== Sys2Proof/Machine/Lawful.lean ====
section
/-! DEFINITION. The laws of the configuration functions EXP2, LOG2 and TAN (spec/00_scope.md R14, R15, R16), and one
function that meets each list of laws. The witnesses only show that the laws can be met, which Lean asks for before
Config.lean may name an unknown function that obeys them; no meaning of the model uses a witness. -/

namespace Sys2Proof

/-- The integer a finite FMT value holds, if it holds one (both zeros hold 0). -/
def Fp.exactInt (f : Fmt) (x : Word) : Option Int :=
  if Fp.finite f x && decide (Fp.val f x % (2 ^ f.scale : Nat) = 0) then some (Fp.floorInt f x) else none

/-- 2^n is a normal FMT number: n from −126 to 127, or from −1022 to 1023. -/
def Fp.normalExp (f : Fmt) (n : Int) : Bool := decide (1 - (f.bias : Int) ≤ n) && decide (n ≤ f.bias)

/-- The exponent of x where x is 2^n, a normal power of two. -/
def Fp.log2Exact (f : Fmt) (x : Word) : Option Int :=
  if Fp.normalExp f ((Fp.magBits f x / 2 ^ f.fracBits : Nat) - (f.bias : Int))
      && decide (x = Fp.pow2 f ((Fp.magBits f x / 2 ^ f.fracBits : Nat) - (f.bias : Int)))
  then some ((Fp.magBits f x / 2 ^ f.fracBits : Nat) - (f.bias : Int)) else none

/-- R14. (a) EXP2(n) = 2^n exactly for every integer n with 2^n a normal FMT number; (b) EXP2(x) is finite and > 0 for
every finite x with |x| ≤ 128; (c) EXP2 is monotone non-decreasing. It is a function FMT → FMT (R5). -/
def Exp2Laws (f : Fmt) (g : Word → Word) : Prop :=
  (∀ x n, Fp.exactInt f x = some n → Fp.normalExp f n = true → g x = Fp.pow2 f n) ∧
  (∀ x, Fp.finite f x = true → -(128 * 2 ^ f.scale : Int) ≤ Fp.val f x → Fp.val f x ≤ 128 * 2 ^ f.scale →
    Fp.finite f (g x) = true ∧ Fp.lt f Fp.zero (g x) = true) ∧
  (∀ x y, Fp.finite f x = true → Fp.finite f y = true → Fp.le f x y = true → Fp.le f (g x) (g y) = true) ∧
  (∀ x, f.fits (g x) = true)

/-- R15. (a) LOG2(2^n) = n exactly for every integer n with 2^n a normal FMT number; (b) LOG2(x) is finite for every
finite x > 0; (c) LOG2 is monotone non-decreasing (there). The zero of (a) is real(0) = +0.0 (notes/assumptions/10.md). -/
def Log2Laws (f : Fmt) (g : Word → Word) : Prop :=
  (∀ n, Fp.normalExp f n = true → g (Fp.pow2 f n) = Fp.ofInt f n) ∧
  (∀ x, Fp.finite f x = true → Fp.lt f Fp.zero x = true → Fp.finite f (g x) = true) ∧
  (∀ x y, Fp.finite f x = true → Fp.finite f y = true → Fp.lt f Fp.zero x = true → Fp.le f x y = true →
    Fp.le f (g x) (g y) = true) ∧
  (∀ x, f.fits (g x) = true)

/-- R16. (a) TAN(x) is finite for every x with 0 ≤ x < π/2; (b) TAN(0) = 0, and TAN(x) > 0 for 0 < x < π/2; (c) TAN is
monotone non-decreasing on that range. -/
def TanLaws (f : Fmt) (g : Word → Word) : Prop :=
  (∀ x, Fp.le f Fp.zero x = true → Fp.le f x (Fp.belowHalfPi f) = true → Fp.finite f (g x) = true) ∧
  (∀ x, Fp.eq f x Fp.zero = true → Fp.eq f (g x) Fp.zero = true) ∧
  (∀ x, Fp.lt f Fp.zero x = true → Fp.le f x (Fp.belowHalfPi f) = true → Fp.lt f Fp.zero (g x) = true) ∧
  (∀ x y, Fp.le f Fp.zero x = true → Fp.le f x y = true → Fp.le f y (Fp.belowHalfPi f) = true →
    Fp.le f (g x) (g y) = true) ∧
  (∀ x, f.fits (g x) = true)

namespace Fp

/-! ### Facts about patterns and exact values -/

theorem bits_eq (f : Fmt) : f.bits = f.expBits + f.fracBits + 1 := by cases f <;> rfl

theorem scale_eq (f : Fmt) : f.scale + 1 = f.bias + f.fracBits := by cases f <;> rfl

theorem infBits_lt (f : Fmt) : infBits f < 2 ^ (f.bits - 1) := by cases f <;> decide

theorem bits_le (f : Fmt) : 2 ^ (f.bits - 1) + 2 ^ (f.bits - 1) = 2 ^ f.bits ∧ 2 ^ f.bits ≤ 2 ^ 64 := by
  cases f <;> decide

/-- What `pack` writes, as a number. -/
theorem pack_toNat (f : Fmt) (s : Bool) {m : Nat} (h : m < 2 ^ (f.bits - 1)) :
    (pack f s m).toNat = (if s then 2 ^ (f.bits - 1) else 0) + m := by
  obtain ⟨h1, h2⟩ := bits_le f
  simp only [pack, BitVec.toNat_ofNat]
  apply Nat.mod_eq_of_lt
  split <;> omega

theorem magBits_pack (f : Fmt) (s : Bool) {m : Nat} (h : m < 2 ^ (f.bits - 1)) : magBits f (pack f s m) = m := by
  rw [magBits, pack_toNat f s h]
  cases s
  · simpa using Nat.mod_eq_of_lt h
  · simpa using Nat.mod_eq_of_lt h

theorem sign_pack (f : Fmt) (s : Bool) {m : Nat} (h : m < 2 ^ (f.bits - 1)) : sign f (pack f s m) = s := by
  rw [sign, pack_toNat f s h]
  cases s
  · simpa using Nat.testBit_lt_two_pow h
  · simp only [if_true]
    rw [Nat.testBit_two_pow_add_eq, Nat.testBit_lt_two_pow h]; rfl

theorem fits_pack (f : Fmt) (s : Bool) {m : Nat} (h : m < 2 ^ (f.bits - 1)) : f.fits (pack f s m) = true := by
  have := bits_le f
  rw [Fmt.fits, pack_toNat f s h]
  simp only [decide_eq_true_eq]
  split <;> omega

theorem roundMag_le (f : Fmt) (n d : Nat) : roundMag f n d ≤ infBits f := Nat.min_le_left _ _

theorem roundMag_lt (f : Fmt) (n d : Nat) : roundMag f n d < 2 ^ (f.bits - 1) := by
  have := roundMag_le f n d; have := infBits_lt f; omega

/-- Magnitudes rise with their patterns. -/
theorem mag_mono (f : Fmt) {m n : Nat} (h : m ≤ n) : mag f m ≤ mag f n := by
  have hp : 0 < 2 ^ f.fracBits := Nat.two_pow_pos _
  generalize hP : 2 ^ f.fracBits = P at hp
  have hm := Nat.div_add_mod m P
  have hn := Nat.div_add_mod n P
  have hq : m / P ≤ n / P := Nat.div_le_div_right h
  have hrm := Nat.mod_lt m hp
  have hrn := Nat.mod_lt n hp
  simp only [mag, hP]
  generalize m / P = a at *
  generalize n / P = b at *
  by_cases h0 : b = 0
  · have h1 : a = 0 := by omega
    rw [if_pos h0, if_pos h1]
    rw [h0, Nat.mul_zero] at hn; rw [h1, Nat.mul_zero] at hm; omega
  · rw [if_neg h0]
    by_cases h1 : a = 0
    · rw [if_pos h1]
      have : 1 ≤ 2 ^ (b - 1) := Nat.one_le_two_pow
      have := Nat.mul_le_mul_left (P + n % P) this
      omega
    · rw [if_neg h1]
      rcases Nat.lt_or_ge (a) (b) with h2 | h2
      · have e : 2 ^ (b - 1) = 2 ^ (a - 1) * 2 * 2 ^ (b - 1 - (a)) := by
          rw [mul_assoc, ← pow_succ', ← pow_add]; congr 1; omega
        have : 1 ≤ 2 ^ (b - 1 - (a)) := Nat.one_le_two_pow
        rw [e]
        calc (P + m % P) * 2 ^ (a - 1) ≤ (P * 2) * 2 ^ (a - 1) := Nat.mul_le_mul_right _ (by omega)
          _ = P * (2 ^ (a - 1) * 2) := by ring
          _ ≤ (P + n % P) * (2 ^ (a - 1) * 2) := Nat.mul_le_mul_right _ (by omega)
          _ ≤ (P + n % P) * (2 ^ (a - 1) * 2 * 2 ^ (b - 1 - (a))) := by
              apply Nat.mul_le_mul_left; exact Nat.le_mul_of_pos_right _ (by omega)
      · have e : a = b := by omega
        rw [e]; rw [e] at hm
        exact Nat.mul_le_mul_right _ (by omega)

/-- The unbounded pattern that `roundMag` computes: of a significand of at most fracBits + 1 bits times a power of two, it
is exact. -/
theorem mag_raw_exact (f : Fmt) {k j : Nat} (hk0 : 0 < k) (hk : k < 2 ^ (f.fracBits + 1)) :
    mag f (((k * 2 ^ j).log2 - f.fracBits) * 2 ^ f.fracBits
      + roundQuot (k * 2 ^ j) (2 ^ ((k * 2 ^ j).log2 - f.fracBits))) = k * 2 ^ j := by
  have hne : k * 2 ^ j ≠ 0 := by positivity
  have hlog : (k * 2 ^ j).log2 = k.log2 + j := by
    rw [Nat.log2_eq_iff hne]
    have h1 := Nat.log2_self_le hk0.ne'
    have h2 := @Nat.lt_log2_self k
    constructor
    · rw [pow_add]; exact Nat.mul_le_mul_right _ h1
    · rw [show k.log2 + j + 1 = (k.log2 + 1) + j by omega, pow_add]
      exact Nat.mul_lt_mul_of_pos_right h2 (by positivity)
  have hkl : k.log2 ≤ f.fracBits := by
    have := (Nat.log2_lt hk0.ne').2 hk; omega
  have hx1 := Nat.log2_self_le hne
  have hx2 := @Nat.lt_log2_self (k * 2 ^ j)
  generalize hP : f.fracBits = p at *
  have hp : 0 < 2 ^ p := Nat.two_pow_pos _
  rcases Nat.le_total (k * 2 ^ j).log2 p with hs | hs
  · have e : (k * 2 ^ j).log2 - p = 0 := by omega
    have hr : roundQuot (k * 2 ^ j) 1 = k * 2 ^ j := by simp [roundQuot, Nat.mod_one]
    rw [e, Nat.pow_zero, hr, Nat.zero_mul, Nat.zero_add, mag, hP]
    have hlt : k * 2 ^ j < 2 ^ p * 2 := by
      rw [← pow_succ]; exact lt_of_lt_of_le hx2 (Nat.pow_le_pow_right (by omega) (by omega))
    have hm := Nat.div_add_mod (k * 2 ^ j) (2 ^ p)
    have hd : k * 2 ^ j / 2 ^ p < 2 := Nat.div_lt_of_lt_mul (by omega)
    generalize k * 2 ^ j / 2 ^ p = q at *
    split
    · rename_i h; rw [h, Nat.mul_zero] at hm; omega
    · have h : q = 1 := by omega
      rw [h, Nat.mul_one] at hm
      rw [h]; simp; omega
  · have ej : j = ((k * 2 ^ j).log2 - p) + (j - ((k * 2 ^ j).log2 - p)) := by omega
    generalize hS : (k * 2 ^ j).log2 - p = S at *
    have ex : k * 2 ^ j = 2 ^ S * (k * 2 ^ (j - S)) := by
      conv_lhs => rw [ej, pow_add]
      ring
    have hr : roundQuot (k * 2 ^ j) (2 ^ S) = k * 2 ^ (j - S) := by
      rw [ex]; simp [roundQuot]
    rw [hr]
    have hpow : (k * 2 ^ j).log2 = p + S := by omega
    rw [hpow, ex, show p + S + 1 = S + (p + 1) by omega, pow_add] at hx2
    rw [hpow, ex, show p + S = S + p by omega, pow_add] at hx1
    have h1 : 2 ^ p ≤ k * 2 ^ (j - S) := Nat.le_of_mul_le_mul_left hx1 (by positivity)
    have h2 : k * 2 ^ (j - S) < 2 ^ (p + 1) := Nat.lt_of_mul_lt_mul_left hx2
    rw [ex]
    generalize k * 2 ^ (j - S) = r at *
    rw [pow_succ] at h2
    have hd : (S * 2 ^ p + r) / 2 ^ p = S + 1 := by
      rw [Nat.div_eq_iff hp]
      constructor
      · rw [Nat.add_mul]; omega
      · rw [Nat.add_mul]; omega
    have hm : (S * 2 ^ p + r) % 2 ^ p = r - 2 ^ p := by
      have := Nat.div_add_mod (S * 2 ^ p + r) (2 ^ p)
      rw [hd, Nat.mul_add, Nat.mul_comm] at this; omega
    rw [mag, hP, hd, hm]
    simp only [Nat.add_eq_zero_iff, one_ne_zero, and_false, if_false, Nat.add_sub_cancel]
    rw [show 2 ^ p + (r - 2 ^ p) = r by omega, Nat.mul_comm]

/-- A significand of at most fracBits + 1 bits times a power of two, below the magnitude of infinity, rounds to itself. -/
theorem roundMag_exact (f : Fmt) {k j : Nat} (hk : k < 2 ^ (f.fracBits + 1))
    (hfin : k * 2 ^ j < mag f (infBits f)) :
    roundMag f (k * 2 ^ j) 1 < infBits f ∧ mag f (roundMag f (k * 2 ^ j) 1) = k * 2 ^ j := by
  rcases Nat.eq_zero_or_pos k with rfl | hk0
  · have : 0 < infBits f := by cases f <;> decide
    simp [roundMag, roundQuot, mag, this]
  have h := mag_raw_exact f (j := j) hk0 hk
  rw [roundMag, Nat.div_one, Nat.one_mul]
  generalize ((k * 2 ^ j).log2 - f.fracBits) * 2 ^ f.fracBits
      + roundQuot (k * 2 ^ j) (2 ^ ((k * 2 ^ j).log2 - f.fracBits)) = raw at h
  have hlt : raw < infBits f := by
    by_contra hc
    have := mag_mono f (Nat.le_of_not_lt hc)
    omega
  rw [Nat.min_eq_right (Nat.le_of_lt hlt)]
  exact ⟨hlt, h⟩

theorem pow2_bound (f : Fmt) {n : Int} (h : normalExp f n = true) :
    1 ≤ (n + f.bias).toNat ∧ (n + f.bias).toNat * 2 ^ f.fracBits < infBits f ∧ (n + f.bias).toNat ≤ 2 * f.bias := by
  simp only [normalExp, Bool.and_eq_true, decide_eq_true_eq] at h
  have h1 : 1 ≤ (n + f.bias).toNat := by omega
  have h2 : (n + f.bias).toNat ≤ 2 * f.bias := by omega
  refine ⟨h1, ?_, h2⟩
  have : 2 * f.bias * 2 ^ f.fracBits < infBits f := by cases f <;> decide
  exact lt_of_le_of_lt (Nat.mul_le_mul_right _ h2) this

theorem magBits_pow2 (f : Fmt) {n : Int} (h : normalExp f n = true) :
    magBits f (pow2 f n) = (n + f.bias).toNat * 2 ^ f.fracBits :=
  magBits_pack f _ (by have := pow2_bound f h; have := infBits_lt f; omega)

theorem sign_pow2 (f : Fmt) {n : Int} (h : normalExp f n = true) : sign f (pow2 f n) = false :=
  sign_pack f _ (by have := pow2_bound f h; have := infBits_lt f; omega)

theorem mag_pow2 (f : Fmt) {n : Int} (h : normalExp f n = true) :
    mag f (magBits f (pow2 f n)) = 2 ^ (f.fracBits + ((n + f.bias).toNat - 1)) := by
  have h1 := (pow2_bound f h).1
  rw [magBits_pow2 f h, mag, Nat.mul_div_cancel _ (Nat.two_pow_pos _), Nat.mul_mod_left, if_neg (by omega), Nat.add_zero,
    pow_add]

theorem val_pow2 (f : Fmt) {n : Int} (h : normalExp f n = true) :
    val f (pow2 f n) = ((2 ^ (f.fracBits + ((n + f.bias).toNat - 1)) : Nat) : Int) := by
  simp only [val, sign_pow2 f h, mag_pow2 f h]; rfl

theorem finite_pow2 (f : Fmt) {n : Int} (h : normalExp f n = true) : finite f (pow2 f n) = true := by
  simp only [finite, magBits_pow2 f h, decide_eq_true_eq]; exact (pow2_bound f h).2.1

theorem fits_pow2 (f : Fmt) {n : Int} (h : normalExp f n = true) : f.fits (pow2 f n) = true :=
  fits_pack f _ (by have := pow2_bound f h; have := infBits_lt f; omega)

theorem not_isNaN_of_finite (f : Fmt) {w : Word} (h : finite f w = true) : isNaN f w = false := by
  simp only [finite, decide_eq_true_eq] at h
  simp only [isNaN, decide_eq_false_iff_not]; omega

theorem le_of_finite (f : Fmt) {a b : Word} (ha : finite f a = true) (hb : finite f b = true) :
    le f a b = decide (val f a ≤ val f b) := by
  simp [le, not_isNaN_of_finite f ha, not_isNaN_of_finite f hb]

theorem lt_of_finite (f : Fmt) {a b : Word} (ha : finite f a = true) (hb : finite f b = true) :
    lt f a b = decide (val f a < val f b) := by
  simp [lt, not_isNaN_of_finite f ha, not_isNaN_of_finite f hb]

theorem finite_zero (f : Fmt) : finite f zero = true := by cases f <;> decide

theorem val_zero (f : Fmt) : val f zero = 0 := by cases f <;> decide

/-- A finite positive number has sign 0. -/
theorem sign_of_pos (f : Fmt) {x : Word} (h : 0 < val f x) : sign f x = false := by
  by_contra hs
  simp only [Bool.not_eq_false] at hs
  simp only [val, hs, if_true] at h; omega

/-! ### Integers in FMT -/

/-- The rounding of a small integer is exact and finite. -/
theorem ofInt_exact (f : Fmt) {n : Int} (h : n.natAbs ≤ 2 ^ f.fracBits) :
    finite f (ofInt f n) = true ∧ val f (ofInt f n) = n * 2 ^ f.scale ∧ f.fits (ofInt f n) = true := by
  have hk : n.natAbs < 2 ^ (f.fracBits + 1) := by
    rw [pow_succ]; have : 0 < 2 ^ f.fracBits := Nat.two_pow_pos _; omega
  have hfin : n.natAbs * 2 ^ f.scale < mag f (infBits f) := by
    refine lt_of_le_of_lt (Nat.mul_le_mul_right _ h) ?_
    cases f <;> decide +kernel
  obtain ⟨h1, h2⟩ := roundMag_exact f hk hfin
  have hb := roundMag_lt f (n.natAbs * 2 ^ f.scale) 1
  refine ⟨?_, ?_, fits_pack f _ hb⟩
  · simp only [finite, ofInt, ofRat, magBits_pack f _ hb, decide_eq_true_eq]; exact h1
  · simp only [val, ofInt, ofRat, magBits_pack f _ hb, sign_pack f _ hb, h2, decide_eq_true_eq]
    push_cast
    split
    · rename_i hn; rw [abs_of_neg hn]; ring
    · rename_i hn; rw [abs_of_nonneg (not_lt.1 hn)]

/-! ### The witnesses -/

/-- 2 to the floor of x, kept among the normal numbers. -/
def exp2Witness (f : Fmt) (x : Word) : Word := pow2 f (max (1 - (f.bias : Int)) (min (floorInt f x) f.bias))

theorem exp2Witness_normal (f : Fmt) (x : Word) :
    normalExp f (max (1 - (f.bias : Int)) (min (floorInt f x) f.bias)) = true := by
  have : 1 ≤ f.bias := by cases f <;> decide
  simp only [normalExp, Bool.and_eq_true, decide_eq_true_eq]; omega

theorem exp2Witness_lawful (f : Fmt) : Exp2Laws f (exp2Witness f) := by
  refine ⟨fun x n hx hn => ?_, fun x hx _ _ => ?_, fun x y hx hy hxy => ?_, fun x => fits_pow2 f (exp2Witness_normal f x)⟩
  · simp only [exactInt] at hx
    split at hx
    · obtain rfl := Option.some.inj hx
      simp only [normalExp, Bool.and_eq_true, decide_eq_true_eq] at hn
      rw [exp2Witness]; congr 1; omega
    · cases hx
  · have hn := exp2Witness_normal f x
    refine ⟨finite_pow2 f hn, ?_⟩
    rw [exp2Witness, lt_of_finite f (finite_zero f) (finite_pow2 f hn), val_zero, val_pow2 f hn, decide_eq_true_eq]
    positivity
  · rw [le_of_finite f hx hy, decide_eq_true_eq] at hxy
    have hfl : floorInt f x ≤ floorInt f y := Int.ediv_le_ediv (by positivity) hxy
    rw [exp2Witness, exp2Witness, le_of_finite f (finite_pow2 f (exp2Witness_normal f x)) (finite_pow2 f (exp2Witness_normal f y)),
      val_pow2 f (exp2Witness_normal f x), val_pow2 f (exp2Witness_normal f y), decide_eq_true_eq]
    exact_mod_cast Nat.pow_le_pow_right (by omega) (by omega)

/-- The floor of log2 of a positive x. -/
def log2Witness (f : Fmt) (x : Word) : Word := ofInt f ((mag f (magBits f x)).log2 - (f.scale : Int))

theorem log2Witness_small (f : Fmt) (x : Word) (hx : finite f x = true) :
    ((mag f (magBits f x)).log2 - (f.scale : Int)).natAbs ≤ 2 ^ f.fracBits := by
  simp only [finite, decide_eq_true_eq] at hx
  have h1 := mag_mono f (Nat.le_of_lt hx)
  have h4 : (mag f (magBits f x)).log2 < 2 * f.scale := by
    have h3 : mag f (infBits f) < 2 ^ (2 * f.scale) := by cases f <;> decide +kernel
    rcases Nat.eq_zero_or_pos (mag f (magBits f x)) with h0 | h0
    · rw [h0]; cases f <;> decide
    · exact (Nat.log2_lt h0.ne').2 (lt_of_le_of_lt h1 h3)
  have h5 : f.scale ≤ 2 ^ f.fracBits := by cases f <;> decide
  omega

/-- A function of FMT words that gives +0.0 off the finite words is as good a witness: it keeps the width. -/
def log2Total (f : Fmt) (x : Word) : Word := if finite f x then log2Witness f x else zero

theorem log2Total_lawful (f : Fmt) : Log2Laws f (log2Total f) := by
  refine ⟨fun n hn => ?_, fun x hx _ => ?_, fun x y hx hy hp hxy => ?_, fun x => ?_⟩
  · have h1 := (pow2_bound f hn).1
    have h2 := scale_eq f
    simp only [normalExp, Bool.and_eq_true, decide_eq_true_eq] at hn
    rw [log2Total, if_pos (finite_pow2 f (by simp [normalExp, hn])), log2Witness, mag_pow2 f (by simp [normalExp, hn]),
      Nat.log2_two_pow]
    congr 1; omega
  · rw [log2Total, if_pos hx]; exact (ofInt_exact f (log2Witness_small f x hx)).1
  · rw [log2Total, if_pos hx, log2Total, if_pos hy]
    obtain ⟨h1, h2, -⟩ := ofInt_exact f (log2Witness_small f x hx)
    obtain ⟨h3, h4, -⟩ := ofInt_exact f (log2Witness_small f y hy)
    rw [lt_of_finite f (finite_zero f) hx, val_zero, decide_eq_true_eq] at hp
    rw [le_of_finite f hx hy, decide_eq_true_eq] at hxy
    have sx := sign_of_pos f hp
    have sy := sign_of_pos f (lt_of_lt_of_le hp hxy)
    simp only [val, sx, sy] at hxy hp
    have hm : mag f (magBits f x) ≤ mag f (magBits f y) := by simpa using hxy
    have h0 : mag f (magBits f x) ≠ 0 := by simp at hp; omega
    rw [log2Witness, log2Witness, le_of_finite f h1 h3, h2, h4, decide_eq_true_eq]
    have hlog : (mag f (magBits f x)).log2 ≤ (mag f (magBits f y)).log2 :=
      (Nat.le_log2 (by omega)).2 (le_trans (Nat.log2_self_le h0) hm)
    exact Int.mul_le_mul_of_nonneg_right (by omega) (by positivity)
  · rw [log2Total]
    split
    · rename_i hx; exact (ofInt_exact f (log2Witness_small f x hx)).2.2
    · cases f <;> decide

/-- x itself. -/
def tanWitness (f : Fmt) (x : Word) : Word := pack f (sign f x) (magBits f x)

theorem magBits_lt (f : Fmt) (x : Word) : magBits f x < 2 ^ (f.bits - 1) := Nat.mod_lt _ (Nat.two_pow_pos _)

theorem tanWitness_magBits (f : Fmt) (x : Word) : magBits f (tanWitness f x) = magBits f x :=
  magBits_pack f _ (magBits_lt f x)

theorem tanWitness_val (f : Fmt) (x : Word) : val f (tanWitness f x) = val f x := by
  simp only [val, tanWitness_magBits]; rw [tanWitness, sign_pack f _ (magBits_lt f x)]

theorem tanWitness_isNaN (f : Fmt) (x : Word) : isNaN f (tanWitness f x) = isNaN f x := by
  simp only [isNaN, tanWitness_magBits]

theorem tanWitness_lawful (f : Fmt) : TanLaws f (tanWitness f) := by
  refine ⟨fun x h0 hx => ?_, fun x h => ?_, fun x h _ => ?_, fun x y _ h _ => ?_, fun x => fits_pack f _ (magBits_lt f x)⟩
  · simp only [le, Bool.and_eq_true, Bool.not_eq_true', decide_eq_true_eq] at h0 hx
    have hn : ¬ infBits f < magBits f x := by simpa [isNaN] using hx.1.1
    simp only [finite, tanWitness_magBits, decide_eq_true_eq]
    rcases Nat.lt_or_ge (magBits f x) (infBits f) with h | h
    · exact h
    · have he : magBits f x = infBits f := by omega
      have hv := hx.2
      have hp := h0.2
      rw [val_zero] at hp
      have hb : val f (belowHalfPi f) < mag f (infBits f) := by cases f <;> decide +kernel
      have hi : 0 < mag f (infBits f) := by cases f <;> decide +kernel
      have hx' : val f x = if sign f x then -(mag f (infBits f) : Int) else (mag f (infBits f) : Int) := by
        rw [val, he]
      split at hx' <;> omega
  · simpa [eq, tanWitness_val, tanWitness_isNaN] using h
  · simpa [lt, tanWitness_val, tanWitness_isNaN] using h
  · simpa [le, tanWitness_val, tanWitness_isNaN] using h

end Fp
end Sys2Proof
end

