-- ==== Sys2Proof/Config.lean ====
section
/-! DEFINITION. The configuration of a block (spec/00_scope.md R5): the parameters fixed at construction, and the three
configuration functions, which are FREE: unknown functions of which only their laws (R14, R15, R16) can be used. -/

namespace Sys2Proof

/-- The parameters of R5. FMT_BITS is `fmt.bits`; a REAL parameter is an FMT bit pattern. The record is part of State
because the host's interface has no other place for an argument of the model; no command changes it
(notes/assumptions/1.md). -/
structure Cfg where
  /-- FMT. -/
  fmt : Fmt
  /-- FS, the sample rate in Hz. -/
  fs : Word
  /-- BLOCK_SIZE, the sample ticks of one TICKB. -/
  blockSize : Nat
  /-- TABLE_LEN, the samples of one table. -/
  tableLen : Nat
  /-- NUM_TABLES, the octave tables of one bank. -/
  numTables : Nat
  /-- NUM_BANKS. -/
  numBanks : Nat
  /-- BASE_FREQ, the lowest frequency of octave 0. -/
  baseFreq : Word
  /-- EVQ_DEPTH, the most events the queue holds. -/
  evqDepth : Nat
  /-- Q_MIN. -/
  qMin : Word
  /-- CUTOFF_MIN. -/
  cutoffMin : Word
  /-- CUTOFF_MAX. -/
  cutoffMax : Word
  /-- DETUNE_MAX. -/
  detuneMax : Word
  deriving DecidableEq, Repr

/-- A function that obeys R14. -/
structure LawfulExp2 (f : Fmt) where
  fn : {g : Word → Word // Exp2Laws f g} := ⟨Fp.exp2Witness f, Fp.exp2Witness_lawful f⟩
  deriving Inhabited

/-- A function that obeys R15. -/
structure LawfulLog2 (f : Fmt) where
  fn : {g : Word → Word // Log2Laws f g} := ⟨Fp.log2Total f, Fp.log2Total_lawful f⟩
  deriving Inhabited

/-- A function that obeys R16. -/
structure LawfulTan (f : Fmt) where
  fn : {g : Word → Word // TanLaws f g} := ⟨Fp.tanWitness f, Fp.tanWitness_lawful f⟩
  deriving Inhabited

/-- EXP2: free but for its laws (notes/assumptions/7.md). -/
opaque Config.exp2 (f : Fmt) : LawfulExp2 f

/-- LOG2: free but for its laws (notes/assumptions/7.md). -/
opaque Config.log2 (f : Fmt) : LawfulLog2 f

/-- TAN: free but for its laws (notes/assumptions/7.md). -/
opaque Config.tan (f : Fmt) : LawfulTan f

end Sys2Proof
end

