-- ==== Sys2Proof/Machine/Configure.lean ====
section
/-! DEFINITION. The default configuration and the constraints of spec/00_scope.md R5, and EXP2, LOG2, TAN as the meanings
call them: the free functions of Config.lean, computed where their laws fix the value, so that the kernel can evaluate a
step that stays on those points. -/

namespace Sys2Proof

/-- R5, the Default column. -/
def Cfg.default : Cfg where
  fmt := .binary32
  fs := Fp.ofInt .binary32 48000
  blockSize := 512
  tableLen := 2048
  numTables := 10
  numBanks := 4
  baseFreq := Fp.ofInt .binary32 20
  evqDepth := 16
  qMin := Fp.ofRat .binary32 1 10
  cutoffMin := Fp.ofInt .binary32 20
  cutoffMax := Fp.ofInt .binary32 20000
  detuneMax := Fp.ofInt .binary32 8

/-- The real parameters are FMT values. -/
def Cfg.fitsFmt (c : Cfg) : Bool :=
  c.fmt.fits c.fs && c.fmt.fits c.baseFreq && c.fmt.fits c.qMin && c.fmt.fits c.cutoffMin && c.fmt.fits c.cutoffMax
    && c.fmt.fits c.detuneMax

/-- FS: finite, > 0, an integer value ≤ 2^24. -/
def Cfg.fsOk (c : Cfg) : Bool :=
  Fp.finite c.fmt c.fs && decide (0 < Fp.val c.fmt c.fs) && decide (Fp.val c.fmt c.fs % (2 ^ c.fmt.scale : Nat) = 0)
    && decide (Fp.floorInt c.fmt c.fs ≤ 2 ^ 24)

/-- The integer parameters, and the size of the table space. -/
def Cfg.sizesOk (c : Cfg) : Bool :=
  decide (1 ≤ c.blockSize ∧ c.blockSize ≤ 2 ^ 24)
    && decide (c.tableLen = 2 ^ c.tableLen.log2 ∧ 2 ≤ c.tableLen ∧ c.tableLen ≤ 2 ^ 16)
    && decide (1 ≤ c.numTables ∧ c.numTables ≤ 255) && decide (1 ≤ c.numBanks ∧ c.numBanks ≤ 255)
    && decide (1 ≤ c.evqDepth ∧ c.evqDepth ≤ 255)
    && decide (c.numBanks * c.numTables * c.tableLen ≤ 2 ^ 24)

/-- BASE_FREQ and Q_MIN: finite, > 0. -/
def Cfg.positiveOk (c : Cfg) : Bool :=
  Fp.finite c.fmt c.baseFreq && decide (0 < Fp.val c.fmt c.baseFreq) && Fp.finite c.fmt c.qMin
    && decide (0 < Fp.val c.fmt c.qMin)

/-- 0.001 ≤ CUTOFF_MIN < CUTOFF_MAX ≤ 0.49 × FS, in exact arithmetic. -/
def Cfg.cutoffOk (c : Cfg) : Bool :=
  Fp.finite c.fmt c.cutoffMin && Fp.finite c.fmt c.cutoffMax
    && decide ((2 ^ c.fmt.scale : Nat) ≤ 1000 * Fp.val c.fmt c.cutoffMin)
    && decide (Fp.val c.fmt c.cutoffMin < Fp.val c.fmt c.cutoffMax)
    && decide (100 * Fp.val c.fmt c.cutoffMax ≤ 49 * Fp.val c.fmt c.fs)

/-- DETUNE_MAX: finite, from 0 to 16. -/
def Cfg.detuneOk (c : Cfg) : Bool :=
  Fp.finite c.fmt c.detuneMax && decide (0 ≤ Fp.val c.fmt c.detuneMax)
    && decide (Fp.val c.fmt c.detuneMax ≤ (16 * 2 ^ c.fmt.scale : Nat))

/-- Every constraint of R5. A configuration that breaks one builds no block (R6). -/
def Cfg.valid (c : Cfg) : Bool := c.fitsFmt && c.fsOk && c.sizesOk && c.positiveOk && c.cutoffOk && c.detuneOk

/-- The words of TABLE: NUM_BANKS × NUM_TABLES × TABLE_LEN (R80). -/
def Cfg.tableSize (c : Cfg) : Nat := c.numBanks * c.numTables * c.tableLen

/-- R82: the address of sample `i` of table `k` of bank `b`. -/
def Cfg.taddr (c : Cfg) (b k i : Nat) : Nat := (b * c.numTables + k) * c.tableLen + i

/-- FS / 2, the greatest frequency target of a host write (R306, R332). -/
def Cfg.halfFs (c : Cfg) : Word := Fp.div c.fmt c.fs (Fp.ofInt c.fmt 2)

/-- R44: SYS.ID, ASCII "SV1" and a zero byte. -/
def Cfg.sysId : Word := 0x53563100#64

namespace Fp

/-- EXP2 (R14): 2^n on the integers whose power is normal, free within its laws elsewhere. -/
def exp2 (f : Fmt) (x : Word) : Word :=
  match exactInt f x with
  | some n => if normalExp f n then pow2 f n else (Config.exp2 f).fn.1 x
  | none => (Config.exp2 f).fn.1 x

/-- LOG2 (R15): n on 2^n, free within its laws elsewhere. -/
def log2 (f : Fmt) (x : Word) : Word :=
  match log2Exact f x with
  | some n => ofInt f n
  | none => (Config.log2 f).fn.1 x

/-- TAN (R16): free within its laws. -/
def tan (f : Fmt) (x : Word) : Word := (Config.tan f).fn.1 x

/-- `exp2` is the configuration's function, computed where law (a) fixes it. -/
theorem exp2_eq_config (f : Fmt) (x : Word) : exp2 f x = (Config.exp2 f).fn.1 x := by
  have h := (Config.exp2 f).fn.2.1 x
  unfold exp2
  split
  · rename_i n hn
    split
    · rename_i h2; exact (h n hn h2).symm
    · rfl
  · rfl

/-- `log2` is the configuration's function, computed where law (a) fixes it. -/
theorem log2_eq_config (f : Fmt) (x : Word) : log2 f x = (Config.log2 f).fn.1 x := by
  unfold log2
  split
  · rename_i n hn
    unfold log2Exact at hn
    split at hn
    · rename_i h
      obtain rfl := Option.some.inj hn
      simp only [Bool.and_eq_true, decide_eq_true_eq] at h
      conv_rhs => rw [h.2]
      exact ((Config.log2 f).fn.2.1 _ h.1).symm
    · cases hn
  · rfl

theorem exp2_lawful (f : Fmt) : Exp2Laws f (exp2 f) := by
  rw [funext (exp2_eq_config f)]; exact (Config.exp2 f).fn.2

theorem log2_lawful (f : Fmt) : Log2Laws f (log2 f) := by
  rw [funext (log2_eq_config f)]; exact (Config.log2 f).fn.2

theorem tan_lawful (f : Fmt) : TanLaws f (tan f) := (Config.tan f).fn.2

end Fp
end Sys2Proof
end

