-- ==== Sys2Proof/Machine/Units.lean ====
section
/-! DEFINITION. The state of each unit (spec/10_state.md §2 to §4), one structure a unit, with its reset values (the Reset
columns, restated in spec/70_reset_and_hazards.md R442). A REAL field is an FMT bit pattern; an INT n field is a bit vector
of n bits, or an inductive type where the spec names its values. Two of the spec's field names are words of Lean: `in` is
written `inp` and `end` is written `endPos`. -/

namespace Sys2Proof.Machine

/-- R40: LIFECYCLE. -/
inductive Lifecycle where
  /-- 0: the tables are being loaded. -/
  | load
  /-- 1: the tables are sealed, ticks run. -/
  | run
  deriving DecidableEq, Repr

/-- R41: the two fields of CTRL. Its reserved bits always read 0 (R164 refuses to set one), so they are not stored. -/
structure Ctrl where
  /-- CTRL[0]. -/
  filterEn : Bool
  /-- CTRL[1]. -/
  midiDrive : Bool
  deriving DecidableEq, Repr

/-- R34: VOICE. -/
structure Voice where
  /-- VOICE.in, Hz. -/
  inp : Word
  gate : Word
  /-- Octaves. -/
  detune : Word
  /-- The filter modulation, port `filterOffset`. -/
  fo : Word
  out : Word
  /-- The sounding note; 255 is none. -/
  note : Byte
  deriving DecidableEq, Repr

/-- R35: RAMP.curve. -/
inductive Curve where
  /-- 0, Linear. -/
  | lin
  /-- 1, Exponential. -/
  | exp
  deriving DecidableEq, Repr

/-- R35: RAMP. -/
structure Ramp where
  /-- RAMP.from. -/
  fromVal : Word
  /-- RAMP.to. -/
  toVal : Word
  pos : Word
  speed : Word
  /-- RAMP.end. -/
  endPos : Word
  curve : Curve
  /-- Seconds. -/
  duration : Word
  out : Word
  deriving DecidableEq, Repr

/-- R36: OSC. -/
structure Osc where
  /-- Cycles, in [0, 1). -/
  phase : Word
  bank : Byte
  /-- OSC.in, Hz. -/
  inp : Word
  detune : Word
  feff : Word
  k : Byte
  frac : Word
  out : Word
  deriving DecidableEq, Repr

/-- R37: ENV.state. -/
inductive Segment where
  /-- 0 -/
  | attacking
  /-- 1 -/
  | decaying
  /-- 2 -/
  | sustaining
  /-- 3 -/
  | releasing
  deriving DecidableEq, Repr

/-- R37: ENV. -/
structure Env where
  attack : Word
  decay : Word
  sustain : Word
  release : Word
  state : Segment
  pos : Word
  anchor : Word
  amp : Word
  gate : Word
  deriving DecidableEq, Repr

/-- R38: GAIN. -/
structure Gain where
  gain : Word
  /-- GAIN.in. -/
  inp : Word
  out : Word
  deriving DecidableEq, Repr

/-- R39: FILTER. -/
structure Filter where
  base : Word
  depth : Word
  q : Word
  fc : Word
  b0 : Word
  b1 : Word
  b2 : Word
  a1 : Word
  a2 : Word
  /-- x[n−1]. -/
  x1 : Word
  /-- x[n−2]. -/
  x2 : Word
  /-- y[n−1]. -/
  y1 : Word
  /-- y[n−2]. -/
  y2 : Word
  dirty : Bool
  /-- FILTER.in. -/
  inp : Word
  fo : Word
  out : Word
  deriving DecidableEq, Repr

/-- R47: MIDI.pstate. -/
inductive PState where
  /-- 0: no message in progress. -/
  | idle
  /-- 1: inside a channel-voice or system-common message. -/
  | msg
  /-- 2: inside a System Exclusive message. -/
  | sysex
  /-- 3: the stream is broken until MRESET or a reset. -/
  | error
  deriving DecidableEq, Repr

/-- R47, R48: the parser and the event queue, oldest event first. MIDI.count is the queue's length. -/
structure Midi where
  pstate : PState
  buf0 : Byte
  buf1 : Byte
  buf2 : Byte
  blen : BitVec 2
  need : BitVec 2
  sxlen : BitVec 16
  q : List (BitVec 32)
  deriving DecidableEq, Repr

/-! ### Reset values (R442), the same for a power-on reset and for RESET -/

def Ctrl.reset : Ctrl := ⟨false, false⟩

def Voice.reset : Voice := ⟨Fp.zero, Fp.zero, Fp.zero, Fp.zero, Fp.zero, 255#8⟩

/-- RAMP.duration is 0.0625. -/
def Ramp.reset (f : Fmt) : Ramp :=
  ⟨Fp.zero, Fp.zero, Fp.zero, Fp.zero, Fp.zero, .lin, Fp.ofRat f 1 16, Fp.zero⟩

def Osc.reset : Osc := ⟨Fp.zero, 0#8, Fp.zero, Fp.zero, Fp.zero, 0#8, Fp.zero, Fp.zero⟩

/-- attack 2^-7, decay 0.125, sustain 0.5, release 0.25; state Releasing. -/
def Env.reset (f : Fmt) : Env :=
  ⟨Fp.ofRat f 1 128, Fp.ofRat f 1 8, Fp.ofRat f 1 2, Fp.ofRat f 1 4, .releasing, Fp.zero, Fp.zero, Fp.zero, Fp.zero⟩

def Gain.reset : Gain := ⟨Fp.zero, Fp.zero, Fp.zero⟩

/-- base 1000.0, q RN(1/√2), dirty 1; the rest +0.0. -/
def Filter.reset (f : Fmt) : Filter where
  base := Fp.ofInt f 1000
  depth := Fp.zero
  q := Fp.invSqrt2 f
  fc := Fp.zero
  b0 := Fp.zero
  b1 := Fp.zero
  b2 := Fp.zero
  a1 := Fp.zero
  a2 := Fp.zero
  x1 := Fp.zero
  x2 := Fp.zero
  y1 := Fp.zero
  y2 := Fp.zero
  dirty := true
  inp := Fp.zero
  fo := Fp.zero
  out := Fp.zero

/-- IDLE, an empty buffer, an empty queue. -/
def Midi.reset : Midi := ⟨.idle, 0#8, 0#8, 0#8, 0#2, 0#2, 0#16, []⟩

/-- R48: MIDI.count, the occupancy of the queue. -/
def Midi.count (m : Midi) : Nat := m.q.length

/-! ### The codes of the named values -/

/-- R40. -/
def Lifecycle.code : Lifecycle → Nat
  | .load => 0
  | .run => 1

/-- R35. -/
def Curve.code : Curve → Nat
  | .lin => 0
  | .exp => 1

/-- R37. -/
def Segment.code : Segment → Nat
  | .attacking => 0
  | .decaying => 1
  | .sustaining => 2
  | .releasing => 3

/-- R47. -/
def PState.code : PState → Nat
  | .idle => 0
  | .msg => 1
  | .sysex => 2
  | .error => 3

end Sys2Proof.Machine
end

