-- ==== Sys2Proof/Machine/State.lean ====
section
/-! DEFINITION. The state of SYNTH-VOICE (spec/10_state.md R30), the reasons a step can stop, and the state after a
power-on reset (spec/70_reset_and_hazards.md R440, R442). Four fields are the model's own and no state of the block: `cfg`
(the construction argument, R5), `host` (the commands the host has yet to issue, R31), `resp` (the last response, R110), and
what the lists of `table` add to the TABLE memory: an address that is not listed has written[a] = 0 (R49). -/

namespace Sys2Proof.Machine

/-- A memory of FMT words as (address, word) pairs in one canonical form: addresses strictly rising, and no entry equal to
what an unlisted address reads as. No space of the block is byte-addressed (R86), so the cells are words
(notes/assumptions/4.md). -/
abbrev Memory := List (Nat × Word)

/-- R401: the status codes of a response. Codes 10 to 15 are never returned. -/
inductive Status where
  /-- 0 -/
  | ok
  /-- 1 -/
  | portMismatch
  /-- 2 -/
  | invalidParameter
  /-- 3 -/
  | protocolDecodeError
  /-- 4, reserved: the block never returns it (R402). -/
  | backendError
  /-- 5 -/
  | illegalCommand
  /-- 6 -/
  | stateError
  /-- 7 -/
  | queueEmpty
  /-- 8 -/
  | queueFull
  /-- 9 -/
  | addressRange
  deriving DecidableEq, Repr

/-- R110: the answer to one command, the status ST and the result word RW. -/
structure Response where
  st : Status
  rw : Word
  deriving DecidableEq, Repr

structure State where
  /-- R5: the configuration, fixed at construction. -/
  cfg : Cfg
  /-- R40: LIFECYCLE. -/
  lifecycle : Lifecycle
  /-- R41: CTRL. -/
  ctrl : Ctrl
  /-- R43: STATUS.NONFINITE, the one stored bit of STATUS. -/
  nonfinite : Bool
  /-- R46: SAMPLE_COUNT. -/
  sampleCount : BitVec 32
  /-- R34. -/
  voice : Voice
  /-- R35. -/
  ramp : Ramp
  /-- R36. -/
  osc : Osc
  /-- R37. -/
  env : Env
  /-- R38. -/
  gain : Gain
  /-- R39. -/
  filter : Filter
  /-- R47, R48. -/
  midi : Midi
  /-- R81, R49: the TABLE words that have been written. -/
  table : Memory
  /-- R85: the OUTBUF words that are not +0.0. -/
  outbuf : Memory
  /-- R31: the commands the host has yet to issue, the next one first. -/
  host : List Cmd
  /-- R110: the response to the last command; none before the first. -/
  resp : Option Response
  deriving DecidableEq, Repr

/-- The model's faults: R417 gives exactly one. -/
inductive Fault where
  /-- R84, R417: TREAD, or the oscillator within TICK or TICKB, read a TABLE entry that no TWRITE has written since
  power-on. Safe: the hardware goes on with some value, the model stops. -/
  | unwrittenTableRead
  deriving DecidableEq, Repr

/-- The reasons a command has no meaning. -/
inductive Refusal where
  /-- An arm of exec that has no meaning yet; no arm is left so. Safe. -/
  | notModelled (mnemonic : String)
  deriving DecidableEq, Repr

/-- R440: the power-on reset of a block built with a configuration: every field at its Reset column, LIFECYCLE = LOAD, no
TABLE word written, every OUTBUF word +0.0, the queue empty. -/
def State.powerOn (c : Cfg) : State where
  cfg := c
  lifecycle := .load
  ctrl := Ctrl.reset
  nonfinite := false
  sampleCount := 0#32
  voice := Voice.reset
  ramp := Ramp.reset c.fmt
  osc := Osc.reset
  env := Env.reset c.fmt
  gain := Gain.reset
  filter := Filter.reset c.fmt
  midi := Midi.reset
  table := []
  outbuf := []
  host := []
  resp := none

/-- R6: a configuration that breaks a constraint of R5 builds no block. -/
def State.construct (c : Cfg) : Option State := if c.valid then some (State.powerOn c) else none

/-- The state after a power-on reset of the block in the default configuration (R5, R440). -/
def State.reset : State := State.powerOn Cfg.default

end Sys2Proof.Machine
end

