-- ==== Sys2Proof/Machine/Ops.lean ====
section
/-! DEFINITION. The operations that every meaning shares: reading and writing a word of a memory, writing one field of
State, answering a command, taking an error (the block's whole exception mechanism, spec/60_exceptions.md R406), the soft
reset, and fetching the host's next command. -/

namespace Sys2Proof.Machine

/-! ### Memories of words -/

/-- The entry listed at an address. -/
def Memory.lookup (m : Memory) (a : Nat) : Option Word :=
  match m with
  | [] => none
  | (b, w) :: rest => if a = b then some w else Memory.lookup rest a

/-- MemRead (R7): the listed word, or what an unlisted address reads as (`dflt`; none: no value). -/
def Memory.read (dflt : Option Word) (m : Memory) (a : Nat) : Option Word :=
  match Memory.lookup m a with
  | some w => some w
  | none => dflt

/-- Takes an address out of the list. -/
def Memory.erase (m : Memory) (a : Nat) : Memory :=
  match m with
  | [] => []
  | (b, w) :: rest => if a = b then rest else if a < b then (b, w) :: rest else (b, w) :: Memory.erase rest a

/-- Lists a word at an address, in order. -/
def Memory.insert (m : Memory) (a : Nat) (v : Word) : Memory :=
  match m with
  | [] => [(a, v)]
  | (b, w) :: rest =>
    if a = b then (a, v) :: rest
    else if a < b then (a, v) :: (b, w) :: rest
    else (b, w) :: Memory.insert rest a v

/-- MemWrite (R7), keeping the canonical form: what an unlisted address reads as is not listed. -/
def Memory.write (dflt : Option Word) (m : Memory) (a : Nat) (v : Word) : Memory :=
  if dflt = some v then Memory.erase m a else Memory.insert m a v

/-- Every listed address is greater than `lo` (none: no bound), each than the one before it, and no entry equals what an
unlisted address reads as. -/
def Memory.wfFrom (dflt : Option Word) (lo : Option Nat) (m : Memory) : Bool :=
  match m with
  | [] => true
  | (a, w) :: rest =>
    (match lo with
      | none => true
      | some l => decide (l < a)) && decide (dflt ≠ some w) && Memory.wfFrom dflt (some a) rest

/-- The canonical form. -/
def Memory.wf (dflt : Option Word) (m : Memory) : Bool := Memory.wfFrom dflt none m

/-- What an unwritten TABLE word reads as: no value (R84). -/
def tableDefault : Option Word := none

/-- What an OUTBUF word that is not listed reads as: +0.0 (R85). -/
def outbufDefault : Option Word := some Fp.zero

/-- R49: the bit written[a]. -/
def State.written (s : State) (a : Nat) : Bool := (Memory.lookup s.table a).isSome

/-- MemRead(TABLE, a) (R84): none where written[a] = 0. -/
def State.tableRead (s : State) (a : Nat) : Option Word := Memory.read tableDefault s.table a

/-- MemRead(OUTBUF, a) (R85). -/
def State.outbufRead (s : State) (a : Nat) : Word := (Memory.read outbufDefault s.outbuf a).getD Fp.zero

/-! ### Writing one field -/

def State.setLifecycle (s : State) (v : Lifecycle) : State := { s with lifecycle := v }
def State.setCtrl (s : State) (v : Ctrl) : State := { s with ctrl := v }
def State.setNonfinite (s : State) (v : Bool) : State := { s with nonfinite := v }
def State.setSampleCount (s : State) (v : BitVec 32) : State := { s with sampleCount := v }
def State.setVoice (s : State) (v : Voice) : State := { s with voice := v }
def State.setRamp (s : State) (v : Ramp) : State := { s with ramp := v }
def State.setOsc (s : State) (v : Osc) : State := { s with osc := v }
def State.setEnv (s : State) (v : Env) : State := { s with env := v }
def State.setGain (s : State) (v : Gain) : State := { s with gain := v }
def State.setFilter (s : State) (v : Filter) : State := { s with filter := v }
def State.setMidi (s : State) (v : Midi) : State := { s with midi := v }
def State.setTable (s : State) (v : Memory) : State := { s with table := v }
def State.setOutbuf (s : State) (v : Memory) : State := { s with outbuf := v }
def State.setHost (s : State) (v : List Cmd) : State := { s with host := v }
def State.setResp (s : State) (v : Option Response) : State := { s with resp := v }

/-- MemWrite(TABLE, a, v), with written[a] <- 1 (R262). -/
def State.tableWrite (s : State) (a : Nat) (v : Word) : State := s.setTable (Memory.write tableDefault s.table a v)

/-- MemWrite(OUTBUF, a, v) (R156). -/
def State.outbufWrite (s : State) (a : Nat) (v : Word) : State := s.setOutbuf (Memory.write outbufDefault s.outbuf a v)

/-! ### Answering a command -/

/-- What a step answers. -/
abbrev Result := Host.Outcome State Fault Refusal

/-- R401, the ST column. -/
def Status.code : Status → BitVec 4
  | .ok => 0#4
  | .portMismatch => 1#4
  | .invalidParameter => 2#4
  | .protocolDecodeError => 3#4
  | .backendError => 4#4
  | .illegalCommand => 5#4
  | .stateError => 6#4
  | .queueEmpty => 7#4
  | .queueFull => 8#4
  | .addressRange => 9#4

/-- R86: the response on a byte transport, the status as one byte and then RW, least significant byte first. -/
def Response.toBytes (f : Fmt) (r : Response) : List Byte :=
  r.st.code.setWidth 8 :: leBytes (f.bits / 8) r.rw.toNat

/-- `return v` (R7, R117): the command ends with status OK and result word `v`. -/
def finish (rw : Word) (s : State) : Result := .next (s.setResp (some ⟨.ok, rw⟩))

/-- `raise S` (R7, R406): TAKING AN ERROR. Nothing is saved, no mode changes and no handler runs: every state field is as it
was before the command, and the response is (S, RW = 0). There is no return from it (R408): the host's next command is the
only continuation. -/
def raise (st : Status) (s : State) : Result := .next (s.setResp (some ⟨st, 0#64⟩))

/-- A command whose checks give an error or its new state, and whose result word is 0. -/
def conclude (r : Except Status State) (s : State) : Result :=
  match r with
  | .ok t => finish 0#64 t
  | .error st => raise st s

/-- R367, R407 `enter_error`: the one error that changes state. The parser goes to ERROR with an empty buffer, the queue is
kept, and the command answers PROTOCOL_DECODE_ERROR. -/
def enterError (s : State) : Result :=
  raise .protocolDecodeError
    (s.setMidi { Midi.reset with pstate := .error, q := s.midi.q })

/-- R441 `soft_reset`: every field as R440 sets it, but for LIFECYCLE, TABLE and `written`. (The configuration, the host's
commands and the last response are no state of the block.) -/
def softReset (s : State) : State :=
  { State.powerOn s.cfg with
    lifecycle := s.lifecycle
    table := s.table
    host := s.host
    resp := s.resp }

/-! ### The host's commands -/

/-- R18, R31, R150: the host's next command, and the block with it taken; none if the host issues none. -/
def fetch (s : State) : Option (Cmd × State) :=
  match s.host with
  | [] => none
  | c :: rest => some (c, s.setHost rest)

end Sys2Proof.Machine
end

