-- ==== Sys2Proof/Machine/EnvUnit.lean ====
section
/-! DEFINITION. The ADSR envelope generator, ENV (spec/41_envelope.md §2). -/

namespace Sys2Proof.Machine

/-- R200: the gate is engaged. -/
def Env.engaged (f : Fmt) (e : Env) : Bool := Fp.lt f Fp.zero e.gate

/-- R203: inc(d) = (1.0 / FS) / d. -/
def segmentInc (c : Cfg) (d : Word) : Word := Fp.div c.fmt (Fp.div c.fmt (Fp.one c.fmt) c.fs) d

/-- R204, step 1, where the segment changes: the anchor is the amplitude and the position 0. -/
def Env.enter (seg : Segment) (e : Env) : Env := { e with anchor := e.amp, pos := Fp.zero, state := seg }

/-- R204, step 1: the gate transitions, on the gate copied this tick. -/
def Env.gateStep (f : Fmt) (e : Env) : Env :=
  match e.state with
  | .releasing => if e.engaged f then e.enter .attacking else e
  | .attacking => if e.engaged f then e else e.enter .releasing
  | .decaying => if e.engaged f then e else e.enter .releasing
  | .sustaining => if e.engaged f then e else e.enter .releasing

/-- R205: one step of the attack. -/
def Env.attackStep (c : Cfg) (e : Env) : Env :=
  if Fp.le c.fmt (Fp.one c.fmt) (Fp.lerp c.fmt e.anchor (Fp.one c.fmt) e.pos) then
    { e with amp := Fp.one c.fmt, pos := Fp.zero, state := .decaying }
  else
    { e with
      amp := Fp.lerp c.fmt e.anchor (Fp.one c.fmt) e.pos
      pos := Fp.add c.fmt e.pos (segmentInc c e.attack) }

/-- R206, R201: the decay ends where the amplitude is at or below the sustain, and at a position of +∞, which only an
overflowed increment leaves. The second ground adds to the first in one case alone: sustain 1.0 at +∞, whose lerp is
1 + (0 × ∞); R201 says that the segment ends there, and R209 needs it (notes/assumptions/14.md, DEDUCED). -/
def Env.decayEnds (f : Fmt) (e : Env) : Bool :=
  Fp.le f (Fp.lerp f (Fp.one f) e.sustain e.pos) e.sustain || (Fp.isInf f e.pos && !Fp.sign f e.pos)

/-- R206: one step of the decay. The position advances also in the tick that enters Sustaining. -/
def Env.decayStep (c : Cfg) (e : Env) : Env :=
  if e.decayEnds c.fmt then
    { e with amp := e.sustain, pos := Fp.add c.fmt e.pos (segmentInc c e.decay), state := .sustaining }
  else
    { e with
      amp := Fp.lerp c.fmt (Fp.one c.fmt) e.sustain e.pos
      pos := Fp.add c.fmt e.pos (segmentInc c e.decay) }

/-- R208: one step of the release; past position 1 the amplitude holds. -/
def Env.releaseStep (c : Cfg) (e : Env) : Env :=
  if Fp.le c.fmt e.pos (Fp.one c.fmt) then
    { e with
      amp := Fp.clamp c.fmt (Fp.lerp c.fmt e.anchor Fp.zero e.pos) Fp.zero (Fp.one c.fmt)
      pos := Fp.add c.fmt e.pos (segmentInc c e.release) }
  else e

/-- R204, step 2: one step of the current segment. -/
def Env.segmentStep (c : Cfg) (e : Env) : Env :=
  match e.state with
  | .attacking => e.attackStep c
  | .decaying => e.decayStep c
  | .sustaining => { e with amp := e.sustain }
  | .releasing => e.releaseStep c

/-- R204 `env_tick()`. The value returned is the new ENV.amp. -/
def Env.tick (c : Cfg) (e : Env) : Env := (e.gateStep c.fmt).segmentStep c

end Sys2Proof.Machine
end

