-- ==== Sys2Proof/Machine/FilterUnit.lean ====
section
/-! DEFINITION. The biquad lowpass, FILTER (spec/42_filter.md §2, §3), and the gain stage, GAIN (spec/45_gain_voice.md §1). -/

namespace Sys2Proof.Machine

/-- R236 `cutoff()`: base + offset × depth, clamped. -/
def Filter.cutoff (c : Cfg) (x : Filter) : Word :=
  Fp.clamp c.fmt (Fp.add c.fmt x.base (Fp.mul c.fmt x.fo x.depth)) c.cutoffMin c.cutoffMax

/-- R237: w = (PI_F × fc) / FS. -/
def warp (c : Cfg) (fc : Word) : Word := Fp.div c.fmt (Fp.mul c.fmt (Fp.pi c.fmt) fc) c.fs

/-- R237: norm = 1.0 / ((1.0 + KQ) + KK). -/
def biquadNorm (f : Fmt) (kq kk : Word) : Word :=
  Fp.div f (Fp.one f) (Fp.add f (Fp.add f (Fp.one f) kq) kk)

/-- R237: the coefficients from K = TAN(w), KK = K × K and KQ = K / q. -/
def Filter.setCoefficients (f : Fmt) (kq kk : Word) (x : Filter) : Filter :=
  { x with
    b0 := Fp.mul f kk (biquadNorm f kq kk)
    b1 := Fp.mul f (Fp.ofInt f 2) (Fp.mul f kk (biquadNorm f kq kk))
    b2 := Fp.mul f kk (biquadNorm f kq kk)
    a1 := Fp.mul f (Fp.mul f (Fp.ofInt f 2) (Fp.sub f kk (Fp.one f))) (biquadNorm f kq kk)
    a2 := Fp.mul f (Fp.add f (Fp.sub f (Fp.one f) kq) kk) (biquadNorm f kq kk) }

/-- R237 `coefficients(fc, q)`. -/
def Filter.coefficients (c : Cfg) (fc q : Word) (x : Filter) : Filter :=
  x.setCoefficients c.fmt (Fp.div c.fmt (Fp.tan c.fmt (warp c fc)) q)
    (Fp.mul c.fmt (Fp.tan c.fmt (warp c fc)) (Fp.tan c.fmt (warp c fc)))

/-- R238, first step: a dirty filter recomputes its cutoff and coefficients. -/
def Filter.refresh (c : Cfg) (x : Filter) : Filter :=
  if x.dirty then { (x.coefficients c (x.cutoff c) x.q) with fc := x.cutoff c, dirty := false } else x

/-- R238: the difference equation, in the order written. -/
def Filter.output (f : Fmt) (x : Filter) : Word :=
  Fp.sub f
    (Fp.sub f
      (Fp.add f (Fp.add f (Fp.mul f x.b0 x.inp) (Fp.mul f x.b1 x.x1)) (Fp.mul f x.b2 x.x2))
      (Fp.mul f x.a1 x.y1))
    (Fp.mul f x.a2 x.y2)

/-- R239 `history_shift(x, y)`. -/
def Filter.historyShift (xn yn : Word) (x : Filter) : Filter :=
  { x with x2 := x.x1, x1 := xn, y2 := x.y1, y1 := yn }

/-- R238, after the refresh: the output of the current sample, with the history moved on. -/
def Filter.sample (f : Fmt) (x : Filter) : Filter :=
  { (x.historyShift x.inp (x.output f)) with out := x.output f }

/-- R238 `filter_tick()`. The value returned is the new FILTER.out. -/
def Filter.tick (c : Cfg) (x : Filter) : Filter := (x.refresh c).sample c.fmt

/-- R330 `gain_tick()`. -/
def Gain.tick (f : Fmt) (g : Gain) : Gain := { g with out := Fp.mul f g.inp g.gain }

end Sys2Proof.Machine
end

