-- ==== Sys2Proof/Machine/RampUnit.lean ====
section
/-! DEFINITION. The parameter ramp engine, RAMP (spec/44_ramp.md): its value, plan, jump and tick. -/

namespace Sys2Proof.Machine

/-- R301 `val()`: the ramp's current value. -/
def Ramp.value (f : Fmt) (r : Ramp) : Word :=
  match r.curve with
  | .lin => r.pos
  | .exp => Fp.clamp f (Fp.mul f r.fromVal (Fp.exp2 f r.pos)) (Fp.fmin f r.fromVal r.toVal) (Fp.fmax f r.fromVal r.toVal)

/-- R302 `plan(a, b)`: a ramp from `a` to `b` over RAMP.duration, in the current curve kind. -/
def Ramp.plan (c : Cfg) (a b : Word) (r : Ramp) : Ramp :=
  match r.curve with
  | .lin =>
    { r with
      fromVal := a
      toVal := b
      pos := a
      endPos := b
      speed := Fp.div c.fmt (Fp.div c.fmt (Fp.sub c.fmt b a) r.duration) c.fs }
  | .exp =>
    { r with
      fromVal := a
      toVal := b
      pos := Fp.zero
      endPos := Fp.log2 c.fmt (Fp.div c.fmt b a)
      speed := Fp.div c.fmt (Fp.div c.fmt (Fp.log2 c.fmt (Fp.div c.fmt b a)) r.duration) c.fs }

/-- R304 `jump(v)`: the ramp constant at `v`. -/
def Ramp.jump (v : Word) (r : Ramp) : Ramp :=
  match r.curve with
  | .lin => { r with fromVal := v, toVal := v, speed := Fp.zero, pos := v, endPos := v }
  | .exp => { r with fromVal := v, toVal := v, speed := Fp.zero, pos := Fp.zero, endPos := Fp.zero }

/-- R305 `exp_ok(a, b)`: an exponential plan from `a` to `b` is valid. -/
def expOk (f : Fmt) (a b : Word) : Bool :=
  Fp.lt f Fp.zero a && Fp.lt f Fp.zero b && Fp.le f (Fp.pow2 f (-126)) (Fp.div f b a)
    && Fp.le f (Fp.div f b a) (Fp.pow2 f 126)

/-- R303: the position the current plan started from. -/
def Ramp.startPos (r : Ramp) : Word :=
  match r.curve with
  | .lin => r.fromVal
  | .exp => Fp.zero

/-- R303 `ramp_tick()`: reads the value into RAMP.out, then advances the position within the plan. The value returned is
the new RAMP.out. -/
def Ramp.tick (f : Fmt) (r : Ramp) : Ramp :=
  { r with
    out := r.value f
    pos := Fp.clamp f (Fp.add f r.pos r.speed) (Fp.fmin f r.startPos r.endPos) (Fp.fmax f r.startPos r.endPos) }

/-- R42: the ramp has not reached its end (RAMP.pos ≠ RAMP.end, as reals). -/
def Ramp.active (f : Fmt) (r : Ramp) : Bool := !Fp.eq f r.pos r.endPos

end Sys2Proof.Machine
end

