-- ==== Sys2Proof/Machine/Flags.lean ====
section
/-! DEFINITION. The flags of the block: SYS.STATUS (spec/10_state.md R42, R43) and SYS.CTRL (R41). -/

namespace Sys2Proof.Machine

/-- R42: MIDI_ERR. -/
def State.midiErr (s : State) : Bool := decide (s.midi.pstate = .error)

/-- R42: EVQ_FULL. -/
def State.evqFull (s : State) : Bool := decide (s.midi.count = s.cfg.evqDepth)

/-- R42: EVQ_NONEMPTY. -/
def State.evqNonempty (s : State) : Bool := decide (0 < s.midi.count)

/-- R42: the STATUS word. Bits 7:5 and those from 12 on read 0. -/
def State.statusWord (s : State) : Word :=
  BitVec.ofNat 64
    (s.lifecycle.code + s.midiErr.toNat * 2 + s.nonfinite.toNat * 4 + s.evqFull.toNat * 8 + s.evqNonempty.toNat * 16
      + s.env.state.code * 256 + (s.ramp.active s.cfg.fmt).toNat * 1024 + s.filter.dirty.toNat * 2048)

/-- R41: the CTRL word. -/
def Ctrl.word (c : Ctrl) : Word := BitVec.ofNat 64 (c.filterEn.toNat + c.midiDrive.toNat * 2)

/-- R164: the CTRL fields of a word below 4. -/
def Ctrl.ofWord (w : Word) : Ctrl := ⟨w.getLsbD 0, w.getLsbD 1⟩

/-- R43, R155: after a sample tick NONFINITE is set where VOICE.out is not finite, and stays set. -/
def State.flagOutput (s : State) : State := s.setNonfinite (s.nonfinite || !Fp.finite s.cfg.fmt s.voice.out)

/-- R165: a STATUS write clears NONFINITE where its bit 2 is 1, and does nothing else. -/
def State.clearFlags (w : Word) (s : State) : State := s.setNonfinite (s.nonfinite && !w.getLsbD 2)

end Sys2Proof.Machine
end

