-- ==== Sys2Proof/Machine/OscUnit.lean ====
section
/-! DEFINITION. The wavetable oscillator, OSC (spec/43_oscillator.md §2). Its table reads can meet the model fault. -/

namespace Sys2Proof.Machine

/-- R84, R417: a table read as the oscillator makes it. -/
def tableFetch (table : Memory) (a : Nat) : Except Fault Word :=
  match Memory.read tableDefault table a with
  | some w => .ok w
  | none => .error .unwrittenTableRead

/-- R267: OSC.phase × real(TABLE_LEN), the position in the table. -/
def tablePos (c : Cfg) (phase : Word) : Word := Fp.mul c.fmt phase (Fp.ofInt c.fmt c.tableLen)

/-- R267: the index at or below the position. -/
def tableIndex (c : Cfg) (phase : Word) : Nat := Fp.toNat c.fmt (Fp.floor c.fmt (tablePos c phase))

/-- R267: the position's fraction, the weight of the next sample. -/
def tableFrac (c : Cfg) (phase : Word) : Word :=
  Fp.sub c.fmt (tablePos c phase) (Fp.floor c.fmt (tablePos c phase))

/-- R267 `table_sample(k)`: the interpolation between two adjacent samples of table `k` of the bank at the current phase. -/
def tableSample (c : Cfg) (table : Memory) (bank : Byte) (phase : Word) (k : Nat) : Except Fault Word :=
  match tableFetch table (c.taddr bank.toNat k 0 + tableIndex c phase) with
  | .error e => .error e
  | .ok a =>
    match tableFetch table (c.taddr bank.toNat k 0 + (tableIndex c phase + 1) % c.tableLen) with
    | .error e => .error e
    | .ok b => .ok (Fp.lerp c.fmt a b (tableFrac c phase))

/-- R268 `octave(f)`: the table at or below a frequency's octave, and the fractional octave position. -/
def octave (c : Cfg) (freq : Word) : Nat × Word :=
  if Fp.le c.fmt freq c.baseFreq then (0, Fp.zero)
  else if Fp.le c.fmt (Fp.ofInt c.fmt (c.numTables - 1 : Nat)) (Fp.log2 c.fmt (Fp.div c.fmt freq c.baseFreq)) then
    (c.numTables - 1, Fp.zero)
  else
    (Fp.toNat c.fmt (Fp.floor c.fmt (Fp.log2 c.fmt (Fp.div c.fmt freq c.baseFreq))),
      Fp.sub c.fmt (Fp.log2 c.fmt (Fp.div c.fmt freq c.baseFreq))
        (Fp.floor c.fmt (Fp.log2 c.fmt (Fp.div c.fmt freq c.baseFreq))))

/-- R266: the effective frequency. -/
def Osc.freq (f : Fmt) (o : Osc) : Word := Fp.mul f o.inp (Fp.exp2 f o.detune)

/-- R269: the next table up, or the top one. -/
def nextTable (c : Cfg) (k : Nat) : Nat := min (k + 1) (c.numTables - 1)

/-- R269: the sample between the two octave tables; table `k` is read first. -/
def octaveSample (c : Cfg) (table : Memory) (bank : Byte) (phase freq : Word) : Except Fault Word :=
  match tableSample c table bank phase (octave c freq).1 with
  | .error e => .error e
  | .ok lo =>
    match tableSample c table bank phase (nextTable c (octave c freq).1) with
    | .error e => .error e
    | .ok hi => .ok (Fp.lerp c.fmt lo hi (octave c freq).2)

/-- R270: the phase advanced by f / FS and wrapped. -/
def phaseAdvance (c : Cfg) (phase freq : Word) : Word :=
  Fp.sub c.fmt (Fp.add c.fmt phase (Fp.div c.fmt freq c.fs))
    (Fp.floor c.fmt (Fp.add c.fmt phase (Fp.div c.fmt freq c.fs)))

/-- R271 `osc_tick()`: the sample at the phase before the advance. The value returned is the new OSC.out. -/
def Osc.tick (c : Cfg) (table : Memory) (o : Osc) : Except Fault Osc :=
  match octaveSample c table o.bank o.phase (o.freq c.fmt) with
  | .error e => .error e
  | .ok out =>
    .ok { o with
      feff := o.freq c.fmt
      k := BitVec.ofNat 8 (octave c (o.freq c.fmt)).1
      frac := (octave c (o.freq c.fmt)).2
      out := out
      phase := phaseAdvance c o.phase (o.freq c.fmt) }

end Sys2Proof.Machine
end

