-- ==== Sys2Proof/Machine/VoiceUnit.lean ====
section
/-! DEFINITION. The MIDI voice controller of VOICE (spec/45_gain_voice.md §3) and the fields of an event word
(spec/30_encoding.md R125). -/

namespace Sys2Proof.Machine

/-- R125: KIND. -/
def evKind (e : BitVec 32) : BitVec 4 := e.extractLsb' 28 4

/-- R125: D1. -/
def evD1 (e : BitVec 32) : Byte := e.extractLsb' 8 8

/-- R125: D2. -/
def evD2 (e : BitVec 32) : Byte := e.extractLsb' 0 8

/-- R341 `note_freq(n)`: 440.0 × EXP2((real(n) − 69.0) / 12.0). -/
def noteFreq (f : Fmt) (n : Byte) : Word :=
  Fp.mul f (Fp.ofInt f 440)
    (Fp.exp2 f (Fp.div f (Fp.sub f (Fp.ofInt f n.toNat) (Fp.ofInt f 69)) (Fp.ofInt f 12)))

/-- R338, R342: the ramp goes to the note's frequency, by a plan where that is valid and by a jump where it is not. -/
def Ramp.goto (c : Cfg) (freq : Word) (r : Ramp) : Ramp :=
  if r.curve = .exp ∧ expOk c.fmt (r.value c.fmt) freq = false then r.jump freq
  else r.plan c (r.value c.fmt) freq

/-- R338 `note_on(n)`. -/
def noteOn (n : Byte) (s : State) : State :=
  (s.setVoice { s.voice with note := n, gate := Fp.one s.cfg.fmt, inp := noteFreq s.cfg.fmt n }).setRamp
    (s.ramp.goto s.cfg (noteFreq s.cfg.fmt n))

/-- R339 `note_off(n)`: only of the current note. -/
def noteOff (n : Byte) (s : State) : State :=
  if n = s.voice.note then s.setVoice { s.voice with gate := Fp.zero, note := 255#8 } else s

/-- R337, R340: the effect of one drained event on the voice. -/
def applyEvent (e : BitVec 32) (s : State) : State :=
  match (evKind e).toNat with
  | 2 => if 0 < (evD2 e).toNat then noteOn (evD1 e) s else noteOff (evD1 e) s
  | 1 => noteOff (evD1 e) s
  | _ => s

/-- The events of a list, in order. -/
def applyEvents : List (BitVec 32) → State → State
  | [], s => s
  | e :: rest, s => applyEvents rest (applyEvent e s)

/-- R337 `voice_drain()`: every pending event, oldest first; the queue ends empty. -/
def voiceDrain (s : State) : State := applyEvents s.midi.q (s.setMidi { s.midi with q := [] })

end Sys2Proof.Machine
end

