-- ==== Sys2Proof/Machine/Tick.lean ====
section
/-! DEFINITION. One sample of the voice, `sample_tick()` (spec/40_commands.md R155), stage by stage in the source's order, and
the block of samples of TICKB (R156). -/

namespace Sys2Proof.Machine

/-- R155, first stage: the pending MIDI events, where CTRL.MIDI_DRIVE = 1. -/
def drainStage (s : State) : State := if s.ctrl.midiDrive then voiceDrain s else s

/-- R155: the copies of the gate, the detune and the filter modulation. -/
def latchStage (s : State) : State :=
  ((s.setEnv { s.env with gate := s.voice.gate }).setOsc { s.osc with detune := s.voice.detune }).setFilter
    { s.filter with fo := s.voice.fo }

/-- R155: `r <- ramp_tick() ; OSC.in <- r`. -/
def rampStage (s : State) : State :=
  (s.setRamp (s.ramp.tick s.cfg.fmt)).setOsc { s.osc with inp := (s.ramp.tick s.cfg.fmt).out }

/-- R155: `o <- osc_tick()`, which can meet the model fault. -/
def oscStage (s : State) : Except Fault State :=
  match s.osc.tick s.cfg s.table with
  | .ok o => .ok (s.setOsc o)
  | .error e => .error e

/-- R155: `e <- env_tick() ; GAIN.in <- o ; GAIN.gain <- e ; g <- gain_tick()`. -/
def ampStage (s : State) : State :=
  (s.setEnv (s.env.tick s.cfg)).setGain
    (({ s.gain with inp := s.osc.out, gain := (s.env.tick s.cfg).amp } : Gain).tick s.cfg.fmt)

/-- R155: the filter, where CTRL.FILTER_EN = 1; otherwise nothing of FILTER changes (R240). VOICE.out is the result. -/
def filterStage (s : State) : State :=
  if s.ctrl.filterEn then
    (s.setFilter (({ s.filter with inp := s.gain.out } : Filter).tick s.cfg)).setVoice
      { s.voice with out := (({ s.filter with inp := s.gain.out } : Filter).tick s.cfg).out }
  else s.setVoice { s.voice with out := s.gain.out }

/-- R155: the NONFINITE flag and SAMPLE_COUNT + 1 modulo 2^32. -/
def countStage (s : State) : State := (s.flagOutput).setSampleCount (s.sampleCount + 1#32)

/-- R155: what precedes the oscillator. -/
def beforeOsc (s : State) : State := rampStage (latchStage (drainStage s))

/-- R155: what follows the oscillator. -/
def afterOsc (s : State) : State := countStage (filterStage (ampStage s))

/-- R155 `sample_tick()`. -/
def sampleTick (s : State) : Except Fault State :=
  match oscStage (beforeOsc s) with
  | .ok t => .ok (afterOsc t)
  | .error e => .error e

/-- R156: `n` sample ticks, each output stored in OUTBUF from word `i` on. -/
def blockTicks : Nat → Nat → State → Except Fault State
  | 0, _, s => .ok s
  | n + 1, i, s =>
    match sampleTick s with
    | .error e => .error e
    | .ok t => blockTicks n (i + 1) (t.outbufWrite i t.voice.out)

end Sys2Proof.Machine
end

