-- ==== Sys2Proof/Machine/Control.lean ====
section
/-! DEFINITION. The control commands NOP, RESET, TICK, TICKB and RDBUF (spec/40_commands.md §2). -/

namespace Sys2Proof.Machine

/-- R152 NOP: no operation. -/
def execNop (s : State) : Result := finish 0#64 s

/-- R153 RESET: the soft reset of R441. -/
def execReset (s : State) : Result := finish 0#64 (softReset s)

/-- R154 TICK: one sample, in RUN. -/
def execTick (s : State) : Result :=
  match s.lifecycle with
  | .load => raise .stateError s
  | .run =>
    match sampleTick s with
    | .ok t => finish t.voice.out t
    | .error e => .fault e

/-- R156 TICKB: BLOCK_SIZE samples into OUTBUF, in RUN, as one command. -/
def execTickb (s : State) : Result :=
  match s.lifecycle with
  | .load => raise .stateError s
  | .run =>
    match blockTicks s.cfg.blockSize 0 s with
    | .ok t => finish t.voice.out t
    | .error e => .fault e

/-- R157 RDBUF: one word of OUTBUF. -/
def execRdbuf (addr : BitVec 24) (s : State) : Result :=
  if s.cfg.blockSize ≤ addr.toNat then raise .addressRange s else finish (s.outbufRead addr.toNat) s

end Sys2Proof.Machine
end

