-- ==== Sys2Proof/Machine/Operands.lean ====
section
/-! DEFINITION. The operand forms of the port and parameter commands: the port matrix (spec/10_state.md R33), the register
map (R45), and how a data word and a result word stand for a value of each kind (spec/30_encoding.md R116, R117). -/

namespace Sys2Proof.Machine

/-! ### Ports -/

/-- R33: the (unit, port) pairs of the matrix. -/
inductive Port where
  | voiceIn
  | voiceOut
  | voiceGate
  | voiceDetune
  | voiceFilterOffset
  | rampIn
  | rampOut
  | oscIn
  | oscOut
  | oscDetune
  | envOut
  | envGate
  | gainIn
  | gainOut
  | filterIn
  | filterOut
  | filterFilterOffset
  deriving DecidableEq, Repr

/-- R33: the matrix. Port code 0 is `in`, 1 `out`, 2 `gate`, 3 `detune`, 4 `filterOffset`; 5 to 255 name no port. -/
def portOf (u : UnitId) (sel : Byte) : Option Port :=
  match u, sel.toNat with
  | .voice, 0 => some .voiceIn
  | .voice, 1 => some .voiceOut
  | .voice, 2 => some .voiceGate
  | .voice, 3 => some .voiceDetune
  | .voice, 4 => some .voiceFilterOffset
  | .ramp, 0 => some .rampIn
  | .ramp, 1 => some .rampOut
  | .osc, 0 => some .oscIn
  | .osc, 1 => some .oscOut
  | .osc, 3 => some .oscDetune
  | .env, 1 => some .envOut
  | .env, 2 => some .envGate
  | .gain, 0 => some .gainIn
  | .gain, 1 => some .gainOut
  | .filter, 0 => some .filterIn
  | .filter, 1 => some .filterOut
  | .filter, 4 => some .filterFilterOffset
  | _, _ => none

/-- R33, R159: the field a port reads; every pair of the matrix is R. -/
def readPort (p : Port) (s : State) : Word :=
  match p with
  | .voiceIn => s.voice.inp
  | .voiceOut => s.voice.out
  | .voiceGate => s.voice.gate
  | .voiceDetune => s.voice.detune
  | .voiceFilterOffset => s.voice.fo
  | .rampIn => s.ramp.toVal
  | .rampOut => s.ramp.out
  | .oscIn => s.osc.inp
  | .oscOut => s.osc.out
  | .oscDetune => s.osc.detune
  | .envOut => s.env.amp
  | .envGate => s.env.gate
  | .gainIn => s.gain.inp
  | .gainOut => s.gain.out
  | .filterIn => s.filter.inp
  | .filterOut => s.filter.out
  | .filterFilterOffset => s.filter.fo

/-! ### Parameter registers -/

/-- R45: the registers of the map, in its order. -/
inductive Reg where
  | voiceNote
  | rampValue
  | rampDuration
  | rampCurve
  | rampFrom
  | rampTo
  | rampPos
  | rampSpeed
  | rampEnd
  | oscBank
  | oscPhase
  | oscFeff
  | oscK
  | oscFrac
  | envAttack
  | envDecay
  | envSustain
  | envRelease
  | envState
  | envPos
  | envAnchor
  | envAmp
  | gainGain
  | filterBase
  | filterDepth
  | filterQ
  | filterFc
  | filterB0
  | filterB1
  | filterB2
  | filterA1
  | filterA2
  | filterX1
  | filterX2
  | filterY1
  | filterY2
  | filterDirty
  | midiPstate
  | midiBlen
  | midiNeed
  | midiSxlen
  | midiCount
  | midiBuf
  | sysCtrl
  | sysStatus
  | sysSampleCount
  | sysLifecycle
  | sysId
  | sysFs
  | sysBlockSize
  | sysTableLen
  | sysNumTables
  | sysNumBanks
  | sysBaseFreq
  | sysEvqDepth
  | sysFmt
  | sysQMin
  | sysCutoffMin
  | sysCutoffMax
  | sysDetuneMax
  deriving DecidableEq, Repr

/-- R45, the Unit and Id columns; a pair that is not listed names no register. -/
def regOf (u : UnitId) (sel : Byte) : Option Reg :=
  match u, sel.toNat with
  | .voice, 0 => some .voiceNote
  | .ramp, 0 => some .rampValue
  | .ramp, 1 => some .rampDuration
  | .ramp, 2 => some .rampCurve
  | .ramp, 3 => some .rampFrom
  | .ramp, 4 => some .rampTo
  | .ramp, 5 => some .rampPos
  | .ramp, 6 => some .rampSpeed
  | .ramp, 7 => some .rampEnd
  | .osc, 0 => some .oscBank
  | .osc, 1 => some .oscPhase
  | .osc, 2 => some .oscFeff
  | .osc, 3 => some .oscK
  | .osc, 4 => some .oscFrac
  | .env, 0 => some .envAttack
  | .env, 1 => some .envDecay
  | .env, 2 => some .envSustain
  | .env, 3 => some .envRelease
  | .env, 4 => some .envState
  | .env, 5 => some .envPos
  | .env, 6 => some .envAnchor
  | .env, 7 => some .envAmp
  | .gain, 0 => some .gainGain
  | .filter, 0 => some .filterBase
  | .filter, 1 => some .filterDepth
  | .filter, 2 => some .filterQ
  | .filter, 3 => some .filterFc
  | .filter, 4 => some .filterB0
  | .filter, 5 => some .filterB1
  | .filter, 6 => some .filterB2
  | .filter, 7 => some .filterA1
  | .filter, 8 => some .filterA2
  | .filter, 9 => some .filterX1
  | .filter, 10 => some .filterX2
  | .filter, 11 => some .filterY1
  | .filter, 12 => some .filterY2
  | .filter, 13 => some .filterDirty
  | .midi, 0 => some .midiPstate
  | .midi, 1 => some .midiBlen
  | .midi, 2 => some .midiNeed
  | .midi, 3 => some .midiSxlen
  | .midi, 4 => some .midiCount
  | .midi, 5 => some .midiBuf
  | .sys, 0 => some .sysCtrl
  | .sys, 1 => some .sysStatus
  | .sys, 2 => some .sysSampleCount
  | .sys, 3 => some .sysLifecycle
  | .sys, 4 => some .sysId
  | .sys, 0x10 => some .sysFs
  | .sys, 0x11 => some .sysBlockSize
  | .sys, 0x12 => some .sysTableLen
  | .sys, 0x13 => some .sysNumTables
  | .sys, 0x14 => some .sysNumBanks
  | .sys, 0x15 => some .sysBaseFreq
  | .sys, 0x16 => some .sysEvqDepth
  | .sys, 0x17 => some .sysFmt
  | .sys, 0x18 => some .sysQMin
  | .sys, 0x19 => some .sysCutoffMin
  | .sys, 0x1A => some .sysCutoffMax
  | .sys, 0x1B => some .sysDetuneMax
  | _, _ => none

/-- R116: the kinds of a data word. -/
inductive Kind where
  /-- An FMT bit pattern. -/
  | real
  /-- An unsigned integer of FMT_BITS bits. -/
  | int
  deriving DecidableEq, Repr

/-- R45, the Kind column (R44 for the configuration registers). -/
def Reg.kind : Reg → Kind
  | .voiceNote | .rampCurve | .oscBank | .oscK | .envState | .filterDirty => .int
  | .midiPstate | .midiBlen | .midiNeed | .midiSxlen | .midiCount | .midiBuf => .int
  | .sysCtrl | .sysStatus | .sysSampleCount | .sysLifecycle | .sysId => .int
  | .sysBlockSize | .sysTableLen | .sysNumTables | .sysNumBanks | .sysEvqDepth | .sysFmt => .int
  | .rampValue | .rampDuration | .rampFrom | .rampTo | .rampPos | .rampSpeed | .rampEnd => .real
  | .oscPhase | .oscFeff | .oscFrac => .real
  | .envAttack | .envDecay | .envSustain | .envRelease | .envPos | .envAnchor | .envAmp => .real
  | .gainGain | .filterBase | .filterDepth | .filterQ | .filterFc => .real
  | .filterB0 | .filterB1 | .filterB2 | .filterA1 | .filterA2 => .real
  | .filterX1 | .filterX2 | .filterY1 | .filterY2 => .real
  | .sysFs | .sysBaseFreq | .sysQMin | .sysCutoffMin | .sysCutoffMax | .sysDetuneMax => .real

/-- R45, the Access column: RW, or R/W1C for SYS.STATUS. The rest are read only (R163). -/
def Reg.writable : Reg → Bool
  | .rampValue | .rampDuration | .rampCurve => true
  | .oscBank | .oscPhase => true
  | .envAttack | .envDecay | .envSustain | .envRelease => true
  | .filterBase | .filterDepth | .filterQ => true
  | .sysCtrl | .sysStatus => true
  | _ => false

/-- R33: the ports marked W, all of them of VOICE. -/
def Port.writable : Port → Bool
  | .voiceIn | .voiceGate | .voiceDetune | .voiceFilterOffset => true
  | _ => false

/-- R117: an INT result is zero-extended to FMT_BITS. -/
def intWord (n : Nat) : Word := BitVec.ofNat 64 n

/-- R44: the code of FMT in SYS.FMT. -/
def fmtCode : Fmt → Nat
  | .binary32 => 0
  | .binary64 => 1

/-- R45, the "Field or meaning" column, with R117: the result word of a register. No read changes state (R88). -/
def readReg (r : Reg) (s : State) : Word :=
  match r with
  | .voiceNote => intWord s.voice.note.toNat
  | .rampValue => s.ramp.value s.cfg.fmt
  | .rampDuration => s.ramp.duration
  | .rampCurve => intWord s.ramp.curve.code
  | .rampFrom => s.ramp.fromVal
  | .rampTo => s.ramp.toVal
  | .rampPos => s.ramp.pos
  | .rampSpeed => s.ramp.speed
  | .rampEnd => s.ramp.endPos
  | .oscBank => intWord s.osc.bank.toNat
  | .oscPhase => s.osc.phase
  | .oscFeff => s.osc.feff
  | .oscK => intWord s.osc.k.toNat
  | .oscFrac => s.osc.frac
  | .envAttack => s.env.attack
  | .envDecay => s.env.decay
  | .envSustain => s.env.sustain
  | .envRelease => s.env.release
  | .envState => intWord s.env.state.code
  | .envPos => s.env.pos
  | .envAnchor => s.env.anchor
  | .envAmp => s.env.amp
  | .gainGain => s.gain.gain
  | .filterBase => s.filter.base
  | .filterDepth => s.filter.depth
  | .filterQ => s.filter.q
  | .filterFc => s.filter.fc
  | .filterB0 => s.filter.b0
  | .filterB1 => s.filter.b1
  | .filterB2 => s.filter.b2
  | .filterA1 => s.filter.a1
  | .filterA2 => s.filter.a2
  | .filterX1 => s.filter.x1
  | .filterX2 => s.filter.x2
  | .filterY1 => s.filter.y1
  | .filterY2 => s.filter.y2
  | .filterDirty => intWord s.filter.dirty.toNat
  | .midiPstate => intWord s.midi.pstate.code
  | .midiBlen => intWord s.midi.blen.toNat
  | .midiNeed => intWord s.midi.need.toNat
  | .midiSxlen => intWord s.midi.sxlen.toNat
  | .midiCount => intWord s.midi.count
  | .midiBuf => intWord (s.midi.buf2.toNat * 65536 + s.midi.buf1.toNat * 256 + s.midi.buf0.toNat)
  | .sysCtrl => s.ctrl.word
  | .sysStatus => s.statusWord
  | .sysSampleCount => intWord s.sampleCount.toNat
  | .sysLifecycle => intWord s.lifecycle.code
  | .sysId => Cfg.sysId
  | .sysFs => s.cfg.fs
  | .sysBlockSize => intWord s.cfg.blockSize
  | .sysTableLen => intWord s.cfg.tableLen
  | .sysNumTables => intWord s.cfg.numTables
  | .sysNumBanks => intWord s.cfg.numBanks
  | .sysBaseFreq => s.cfg.baseFreq
  | .sysEvqDepth => intWord s.cfg.evqDepth
  | .sysFmt => intWord (fmtCode s.cfg.fmt)
  | .sysQMin => s.cfg.qMin
  | .sysCutoffMin => s.cfg.cutoffMin
  | .sysCutoffMax => s.cfg.cutoffMax
  | .sysDetuneMax => s.cfg.detuneMax

end Sys2Proof.Machine
end

