-- ==== Sys2Proof/Machine/MidiUnit.lean ====
section
/-! DEFINITION. The MIDI byte-stream parser and the event queue (spec/46_midi.md), with the commands MPUSH, MPOP and MRESET. -/

namespace Sys2Proof.Machine

/-! ### Events -/

/-- R125: the event word {KIND, CHAN, STATUS, D1, D2}. -/
def eventWord (kind chan : BitVec 4) (status d1 d2 : Byte) : BitVec 32 := kind ++ (chan ++ (status ++ (d1 ++ d2)))

/-- R366: the kind of a channel-voice status nibble. -/
def voiceKind (s : Byte) : BitVec 4 :=
  match (s.extractLsb' 4 4).toNat with
  | 0x8 => 1#4
  | 0x9 => 2#4
  | 0xA => 3#4
  | 0xB => 4#4
  | 0xC => 5#4
  | 0xD => 6#4
  | _ => 7#4

/-- R366 `decode(m)`, for a message with status byte `s` and data bytes `d1`, `d2`, 0 where it has fewer. -/
def decodeMsg (s d1 d2 : Byte) : BitVec 32 :=
  if s.toNat < 0xF0 then eventWord (voiceKind s) (s.extractLsb' 0 4) s d1 d2
  else if s.toNat < 0xF8 then eventWord 9#4 0#4 s d1 d2
  else eventWord 10#4 0#4 s 0#8 0#8

/-- R366 `decode_sysex(n)`. -/
def decodeSysex (n : BitVec 16) : BitVec 32 :=
  eventWord 8#4 0#4 0xF0#8 (n.extractLsb' 8 8) (n.extractLsb' 0 8)

/-! ### The parser -/

/-- What one byte does to the parser and the queue. -/
inductive ByteResult where
  /-- The byte is taken. -/
  | taken (m : Midi)
  /-- R365: an event to emit and no room; the byte is not consumed. -/
  | full
  /-- R367: the stream is broken. -/
  | broken
  deriving DecidableEq, Repr

/-- R365 `emit(E)`: appends the event to the queue of `m`, the parser as it is after the message. -/
def emitEvent (depth : Nat) (e : BitVec 32) (m : Midi) : ByteResult :=
  if m.count = depth then .full else .taken { m with q := m.q ++ [e] }

/-- R362 `start(b, n)`. -/
def startMsg (b : Byte) (n : BitVec 2) (m : Midi) : ByteResult :=
  .taken { m with buf0 := b, blen := 1#2, need := n, pstate := .msg }

/-- R362 `idle_byte(b)`. -/
def idleByte (depth : Nat) (b : Byte) (m : Midi) : ByteResult :=
  match (b.extractLsb' 4 4).toNat with
  | 0x8 => startMsg b 3#2 m
  | 0x9 => startMsg b 3#2 m
  | 0xA => startMsg b 3#2 m
  | 0xB => startMsg b 3#2 m
  | 0xC => startMsg b 2#2 m
  | 0xD => startMsg b 2#2 m
  | 0xE => startMsg b 3#2 m
  | 0xF =>
    match b.toNat with
    | 0xF0 => .taken { m with pstate := .sysex, sxlen := 0#16 }
    | 0xF1 => startMsg b 2#2 m
    | 0xF2 => startMsg b 3#2 m
    | 0xF3 => startMsg b 2#2 m
    | 0xF4 => .broken
    | 0xF5 => .broken
    | 0xF6 => emitEvent depth (decodeMsg b 0#8 0#8) m
    | 0xF7 => .broken
    | _ => emitEvent depth (decodeMsg b 0#8 0#8) m
  | _ => .broken

/-- R363: the message whose last byte is `b`, as `decode` takes it. -/
def completeMsg (b : Byte) (m : Midi) : BitVec 32 :=
  match m.blen.toNat with
  | 1 => decodeMsg m.buf0 b 0#8
  | 2 => decodeMsg m.buf0 m.buf1 b
  | _ => decodeMsg b 0#8 0#8

/-- R363: `MIDI.buf[MIDI.blen] <- b`. -/
def storeByte (b : Byte) (m : Midi) : Midi :=
  match m.blen.toNat with
  | 0 => { m with buf0 := b }
  | 1 => { m with buf1 := b }
  | 2 => { m with buf2 := b }
  | _ => m

/-- R363: the parser with its buffer reset, in IDLE. The SysEx counter is not touched. -/
def clearBuf (m : Midi) : Midi := { m with buf0 := 0#8, buf1 := 0#8, buf2 := 0#8, blen := 0#2, need := 0#2, pstate := .idle }

/-- R363 `msg_byte(b)`. -/
def msgByte (depth : Nat) (b : Byte) (m : Midi) : ByteResult :=
  if 0x80 ≤ b.toNat then .broken
  else if m.blen.toNat + 1 = m.need.toNat then emitEvent depth (completeMsg b m) (clearBuf m)
  else .taken { storeByte b m with blen := m.blen + 1#2 }

/-- R364: one more SysEx data byte, saturating at 0xFFFF. -/
def sysexCount (n : BitVec 16) : BitVec 16 := BitVec.ofNat 16 (min (n.toNat + 1) 0xFFFF)

/-- R364 `sysex_byte(b)`. -/
def sysexByte (depth : Nat) (b : Byte) (m : Midi) : ByteResult :=
  if b = 0xF7#8 then emitEvent depth (decodeSysex m.sxlen) { m with sxlen := 0#16, pstate := .idle }
  else if 0x80 ≤ b.toNat then .broken
  else .taken { m with sxlen := sysexCount m.sxlen }

/-- R361: what a byte does in each state of the parser; in ERROR none is looked at. -/
def parseByte (depth : Nat) (b : Byte) (m : Midi) : ByteResult :=
  match m.pstate with
  | .idle => idleByte depth b m
  | .msg => msgByte depth b m
  | .sysex => sysexByte depth b m
  | .error => .broken

/-! ### The commands -/

/-- R361 MPUSH: one byte. The error of a byte that breaks the stream keeps its state change (R367); in ERROR nothing
changes (R407). -/
def execMpush (byte : Byte) (s : State) : Result :=
  if s.midi.pstate = .error then raise .protocolDecodeError s
  else
    match parseByte s.cfg.evqDepth byte s.midi with
    | .taken m => finish (intWord m.count) (s.setMidi m)
    | .full => raise .queueFull s
    | .broken => enterError s

/-- R368 MPOP: the oldest event. -/
def execMpop (s : State) : Result :=
  match s.midi.q with
  | [] => raise .queueEmpty s
  | e :: rest => finish (intWord e.toNat) (s.setMidi { s.midi with q := rest })

/-- R369 MRESET: the parser alone; the queue is kept. -/
def execMreset (s : State) : Result := finish 0#64 (s.setMidi { Midi.reset with q := s.midi.q })

end Sys2Proof.Machine
end

