-- ==== Sys2Proof/Machine/Params.lean ====
section
/-! DEFINITION. The parameter commands WPARAM and RPARAM (spec/40_commands.md R160, R161, R163 to R165) and the write rule
of every writable register (the Write rule column of spec/10_state.md R45). -/

namespace Sys2Proof.Machine

/-- R306 WPARAM RAMP.VALUE: jump; VOICE.in follows. -/
def writeRampValue (dw : Word) (s : State) : Except Status State :=
  if Fp.finite s.cfg.fmt dw = false ∨ Fp.lt s.cfg.fmt dw Fp.zero = true ∨ Fp.lt s.cfg.fmt s.cfg.halfFs dw = true then
    .error .invalidParameter
  else if s.ramp.curve = .exp ∧ Fp.lt s.cfg.fmt Fp.zero dw = false then .error .invalidParameter
  else .ok ((s.setRamp (s.ramp.jump dw)).setVoice { s.voice with inp := dw })

/-- The legal set of a duration: finite and > 0 (R201, R307). -/
def durationOk (f : Fmt) (dw : Word) : Bool := Fp.finite f dw && !Fp.le f dw Fp.zero

/-- R307 WPARAM RAMP.DURATION. -/
def writeRampDuration (dw : Word) (s : State) : Except Status State :=
  if durationOk s.cfg.fmt dw then .ok (s.setRamp { s.ramp with duration := dw }) else .error .invalidParameter

/-- R308: the curve kind a data word names. -/
def curveOf (dw : Word) : Option Curve :=
  match dw.toNat with
  | 0 => some .lin
  | 1 => some .exp
  | _ => none

/-- R308 WPARAM RAMP.CURVE: a switch re-plans from the current value to the target, under the new kind. -/
def writeRampCurve (dw : Word) (s : State) : Except Status State :=
  match curveOf dw with
  | none => .error .invalidParameter
  | some k =>
    if k = s.ramp.curve then .ok s
    else if k = .exp ∧ expOk s.cfg.fmt (s.ramp.value s.cfg.fmt) s.ramp.toVal = false then .error .invalidParameter
    else .ok (s.setRamp (({ s.ramp with curve := k } : Ramp).plan s.cfg (s.ramp.value s.cfg.fmt) s.ramp.toVal))

/-- R265 WPARAM OSC.BANK. -/
def writeOscBank (dw : Word) (s : State) : Except Status State :=
  if s.cfg.numBanks ≤ dw.toNat then .error .invalidParameter
  else .ok (s.setOsc { s.osc with bank := BitVec.ofNat 8 dw.toNat })

/-- R272 WPARAM OSC.PHASE: in [0, 1). -/
def writeOscPhase (dw : Word) (s : State) : Except Status State :=
  if Fp.finite s.cfg.fmt dw = false ∨ Fp.lt s.cfg.fmt dw Fp.zero = true ∨ Fp.le s.cfg.fmt (Fp.one s.cfg.fmt) dw = true then
    .error .invalidParameter
  else .ok (s.setOsc { s.osc with phase := dw })

/-- R201 WPARAM ENV.ATTACK. -/
def writeEnvAttack (dw : Word) (s : State) : Except Status State :=
  if durationOk s.cfg.fmt dw then .ok (s.setEnv { s.env with attack := dw }) else .error .invalidParameter

/-- R201 WPARAM ENV.DECAY. -/
def writeEnvDecay (dw : Word) (s : State) : Except Status State :=
  if durationOk s.cfg.fmt dw then .ok (s.setEnv { s.env with decay := dw }) else .error .invalidParameter

/-- R201 WPARAM ENV.RELEASE. -/
def writeEnvRelease (dw : Word) (s : State) : Except Status State :=
  if durationOk s.cfg.fmt dw then .ok (s.setEnv { s.env with release := dw }) else .error .invalidParameter

/-- R202 WPARAM ENV.SUSTAIN: in [0, 1]. -/
def writeEnvSustain (dw : Word) (s : State) : Except Status State :=
  if Fp.finite s.cfg.fmt dw = false ∨ Fp.lt s.cfg.fmt dw Fp.zero = true ∨ Fp.lt s.cfg.fmt (Fp.one s.cfg.fmt) dw = true then
    .error .invalidParameter
  else .ok (s.setEnv { s.env with sustain := dw })

/-- R231 WPARAM FILTER.BASE: any finite value. -/
def writeFilterBase (dw : Word) (s : State) : Except Status State :=
  if Fp.finite s.cfg.fmt dw = false then .error .invalidParameter
  else .ok (s.setFilter { s.filter with base := dw, dirty := true })

/-- R232 WPARAM FILTER.DEPTH: any finite value. -/
def writeFilterDepth (dw : Word) (s : State) : Except Status State :=
  if Fp.finite s.cfg.fmt dw = false then .error .invalidParameter
  else .ok (s.setFilter { s.filter with depth := dw, dirty := true })

/-- R233 WPARAM FILTER.Q: finite, at least Q_MIN. -/
def writeFilterQ (dw : Word) (s : State) : Except Status State :=
  if Fp.finite s.cfg.fmt dw = false ∨ Fp.lt s.cfg.fmt dw s.cfg.qMin = true then .error .invalidParameter
  else .ok (s.setFilter { s.filter with q := dw, dirty := true })

/-- R164 WPARAM SYS.CTRL: the reserved bits must be 0. -/
def writeSysCtrl (dw : Word) (s : State) : Except Status State :=
  if 4 ≤ dw.toNat then .error .invalidParameter else .ok (s.setCtrl (Ctrl.ofWord dw))

/-- R165 WPARAM SYS.STATUS: write 1 to clear NONFINITE; never an error. -/
def writeSysStatus (dw : Word) (s : State) : Except Status State := .ok (s.clearFlags dw)

/-- R160: the write rule of a register; a read-only register has none (R163). -/
def writeReg (r : Reg) (dw : Word) (s : State) : Except Status State :=
  match r with
  | .rampValue => writeRampValue dw s
  | .rampDuration => writeRampDuration dw s
  | .rampCurve => writeRampCurve dw s
  | .oscBank => writeOscBank dw s
  | .oscPhase => writeOscPhase dw s
  | .envAttack => writeEnvAttack dw s
  | .envDecay => writeEnvDecay dw s
  | .envSustain => writeEnvSustain dw s
  | .envRelease => writeEnvRelease dw s
  | .filterBase => writeFilterBase dw s
  | .filterDepth => writeFilterDepth dw s
  | .filterQ => writeFilterQ dw s
  | .sysCtrl => writeSysCtrl dw s
  | .sysStatus => writeSysStatus dw s
  | _ => .error .illegalCommand

/-- R160 WPARAM: the register first (listed, not read only), then the data word by the register's kind (R10, R116). -/
def execWparam (unit : UnitId) (sel : Byte) (dw : Word) (s : State) : Result :=
  match regOf unit sel with
  | none => raise .illegalCommand s
  | some r =>
    if r.writable then
      if r.kind = .real ∧ Fp.finite s.cfg.fmt dw = false then raise .invalidParameter s
      else conclude (writeReg r dw s) s
    else raise .illegalCommand s

/-- R161 RPARAM. -/
def execRparam (unit : UnitId) (sel : Byte) (s : State) : Result :=
  match regOf unit sel with
  | none => raise .illegalCommand s
  | some r => finish (readReg r s) s

end Sys2Proof.Machine
end

