-- ==== Sys2Proof/Machine/Ports.lean ====
section
/-! DEFINITION. The port commands WPORT and RPORT (spec/40_commands.md R158, R159, R162) and the write rules of the VOICE
ports (spec/45_gain_voice.md §2). -/

namespace Sys2Proof.Machine

/-- R332 WPORT VOICE.in: a new target frequency, reached by a glide from the ramp's current value. -/
def writeVoiceIn (dw : Word) (s : State) : Except Status State :=
  if Fp.finite s.cfg.fmt dw = false ∨ Fp.lt s.cfg.fmt dw Fp.zero = true ∨ Fp.lt s.cfg.fmt s.cfg.halfFs dw = true then
    .error .invalidParameter
  else if s.ramp.curve = .exp ∧ expOk s.cfg.fmt (s.ramp.value s.cfg.fmt) dw = false then .error .invalidParameter
  else .ok ((s.setRamp (s.ramp.plan s.cfg (s.ramp.value s.cfg.fmt) dw)).setVoice { s.voice with inp := dw })

/-- R333 WPORT VOICE.gate: any finite level. -/
def writeVoiceGate (dw : Word) (s : State) : Except Status State :=
  if Fp.finite s.cfg.fmt dw = false then .error .invalidParameter
  else .ok (s.setVoice { s.voice with gate := dw })

/-- R334 WPORT VOICE.detune: octaves, at most DETUNE_MAX either way. -/
def writeVoiceDetune (dw : Word) (s : State) : Except Status State :=
  if Fp.finite s.cfg.fmt dw = false ∨ Fp.lt s.cfg.fmt s.cfg.detuneMax (Fp.abs s.cfg.fmt dw) = true then
    .error .invalidParameter
  else .ok (s.setVoice { s.voice with detune := dw })

/-- R335 WPORT VOICE.filterOffset: the filter modulation; the coefficients become dirty (R235). -/
def writeVoiceFilterOffset (dw : Word) (s : State) : Except Status State :=
  if Fp.finite s.cfg.fmt dw = false then .error .invalidParameter
  else .ok ((s.setVoice { s.voice with fo := dw }).setFilter { s.filter with dirty := true })

/-- R158: the write rule of a port; only the ports of R33 marked W have one. -/
def writePort (p : Port) (dw : Word) (s : State) : Except Status State :=
  match p with
  | .voiceIn => writeVoiceIn dw s
  | .voiceGate => writeVoiceGate dw s
  | .voiceDetune => writeVoiceDetune dw s
  | .voiceFilterOffset => writeVoiceFilterOffset dw s
  | _ => .error .portMismatch

/-- R158 WPORT: the port first, then the data word (R405). -/
def execWport (unit : UnitId) (sel : Byte) (dw : Word) (s : State) : Result :=
  match portOf unit sel with
  | none => raise .portMismatch s
  | some p =>
    if p.writable then
      if Fp.finite s.cfg.fmt dw then conclude (writePort p dw s) s else raise .invalidParameter s
    else raise .portMismatch s

/-- R159 RPORT. -/
def execRport (unit : UnitId) (sel : Byte) (s : State) : Result :=
  match portOf unit sel with
  | none => raise .portMismatch s
  | some p => finish (readPort p s) s

end Sys2Proof.Machine
end

