-- ==== Sys2Proof/Machine/Tables.lean ====
section
/-! DEFINITION. The table commands TWRITE, TREAD and SEAL (spec/43_oscillator.md §1). -/

namespace Sys2Proof.Machine

/-- R262 TWRITE: one table word, in LOAD. The checks run lifecycle, address, data word (R405). -/
def execTwrite (addr : BitVec 24) (dw : Word) (s : State) : Result :=
  match s.lifecycle with
  | .run => raise .stateError s
  | .load =>
    if s.cfg.tableSize ≤ addr.toNat then raise .addressRange s
    else if Fp.finite s.cfg.fmt dw then finish 0#64 (s.tableWrite addr.toNat dw)
    else raise .invalidParameter s

/-- R263 TREAD: one table word; an entry never written is the model fault (R84, R417). -/
def execTread (addr : BitVec 24) (s : State) : Result :=
  if s.cfg.tableSize ≤ addr.toNat then raise .addressRange s
  else
    match s.tableRead addr.toNat with
    | some w => finish w s
    | none => .fault .unwrittenTableRead

/-- R264 SEAL: LOAD ends, RUN begins. -/
def execSeal (s : State) : Result :=
  match s.lifecycle with
  | .load => finish 0#64 (s.setLifecycle .run)
  | .run => raise .stateError s

end Sys2Proof.Machine
end

