-- ==== Sys2Proof/Machine/Dispatch.lean ====
section
/-! DEFINITION. What each host command does: one arm per constructor of Instr. -/

namespace Sys2Proof.Machine

def exec (i : Instr) (s : State) : Host.Outcome State Fault Refusal :=
  match i with
  | .nop => Sys2Proof.Machine.execNop s
  | .reset => Sys2Proof.Machine.execReset s
  | .tick => Sys2Proof.Machine.execTick s
  | .tickb => Sys2Proof.Machine.execTickb s
  | .rdbuf addr => Sys2Proof.Machine.execRdbuf addr s
  | .wport unit sel dw => Sys2Proof.Machine.execWport unit sel dw s
  | .rport unit sel => Sys2Proof.Machine.execRport unit sel s
  | .wparam unit sel dw => Sys2Proof.Machine.execWparam unit sel dw s
  | .rparam unit sel => Sys2Proof.Machine.execRparam unit sel s
  | .twrite addr dw => Sys2Proof.Machine.execTwrite addr dw s
  | .tread addr => Sys2Proof.Machine.execTread addr s
  | .sealTables => Sys2Proof.Machine.execSeal s
  | .mpush byte => Sys2Proof.Machine.execMpush byte s
  | .mpop => Sys2Proof.Machine.execMpop s
  | .mreset => Sys2Proof.Machine.execMreset s

end Sys2Proof.Machine
end

