-- ==== Sys2Proof/Machine/Step.lean ====
section
/-! DEFINITION. One step of the machine: the host issues its next command and the block answers it (spec/40_commands.md
R150). Between commands the block takes no step of its own (spec/00_scope.md R18): where the host issues nothing, the block
keeps all its state (spec/60_exceptions.md R416). -/

namespace Sys2Proof.Machine

/-- R150: decode, check, perform, answer. An illegal encoding (R119) is answered with ILLEGAL_COMMAND. -/
def step (s : State) : Host.Outcome State Fault Refusal :=
  match fetch s with
  | none => .next s
  | some (c, t) =>
    match decode s.cfg.fmt c with
    | .ok i => exec i t
    | .error _ => raise .illegalCommand t

/-- The state in which the host's next command is the one whose words, numbered as spec/opcode_table.json numbers them, are
the low `nbits` bits of `w`; the commands the host had yet to issue follow it. -/
def State.withFetchWord (s : State) (nbits w : Nat) : State := s.setHost (tableCmd nbits w :: s.host)

end Sys2Proof.Machine
end

