-- ==== Sys2Proof/Safety.lean ====
section
/-! DEFINITION. What the model calls a safe run, in the terms the statements use: which statuses a command may answer
(spec/60_exceptions.md R403), the invariants of State that the spec gives in prose, and the states a run can reach. -/

namespace Sys2Proof.Machine

/-! ### Statuses -/

/-- R403: the statuses each command can answer once it is decoded. (The ILLEGAL_COMMAND of a must-be-0 field or of UNIT > 7
is answered before there is a command.) -/
def mayAnswer (i : Instr) (st : Status) : Bool :=
  match i with
  | .nop => st = .ok
  | .reset => st = .ok
  | .tick => st = .ok || st = .stateError
  | .tickb => st = .ok || st = .stateError
  | .rdbuf _ => st = .ok || st = .addressRange
  | .wport _ _ _ => st = .ok || st = .portMismatch || st = .invalidParameter
  | .rport _ _ => st = .ok || st = .portMismatch
  | .wparam _ _ _ => st = .ok || st = .illegalCommand || st = .invalidParameter
  | .rparam _ _ => st = .ok || st = .illegalCommand
  | .twrite _ _ => st = .ok || st = .stateError || st = .addressRange || st = .invalidParameter
  | .tread _ => st = .ok || st = .addressRange
  | .sealTables => st = .ok || st = .stateError
  | .mpush _ => st = .ok || st = .protocolDecodeError || st = .queueFull
  | .mpop => st = .ok || st = .queueEmpty
  | .mreset => st = .ok

/-- R417: the commands that can meet the model fault. -/
def mayFault (i : Instr) : Bool :=
  match i with
  | .tick => true
  | .tickb => true
  | .tread _ => true
  | _ => false

/-! ### Invariants -/

/-- The two memories are in canonical form and hold no word outside their space (R80); TABLE holds finite words (R262). -/
def State.memInv (s : State) : Bool :=
  Memory.wf tableDefault s.table && Memory.wf outbufDefault s.outbuf
    && s.table.all (fun c => decide (c.1 < s.cfg.tableSize) && Fp.finite s.cfg.fmt c.2)
    && s.outbuf.all (fun c => decide (c.1 < s.cfg.blockSize))

/-- R126, R127, R366: an event word as the parser builds it: KIND from 1 to 10, and 7-bit data bytes in the kinds that carry
data bytes. -/
def eventOk (e : BitVec 32) : Bool :=
  decide (1 ≤ (evKind e).toNat ∧ (evKind e).toNat ≤ 10)
    && (decide ((evKind e).toNat = 8) || (decide ((evD1 e).toNat < 128) && decide ((evD2 e).toNat < 128)))

/-- R371 (c), R126: the parser's counters are bounded and match its state, the queue holds at most EVQ_DEPTH events, each
one well formed. -/
def State.midiInv (s : State) : Bool :=
  decide (s.midi.count ≤ s.cfg.evqDepth) && s.midi.q.all eventOk && decide (s.midi.buf1.toNat < 128)
    && (if s.midi.pstate = .msg then
          decide (1 ≤ s.midi.blen.toNat ∧ s.midi.blen.toNat < s.midi.need.toNat ∧ 2 ≤ s.midi.need.toNat)
        else decide (s.midi.blen = 0#2 ∧ s.midi.need = 0#2))

/-- R336: VOICE.in = RAMP.to, bit for bit. -/
def State.targetInv (s : State) : Bool := decide (s.voice.inp = s.ramp.toVal)

/-- The REAL fields of the units, with the words of the two memories. -/
def State.reals (s : State) : List Word :=
  [s.voice.inp, s.voice.gate, s.voice.detune, s.voice.fo, s.voice.out]
    ++ [s.ramp.fromVal, s.ramp.toVal, s.ramp.pos, s.ramp.speed, s.ramp.endPos, s.ramp.duration, s.ramp.out]
    ++ [s.osc.phase, s.osc.inp, s.osc.detune, s.osc.feff, s.osc.frac, s.osc.out]
    ++ [s.env.attack, s.env.decay, s.env.sustain, s.env.release, s.env.pos, s.env.anchor, s.env.amp, s.env.gate]
    ++ [s.gain.gain, s.gain.inp, s.gain.out]
    ++ [s.filter.base, s.filter.depth, s.filter.q, s.filter.fc, s.filter.b0, s.filter.b1, s.filter.b2, s.filter.a1, s.filter.a2]
    ++ [s.filter.x1, s.filter.x2, s.filter.y1, s.filter.y2, s.filter.inp, s.filter.fo, s.filter.out]
    ++ s.table.map (fun c => c.2) ++ s.outbuf.map (fun c => c.2)

/-- R110, R117: every REAL field, every word of a memory and the result word of the last response have FMT_BITS bits. -/
def State.fitsInv (s : State) : Bool :=
  s.reals.all s.cfg.fmt.fits
    && (match s.resp with
      | none => true
      | some r => s.cfg.fmt.fits r.rw)

/-- A finite number in [0, 1]. -/
def inUnit (f : Fmt) (w : Word) : Bool := Fp.finite f w && Fp.le f Fp.zero w && Fp.le f w (Fp.one f)

/-- The host-written parameters hold legal values: R201, R202, R231 to R233, R265, R307, R333 to R335. (R5 admits a Q_MIN
above 1/√2, the reset value of FILTER.q, so that value is legal too.) -/
def State.paramInv (s : State) : Bool :=
  Fp.finite s.cfg.fmt s.env.attack && Fp.lt s.cfg.fmt Fp.zero s.env.attack
    && Fp.finite s.cfg.fmt s.env.decay && Fp.lt s.cfg.fmt Fp.zero s.env.decay
    && Fp.finite s.cfg.fmt s.env.release && Fp.lt s.cfg.fmt Fp.zero s.env.release
    && inUnit s.cfg.fmt s.env.sustain
    && Fp.finite s.cfg.fmt s.ramp.duration && Fp.lt s.cfg.fmt Fp.zero s.ramp.duration
    && Fp.finite s.cfg.fmt s.filter.base && Fp.finite s.cfg.fmt s.filter.depth
    && Fp.finite s.cfg.fmt s.filter.q
    && (decide (s.filter.q = Fp.invSqrt2 s.cfg.fmt) || !Fp.lt s.cfg.fmt s.filter.q s.cfg.qMin)
    && decide (s.osc.bank.toNat < s.cfg.numBanks)
    && Fp.finite s.cfg.fmt s.voice.gate && Fp.finite s.cfg.fmt s.voice.fo
    && Fp.finite s.cfg.fmt s.voice.detune && !Fp.lt s.cfg.fmt s.cfg.detuneMax (Fp.abs s.cfg.fmt s.voice.detune)

/-- The greatest frequency of the voice: FS / 2, or 14080, which bounds every note (R266, R341). -/
def Cfg.maxFreq (c : Cfg) : Word := Fp.fmax c.fmt c.halfFs (Fp.ofInt c.fmt 14080)

/-- A frequency the ramp can carry. -/
def freqOk (c : Cfg) (w : Word) : Bool := Fp.finite c.fmt w && Fp.le c.fmt Fp.zero w && Fp.le c.fmt w (Cfg.maxFreq c)

/-- R301 to R305: the ramp stays within its plan, and a plan within the frequencies; an exponential one is positive. -/
def State.rampInv (s : State) : Bool :=
  freqOk s.cfg s.ramp.fromVal && freqOk s.cfg s.ramp.toVal
    && Fp.finite s.cfg.fmt s.ramp.pos && Fp.finite s.cfg.fmt s.ramp.endPos && !Fp.isNaN s.cfg.fmt s.ramp.speed
    && (match s.ramp.curve with
      | .lin => freqOk s.cfg s.ramp.pos && freqOk s.cfg s.ramp.endPos
      | .exp => Fp.lt s.cfg.fmt Fp.zero s.ramp.fromVal && Fp.lt s.cfg.fmt Fp.zero s.ramp.toVal)

/-- R270: OSC.phase is in [0, 1). -/
def State.phaseInv (s : State) : Bool :=
  Fp.finite s.cfg.fmt s.osc.phase && Fp.le s.cfg.fmt Fp.zero s.osc.phase && Fp.lt s.cfg.fmt s.osc.phase (Fp.one s.cfg.fmt)

/-- No frequency of the voice divided by BASE_FREQ overflows, so that LOG2 is called within its laws (R15, R268;
notes/assumptions/11.md). Every frequency is below 2^40. -/
def Cfg.baseOk (c : Cfg) : Bool := Fp.finite c.fmt (Fp.div c.fmt (Fp.ofInt c.fmt (2 ^ 40)) c.baseFreq)

/-- What the audio path needs of the state so that no tick reads outside the tables. -/
def State.audioInv (s : State) : Bool :=
  s.cfg.valid && Cfg.baseOk s.cfg && s.midiInv && s.paramInv && s.rampInv && s.phaseInv

/-- R444: every TABLE entry has been written. -/
abbrev State.tableFull (s : State) : Prop := ∀ a, a < s.cfg.tableSize → s.written a = true

/-! ### Runs -/

/-- The states of a block from its construction (R6, R440) on, whatever the host issues (R18, R91): commands are the only
transitions of the block (R150). -/
inductive Reachable : State → Prop where
  /-- A block is constructed. -/
  | construct (c : Cfg) (s : State) (h : State.construct c = some s) : Reachable s
  /-- The host decides what it will issue. -/
  | issue (s : State) (cmds : List Cmd) (h : Reachable s) : Reachable (s.setHost cmds)
  /-- The block answers the next command. -/
  | step (s t : State) (h : Reachable s) (hs : Sys2Proof.Machine.step s = .next t) : Reachable t

end Sys2Proof.Machine
end

