-- ==== Sys2Proof/Certificates/Slice0/Obligations.lean ====
section
/-! DEFINITION. The statements for the provers: one definition a statement, each with the rule of spec/ it formalises. A
statement that gives an instruction's next state gives the whole of it, so its frame is part of the equation. -/

namespace Sys2Proof.Claims

open Sys2Proof Sys2Proof.Machine

/-! ### The spec's own tables, written out a second time for the statements to compare the model with -/

/-- R118: the defined opcodes. -/
def opcodes : List Nat :=
  [0x00, 0x01, 0x02, 0x03, 0x04, 0x10, 0x11, 0x12, 0x13, 0x20, 0x21, 0x22, 0x30, 0x31, 0x32]

/-- R45 with R44: (unit, id, writable). -/
def registerRows : List (Nat × Nat × Bool) :=
  [(0, 0, false)]
    ++ [(1, 0, true), (1, 1, true), (1, 2, true), (1, 3, false), (1, 4, false), (1, 5, false), (1, 6, false), (1, 7, false)]
    ++ [(2, 0, true), (2, 1, true), (2, 2, false), (2, 3, false), (2, 4, false)]
    ++ [(3, 0, true), (3, 1, true), (3, 2, true), (3, 3, true), (3, 4, false), (3, 5, false), (3, 6, false), (3, 7, false)]
    ++ [(4, 0, false)]
    ++ [(5, 0, true), (5, 1, true), (5, 2, true), (5, 3, false), (5, 4, false), (5, 5, false), (5, 6, false)]
    ++ [(5, 7, false), (5, 8, false), (5, 9, false), (5, 10, false), (5, 11, false), (5, 12, false), (5, 13, false)]
    ++ [(6, 0, false), (6, 1, false), (6, 2, false), (6, 3, false), (6, 4, false), (6, 5, false)]
    ++ [(7, 0, true), (7, 1, true), (7, 2, false), (7, 3, false), (7, 4, false)]
    ++ [(7, 0x10, false), (7, 0x11, false), (7, 0x12, false), (7, 0x13, false), (7, 0x14, false), (7, 0x15, false)]
    ++ [(7, 0x16, false), (7, 0x17, false), (7, 0x18, false), (7, 0x19, false), (7, 0x1A, false), (7, 0x1B, false)]

/-- R119, the five kinds of illegal encoding, on the number that CW is. -/
def illegalWord (cw : Nat) : Bool :=
  let op := cw / 2 ^ 24
  let unit := cw / 2 ^ 8 % 256
  let sel := cw % 256
  !opcodes.contains op
    || ([0x00, 0x01, 0x02, 0x03, 0x22, 0x31, 0x32].contains op && cw % 2 ^ 24 != 0)
    || ([0x10, 0x11, 0x12, 0x13].contains op && (cw / 2 ^ 16 % 256 != 0 || decide (7 < unit)))
    || (op == 0x30 && cw / 2 ^ 8 % 2 ^ 16 != 0)
    || ([0x12, 0x13].contains op && !registerRows.any (fun r => r.1 == unit && r.2.1 == sel))
    || (op == 0x12 && !registerRows.any (fun r => r.1 == unit && r.2.1 == sel && r.2.2))

/-- One row of a table of readable ports or registers: the unit, SEL, and what it reads. -/
abbrev ReadRow := UnitId × Byte × (State → Word)

/-- R33, the rows VOICE and RAMP: the pairs marked R, each with the field it reads. -/
def portReadsVoice : List ReadRow :=
  [(.voice, 0#8, fun s => s.voice.inp), (.voice, 1#8, fun s => s.voice.out), (.voice, 2#8, fun s => s.voice.gate),
    (.voice, 3#8, fun s => s.voice.detune), (.voice, 4#8, fun s => s.voice.fo), (.ramp, 0#8, fun s => s.ramp.toVal),
    (.ramp, 1#8, fun s => s.ramp.out)]

/-- R33, the rows OSC to FILTER. -/
def portReadsAudio : List ReadRow :=
  [(.osc, 0#8, fun s => s.osc.inp), (.osc, 1#8, fun s => s.osc.out), (.osc, 3#8, fun s => s.osc.detune),
    (.env, 1#8, fun s => s.env.amp), (.env, 2#8, fun s => s.env.gate), (.gain, 0#8, fun s => s.gain.inp),
    (.gain, 1#8, fun s => s.gain.out), (.filter, 0#8, fun s => s.filter.inp), (.filter, 1#8, fun s => s.filter.out),
    (.filter, 4#8, fun s => s.filter.fo)]

/-- R33: the (unit, port) pairs marked R. -/
def portReads : List ReadRow := portReadsVoice ++ portReadsAudio

/-- R33: the ports of VOICE marked W. -/
def portWrites : List (UnitId × Byte) := [(.voice, 0#8), (.voice, 2#8), (.voice, 3#8), (.voice, 4#8)]

/-- A number as an INT result word (R117). -/
def word (n : Nat) : Word := BitVec.ofNat 64 n

/-- R45, the units VOICE to OSC, each register with its result word (R117). RAMP.VALUE has a statement of its own. -/
def registerReadsPitch : List ReadRow :=
  [(.voice, 0#8, fun s => word s.voice.note.toNat), (.ramp, 1#8, fun s => s.ramp.duration),
    (.ramp, 2#8, fun s => if s.ramp.curve = .lin then 0#64 else 1#64), (.ramp, 3#8, fun s => s.ramp.fromVal),
    (.ramp, 4#8, fun s => s.ramp.toVal), (.ramp, 5#8, fun s => s.ramp.pos), (.ramp, 6#8, fun s => s.ramp.speed),
    (.ramp, 7#8, fun s => s.ramp.endPos), (.osc, 0#8, fun s => word s.osc.bank.toNat), (.osc, 1#8, fun s => s.osc.phase),
    (.osc, 2#8, fun s => s.osc.feff), (.osc, 3#8, fun s => word s.osc.k.toNat), (.osc, 4#8, fun s => s.osc.frac)]

/-- R37: the code of a segment. -/
def segmentCode (s : State) : Nat :=
  match s.env.state with
  | .attacking => 0
  | .decaying => 1
  | .sustaining => 2
  | .releasing => 3

/-- R47: the code of the parser's state. -/
def parserCode (s : State) : Nat :=
  match s.midi.pstate with
  | .idle => 0
  | .msg => 1
  | .sysex => 2
  | .error => 3

/-- R45, the units ENV and GAIN. -/
def registerReadsLevel : List ReadRow :=
  [(.env, 0#8, fun s => s.env.attack), (.env, 1#8, fun s => s.env.decay), (.env, 2#8, fun s => s.env.sustain),
    (.env, 3#8, fun s => s.env.release), (.env, 4#8, fun s => word (segmentCode s)), (.env, 5#8, fun s => s.env.pos),
    (.env, 6#8, fun s => s.env.anchor), (.env, 7#8, fun s => s.env.amp), (.gain, 0#8, fun s => s.gain.gain)]

/-- R45, the unit FILTER. -/
def registerReadsFilter : List ReadRow :=
  [(.filter, 0#8, fun s => s.filter.base), (.filter, 1#8, fun s => s.filter.depth), (.filter, 2#8, fun s => s.filter.q),
    (.filter, 3#8, fun s => s.filter.fc), (.filter, 4#8, fun s => s.filter.b0), (.filter, 5#8, fun s => s.filter.b1),
    (.filter, 6#8, fun s => s.filter.b2), (.filter, 7#8, fun s => s.filter.a1), (.filter, 8#8, fun s => s.filter.a2),
    (.filter, 9#8, fun s => s.filter.x1), (.filter, 10#8, fun s => s.filter.x2), (.filter, 11#8, fun s => s.filter.y1),
    (.filter, 12#8, fun s => s.filter.y2), (.filter, 13#8, fun s => if s.filter.dirty then 1#64 else 0#64)]

/-- R45, the units MIDI and SYS. SYS.STATUS has a statement of its own. -/
def registerReadsSystem : List ReadRow :=
  [(.midi, 0#8, fun s => word (parserCode s)), (.midi, 1#8, fun s => word s.midi.blen.toNat),
    (.midi, 2#8, fun s => word s.midi.need.toNat), (.midi, 3#8, fun s => word s.midi.sxlen.toNat),
    (.midi, 4#8, fun s => word s.midi.q.length),
    (.midi, 5#8, fun s => word (s.midi.buf2.toNat * 65536 + s.midi.buf1.toNat * 256 + s.midi.buf0.toNat)),
    (.sys, 0#8, fun s => word ((if s.ctrl.filterEn then 1 else 0) + (if s.ctrl.midiDrive then 2 else 0))),
    (.sys, 2#8, fun s => word s.sampleCount.toNat), (.sys, 3#8, fun s => if s.lifecycle = .load then 0#64 else 1#64)]

/-- R44: the configuration registers. -/
def registerReadsConfig : List ReadRow :=
  [(.sys, 4#8, fun _ => 0x53563100#64), (.sys, 0x10#8, fun s => s.cfg.fs), (.sys, 0x11#8, fun s => word s.cfg.blockSize),
    (.sys, 0x12#8, fun s => word s.cfg.tableLen), (.sys, 0x13#8, fun s => word s.cfg.numTables),
    (.sys, 0x14#8, fun s => word s.cfg.numBanks), (.sys, 0x15#8, fun s => s.cfg.baseFreq),
    (.sys, 0x16#8, fun s => word s.cfg.evqDepth), (.sys, 0x17#8, fun s => if s.cfg.fmt = .binary32 then 0#64 else 1#64),
    (.sys, 0x18#8, fun s => s.cfg.qMin), (.sys, 0x19#8, fun s => s.cfg.cutoffMin), (.sys, 0x1A#8, fun s => s.cfg.cutoffMax),
    (.sys, 0x1B#8, fun s => s.cfg.detuneMax)]

/-- R45, R44: the readable registers but SYS.STATUS and RAMP.VALUE. -/
def registerReads : List ReadRow :=
  registerReadsPitch ++ registerReadsLevel ++ registerReadsFilter ++ registerReadsSystem ++ registerReadsConfig

/-! ### Words for the statements -/

/-- The state `s` with the answer (OK, rw). -/
def answered (s : State) (rw : Word) : State := { s with resp := some ⟨.ok, rw⟩ }

/-- The state `s` with the error answer (st, 0). -/
def rejected (s : State) (st : Status) : State := { s with resp := some ⟨st, 0#64⟩ }

/-- The status of the last response. -/
def statusOf (s : State) : Option Status := s.resp.map (fun r => r.st)

/-- The four TABLE entries that the oscillator of a sample tick from `s` reads (R267, R269) have been written. -/
def oscEntriesWritten (s : State) : Bool :=
  let u := beforeOsc s
  let k := (octave u.cfg (u.osc.freq u.cfg.fmt)).1
  let i := tableIndex u.cfg u.osc.phase
  [k, min (k + 1) (u.cfg.numTables - 1)].all fun t =>
    [i, (i + 1) % u.cfg.tableLen].all fun j => s.written (u.cfg.taddr u.osc.bank.toNat t 0 + j)

/-- The state after a command, where it answers one. -/
def after (i : Instr) (s : State) : State :=
  match exec i s with
  | .next t => t
  | _ => s

/-- The states after the bytes of a list are pushed in turn, and the statuses of the pushes. -/
def pushes : List Byte → State → State × List (Option Status)
  | [], s => (s, [])
  | b :: bs, s => ((pushes bs (after (.mpush b) s)).1, statusOf (after (.mpush b) s) :: (pushes bs (after (.mpush b) s)).2)

/-! ### Rules of the spec written out a second time -/

/-- The number that a finite FMT word stands for. -/
def realOf (f : Fmt) (w : Word) : Rat := (Fp.val f w : Rat) / ((2 ^ f.scale : Nat) : Rat)

/-- R5, row by row, as numbers: the Constraint column, with FMT_BITS in the first clause (a Word has 64 bits) and the size
of the table space of R82 in the last. -/
def LegalConfig (c : Cfg) : Prop :=
  (∀ w ∈ [c.fs, c.baseFreq, c.qMin, c.cutoffMin, c.cutoffMax, c.detuneMax],
    (c.fmt = .binary32 → w.toNat < 2 ^ 32) ∧ Fp.finite c.fmt w = true) ∧
  (∃ n : Nat, 0 < n ∧ n ≤ 2 ^ 24 ∧ realOf c.fmt c.fs = (n : Rat)) ∧
  (1 ≤ c.blockSize ∧ c.blockSize ≤ 2 ^ 24) ∧
  (∃ n : Nat, 1 ≤ n ∧ n ≤ 16 ∧ c.tableLen = 2 ^ n) ∧
  (1 ≤ c.numTables ∧ c.numTables ≤ 255) ∧
  (1 ≤ c.numBanks ∧ c.numBanks ≤ 255) ∧
  0 < realOf c.fmt c.baseFreq ∧
  (1 ≤ c.evqDepth ∧ c.evqDepth ≤ 255) ∧
  0 < realOf c.fmt c.qMin ∧
  1 / 1000 ≤ realOf c.fmt c.cutoffMin ∧
  realOf c.fmt c.cutoffMin < realOf c.fmt c.cutoffMax ∧
  realOf c.fmt c.cutoffMax ≤ 49 / 100 * realOf c.fmt c.fs ∧
  (0 ≤ realOf c.fmt c.detuneMax ∧ realOf c.fmt c.detuneMax ≤ 16) ∧
  c.numBanks * c.numTables * c.tableLen ≤ 2 ^ 24

/-- A number of the spec by its pattern in each format. -/
def pattern (f : Fmt) (w32 w64 : Word) : Word := if f = .binary32 then w32 else w64

/-- `n` sample ticks (R155), with nothing written to OUTBUF. -/
def samples : Nat → State → Except Fault State
  | 0, s => .ok s
  | n + 1, s =>
    match samples n s with
    | .ok u => sampleTick u
    | .error e => .error e

/-- R417, for `n` sample ticks: every entry that the oscillator reads in one of them has been written. -/
def samplesWritten : Nat → State → Bool
  | 0, _ => true
  | n + 1, s =>
    oscEntriesWritten s &&
      (match sampleTick s with
        | .ok u => samplesWritten n u
        | .error _ => false)

/-- R301 `val()`. -/
def rampNow (f : Fmt) (r : Ramp) : Word :=
  if r.curve = .lin then r.pos
  else
    let lo := if Fp.le f r.fromVal r.toVal then r.fromVal else r.toVal
    let hi := if Fp.le f r.toVal r.fromVal then r.fromVal else r.toVal
    let v := Fp.mul f r.fromVal (Fp.exp2 f r.pos)
    if Fp.lt f v lo then lo else if Fp.lt f hi v then hi else v

/-- R302: the ramp `r` after `plan(a, b)`, field by field. -/
def planned (c : Cfg) (a b : Word) (r : Ramp) : Ramp :=
  let octaves := Fp.log2 c.fmt (Fp.div c.fmt b a)
  if r.curve = .lin then
    { fromVal := a, toVal := b, pos := a, endPos := b, curve := .lin, duration := r.duration, out := r.out
      speed := Fp.div c.fmt (Fp.div c.fmt (Fp.sub c.fmt b a) r.duration) c.fs }
  else
    { fromVal := a, toVal := b, pos := 0#64, endPos := octaves, curve := .exp, duration := r.duration, out := r.out
      speed := Fp.div c.fmt (Fp.div c.fmt octaves r.duration) c.fs }

/-- R304: the ramp `r` after `jump(v)`, field by field. -/
def jumped (v : Word) (r : Ramp) : Ramp :=
  { fromVal := v, toVal := v, speed := 0#64, curve := r.curve, duration := r.duration, out := r.out
    pos := if r.curve = .lin then v else 0#64
    endPos := if r.curve = .lin then v else 0#64 }

/-- R305 `exp_ok(a, b)`: a and b above 0, and b / a, rounded in FMT, from 2^-126 to 2^126. -/
def planOk (f : Fmt) (a b : Word) : Bool :=
  Fp.lt f 0#64 a && Fp.lt f 0#64 b &&
    Fp.le f (Fp.ofRat f 1 (2 ^ 126)) (Fp.div f b a) && Fp.le f (Fp.div f b a) (Fp.ofInt f (2 ^ 126))

/-- What R209 needs of an envelope so that its next tick, and every later one, keeps the amplitude in [0, 1]: the amplitude, the
anchor and the sustain in [0, 1], a position from 0 to +∞, and a finite one in an attack from an anchor of 1.0. -/
def envelopeOk (f : Fmt) (e : Env) : Bool :=
  inUnit f e.amp && inUnit f e.anchor && inUnit f e.sustain && Fp.le f Fp.zero e.pos &&
    (decide (e.state ≠ .attacking) || Fp.finite f e.pos || Fp.lt f e.anchor (Fp.one f))

/-- What the ramp engine keeps within one plan (R301 to R303): in LIN the position lies between the plan's two values, in EXP
those are positive; the speed is no NaN. -/
def inPlan (f : Fmt) (r : Ramp) : Bool :=
  Fp.finite f r.fromVal && Fp.finite f r.toVal && Fp.finite f r.pos && Fp.finite f r.endPos && !Fp.isNaN f r.speed &&
    (match r.curve with
      | .lin =>
        decide (r.endPos = r.toVal) && Fp.le f (Fp.fmin f r.fromVal r.toVal) r.pos && Fp.le f r.pos (Fp.fmax f r.fromVal r.toVal)
      | .exp => Fp.lt f Fp.zero r.fromVal && Fp.lt f Fp.zero r.toVal)

end Sys2Proof.Claims

open Sys2Proof Sys2Proof.Machine Sys2Proof.Claims

/-! ### The machine: decoding, stepping, answering -/

/-- spec/40_commands.md R150 (with R18, R416 where the host issues nothing): a step runs the command that the host's next
words decode to, with that command taken from the host; words that do not decode are answered with ILLEGAL_COMMAND; with no
command the block keeps its state. -/
def Obligations.StepRunsDecodedCommand : Prop :=
  (∀ (s : State) (c : Cmd) (rest : List Cmd) (i : Instr), s.host = c :: rest → decode s.cfg.fmt c = .ok i →
    step s = exec i { s with host := rest }) ∧
  (∀ (s : State) (c : Cmd) (rest : List Cmd) (e : DecodeError), s.host = c :: rest → decode s.cfg.fmt c = .error e →
    step s = .next (rejected { s with host := rest } .illegalCommand)) ∧
  (∀ s : State, s.host = [] → step s = .next s)

/-- Words written out from the formats of spec/30_encoding.md R112 to R118 and the examples of spec/95_test_vectors.md decode
to the commands they stand for. -/
def Obligations.WrittenWordsDecode : Prop :=
  decode .binary32 ⟨0x00000000#32, 0xFFFFFFFF#64⟩ = .ok .nop ∧
  decode .binary32 ⟨0x04000003#32, 0#64⟩ = .ok (.rdbuf 3#24) ∧
  decode .binary32 ⟨0x10000004#32, 0x40000000#64⟩ = .ok (.wport .voice 4#8 0x40000000#64) ∧
  decode .binary32 ⟨0x12000302#32, 0x3F000000#64⟩ = .ok (.wparam .env 2#8 0x3F000000#64) ∧
  decode .binary32 ⟨0x1300071B#32, 0#64⟩ = .ok (.rparam .sys 0x1B#8) ∧
  decode .binary32 ⟨0x20FFFFFF#32, 0xBF000000#64⟩ = .ok (.twrite 0xFFFFFF#24 0xBF000000#64) ∧
  decode .binary32 ⟨0x22000000#32, 0#64⟩ = .ok .sealTables ∧
  decode .binary32 ⟨0x300000F7#32, 0#64⟩ = .ok (.mpush 0xF7#8) ∧
  decode .binary32 ⟨0x02000001#32, 0#64⟩ = .error .mustBeZero ∧
  decode .binary32 ⟨0x05000000#32, 0#64⟩ = .error (.undefinedOpcode 5#8) ∧
  decode .binary32 ⟨0x10000800#32, 0#64⟩ = .error (.noSuchUnit 8#8)

/-- Decode after encode: no bit of any command's encoding is dropped, at any operand. -/
def Obligations.DecodeOfEncodeIsIdentity : Prop :=
  ∀ (f : Fmt) (i : Instr), i.wf f = true → decode f (encode i) = .ok i

/-- Encode after decode: a command word has one meaning. Every command that decodes is well formed and has the decoded command
word (spec/30_encoding.md R111), and its data word is the decoded one where the command takes data (R110). That a DW wider
than FMT_BITS decodes at all, to its FMT_BITS low bits, is the model's choice and no rule of the spec
(notes/assumptions/2.md, DESIGN CHOICE). -/
def Obligations.EncodeOfDecodeIsIdentity : Prop :=
  ∀ (f : Fmt) (c : Cmd) (i : Instr), decode f c = .ok i →
    i.wf f = true ∧ (encode i).cw = c.cw ∧
      (encode i).dw = (match i with
        | .wport _ _ _ => f.trunc c.dw
        | .wparam _ _ _ => f.trunc c.dw
        | .twrite _ _ => f.trunc c.dw
        | _ => 0#64)

/-- spec/30_encoding.md R119: the five kinds of illegal encoding raise ILLEGAL_COMMAND, change no state and return RW = 0;
and no other command word raises it. -/
def Obligations.IllegalEncodingsAreRefused : Prop :=
  ∀ (s : State) (c : Cmd) (rest : List Cmd), s.host = c :: rest →
    (illegalWord c.cw.toNat = true → step s = .next (rejected { s with host := rest } .illegalCommand)) ∧
    (illegalWord c.cw.toNat = false → ∀ t, step s = .next t → statusOf t ≠ some .illegalCommand)

/-- The byte transport: the bytes of a command read back as that command, and what follows them in the stream is left. The
framing (CW and then DW, always with DW) is the model's choice and no rule of the spec (notes/assumptions/23.md, DESIGN
CHOICE); spec/20_memory.md R86 gives the byte order within a word and puts the transport outside the spec. A round trip does
not pin that order: the tests on written bytes do. -/
def Obligations.ByteStreamRoundTrip : Prop :=
  ∀ (f : Fmt) (i : Instr) (rest : List Byte), i.wf f = true → decodeBytes f (encodeBytes f i ++ rest) = .ok (i, rest)

/-- spec/60_exceptions.md R406, R407: a command that raises an error leaves every state field as it was, with RW = 0; the one
exception is PROTOCOL_DECODE_ERROR, which moves a parser that is not in ERROR there, clears its buffer and keeps the queue. -/
def Obligations.ErrorsArePrecise : Prop :=
  ∀ (s t : State) (c : Cmd) (rest : List Cmd) (st : Status), s.host = c :: rest → step s = .next t → statusOf t = some st →
    st ≠ .ok →
    (st ≠ .protocolDecodeError → t = rejected { s with host := rest } st) ∧
    (st = .protocolDecodeError → s.midi.pstate = .error → t = rejected { s with host := rest } st) ∧
    (st = .protocolDecodeError → s.midi.pstate ≠ .error →
      t = rejected { s with host := rest, midi := ⟨.error, 0#8, 0#8, 0#8, 0#2, 0#2, 0#16, s.midi.q⟩ } st)

/-- spec/60_exceptions.md R403, R402: a decoded command answers, and only with the statuses its row of the table allows;
BACKEND_ERROR is in no row. -/
def Obligations.CommandsAnswerTheirStatuses : Prop :=
  ∀ (i : Instr) (s t : State), exec i s = .next t →
    ∃ r, t.resp = some r ∧ mayAnswer i r.st = true ∧ r.st ≠ .backendError ∧ (r.st ≠ .ok → r.rw = 0#64)

/-- spec/60_exceptions.md R405: where several errors apply, the first of the order is reported: the lifecycle before the
address before the data word in TWRITE, the port before the data word in WPORT, the register before it in WPARAM. -/
def Obligations.FirstErrorIsReported : Prop :=
  (∀ (s : State) (a : BitVec 24) (dw : Word), s.lifecycle = .run →
    exec (.twrite a dw) s = .next (rejected s .stateError)) ∧
  (∀ (s : State) (a : BitVec 24) (dw : Word), s.lifecycle = .load → s.cfg.tableSize ≤ a.toNat →
    exec (.twrite a dw) s = .next (rejected s .addressRange)) ∧
  (∀ (s : State) (a : BitVec 24) (dw : Word), s.lifecycle = .load → a.toNat < s.cfg.tableSize →
    Fp.finite s.cfg.fmt dw = false → exec (.twrite a dw) s = .next (rejected s .invalidParameter)) ∧
  (∀ (s : State) (u : UnitId) (sel : Byte) (dw : Word), (u, sel) ∉ portWrites →
    exec (.wport u sel dw) s = .next (rejected s .portMismatch)) ∧
  (∀ (s : State) (u : UnitId) (sel : Byte) (dw : Word), (u, sel) ∈ portWrites → Fp.finite s.cfg.fmt dw = false →
    exec (.wport u sel dw) s = .next (rejected s .invalidParameter)) ∧
  (∀ (s : State) (u : UnitId) (sel : Byte) (dw : Word), (u.code.toNat, sel.toNat, true) ∉ registerRows →
    exec (.wparam u sel dw) s = .next (rejected s .illegalCommand))

/-- spec/60_exceptions.md R417, spec/20_memory.md R84: the model's one fault comes from TICK, TICKB or TREAD alone, and only
where the entry that is read has not been written: the addressed one of TREAD, one of the four that the oscillator of a sample
tick reads. -/
def Obligations.FaultsNeedAnUnwrittenEntry : Prop :=
  ∀ (i : Instr) (s : State) (e : Fault), exec i s = .fault e →
    e = .unwrittenTableRead ∧
    ((∃ a, i = .tread a ∧ a.toNat < s.cfg.tableSize ∧ s.written a.toNat = false) ∨
      (i = .tick ∧ s.lifecycle = .run ∧ oscEntriesWritten s = false) ∨
      (i = .tickb ∧ s.lifecycle = .run ∧
        ∃ n u, n < s.cfg.blockSize ∧ blockTicks n 0 s = .ok u ∧ oscEntriesWritten u = false))

/-- The headline of spec/70_reset_and_hazards.md R444 and spec/60_exceptions.md R417: a block whose every TABLE entry is
written never faults. Whatever the host issues, the step answers, and what the statement assumes holds again after it. The
premise `Cfg.baseOk`, within `audioInv`, is the model's (notes/assumptions/11.md). -/
def Obligations.LoadedBlockNeverFaults : Prop :=
  ∀ s : State, s.audioInv = true → s.tableFull → ∃ t, step s = .next t ∧ t.audioInv = true ∧ t.tableFull

/-! ### Reset -/

/-- spec/40_commands.md R153, spec/70_reset_and_hazards.md R441, R442: RESET sets every field to its reset value but for
LIFECYCLE, TABLE and `written`, and answers OK. -/
def Obligations.ResetCommandRestores : Prop :=
  ∀ s : State, exec .reset s = .next
    { cfg := s.cfg, lifecycle := s.lifecycle, ctrl := ⟨false, false⟩, nonfinite := false, sampleCount := 0#32,
      voice := ⟨Fp.zero, Fp.zero, Fp.zero, Fp.zero, Fp.zero, 255#8⟩,
      ramp := ⟨Fp.zero, Fp.zero, Fp.zero, Fp.zero, Fp.zero, .lin, Fp.ofRat s.cfg.fmt 1 16, Fp.zero⟩,
      osc := ⟨Fp.zero, 0#8, Fp.zero, Fp.zero, Fp.zero, 0#8, Fp.zero, Fp.zero⟩,
      env := ⟨Fp.ofRat s.cfg.fmt 1 128, Fp.ofRat s.cfg.fmt 1 8, Fp.ofRat s.cfg.fmt 1 2, Fp.ofRat s.cfg.fmt 1 4, .releasing,
        Fp.zero, Fp.zero, Fp.zero, Fp.zero⟩,
      gain := ⟨Fp.zero, Fp.zero, Fp.zero⟩,
      filter := ⟨Fp.ofInt s.cfg.fmt 1000, Fp.zero, Fp.invSqrt2 s.cfg.fmt, Fp.zero, Fp.zero, Fp.zero, Fp.zero, Fp.zero, Fp.zero,
        Fp.zero, Fp.zero, Fp.zero, Fp.zero, true, Fp.zero, Fp.zero, Fp.zero⟩,
      midi := ⟨.idle, 0#8, 0#8, 0#8, 0#2, 0#2, 0#16, []⟩,
      table := s.table, outbuf := [], host := s.host, resp := some ⟨.ok, 0#64⟩ }

/-- spec/00_scope.md R6 with R5, spec/70_reset_and_hazards.md R440 and R442: a configuration that breaks a constraint of R5
builds no block; a legal one builds the block whose every field has its reset value, in both formats: LOAD, no TABLE entry
written, every OUTBUF word +0.0, the queue empty. That the bounds of R5 are compared as exact numbers is an inference of the
model (notes/assumptions/24.md, DEDUCED); `host`, `resp` and `cfg` are the model's own fields. -/
def Obligations.PowerOnState : Prop :=
  (∀ c : Cfg, ¬ LegalConfig c → State.construct c = none) ∧
  (∀ c : Cfg, LegalConfig c →
    let f := c.fmt
    ∃ s : State, State.construct c = some s ∧ (∀ a, s.written a = false) ∧ (∀ a, s.outbufRead a = 0#64) ∧
      s = { cfg := c, lifecycle := .load, ctrl := ⟨false, false⟩, nonfinite := false, sampleCount := 0#32
            voice := { inp := 0#64, gate := 0#64, detune := 0#64, fo := 0#64, out := 0#64, note := 255#8 }
            ramp := { fromVal := 0#64, toVal := 0#64, pos := 0#64, speed := 0#64, endPos := 0#64, out := 0#64, curve := .lin
                      duration := pattern f 0x3D800000#64 0x3FB0000000000000#64 }
            osc := { phase := 0#64, bank := 0#8, inp := 0#64, detune := 0#64, feff := 0#64, k := 0#8, frac := 0#64, out := 0#64 }
            env := { attack := pattern f 0x3C000000#64 0x3F80000000000000#64
                     decay := pattern f 0x3E000000#64 0x3FC0000000000000#64
                     sustain := pattern f 0x3F000000#64 0x3FE0000000000000#64
                     release := pattern f 0x3E800000#64 0x3FD0000000000000#64
                     state := .releasing, pos := 0#64, anchor := 0#64, amp := 0#64, gate := 0#64 }
            gain := { gain := 0#64, inp := 0#64, out := 0#64 }
            filter := { base := pattern f 0x447A0000#64 0x408F400000000000#64, depth := 0#64
                        q := pattern f 0x3F3504F3#64 0x3FE6A09E667F3BCD#64, fc := 0#64
                        b0 := 0#64, b1 := 0#64, b2 := 0#64, a1 := 0#64, a2 := 0#64
                        x1 := 0#64, x2 := 0#64, y1 := 0#64, y2 := 0#64, dirty := true, inp := 0#64, fo := 0#64, out := 0#64 }
            midi := { pstate := .idle, buf0 := 0#8, buf1 := 0#8, buf2 := 0#8, blen := 0#2, need := 0#2, sxlen := 0#16, q := [] }
            table := [], outbuf := [], host := [], resp := none })

/-- The invariants of the statements below hold at State.reset. -/
def Obligations.ResetMeetsTheInvariants : Prop :=
  State.reset.memInv = true ∧ State.reset.midiInv = true ∧ State.reset.targetInv = true ∧ State.reset.fitsInv = true ∧
    State.reset.paramInv = true ∧ State.reset.audioInv = true

/-! ### Invariants that every step keeps -/

/-- The memories keep their canonical form and their bounds (R80, R82, R85, R262). -/
def Obligations.StepKeepsMemoryForm : Prop :=
  ∀ s t : State, s.memInv = true → step s = .next t → t.memInv = true

/-- spec/45_gain_voice.md R336: VOICE.in = RAMP.to in every state, bit for bit: kept by every step, and so true of every
state a block can reach. -/
def Obligations.VoiceInEqualsRampTo : Prop :=
  (∀ s t : State, s.voice.inp = s.ramp.toVal → step s = .next t → t.voice.inp = t.ramp.toVal) ∧
  (∀ s : State, Reachable s → s.voice.inp = s.ramp.toVal)

/-- spec/46_midi.md R371 (c), spec/30_encoding.md R126: blen ≤ 2 between commands, need ∈ {0, 2, 3}, count ≤ EVQ_DEPTH, every
event word of KIND 1 to 10, in every state a block can reach; and `midiInv`, which says so, is kept by every step. -/
def Obligations.ParserStateIsBounded : Prop :=
  (∀ s t : State, s.midiInv = true → step s = .next t → t.midiInv = true) ∧
  (∀ s : State, Reachable s →
    s.midi.blen.toNat ≤ 2 ∧ (s.midi.need = 0#2 ∨ s.midi.need = 2#2 ∨ s.midi.need = 3#2) ∧
    s.midi.q.length ≤ s.cfg.evqDepth ∧
    ∀ e ∈ s.midi.q, 1 ≤ (evKind e).toNat ∧ (evKind e).toNat ≤ 10 ∧ e ≠ 0#32)

/-- R110, R117: every REAL field, every word of a memory and every result word keeps to FMT_BITS bits. -/
def Obligations.StepKeepsWordWidths : Prop :=
  ∀ s t : State, s.cfg.valid = true → s.midiInv = true → s.fitsInv = true → step s = .next t → t.fitsInv = true

/-- spec/40_commands.md R160: every parameter keeps a legal value: a value that fails validation never reaches a register. -/
def Obligations.StepKeepsLegalParameters : Prop :=
  ∀ s t : State, s.cfg.valid = true → s.paramInv = true → step s = .next t → t.paramInv = true

/-- spec/10_state.md R40, spec/20_memory.md R83, R49: no command changes the configuration; nothing leaves RUN and only SEAL
enters it; nothing writes TABLE in RUN; a written entry stays written. -/
def Obligations.LifecycleGovernsTables : Prop :=
  ∀ s t : State, step s = .next t →
    t.cfg = s.cfg ∧ (s.lifecycle = .run → t.lifecycle = .run ∧ t.table = s.table) ∧
    (s.lifecycle = .load → t.lifecycle = .run → ∃ c rest, s.host = c :: rest ∧ decode s.cfg.fmt c = .ok .sealTables) ∧
    (∀ a, s.written a = true → t.written a = true)

/-! ### Control commands -/

/-- spec/40_commands.md R154: in LOAD, TICK raises STATE_ERROR. In RUN it performs one sample tick and returns VOICE.out, where
the four entries that its oscillator reads are written; OUTBUF, TABLE and the configuration are unchanged. Where one of them
is not written it meets the model fault (spec/60_exceptions.md R417). -/
def Obligations.TickReturnsItsSample : Prop :=
  ∀ s : State,
    (s.lifecycle = .load → exec .tick s = .next (rejected s .stateError)) ∧
    (s.lifecycle = .run → oscEntriesWritten s = true →
      ∃ t, sampleTick s = .ok t ∧ exec .tick s = .next (answered t t.voice.out) ∧
        t.outbuf = s.outbuf ∧ t.table = s.table ∧ t.cfg = s.cfg) ∧
    (s.lifecycle = .run → oscEntriesWritten s = false → exec .tick s = .fault .unwrittenTableRead)

/-- spec/40_commands.md R156, spec/20_memory.md R85: in LOAD, TICKB raises STATE_ERROR. In RUN it performs BLOCK_SIZE sample
ticks in order and answers with the last output. The new state is, but for OUTBUF, that of the last sample tick; OUTBUF word
n is the output of the n-th one, every other word is as before; SAMPLE_COUNT is up by BLOCK_SIZE modulo 2^32 (R46). It
completes so exactly where every entry that one of the samples reads has been written, and otherwise meets the model fault
(spec/60_exceptions.md R417); it does where TABLE is loaded (R444) and the state meets audioInv, whose `baseOk` is the model's
premise (notes/assumptions/11.md). The canonical form of OUTBUF is the model's too (notes/assumptions/6.md). -/
def Obligations.TickbStoresEverySample : Prop :=
  ∀ s : State,
    (s.lifecycle = .load → exec .tickb s = .next (rejected s .stateError)) ∧
    (s.lifecycle = .run → Memory.wf outbufDefault s.outbuf = true →
      samplesWritten s.cfg.blockSize s = true ∨ (s.audioInv = true ∧ s.tableFull) →
      ∃ (v : State) (m : Memory), samples s.cfg.blockSize s = .ok v ∧
        exec .tickb s = .next (answered { v with outbuf := m } v.voice.out) ∧
        (∀ n, n < s.cfg.blockSize →
          ∃ w, samples (n + 1) s = .ok w ∧ State.outbufRead { v with outbuf := m } n = w.voice.out) ∧
        (∀ a, s.cfg.blockSize ≤ a → State.outbufRead { v with outbuf := m } a = s.outbufRead a) ∧
        v.sampleCount = s.sampleCount + BitVec.ofNat 32 s.cfg.blockSize ∧ v.table = s.table ∧ v.cfg = s.cfg) ∧
    (s.lifecycle = .run → samplesWritten s.cfg.blockSize s = false → exec .tickb s = .fault .unwrittenTableRead)

/-- spec/40_commands.md R155 with spec/44_ramp.md R303, spec/45_gain_voice.md R330 and R337: the stages of a sample tick: the
drain where CTRL.MIDI_DRIVE = 1, the copies, the ramp (R303), the oscillator on its output, the envelope on the gate, the product (R330),
and VOICE.out from the filter or past it. The drain (R337) takes every event, oldest first. -/
def Obligations.SampleTickStages : Prop :=
  (∀ s t : State, sampleTick s = .ok t →
    ∃ u : State, u = (if s.ctrl.midiDrive then voiceDrain s else s) ∧
      t.ramp = { u.ramp with
        out := u.ramp.value s.cfg.fmt
        pos := Fp.clamp s.cfg.fmt (Fp.add s.cfg.fmt u.ramp.pos u.ramp.speed)
          (Fp.fmin s.cfg.fmt (if u.ramp.curve = .lin then u.ramp.fromVal else Fp.zero) u.ramp.endPos)
          (Fp.fmax s.cfg.fmt (if u.ramp.curve = .lin then u.ramp.fromVal else Fp.zero) u.ramp.endPos) } ∧
      Osc.tick s.cfg s.table { s.osc with inp := t.ramp.out, detune := u.voice.detune } = .ok t.osc ∧
      t.env = Env.tick s.cfg { s.env with gate := u.voice.gate } ∧
      t.gain = ⟨t.env.amp, t.osc.out, Fp.mul s.cfg.fmt t.osc.out t.env.amp⟩ ∧
      (s.ctrl.filterEn = true → t.filter = Filter.tick s.cfg { s.filter with inp := t.gain.out, fo := u.voice.fo }) ∧
      t.voice = { u.voice with out := if s.ctrl.filterEn then t.filter.out else t.gain.out }) ∧
  (∀ s : State, s.midi.q = [] → voiceDrain s = s) ∧
  (∀ (s : State) (e : BitVec 32) (rest : List (BitVec 32)), s.midi.q = e :: rest →
    voiceDrain s = voiceDrain (applyEvent e { s with midi := { s.midi with q := rest } }))

/-- spec/45_gain_voice.md R343: wiring fidelity, bit for bit, after every sample tick. -/
def Obligations.WiringFidelity : Prop :=
  ∀ s t : State, sampleTick s = .ok t →
    t.osc.inp = t.ramp.out ∧ t.env.gate = t.voice.gate ∧ t.osc.detune = t.voice.detune ∧ t.filter.fo = t.voice.fo ∧
    t.gain.inp = t.osc.out ∧ t.gain.gain = t.env.amp ∧
    (t.ctrl.filterEn = true → t.filter.inp = t.gain.out ∧ t.voice.out = t.filter.out) ∧
    (t.ctrl.filterEn = false → t.voice.out = t.gain.out)

/-- The frame of a sample tick (spec/40_commands.md R155): what it leaves unchanged, and its two counters: SAMPLE_COUNT goes
up by one modulo 2^32, NONFINITE is set where VOICE.out is not finite and is never cleared (spec/10_state.md R43). -/
def Obligations.SampleTickFrame : Prop :=
  ∀ s t : State, sampleTick s = .ok t →
    t.cfg = s.cfg ∧ t.lifecycle = s.lifecycle ∧ t.ctrl = s.ctrl ∧ t.table = s.table ∧ t.outbuf = s.outbuf ∧
    t.host = s.host ∧ t.resp = s.resp ∧ t.sampleCount = s.sampleCount + 1#32 ∧
    t.nonfinite = (s.nonfinite || !Fp.finite s.cfg.fmt t.voice.out) ∧
    t.voice.detune = s.voice.detune ∧ t.voice.fo = s.voice.fo ∧
    t.midi = { s.midi with q := if s.ctrl.midiDrive then [] else s.midi.q } ∧
    t.ramp.curve = s.ramp.curve ∧ t.ramp.duration = s.ramp.duration ∧ t.osc.bank = s.osc.bank ∧
    (t.env.attack = s.env.attack ∧ t.env.decay = s.env.decay ∧ t.env.sustain = s.env.sustain ∧
      t.env.release = s.env.release) ∧
    (t.filter.base = s.filter.base ∧ t.filter.depth = s.filter.depth ∧ t.filter.q = s.filter.q) ∧
    (s.ctrl.midiDrive = false →
      t.voice.inp = s.voice.inp ∧ t.voice.gate = s.voice.gate ∧ t.voice.note = s.voice.note ∧
      t.ramp.fromVal = s.ramp.fromVal ∧ t.ramp.toVal = s.ramp.toVal ∧ t.ramp.speed = s.ramp.speed ∧
      t.ramp.endPos = s.ramp.endPos)

/-- spec/40_commands.md R157: RDBUF returns the word of OUTBUF, in either lifecycle state, or raises ADDRESS_RANGE; it
changes nothing. -/
def Obligations.RdbufReadsOneWord : Prop :=
  ∀ (s : State) (a : BitVec 24),
    (a.toNat < s.cfg.blockSize → exec (.rdbuf a) s = .next (answered s (s.outbufRead a.toNat))) ∧
    (s.cfg.blockSize ≤ a.toNat → exec (.rdbuf a) s = .next (rejected s .addressRange))

/-! ### Ports -/

/-- spec/45_gain_voice.md R332, spec/44_ramp.md R301, R302, R305: WPORT VOICE.in plans a glide from the ramp's current value to
the target, the planned ramp given field by field, and sets VOICE.in; it raises INVALID_PARAMETER outside [0, FS/2] and, in
EXP, where exp_ok fails. -/
def Obligations.WportVoiceInPlansAGlide : Prop :=
  ∀ (s : State) (dw : Word),
    (Fp.finite s.cfg.fmt dw = true → Fp.lt s.cfg.fmt dw Fp.zero = false → Fp.lt s.cfg.fmt s.cfg.halfFs dw = false →
      (s.ramp.curve = .exp → planOk s.cfg.fmt (rampNow s.cfg.fmt s.ramp) dw = true) →
      exec (.wport .voice 0#8 dw) s = .next (answered
        { s with
          ramp := planned s.cfg (rampNow s.cfg.fmt s.ramp) dw s.ramp
          voice := { s.voice with inp := dw } } 0#64)) ∧
    (Fp.finite s.cfg.fmt dw = false ∨ Fp.lt s.cfg.fmt dw Fp.zero = true ∨ Fp.lt s.cfg.fmt s.cfg.halfFs dw = true ∨
        (s.ramp.curve = .exp ∧ planOk s.cfg.fmt (rampNow s.cfg.fmt s.ramp) dw = false) →
      exec (.wport .voice 0#8 dw) s = .next (rejected s .invalidParameter))

/-- spec/45_gain_voice.md R333, R334, R335: the gate, detune and filterOffset ports: what each writes, and what it refuses.
The filterOffset write makes the coefficients dirty (spec/42_filter.md R235). -/
def Obligations.WportWritesItsLatch : Prop :=
  ∀ (s : State) (dw : Word),
    (Fp.finite s.cfg.fmt dw = true →
      exec (.wport .voice 2#8 dw) s = .next (answered { s with voice := { s.voice with gate := dw } } 0#64)) ∧
    (Fp.finite s.cfg.fmt dw = true → Fp.lt s.cfg.fmt s.cfg.detuneMax (Fp.abs s.cfg.fmt dw) = false →
      exec (.wport .voice 3#8 dw) s = .next (answered { s with voice := { s.voice with detune := dw } } 0#64)) ∧
    (Fp.finite s.cfg.fmt dw = true →
      exec (.wport .voice 4#8 dw) s = .next (answered
        { s with voice := { s.voice with fo := dw }, filter := { s.filter with dirty := true } } 0#64)) ∧
    (Fp.finite s.cfg.fmt dw = false →
      exec (.wport .voice 2#8 dw) s = .next (rejected s .invalidParameter) ∧
      exec (.wport .voice 3#8 dw) s = .next (rejected s .invalidParameter) ∧
      exec (.wport .voice 4#8 dw) s = .next (rejected s .invalidParameter)) ∧
    (Fp.lt s.cfg.fmt s.cfg.detuneMax (Fp.abs s.cfg.fmt dw) = true →
      exec (.wport .voice 3#8 dw) s = .next (rejected s .invalidParameter))

/-- spec/40_commands.md R162: PORT_MISMATCH is raised exactly when a WPORT names a pair that is not W, or an RPORT a pair
that is not R, in R33; it changes no state. -/
def Obligations.PortMismatchExactly : Prop :=
  ∀ (s : State) (u : UnitId) (sel : Byte) (dw : Word),
    ((u, sel) ∉ portWrites → exec (.wport u sel dw) s = .next (rejected s .portMismatch)) ∧
    ((u, sel) ∈ portWrites → ∀ t, exec (.wport u sel dw) s = .next t → statusOf t ≠ some .portMismatch) ∧
    ((u, sel) ∉ portReads.map (fun r => (r.1, r.2.1)) → exec (.rport u sel) s = .next (rejected s .portMismatch)) ∧
    ((u, sel) ∈ portReads.map (fun r => (r.1, r.2.1)) → ∀ t, exec (.rport u sel) s = .next t →
      statusOf t ≠ some .portMismatch)

/-- spec/40_commands.md R159, spec/10_state.md R33: RPORT of a pair marked R returns the field the matrix names, bit for
bit, and changes nothing. -/
def Obligations.RportReturnsItsLatch : Prop :=
  ∀ s : State, ∀ r ∈ portReads, exec (.rport r.1 r.2.1) s = .next (answered s (r.2.2 s))

/-! ### Parameters -/

/-- spec/41_envelope.md R201, R202, R211: the four envelope parameters: what each write stores, what it refuses, and that it
changes only its own field. -/
def Obligations.WparamEnvelopeParameters : Prop :=
  ∀ (s : State) (dw : Word),
    (Fp.finite s.cfg.fmt dw = true → Fp.le s.cfg.fmt dw Fp.zero = false →
      exec (.wparam .env 0#8 dw) s = .next (answered { s with env := { s.env with attack := dw } } 0#64) ∧
      exec (.wparam .env 1#8 dw) s = .next (answered { s with env := { s.env with decay := dw } } 0#64) ∧
      exec (.wparam .env 3#8 dw) s = .next (answered { s with env := { s.env with release := dw } } 0#64)) ∧
    (Fp.finite s.cfg.fmt dw = false ∨ Fp.le s.cfg.fmt dw Fp.zero = true →
      exec (.wparam .env 0#8 dw) s = .next (rejected s .invalidParameter) ∧
      exec (.wparam .env 1#8 dw) s = .next (rejected s .invalidParameter) ∧
      exec (.wparam .env 3#8 dw) s = .next (rejected s .invalidParameter)) ∧
    (Fp.finite s.cfg.fmt dw = true → Fp.lt s.cfg.fmt dw Fp.zero = false → Fp.lt s.cfg.fmt (Fp.one s.cfg.fmt) dw = false →
      exec (.wparam .env 2#8 dw) s = .next (answered { s with env := { s.env with sustain := dw } } 0#64)) ∧
    (Fp.finite s.cfg.fmt dw = false ∨ Fp.lt s.cfg.fmt dw Fp.zero = true ∨ Fp.lt s.cfg.fmt (Fp.one s.cfg.fmt) dw = true →
      exec (.wparam .env 2#8 dw) s = .next (rejected s .invalidParameter))

/-- spec/44_ramp.md R306, R304, R307: RAMP.VALUE jumps, the ramp given field by field, and sets VOICE.in; RAMP.DURATION stores
the duration of the next plan. -/
def Obligations.WparamRampValueAndDuration : Prop :=
  ∀ (s : State) (dw : Word),
    (Fp.finite s.cfg.fmt dw = true → Fp.lt s.cfg.fmt dw Fp.zero = false → Fp.lt s.cfg.fmt s.cfg.halfFs dw = false →
      (s.ramp.curve = .exp → Fp.lt s.cfg.fmt Fp.zero dw = true) →
      exec (.wparam .ramp 0#8 dw) s = .next (answered
        { s with ramp := jumped dw s.ramp, voice := { s.voice with inp := dw } } 0#64)) ∧
    (Fp.finite s.cfg.fmt dw = false ∨ Fp.lt s.cfg.fmt dw Fp.zero = true ∨ Fp.lt s.cfg.fmt s.cfg.halfFs dw = true ∨
        (s.ramp.curve = .exp ∧ Fp.lt s.cfg.fmt Fp.zero dw = false) →
      exec (.wparam .ramp 0#8 dw) s = .next (rejected s .invalidParameter)) ∧
    (Fp.finite s.cfg.fmt dw = true → Fp.le s.cfg.fmt dw Fp.zero = false →
      exec (.wparam .ramp 1#8 dw) s = .next (answered { s with ramp := { s.ramp with duration := dw } } 0#64)) ∧
    (Fp.finite s.cfg.fmt dw = false ∨ Fp.le s.cfg.fmt dw Fp.zero = true →
      exec (.wparam .ramp 1#8 dw) s = .next (rejected s .invalidParameter))

/-- spec/44_ramp.md R308, R301, R302, R305: RAMP.CURVE: the current kind changes nothing; a switch re-plans from the current
value, taken under the old kind, to the target under the new kind; a switch to EXP that fails exp_ok, and a kind above 1, are
refused. -/
def Obligations.WparamRampCurveSwitches : Prop :=
  ∀ (s : State) (dw : Word) (k : Curve),
    (dw = (if k = .lin then 0#64 else 1#64) → k = s.ramp.curve →
      exec (.wparam .ramp 2#8 dw) s = .next (answered s 0#64)) ∧
    (dw = (if k = .lin then 0#64 else 1#64) → k ≠ s.ramp.curve →
      (k = .exp → planOk s.cfg.fmt (rampNow s.cfg.fmt s.ramp) s.ramp.toVal = true) →
      exec (.wparam .ramp 2#8 dw) s = .next (answered
        { s with ramp := planned s.cfg (rampNow s.cfg.fmt s.ramp) s.ramp.toVal { s.ramp with curve := k } } 0#64)) ∧
    (dw = 1#64 → s.ramp.curve = .lin → planOk s.cfg.fmt (rampNow s.cfg.fmt s.ramp) s.ramp.toVal = false →
      exec (.wparam .ramp 2#8 dw) s = .next (rejected s .invalidParameter)) ∧
    (1 < dw.toNat → exec (.wparam .ramp 2#8 dw) s = .next (rejected s .invalidParameter))

/-- spec/43_oscillator.md R265, R272: OSC.BANK and OSC.PHASE: the legal sets and the one field each writes. -/
def Obligations.WparamOscillator : Prop :=
  ∀ (s : State) (dw : Word), s.cfg.numBanks ≤ 255 →
    (dw.toNat < s.cfg.numBanks → ∃ b : Byte, b.toNat = dw.toNat ∧
      exec (.wparam .osc 0#8 dw) s = .next (answered { s with osc := { s.osc with bank := b } } 0#64)) ∧
    (s.cfg.numBanks ≤ dw.toNat → exec (.wparam .osc 0#8 dw) s = .next (rejected s .invalidParameter)) ∧
    (Fp.finite s.cfg.fmt dw = true → Fp.lt s.cfg.fmt dw Fp.zero = false → Fp.le s.cfg.fmt (Fp.one s.cfg.fmt) dw = false →
      exec (.wparam .osc 1#8 dw) s = .next (answered { s with osc := { s.osc with phase := dw } } 0#64)) ∧
    (Fp.finite s.cfg.fmt dw = false ∨ Fp.lt s.cfg.fmt dw Fp.zero = true ∨ Fp.le s.cfg.fmt (Fp.one s.cfg.fmt) dw = true →
      exec (.wparam .osc 1#8 dw) s = .next (rejected s .invalidParameter))

/-- spec/42_filter.md R231, R232, R233: BASE, DEPTH and Q, each with FILTER.dirty <- 1; Q below Q_MIN is refused; a rejected
write does not set the flag. -/
def Obligations.WparamFilter : Prop :=
  ∀ (s : State) (dw : Word),
    (Fp.finite s.cfg.fmt dw = true →
      exec (.wparam .filter 0#8 dw) s =
        .next (answered { s with filter := { s.filter with base := dw, dirty := true } } 0#64) ∧
      exec (.wparam .filter 1#8 dw) s =
        .next (answered { s with filter := { s.filter with depth := dw, dirty := true } } 0#64)) ∧
    (Fp.finite s.cfg.fmt dw = true → Fp.lt s.cfg.fmt dw s.cfg.qMin = false →
      exec (.wparam .filter 2#8 dw) s =
        .next (answered { s with filter := { s.filter with q := dw, dirty := true } } 0#64)) ∧
    (Fp.finite s.cfg.fmt dw = false →
      exec (.wparam .filter 0#8 dw) s = .next (rejected s .invalidParameter) ∧
      exec (.wparam .filter 1#8 dw) s = .next (rejected s .invalidParameter)) ∧
    (Fp.finite s.cfg.fmt dw = false ∨ Fp.lt s.cfg.fmt dw s.cfg.qMin = true →
      exec (.wparam .filter 2#8 dw) s = .next (rejected s .invalidParameter))

/-- spec/40_commands.md R164, R165: SYS.CTRL stores its two bits and refuses a word with a reserved bit; SYS.STATUS clears
NONFINITE where bit 2 is 1, ignores every other bit and never raises. -/
def Obligations.WparamSys : Prop :=
  ∀ (s : State) (dw : Word),
    (dw.toNat < 4 →
      exec (.wparam .sys 0#8 dw) s = .next (answered { s with ctrl := ⟨dw.getLsbD 0, dw.getLsbD 1⟩ } 0#64)) ∧
    (4 ≤ dw.toNat → exec (.wparam .sys 0#8 dw) s = .next (rejected s .invalidParameter)) ∧
    (dw.getLsbD 2 = true → exec (.wparam .sys 1#8 dw) s = .next (answered { s with nonfinite := false } 0#64)) ∧
    (dw.getLsbD 2 = false → exec (.wparam .sys 1#8 dw) s = .next (answered s 0#64))

/-- spec/40_commands.md R161, spec/10_state.md R45, R44: RPARAM of every listed register but STATUS returns its field,
encoded by its kind, RAMP.VALUE returning val(), and changes nothing; an unlisted register raises ILLEGAL_COMMAND. -/
def Obligations.RparamReturnsItsRegister : Prop :=
  (∀ s : State, ∀ r ∈ registerReads, exec (.rparam r.1 r.2.1) s = .next (answered s (r.2.2 s))) ∧
  (∀ s : State, exec (.rparam .ramp 0#8) s = .next (answered s (s.ramp.value s.cfg.fmt))) ∧
  (∀ (s : State) (u : UnitId) (sel : Byte), (registerRows.all fun r => !(r.1 == u.code.toNat && r.2.1 == sel.toNat)) = true →
    exec (.rparam u sel) s = .next (rejected s .illegalCommand))

/-- spec/10_state.md R42: every bit of STATUS as RPARAM returns it; the read changes nothing. That bit 10 compares RAMP.pos with
RAMP.end as numbers, so that −0.0 equals +0.0, is an inference of the model (notes/assumptions/13.md, DEDUCED). -/
def Obligations.StatusReadsItsFields : Prop :=
  ∀ s : State, ∃ w : Word, exec (.rparam .sys 1#8) s = .next (answered s w) ∧
    w.getLsbD 0 = decide (s.lifecycle = .run) ∧
    w.getLsbD 1 = decide (s.midi.pstate = .error) ∧
    w.getLsbD 2 = s.nonfinite ∧
    w.getLsbD 3 = decide (s.midi.q.length = s.cfg.evqDepth) ∧
    w.getLsbD 4 = decide (0 < s.midi.q.length) ∧
    w.getLsbD 5 = false ∧ w.getLsbD 6 = false ∧ w.getLsbD 7 = false ∧
    (w.extractLsb' 8 2).toNat = (match s.env.state with
      | .attacking => 0
      | .decaying => 1
      | .sustaining => 2
      | .releasing => 3) ∧
    w.getLsbD 10 = !Fp.eq s.cfg.fmt s.ramp.pos s.ramp.endPos ∧
    w.getLsbD 11 = s.filter.dirty ∧
    (∀ n, 12 ≤ n → w.getLsbD n = false)

/-! ### Tables -/

/-- spec/43_oscillator.md R262, R263, spec/20_memory.md R94: in LOAD a TWRITE of a finite word within TABLE answers OK, changes
that entry alone and sets its written bit, and a TREAD of it then returns the word. TREAD returns a written entry and changes
nothing, in either lifecycle state; an entry never written is the model fault; an address outside TABLE raises
ADDRESS_RANGE. -/
def Obligations.TablesHoldWhatIsWritten : Prop :=
  ∀ (s : State) (a : BitVec 24),
    (∀ dw : Word, s.lifecycle = .load → a.toNat < s.cfg.tableSize → Fp.finite s.cfg.fmt dw = true →
      ∃ m : Memory, exec (.twrite a dw) s = .next (answered { s with table := m } 0#64) ∧
        (let t := answered { s with table := m } 0#64
         t.tableRead a.toNat = some dw ∧ t.written a.toNat = true ∧
          (∀ b, b ≠ a.toNat → t.tableRead b = s.tableRead b ∧ t.written b = s.written b) ∧
          exec (.tread a) t = .next (answered t dw))) ∧
    (a.toNat < s.cfg.tableSize → s.written a.toNat = true →
      ∃ w, s.tableRead a.toNat = some w ∧ exec (.tread a) s = .next (answered s w)) ∧
    (a.toNat < s.cfg.tableSize → s.written a.toNat = false → exec (.tread a) s = .fault .unwrittenTableRead) ∧
    (s.cfg.tableSize ≤ a.toNat → exec (.tread a) s = .next (rejected s .addressRange))

/-- spec/40_commands.md R152: NOP answers (OK, 0) and changes nothing. spec/43_oscillator.md R264: SEAL moves LOAD to RUN and
changes nothing else; in RUN it raises STATE_ERROR. -/
def Obligations.NopAndSeal : Prop :=
  ∀ s : State,
    exec .nop s = .next (answered s 0#64) ∧
    (s.lifecycle = .load → exec .sealTables s = .next (answered { s with lifecycle := .run } 0#64)) ∧
    (s.lifecycle = .run → exec .sealTables s = .next (rejected s .stateError))

/-! ### MIDI -/

/-- spec/46_midi.md R362, R367: a byte in IDLE: a channel-voice or system-common status byte starts a message of its
length; 0xF0 starts a SysEx; a one-byte message is queued where there is room; every other byte breaks the stream. -/
def Obligations.IdleByteRule : Prop :=
  ∀ (s : State) (b : Byte), s.midi.pstate = .idle →
    (0x80 ≤ b.toNat → (b.toNat < 0xF0 ∨ b = 0xF1#8 ∨ b = 0xF2#8 ∨ b = 0xF3#8) →
      exec (.mpush b) s = .next (answered
        { s with midi := { s.midi with
            pstate := .msg, buf0 := b, blen := 1#2
            need := if (0xC0 ≤ b.toNat ∧ b.toNat < 0xE0) ∨ b = 0xF1#8 ∨ b = 0xF3#8 then 2#2 else 3#2 } }
        (word s.midi.q.length))) ∧
    (b = 0xF0#8 → exec (.mpush b) s = .next (answered
      { s with midi := { s.midi with pstate := .sysex, sxlen := 0#16 } } (word s.midi.q.length))) ∧
    (b = 0xF6#8 ∨ 0xF8 ≤ b.toNat → s.midi.q.length ≠ s.cfg.evqDepth →
      ∃ e : BitVec 32, exec (.mpush b) s = .next (answered
          { s with midi := { s.midi with q := s.midi.q ++ [e] } } (word (s.midi.q.length + 1))) ∧
        e.toNat = (if b = 0xF6#8 then 9 else 10) * 2 ^ 28 + b.toNat * 2 ^ 16) ∧
    (b.toNat < 0x80 ∨ b = 0xF4#8 ∨ b = 0xF5#8 ∨ b = 0xF7#8 →
      exec (.mpush b) s = .next (rejected
        { s with midi := ⟨.error, 0#8, 0#8, 0#8, 0#2, 0#2, 0#16, s.midi.q⟩ } .protocolDecodeError))

/-- spec/46_midi.md R363, R367: a byte inside a message: a status byte breaks the stream; a data byte that does not complete
the message is stored; one that does queues the decoded event where there is room and leaves the parser in IDLE with its
buffer reset. -/
def Obligations.MessageByteRule : Prop :=
  ∀ (s : State) (b : Byte), s.midi.pstate = .msg →
    (0x80 ≤ b.toNat → exec (.mpush b) s = .next (rejected
      { s with midi := ⟨.error, 0#8, 0#8, 0#8, 0#2, 0#2, 0#16, s.midi.q⟩ } .protocolDecodeError)) ∧
    (b.toNat < 0x80 → s.midi.blen = 1#2 → s.midi.need = 3#2 →
      exec (.mpush b) s = .next (answered
        { s with midi := { s.midi with buf1 := b, blen := 2#2 } } (word s.midi.q.length))) ∧
    (b.toNat < 0x80 → s.midi.blen = 1#2 → s.midi.need = 2#2 → s.midi.q.length ≠ s.cfg.evqDepth →
      exec (.mpush b) s = .next (answered
        { s with midi := ⟨.idle, 0#8, 0#8, 0#8, 0#2, 0#2, s.midi.sxlen, s.midi.q ++ [decodeMsg s.midi.buf0 b 0#8]⟩ }
        (word (s.midi.q.length + 1)))) ∧
    (b.toNat < 0x80 → s.midi.blen = 2#2 → s.midi.need = 3#2 → s.midi.q.length ≠ s.cfg.evqDepth →
      exec (.mpush b) s = .next (answered
        { s with midi := ⟨.idle, 0#8, 0#8, 0#8, 0#2, 0#2, s.midi.sxlen,
            s.midi.q ++ [decodeMsg s.midi.buf0 s.midi.buf1 b]⟩ }
        (word (s.midi.q.length + 1))))

/-- spec/46_midi.md R364, R367: a byte inside a SysEx: 0xF7 queues the length where there is room and ends it; any other
status byte breaks the stream; a data byte is counted, saturating at 0xFFFF. -/
def Obligations.SysexByteRule : Prop :=
  ∀ (s : State) (b : Byte), s.midi.pstate = .sysex →
    (b = 0xF7#8 → s.midi.q.length ≠ s.cfg.evqDepth →
      ∃ e : BitVec 32, exec (.mpush b) s = .next (answered
          { s with midi := { s.midi with pstate := .idle, sxlen := 0#16, q := s.midi.q ++ [e] } }
          (word (s.midi.q.length + 1))) ∧
        e.toNat = 8 * 2 ^ 28 + 0xF0 * 2 ^ 16 + s.midi.sxlen.toNat) ∧
    (0x80 ≤ b.toNat → b ≠ 0xF7#8 → exec (.mpush b) s = .next (rejected
      { s with midi := ⟨.error, 0#8, 0#8, 0#8, 0#2, 0#2, 0#16, s.midi.q⟩ } .protocolDecodeError)) ∧
    (b.toNat < 0x80 → ∃ n : BitVec 16, n.toNat = min (s.midi.sxlen.toNat + 1) 0xFFFF ∧
      exec (.mpush b) s = .next (answered
        { s with midi := { s.midi with sxlen := n } } (word s.midi.q.length)))

/-- spec/46_midi.md R361, R365: in ERROR every byte is rejected and nothing changes; a byte that would emit an event into a
full queue is not consumed. -/
def Obligations.RejectedBytesAreNotConsumed : Prop :=
  ∀ (s : State) (b : Byte),
    (s.midi.pstate = .error → exec (.mpush b) s = .next (rejected s .protocolDecodeError)) ∧
    (s.midi.pstate = .idle → (b = 0xF6#8 ∨ 0xF8 ≤ b.toNat) → s.midi.q.length = s.cfg.evqDepth →
      exec (.mpush b) s = .next (rejected s .queueFull)) ∧
    (s.midi.pstate = .msg → b.toNat < 0x80 → s.midi.blen.toNat + 1 = s.midi.need.toNat →
      s.midi.q.length = s.cfg.evqDepth → exec (.mpush b) s = .next (rejected s .queueFull)) ∧
    (s.midi.pstate = .sysex → b = 0xF7#8 → s.midi.q.length = s.cfg.evqDepth →
      exec (.mpush b) s = .next (rejected s .queueFull))

/-- spec/30_encoding.md R125, R127, spec/46_midi.md R366: the event word of every message. A channel-voice message: KIND by the
status nibble, CHAN its low nibble, then STATUS, D1, D2. A system-common one (F1, F2, F3, F6): KIND 9, CHAN 0, STATUS, D1, D2.
A realtime one: KIND 10, CHAN 0, STATUS, D1 = D2 = 0. A SysEx: KIND 8, CHAN 0, STATUS F0 and the length. -/
def Obligations.EventWordFields : Prop :=
  (∀ st d1 d2 : Byte,
    (0x80 ≤ st.toNat → st.toNat < 0xF0 → (decodeMsg st d1 d2).toNat =
      (st.toNat / 16 - 7) * 2 ^ 28 + st.toNat % 16 * 2 ^ 24 + st.toNat * 2 ^ 16 + d1.toNat * 2 ^ 8 + d2.toNat) ∧
    (st = 0xF1#8 ∨ st = 0xF2#8 ∨ st = 0xF3#8 ∨ st = 0xF6#8 → (decodeMsg st d1 d2).toNat =
      9 * 2 ^ 28 + st.toNat * 2 ^ 16 + d1.toNat * 2 ^ 8 + d2.toNat) ∧
    (0xF8 ≤ st.toNat → (decodeMsg st d1 d2).toNat = 10 * 2 ^ 28 + st.toNat * 2 ^ 16)) ∧
  (∀ n : BitVec 16, (decodeSysex n).toNat = 8 * 2 ^ 28 + 0xF0 * 2 ^ 16 + n.toNat)

/-- spec/46_midi.md R371 (a), R370, for every channel, note and velocity: the three bytes of a NoteOn pushed from IDLE into
a queue with room answer OK and queue exactly one event; a fourth data byte (running status) is a decode error and leaves
the parser in ERROR with the event kept. -/
def Obligations.NoteOnBytesGiveOneEvent : Prop :=
  ∀ (s : State) (st n v x : Byte), s.midi.pstate = .idle → s.midi.q.length < s.cfg.evqDepth →
    st.toNat / 16 = 9 → n.toNat < 128 → v.toNat < 128 → x.toNat < 128 →
    (pushes [st, n, v] s).2 = [some .ok, some .ok, some .ok] ∧
    (pushes [st, n, v] s).1.midi.q = s.midi.q ++ [decodeMsg st n v] ∧
    (pushes [st, n, v] s).1.midi.pstate = .idle ∧
    (pushes [st, n, v, x] s).2 = [some .ok, some .ok, some .ok, some .protocolDecodeError] ∧
    (pushes [st, n, v, x] s).1.midi.q = s.midi.q ++ [decodeMsg st n v] ∧
    (pushes [st, n, v, x] s).1.midi.pstate = .error

/-- spec/46_midi.md R364: a SysEx of any length: the bytes 0xF0, `n` data bytes and 0xF7, pushed from IDLE into a queue with
room, all answer OK and queue exactly one event, whose {D1, D2} is min(n, 0xFFFF). -/
def Obligations.SysexOfAnyLength : Prop :=
  ∀ (s : State) (bs : List Byte), s.midi.pstate = .idle → s.midi.q.length < s.cfg.evqDepth →
    (∀ b ∈ bs, b.toNat < 0x80) →
    (pushes ([0xF0#8] ++ bs ++ [0xF7#8]) s).2 = List.replicate (bs.length + 2) (some .ok) ∧
    (pushes ([0xF0#8] ++ bs ++ [0xF7#8]) s).1.midi.pstate = .idle ∧
    (pushes ([0xF0#8] ++ bs ++ [0xF7#8]) s).1.midi.q =
      s.midi.q ++ [BitVec.ofNat 32 (0x80F00000 + min bs.length 0xFFFF)]

/-- spec/46_midi.md R368: MPOP returns the oldest event and removes it, in any parser state; with no event it raises
QUEUE_EMPTY. R369: MRESET returns the parser to IDLE with an empty buffer and keeps the event queue and every other unit. -/
def Obligations.MpopAndMreset : Prop :=
  ∀ s : State,
    (∀ e rest, s.midi.q = e :: rest →
      exec .mpop s = .next (answered { s with midi := { s.midi with q := rest } } (word e.toNat))) ∧
    (s.midi.q = [] → exec .mpop s = .next (rejected s .queueEmpty)) ∧
    exec .mreset s = .next (answered { s with midi := ⟨.idle, 0#8, 0#8, 0#8, 0#2, 0#2, 0#16, s.midi.q⟩ } 0#64)

/-! ### The voice -/

/-- spec/45_gain_voice.md R338 to R340, R342, spec/44_ramp.md R301, R302, R304, R305: the effect of one drained event. A NoteOn
of velocity > 0 sets the note, the gate and the frequency, and the ramp glides there, or jumps where an exponential plan would
be invalid, the ramp given field by field; a NoteOff, or a NoteOn of velocity 0, of the current note releases the gate; every
other event changes nothing. -/
def Obligations.DrainedEventRule : Prop :=
  ∀ (s : State) (e : BitVec 32),
    (evKind e = 2#4 → evD2 e ≠ 0#8 → applyEvent e s =
      { s with
        voice := { s.voice with note := evD1 e, gate := Fp.one s.cfg.fmt, inp := noteFreq s.cfg.fmt (evD1 e) }
        ramp := if s.ramp.curve = .exp ∧
              planOk s.cfg.fmt (rampNow s.cfg.fmt s.ramp) (noteFreq s.cfg.fmt (evD1 e)) = false
          then jumped (noteFreq s.cfg.fmt (evD1 e)) s.ramp
          else planned s.cfg (rampNow s.cfg.fmt s.ramp) (noteFreq s.cfg.fmt (evD1 e)) s.ramp }) ∧
    (evKind e = 1#4 ∨ (evKind e = 2#4 ∧ evD2 e = 0#8) → evD1 e = s.voice.note →
      applyEvent e s = { s with voice := { s.voice with gate := Fp.zero, note := 255#8 } }) ∧
    (evKind e = 1#4 ∨ (evKind e = 2#4 ∧ evD2 e = 0#8) → evD1 e ≠ s.voice.note → applyEvent e s = s) ∧
    (evKind e ≠ 1#4 → evKind e ≠ 2#4 → applyEvent e s = s)

/-- spec/45_gain_voice.md R341: a note's frequency; note_freq(69) = 440.0, note_freq(57) = 220.0 and note_freq(81) = 880.0
exactly, in both formats, whatever EXP2 is within its laws; and every value for n in 0 to 127 lies in [6.875, 14080]. -/
def Obligations.NoteFrequencies : Prop :=
  (∀ (f : Fmt) (n : Byte), noteFreq f n = Fp.mul f (Fp.ofInt f 440)
    (Fp.exp2 f (Fp.div f (Fp.sub f (Fp.ofInt f n.toNat) (Fp.ofInt f 69)) (Fp.ofInt f 12)))) ∧
  (∀ f : Fmt, noteFreq f 69#8 = Fp.ofInt f 440 ∧ noteFreq f 57#8 = Fp.ofInt f 220 ∧ noteFreq f 81#8 = Fp.ofInt f 880) ∧
  (∀ (f : Fmt) (n : Byte), n.toNat < 128 →
    Fp.le f (Fp.ofRat f 55 8) (noteFreq f n) = true ∧ Fp.le f (noteFreq f n) (Fp.ofInt f 14080) = true)

/-- spec/44_ramp.md R304: after a jump to `v` every tick outputs exactly `v`: the tick leaves the jumped ramp as it is but for
RAMP.out. (Of −0.0 the clause holds up to the sign of zero only, so it is excepted.) -/
def Obligations.JumpHoldsItsValue : Prop :=
  ∀ (f : Fmt) (r : Ramp) (v : Word), Fp.finite f v = true → f.fits v = true → v ≠ Fp.neg f Fp.zero →
    (r.curve = .exp → Fp.lt f Fp.zero v = true) →
    (r.jump v).tick f = { r.jump v with out := v }

/-- spec/44_ramp.md R310 (a), with R301 to R305: no overshoot. A plan of finite values, a valid one in EXP, and a jump leave the
ramp within its plan; a tick from there outputs a value in [min(from, to), max(from, to)] and stays there. -/
def Obligations.RampNeverOvershoots : Prop :=
  (∀ (c : Cfg) (r : Ramp) (a b : Word), c.valid = true → Fp.finite c.fmt a = true → Fp.finite c.fmt b = true →
    Fp.finite c.fmt r.duration = true → Fp.lt c.fmt Fp.zero r.duration = true → (r.curve = .exp → expOk c.fmt a b = true) →
    inPlan c.fmt (r.plan c a b) = true) ∧
  (∀ (f : Fmt) (r : Ramp) (v : Word), Fp.finite f v = true → (r.curve = .exp → Fp.lt f Fp.zero v = true) →
    inPlan f (r.jump v) = true) ∧
  (∀ (f : Fmt) (r : Ramp), inPlan f r = true → inPlan f (r.tick f) = true ∧
    Fp.le f (Fp.fmin f r.fromVal r.toVal) (r.tick f).out = true ∧
    Fp.le f (r.tick f).out (Fp.fmax f r.fromVal r.toVal) = true)

/-! ### Oscillator, envelope, filter -/

/-- spec/43_oscillator.md R270: the phase stays in [0, 1) through every advance by a finite frequency ≥ 0. R267: for a phase in
[0, 1) the table index is at most TABLE_LEN − 1 and the weight of the next sample is in [0, 1). -/
def Obligations.PhaseAndIndexStayInRange : Prop :=
  ∀ (c : Cfg) (phase : Word), c.valid = true →
    Fp.finite c.fmt phase = true → Fp.le c.fmt Fp.zero phase = true → Fp.lt c.fmt phase (Fp.one c.fmt) = true →
    (∀ freq : Word, Fp.finite c.fmt freq = true → Fp.le c.fmt Fp.zero freq = true →
      Fp.finite c.fmt (Fp.add c.fmt phase (Fp.div c.fmt freq c.fs)) = true →
      Fp.finite c.fmt (phaseAdvance c phase freq) = true ∧ Fp.le c.fmt Fp.zero (phaseAdvance c phase freq) = true ∧
        Fp.lt c.fmt (phaseAdvance c phase freq) (Fp.one c.fmt) = true) ∧
    tableIndex c phase ≤ c.tableLen - 1 ∧
    Fp.le c.fmt Fp.zero (tableFrac c phase) = true ∧ Fp.lt c.fmt (tableFrac c phase) (Fp.one c.fmt) = true

/-- spec/43_oscillator.md R266, R267, R269, R270, R271: what a sample tick does to OSC: the effective frequency, the octave
tables, four table words read at the phase before the advance, interpolated within each table and then between the two, and
the phase advanced and wrapped. -/
def Obligations.OscillatorSample : Prop :=
  ∀ s t : State, sampleTick s = .ok t →
    let f := s.cfg.fmt
    let freq := Fp.mul f t.ramp.out (Fp.exp2 f t.voice.detune)
    let x := Fp.mul f s.osc.phase (Fp.ofInt f s.cfg.tableLen)
    let i := Fp.toNat f (Fp.floor f x)
    let k := (octave s.cfg freq).1
    let row := s.osc.bank.toNat * s.cfg.numTables
    let p := Fp.add f s.osc.phase (Fp.div f freq s.cfg.fs)
    ∃ a b c d : Word,
      s.tableRead ((row + k) * s.cfg.tableLen + i) = some a ∧
      s.tableRead ((row + k) * s.cfg.tableLen + (i + 1) % s.cfg.tableLen) = some b ∧
      s.tableRead ((row + min (k + 1) (s.cfg.numTables - 1)) * s.cfg.tableLen + i) = some c ∧
      s.tableRead ((row + min (k + 1) (s.cfg.numTables - 1)) * s.cfg.tableLen + (i + 1) % s.cfg.tableLen) = some d ∧
      t.osc.feff = freq ∧ t.osc.k = BitVec.ofNat 8 k ∧ t.osc.frac = (octave s.cfg freq).2 ∧
      t.osc.out = Fp.lerp f (Fp.lerp f a b (Fp.sub f x (Fp.floor f x))) (Fp.lerp f c d (Fp.sub f x (Fp.floor f x)))
        (octave s.cfg freq).2 ∧
      t.osc.phase = Fp.sub f p (Fp.floor f p) ∧ t.osc.bank = s.osc.bank ∧ t.osc.inp = t.ramp.out

/-- spec/43_oscillator.md R268: the octave of a frequency: table 0 alone at or below BASE_FREQ, the top table alone from octave
NUM_TABLES − 1 on, and in between the integer part of LOG2(f / BASE_FREQ) with its fraction; and so the index is below
NUM_TABLES and the weight in [0, 1), for every finite frequency whose quotient by BASE_FREQ is finite. -/
def Obligations.OctaveStaysInTheBank : Prop :=
  ∀ (c : Cfg) (freq : Word), c.valid = true → Fp.finite c.fmt freq = true →
    Fp.finite c.fmt (Fp.div c.fmt freq c.baseFreq) = true →
    let o := Fp.log2 c.fmt (Fp.div c.fmt freq c.baseFreq)
    let top := Fp.ofInt c.fmt (c.numTables - 1 : Nat)
    (Fp.le c.fmt freq c.baseFreq = true → octave c freq = (0, Fp.zero)) ∧
    (Fp.le c.fmt freq c.baseFreq = false → Fp.le c.fmt top o = true → octave c freq = (c.numTables - 1, Fp.zero)) ∧
    (Fp.le c.fmt freq c.baseFreq = false → Fp.le c.fmt top o = false →
      octave c freq = (Fp.toNat c.fmt (Fp.floor c.fmt o), Fp.sub c.fmt o (Fp.floor c.fmt o))) ∧
    (octave c freq).1 ≤ c.numTables - 1 ∧ Fp.le c.fmt Fp.zero (octave c freq).2 = true ∧
    Fp.lt c.fmt (octave c freq).2 (Fp.one c.fmt) = true

/-- spec/41_envelope.md R203 to R208: one envelope tick, by the segment and the gate. At a position of +∞ a decay ends, as R201
says of an overflowed increment; that this holds of sustain 1.0 too, where R206's comparison meets a NaN, is an inference of
the model (notes/assumptions/14.md, DEDUCED). -/
def Obligations.EnvelopeSegments : Prop :=
  ∀ (c : Cfg) (e : Env),
    let f := c.fmt
    let one := Fp.one f
    let inc (d : Word) := Fp.div f (Fp.div f one c.fs) d
    let up := Fp.lerp f e.anchor one e.pos
    let down := Fp.lerp f one e.sustain e.pos
    (e.state = .releasing → Fp.lt f Fp.zero e.gate = true →
      e.tick c = Env.tick c { e with anchor := e.amp, pos := Fp.zero, state := .attacking }) ∧
    (e.state ≠ .releasing → Fp.lt f Fp.zero e.gate = false →
      e.tick c = Env.tick c { e with anchor := e.amp, pos := Fp.zero, state := .releasing }) ∧
    (e.state = .attacking → Fp.lt f Fp.zero e.gate = true →
      e.tick c = if Fp.le f one up then { e with amp := one, pos := Fp.zero, state := .decaying }
        else { e with amp := up, pos := Fp.add f e.pos (inc e.attack) }) ∧
    (e.state = .decaying → Fp.lt f Fp.zero e.gate = true →
      e.tick c = if Fp.le f down e.sustain = true ∨ (Fp.isInf f e.pos = true ∧ Fp.sign f e.pos = false) then
          { e with amp := e.sustain, pos := Fp.add f e.pos (inc e.decay), state := .sustaining }
        else { e with amp := down, pos := Fp.add f e.pos (inc e.decay) }) ∧
    (e.state = .sustaining → Fp.lt f Fp.zero e.gate = true → e.tick c = { e with amp := e.sustain }) ∧
    (e.state = .releasing → Fp.lt f Fp.zero e.gate = false →
      e.tick c = if Fp.le f e.pos one then
          { e with
            amp := Fp.clamp f (Fp.lerp f e.anchor Fp.zero e.pos) Fp.zero one
            pos := Fp.add f e.pos (inc e.release) }
        else e)

/-- spec/41_envelope.md R209: the envelope's amplitude and anchor stay in [0, 1]: in every state a block can reach, whatever the
host issues. It holds at reset; every tick keeps it, for legal durations, every gate and every position, +∞ included (R201),
and leaves what the next tick needs; and so does every step. It rests on the model's inference that a decay ends at a position
of +∞ with sustain 1.0 too (notes/assumptions/14.md, DEDUCED). -/
def Obligations.EnvelopeStaysInUnitInterval : Prop :=
  (∀ f : Fmt, envelopeOk f (Env.reset f) = true) ∧
  (∀ (c : Cfg) (e : Env), c.valid = true → envelopeOk c.fmt e = true →
    ([e.attack, e.decay, e.release].all fun d => Fp.finite c.fmt d && Fp.lt c.fmt Fp.zero d) = true →
    inUnit c.fmt (e.tick c).amp = true ∧ inUnit c.fmt (e.tick c).anchor = true ∧ envelopeOk c.fmt (e.tick c) = true) ∧
  (∀ s t : State, s.cfg.valid = true → s.paramInv = true → envelopeOk s.cfg.fmt s.env = true → step s = .next t →
    envelopeOk t.cfg.fmt t.env = true) ∧
  (∀ s : State, Reachable s → inUnit s.cfg.fmt s.env.amp = true ∧ inUnit s.cfg.fmt s.env.anchor = true)

/-- spec/41_envelope.md R210, first sentences: the tick that changes the segment on a gate change outputs the previous
amplitude (as a real: the sign of a zero may differ). -/
def Obligations.GateChangesAreContinuous : Prop :=
  ∀ (c : Cfg) (e : Env), inUnit c.fmt e.amp = true →
    (e.state = .releasing ∧ Fp.lt c.fmt Fp.zero e.gate = true) ∨
      (e.state ≠ .releasing ∧ Fp.lt c.fmt Fp.zero e.gate = false) →
    Fp.eq c.fmt (e.tick c).amp e.amp = true ∧ (e.tick c).anchor = e.amp

/-- spec/42_filter.md R241, with finite coefficients and the filter not dirty: from a history of zeros and a zero input every
output is a zero and the history stays zeros. The output is exactly +0.0 where the zeros are +0.0 and one of b0, b1, b2 is not
negative, as every b0 of R237 is whose norm is not negative. (With b0, b1, b2 all negative and a1, a2 positive it is −0.0.) -/
def Obligations.ZeroHistoryStaysZero : Prop :=
  ∀ (c : Cfg) (x : Filter), x.dirty = false → Fp.finite c.fmt x.b0 = true → Fp.finite c.fmt x.b1 = true →
    Fp.finite c.fmt x.b2 = true → Fp.finite c.fmt x.a1 = true → Fp.finite c.fmt x.a2 = true →
    ([x.inp, x.x1, x.x2, x.y1, x.y2].all (Fp.isZero c.fmt) = true →
      [(x.tick c).out, (x.tick c).x1, (x.tick c).x2, (x.tick c).y1, (x.tick c).y2].all (Fp.isZero c.fmt) = true) ∧
    ([x.inp, x.x1, x.x2, x.y1, x.y2] = List.replicate 5 Fp.zero →
      Fp.sign c.fmt x.b0 = false ∨ Fp.sign c.fmt x.b1 = false ∨ Fp.sign c.fmt x.b2 = false →
      x.tick c = { x with out := Fp.zero })

/-- spec/42_filter.md R236 to R240: what a sample tick does to FILTER. With FILTER_EN = 0, only the copy of FILTER.fo. With
FILTER_EN = 1, a dirty filter first recomputes its cutoff and coefficients, each operation in the order written; then the
difference equation and the shift of the history. -/
def Obligations.FilterInTheTick : Prop :=
  ∀ s t : State, sampleTick s = .ok t →
    let f := s.cfg.fmt
    let x := s.filter
    let y := t.filter
    (s.ctrl.filterEn = false → y = { x with fo := t.voice.fo }) ∧
    (s.ctrl.filterEn = true →
      y.inp = t.gain.out ∧ y.fo = t.voice.fo ∧ y.base = x.base ∧ y.depth = x.depth ∧ y.q = x.q ∧ y.dirty = false ∧
      y.out = Fp.sub f (Fp.sub f (Fp.add f (Fp.add f (Fp.mul f y.b0 t.gain.out) (Fp.mul f y.b1 x.x1)) (Fp.mul f y.b2 x.x2))
        (Fp.mul f y.a1 x.y1)) (Fp.mul f y.a2 x.y2) ∧
      y.x1 = t.gain.out ∧ y.x2 = x.x1 ∧ y.y1 = y.out ∧ y.y2 = x.y1 ∧
      (x.dirty = false → y.fc = x.fc ∧ y.b0 = x.b0 ∧ y.b1 = x.b1 ∧ y.b2 = x.b2 ∧ y.a1 = x.a1 ∧ y.a2 = x.a2) ∧
      (x.dirty = true →
        let k := Fp.tan f (Fp.div f (Fp.mul f (Fp.pi f) y.fc) s.cfg.fs)
        let kk := Fp.mul f k k
        let kq := Fp.div f k x.q
        let one := Fp.ofInt f 1
        let norm := Fp.div f one (Fp.add f (Fp.add f one kq) kk)
        y.fc = Fp.clamp f (Fp.add f x.base (Fp.mul f t.voice.fo x.depth)) s.cfg.cutoffMin s.cfg.cutoffMax ∧
        y.b0 = Fp.mul f kk norm ∧ y.b1 = Fp.mul f (Fp.ofInt f 2) y.b0 ∧ y.b2 = y.b0 ∧
        y.a1 = Fp.mul f (Fp.mul f (Fp.ofInt f 2) (Fp.sub f kk one)) norm ∧
        y.a2 = Fp.mul f (Fp.add f (Fp.sub f one kq) kk) norm))
end

