-- ==== Sys2Proof/Laws/State.lean ====
section
/-! SUPPORT. One lemma per field per update of State: what each `set` writes and what it leaves. -/

namespace Sys2Proof.Machine.State

@[simp] theorem setLifecycle_cfg (s : State) (v : Lifecycle) : (s.setLifecycle v).cfg = s.cfg := rfl
@[simp] theorem setLifecycle_lifecycle (s : State) (v : Lifecycle) : (s.setLifecycle v).lifecycle = v := rfl
@[simp] theorem setLifecycle_ctrl (s : State) (v : Lifecycle) : (s.setLifecycle v).ctrl = s.ctrl := rfl
@[simp] theorem setLifecycle_nonfinite (s : State) (v : Lifecycle) : (s.setLifecycle v).nonfinite = s.nonfinite := rfl
@[simp] theorem setLifecycle_sampleCount (s : State) (v : Lifecycle) : (s.setLifecycle v).sampleCount = s.sampleCount := rfl
@[simp] theorem setLifecycle_voice (s : State) (v : Lifecycle) : (s.setLifecycle v).voice = s.voice := rfl
@[simp] theorem setLifecycle_ramp (s : State) (v : Lifecycle) : (s.setLifecycle v).ramp = s.ramp := rfl
@[simp] theorem setLifecycle_osc (s : State) (v : Lifecycle) : (s.setLifecycle v).osc = s.osc := rfl
@[simp] theorem setLifecycle_env (s : State) (v : Lifecycle) : (s.setLifecycle v).env = s.env := rfl
@[simp] theorem setLifecycle_gain (s : State) (v : Lifecycle) : (s.setLifecycle v).gain = s.gain := rfl
@[simp] theorem setLifecycle_filter (s : State) (v : Lifecycle) : (s.setLifecycle v).filter = s.filter := rfl
@[simp] theorem setLifecycle_midi (s : State) (v : Lifecycle) : (s.setLifecycle v).midi = s.midi := rfl
@[simp] theorem setLifecycle_table (s : State) (v : Lifecycle) : (s.setLifecycle v).table = s.table := rfl
@[simp] theorem setLifecycle_outbuf (s : State) (v : Lifecycle) : (s.setLifecycle v).outbuf = s.outbuf := rfl
@[simp] theorem setLifecycle_host (s : State) (v : Lifecycle) : (s.setLifecycle v).host = s.host := rfl
@[simp] theorem setLifecycle_resp (s : State) (v : Lifecycle) : (s.setLifecycle v).resp = s.resp := rfl

@[simp] theorem setCtrl_cfg (s : State) (v : Ctrl) : (s.setCtrl v).cfg = s.cfg := rfl
@[simp] theorem setCtrl_lifecycle (s : State) (v : Ctrl) : (s.setCtrl v).lifecycle = s.lifecycle := rfl
@[simp] theorem setCtrl_ctrl (s : State) (v : Ctrl) : (s.setCtrl v).ctrl = v := rfl
@[simp] theorem setCtrl_nonfinite (s : State) (v : Ctrl) : (s.setCtrl v).nonfinite = s.nonfinite := rfl
@[simp] theorem setCtrl_sampleCount (s : State) (v : Ctrl) : (s.setCtrl v).sampleCount = s.sampleCount := rfl
@[simp] theorem setCtrl_voice (s : State) (v : Ctrl) : (s.setCtrl v).voice = s.voice := rfl
@[simp] theorem setCtrl_ramp (s : State) (v : Ctrl) : (s.setCtrl v).ramp = s.ramp := rfl
@[simp] theorem setCtrl_osc (s : State) (v : Ctrl) : (s.setCtrl v).osc = s.osc := rfl
@[simp] theorem setCtrl_env (s : State) (v : Ctrl) : (s.setCtrl v).env = s.env := rfl
@[simp] theorem setCtrl_gain (s : State) (v : Ctrl) : (s.setCtrl v).gain = s.gain := rfl
@[simp] theorem setCtrl_filter (s : State) (v : Ctrl) : (s.setCtrl v).filter = s.filter := rfl
@[simp] theorem setCtrl_midi (s : State) (v : Ctrl) : (s.setCtrl v).midi = s.midi := rfl
@[simp] theorem setCtrl_table (s : State) (v : Ctrl) : (s.setCtrl v).table = s.table := rfl
@[simp] theorem setCtrl_outbuf (s : State) (v : Ctrl) : (s.setCtrl v).outbuf = s.outbuf := rfl
@[simp] theorem setCtrl_host (s : State) (v : Ctrl) : (s.setCtrl v).host = s.host := rfl
@[simp] theorem setCtrl_resp (s : State) (v : Ctrl) : (s.setCtrl v).resp = s.resp := rfl

@[simp] theorem setNonfinite_cfg (s : State) (v : Bool) : (s.setNonfinite v).cfg = s.cfg := rfl
@[simp] theorem setNonfinite_lifecycle (s : State) (v : Bool) : (s.setNonfinite v).lifecycle = s.lifecycle := rfl
@[simp] theorem setNonfinite_ctrl (s : State) (v : Bool) : (s.setNonfinite v).ctrl = s.ctrl := rfl
@[simp] theorem setNonfinite_nonfinite (s : State) (v : Bool) : (s.setNonfinite v).nonfinite = v := rfl
@[simp] theorem setNonfinite_sampleCount (s : State) (v : Bool) : (s.setNonfinite v).sampleCount = s.sampleCount := rfl
@[simp] theorem setNonfinite_voice (s : State) (v : Bool) : (s.setNonfinite v).voice = s.voice := rfl
@[simp] theorem setNonfinite_ramp (s : State) (v : Bool) : (s.setNonfinite v).ramp = s.ramp := rfl
@[simp] theorem setNonfinite_osc (s : State) (v : Bool) : (s.setNonfinite v).osc = s.osc := rfl
@[simp] theorem setNonfinite_env (s : State) (v : Bool) : (s.setNonfinite v).env = s.env := rfl
@[simp] theorem setNonfinite_gain (s : State) (v : Bool) : (s.setNonfinite v).gain = s.gain := rfl
@[simp] theorem setNonfinite_filter (s : State) (v : Bool) : (s.setNonfinite v).filter = s.filter := rfl
@[simp] theorem setNonfinite_midi (s : State) (v : Bool) : (s.setNonfinite v).midi = s.midi := rfl
@[simp] theorem setNonfinite_table (s : State) (v : Bool) : (s.setNonfinite v).table = s.table := rfl
@[simp] theorem setNonfinite_outbuf (s : State) (v : Bool) : (s.setNonfinite v).outbuf = s.outbuf := rfl
@[simp] theorem setNonfinite_host (s : State) (v : Bool) : (s.setNonfinite v).host = s.host := rfl
@[simp] theorem setNonfinite_resp (s : State) (v : Bool) : (s.setNonfinite v).resp = s.resp := rfl

@[simp] theorem setSampleCount_cfg (s : State) (v : BitVec 32) : (s.setSampleCount v).cfg = s.cfg := rfl
@[simp] theorem setSampleCount_lifecycle (s : State) (v : BitVec 32) : (s.setSampleCount v).lifecycle = s.lifecycle := rfl
@[simp] theorem setSampleCount_ctrl (s : State) (v : BitVec 32) : (s.setSampleCount v).ctrl = s.ctrl := rfl
@[simp] theorem setSampleCount_nonfinite (s : State) (v : BitVec 32) : (s.setSampleCount v).nonfinite = s.nonfinite := rfl
@[simp] theorem setSampleCount_sampleCount (s : State) (v : BitVec 32) : (s.setSampleCount v).sampleCount = v := rfl
@[simp] theorem setSampleCount_voice (s : State) (v : BitVec 32) : (s.setSampleCount v).voice = s.voice := rfl
@[simp] theorem setSampleCount_ramp (s : State) (v : BitVec 32) : (s.setSampleCount v).ramp = s.ramp := rfl
@[simp] theorem setSampleCount_osc (s : State) (v : BitVec 32) : (s.setSampleCount v).osc = s.osc := rfl
@[simp] theorem setSampleCount_env (s : State) (v : BitVec 32) : (s.setSampleCount v).env = s.env := rfl
@[simp] theorem setSampleCount_gain (s : State) (v : BitVec 32) : (s.setSampleCount v).gain = s.gain := rfl
@[simp] theorem setSampleCount_filter (s : State) (v : BitVec 32) : (s.setSampleCount v).filter = s.filter := rfl
@[simp] theorem setSampleCount_midi (s : State) (v : BitVec 32) : (s.setSampleCount v).midi = s.midi := rfl
@[simp] theorem setSampleCount_table (s : State) (v : BitVec 32) : (s.setSampleCount v).table = s.table := rfl
@[simp] theorem setSampleCount_outbuf (s : State) (v : BitVec 32) : (s.setSampleCount v).outbuf = s.outbuf := rfl
@[simp] theorem setSampleCount_host (s : State) (v : BitVec 32) : (s.setSampleCount v).host = s.host := rfl
@[simp] theorem setSampleCount_resp (s : State) (v : BitVec 32) : (s.setSampleCount v).resp = s.resp := rfl

@[simp] theorem setVoice_cfg (s : State) (v : Voice) : (s.setVoice v).cfg = s.cfg := rfl
@[simp] theorem setVoice_lifecycle (s : State) (v : Voice) : (s.setVoice v).lifecycle = s.lifecycle := rfl
@[simp] theorem setVoice_ctrl (s : State) (v : Voice) : (s.setVoice v).ctrl = s.ctrl := rfl
@[simp] theorem setVoice_nonfinite (s : State) (v : Voice) : (s.setVoice v).nonfinite = s.nonfinite := rfl
@[simp] theorem setVoice_sampleCount (s : State) (v : Voice) : (s.setVoice v).sampleCount = s.sampleCount := rfl
@[simp] theorem setVoice_voice (s : State) (v : Voice) : (s.setVoice v).voice = v := rfl
@[simp] theorem setVoice_ramp (s : State) (v : Voice) : (s.setVoice v).ramp = s.ramp := rfl
@[simp] theorem setVoice_osc (s : State) (v : Voice) : (s.setVoice v).osc = s.osc := rfl
@[simp] theorem setVoice_env (s : State) (v : Voice) : (s.setVoice v).env = s.env := rfl
@[simp] theorem setVoice_gain (s : State) (v : Voice) : (s.setVoice v).gain = s.gain := rfl
@[simp] theorem setVoice_filter (s : State) (v : Voice) : (s.setVoice v).filter = s.filter := rfl
@[simp] theorem setVoice_midi (s : State) (v : Voice) : (s.setVoice v).midi = s.midi := rfl
@[simp] theorem setVoice_table (s : State) (v : Voice) : (s.setVoice v).table = s.table := rfl
@[simp] theorem setVoice_outbuf (s : State) (v : Voice) : (s.setVoice v).outbuf = s.outbuf := rfl
@[simp] theorem setVoice_host (s : State) (v : Voice) : (s.setVoice v).host = s.host := rfl
@[simp] theorem setVoice_resp (s : State) (v : Voice) : (s.setVoice v).resp = s.resp := rfl

@[simp] theorem setRamp_cfg (s : State) (v : Ramp) : (s.setRamp v).cfg = s.cfg := rfl
@[simp] theorem setRamp_lifecycle (s : State) (v : Ramp) : (s.setRamp v).lifecycle = s.lifecycle := rfl
@[simp] theorem setRamp_ctrl (s : State) (v : Ramp) : (s.setRamp v).ctrl = s.ctrl := rfl
@[simp] theorem setRamp_nonfinite (s : State) (v : Ramp) : (s.setRamp v).nonfinite = s.nonfinite := rfl
@[simp] theorem setRamp_sampleCount (s : State) (v : Ramp) : (s.setRamp v).sampleCount = s.sampleCount := rfl
@[simp] theorem setRamp_voice (s : State) (v : Ramp) : (s.setRamp v).voice = s.voice := rfl
@[simp] theorem setRamp_ramp (s : State) (v : Ramp) : (s.setRamp v).ramp = v := rfl
@[simp] theorem setRamp_osc (s : State) (v : Ramp) : (s.setRamp v).osc = s.osc := rfl
@[simp] theorem setRamp_env (s : State) (v : Ramp) : (s.setRamp v).env = s.env := rfl
@[simp] theorem setRamp_gain (s : State) (v : Ramp) : (s.setRamp v).gain = s.gain := rfl
@[simp] theorem setRamp_filter (s : State) (v : Ramp) : (s.setRamp v).filter = s.filter := rfl
@[simp] theorem setRamp_midi (s : State) (v : Ramp) : (s.setRamp v).midi = s.midi := rfl
@[simp] theorem setRamp_table (s : State) (v : Ramp) : (s.setRamp v).table = s.table := rfl
@[simp] theorem setRamp_outbuf (s : State) (v : Ramp) : (s.setRamp v).outbuf = s.outbuf := rfl
@[simp] theorem setRamp_host (s : State) (v : Ramp) : (s.setRamp v).host = s.host := rfl
@[simp] theorem setRamp_resp (s : State) (v : Ramp) : (s.setRamp v).resp = s.resp := rfl

@[simp] theorem setOsc_cfg (s : State) (v : Osc) : (s.setOsc v).cfg = s.cfg := rfl
@[simp] theorem setOsc_lifecycle (s : State) (v : Osc) : (s.setOsc v).lifecycle = s.lifecycle := rfl
@[simp] theorem setOsc_ctrl (s : State) (v : Osc) : (s.setOsc v).ctrl = s.ctrl := rfl
@[simp] theorem setOsc_nonfinite (s : State) (v : Osc) : (s.setOsc v).nonfinite = s.nonfinite := rfl
@[simp] theorem setOsc_sampleCount (s : State) (v : Osc) : (s.setOsc v).sampleCount = s.sampleCount := rfl
@[simp] theorem setOsc_voice (s : State) (v : Osc) : (s.setOsc v).voice = s.voice := rfl
@[simp] theorem setOsc_ramp (s : State) (v : Osc) : (s.setOsc v).ramp = s.ramp := rfl
@[simp] theorem setOsc_osc (s : State) (v : Osc) : (s.setOsc v).osc = v := rfl
@[simp] theorem setOsc_env (s : State) (v : Osc) : (s.setOsc v).env = s.env := rfl
@[simp] theorem setOsc_gain (s : State) (v : Osc) : (s.setOsc v).gain = s.gain := rfl
@[simp] theorem setOsc_filter (s : State) (v : Osc) : (s.setOsc v).filter = s.filter := rfl
@[simp] theorem setOsc_midi (s : State) (v : Osc) : (s.setOsc v).midi = s.midi := rfl
@[simp] theorem setOsc_table (s : State) (v : Osc) : (s.setOsc v).table = s.table := rfl
@[simp] theorem setOsc_outbuf (s : State) (v : Osc) : (s.setOsc v).outbuf = s.outbuf := rfl
@[simp] theorem setOsc_host (s : State) (v : Osc) : (s.setOsc v).host = s.host := rfl
@[simp] theorem setOsc_resp (s : State) (v : Osc) : (s.setOsc v).resp = s.resp := rfl

@[simp] theorem setEnv_cfg (s : State) (v : Env) : (s.setEnv v).cfg = s.cfg := rfl
@[simp] theorem setEnv_lifecycle (s : State) (v : Env) : (s.setEnv v).lifecycle = s.lifecycle := rfl
@[simp] theorem setEnv_ctrl (s : State) (v : Env) : (s.setEnv v).ctrl = s.ctrl := rfl
@[simp] theorem setEnv_nonfinite (s : State) (v : Env) : (s.setEnv v).nonfinite = s.nonfinite := rfl
@[simp] theorem setEnv_sampleCount (s : State) (v : Env) : (s.setEnv v).sampleCount = s.sampleCount := rfl
@[simp] theorem setEnv_voice (s : State) (v : Env) : (s.setEnv v).voice = s.voice := rfl
@[simp] theorem setEnv_ramp (s : State) (v : Env) : (s.setEnv v).ramp = s.ramp := rfl
@[simp] theorem setEnv_osc (s : State) (v : Env) : (s.setEnv v).osc = s.osc := rfl
@[simp] theorem setEnv_env (s : State) (v : Env) : (s.setEnv v).env = v := rfl
@[simp] theorem setEnv_gain (s : State) (v : Env) : (s.setEnv v).gain = s.gain := rfl
@[simp] theorem setEnv_filter (s : State) (v : Env) : (s.setEnv v).filter = s.filter := rfl
@[simp] theorem setEnv_midi (s : State) (v : Env) : (s.setEnv v).midi = s.midi := rfl
@[simp] theorem setEnv_table (s : State) (v : Env) : (s.setEnv v).table = s.table := rfl
@[simp] theorem setEnv_outbuf (s : State) (v : Env) : (s.setEnv v).outbuf = s.outbuf := rfl
@[simp] theorem setEnv_host (s : State) (v : Env) : (s.setEnv v).host = s.host := rfl
@[simp] theorem setEnv_resp (s : State) (v : Env) : (s.setEnv v).resp = s.resp := rfl

@[simp] theorem setGain_cfg (s : State) (v : Gain) : (s.setGain v).cfg = s.cfg := rfl
@[simp] theorem setGain_lifecycle (s : State) (v : Gain) : (s.setGain v).lifecycle = s.lifecycle := rfl
@[simp] theorem setGain_ctrl (s : State) (v : Gain) : (s.setGain v).ctrl = s.ctrl := rfl
@[simp] theorem setGain_nonfinite (s : State) (v : Gain) : (s.setGain v).nonfinite = s.nonfinite := rfl
@[simp] theorem setGain_sampleCount (s : State) (v : Gain) : (s.setGain v).sampleCount = s.sampleCount := rfl
@[simp] theorem setGain_voice (s : State) (v : Gain) : (s.setGain v).voice = s.voice := rfl
@[simp] theorem setGain_ramp (s : State) (v : Gain) : (s.setGain v).ramp = s.ramp := rfl
@[simp] theorem setGain_osc (s : State) (v : Gain) : (s.setGain v).osc = s.osc := rfl
@[simp] theorem setGain_env (s : State) (v : Gain) : (s.setGain v).env = s.env := rfl
@[simp] theorem setGain_gain (s : State) (v : Gain) : (s.setGain v).gain = v := rfl
@[simp] theorem setGain_filter (s : State) (v : Gain) : (s.setGain v).filter = s.filter := rfl
@[simp] theorem setGain_midi (s : State) (v : Gain) : (s.setGain v).midi = s.midi := rfl
@[simp] theorem setGain_table (s : State) (v : Gain) : (s.setGain v).table = s.table := rfl
@[simp] theorem setGain_outbuf (s : State) (v : Gain) : (s.setGain v).outbuf = s.outbuf := rfl
@[simp] theorem setGain_host (s : State) (v : Gain) : (s.setGain v).host = s.host := rfl
@[simp] theorem setGain_resp (s : State) (v : Gain) : (s.setGain v).resp = s.resp := rfl

@[simp] theorem setFilter_cfg (s : State) (v : Filter) : (s.setFilter v).cfg = s.cfg := rfl
@[simp] theorem setFilter_lifecycle (s : State) (v : Filter) : (s.setFilter v).lifecycle = s.lifecycle := rfl
@[simp] theorem setFilter_ctrl (s : State) (v : Filter) : (s.setFilter v).ctrl = s.ctrl := rfl
@[simp] theorem setFilter_nonfinite (s : State) (v : Filter) : (s.setFilter v).nonfinite = s.nonfinite := rfl
@[simp] theorem setFilter_sampleCount (s : State) (v : Filter) : (s.setFilter v).sampleCount = s.sampleCount := rfl
@[simp] theorem setFilter_voice (s : State) (v : Filter) : (s.setFilter v).voice = s.voice := rfl
@[simp] theorem setFilter_ramp (s : State) (v : Filter) : (s.setFilter v).ramp = s.ramp := rfl
@[simp] theorem setFilter_osc (s : State) (v : Filter) : (s.setFilter v).osc = s.osc := rfl
@[simp] theorem setFilter_env (s : State) (v : Filter) : (s.setFilter v).env = s.env := rfl
@[simp] theorem setFilter_gain (s : State) (v : Filter) : (s.setFilter v).gain = s.gain := rfl
@[simp] theorem setFilter_filter (s : State) (v : Filter) : (s.setFilter v).filter = v := rfl
@[simp] theorem setFilter_midi (s : State) (v : Filter) : (s.setFilter v).midi = s.midi := rfl
@[simp] theorem setFilter_table (s : State) (v : Filter) : (s.setFilter v).table = s.table := rfl
@[simp] theorem setFilter_outbuf (s : State) (v : Filter) : (s.setFilter v).outbuf = s.outbuf := rfl
@[simp] theorem setFilter_host (s : State) (v : Filter) : (s.setFilter v).host = s.host := rfl
@[simp] theorem setFilter_resp (s : State) (v : Filter) : (s.setFilter v).resp = s.resp := rfl

@[simp] theorem setMidi_cfg (s : State) (v : Midi) : (s.setMidi v).cfg = s.cfg := rfl
@[simp] theorem setMidi_lifecycle (s : State) (v : Midi) : (s.setMidi v).lifecycle = s.lifecycle := rfl
@[simp] theorem setMidi_ctrl (s : State) (v : Midi) : (s.setMidi v).ctrl = s.ctrl := rfl
@[simp] theorem setMidi_nonfinite (s : State) (v : Midi) : (s.setMidi v).nonfinite = s.nonfinite := rfl
@[simp] theorem setMidi_sampleCount (s : State) (v : Midi) : (s.setMidi v).sampleCount = s.sampleCount := rfl
@[simp] theorem setMidi_voice (s : State) (v : Midi) : (s.setMidi v).voice = s.voice := rfl
@[simp] theorem setMidi_ramp (s : State) (v : Midi) : (s.setMidi v).ramp = s.ramp := rfl
@[simp] theorem setMidi_osc (s : State) (v : Midi) : (s.setMidi v).osc = s.osc := rfl
@[simp] theorem setMidi_env (s : State) (v : Midi) : (s.setMidi v).env = s.env := rfl
@[simp] theorem setMidi_gain (s : State) (v : Midi) : (s.setMidi v).gain = s.gain := rfl
@[simp] theorem setMidi_filter (s : State) (v : Midi) : (s.setMidi v).filter = s.filter := rfl
@[simp] theorem setMidi_midi (s : State) (v : Midi) : (s.setMidi v).midi = v := rfl
@[simp] theorem setMidi_table (s : State) (v : Midi) : (s.setMidi v).table = s.table := rfl
@[simp] theorem setMidi_outbuf (s : State) (v : Midi) : (s.setMidi v).outbuf = s.outbuf := rfl
@[simp] theorem setMidi_host (s : State) (v : Midi) : (s.setMidi v).host = s.host := rfl
@[simp] theorem setMidi_resp (s : State) (v : Midi) : (s.setMidi v).resp = s.resp := rfl

@[simp] theorem setTable_cfg (s : State) (v : Memory) : (s.setTable v).cfg = s.cfg := rfl
@[simp] theorem setTable_lifecycle (s : State) (v : Memory) : (s.setTable v).lifecycle = s.lifecycle := rfl
@[simp] theorem setTable_ctrl (s : State) (v : Memory) : (s.setTable v).ctrl = s.ctrl := rfl
@[simp] theorem setTable_nonfinite (s : State) (v : Memory) : (s.setTable v).nonfinite = s.nonfinite := rfl
@[simp] theorem setTable_sampleCount (s : State) (v : Memory) : (s.setTable v).sampleCount = s.sampleCount := rfl
@[simp] theorem setTable_voice (s : State) (v : Memory) : (s.setTable v).voice = s.voice := rfl
@[simp] theorem setTable_ramp (s : State) (v : Memory) : (s.setTable v).ramp = s.ramp := rfl
@[simp] theorem setTable_osc (s : State) (v : Memory) : (s.setTable v).osc = s.osc := rfl
@[simp] theorem setTable_env (s : State) (v : Memory) : (s.setTable v).env = s.env := rfl
@[simp] theorem setTable_gain (s : State) (v : Memory) : (s.setTable v).gain = s.gain := rfl
@[simp] theorem setTable_filter (s : State) (v : Memory) : (s.setTable v).filter = s.filter := rfl
@[simp] theorem setTable_midi (s : State) (v : Memory) : (s.setTable v).midi = s.midi := rfl
@[simp] theorem setTable_table (s : State) (v : Memory) : (s.setTable v).table = v := rfl
@[simp] theorem setTable_outbuf (s : State) (v : Memory) : (s.setTable v).outbuf = s.outbuf := rfl
@[simp] theorem setTable_host (s : State) (v : Memory) : (s.setTable v).host = s.host := rfl
@[simp] theorem setTable_resp (s : State) (v : Memory) : (s.setTable v).resp = s.resp := rfl

@[simp] theorem setOutbuf_cfg (s : State) (v : Memory) : (s.setOutbuf v).cfg = s.cfg := rfl
@[simp] theorem setOutbuf_lifecycle (s : State) (v : Memory) : (s.setOutbuf v).lifecycle = s.lifecycle := rfl
@[simp] theorem setOutbuf_ctrl (s : State) (v : Memory) : (s.setOutbuf v).ctrl = s.ctrl := rfl
@[simp] theorem setOutbuf_nonfinite (s : State) (v : Memory) : (s.setOutbuf v).nonfinite = s.nonfinite := rfl
@[simp] theorem setOutbuf_sampleCount (s : State) (v : Memory) : (s.setOutbuf v).sampleCount = s.sampleCount := rfl
@[simp] theorem setOutbuf_voice (s : State) (v : Memory) : (s.setOutbuf v).voice = s.voice := rfl
@[simp] theorem setOutbuf_ramp (s : State) (v : Memory) : (s.setOutbuf v).ramp = s.ramp := rfl
@[simp] theorem setOutbuf_osc (s : State) (v : Memory) : (s.setOutbuf v).osc = s.osc := rfl
@[simp] theorem setOutbuf_env (s : State) (v : Memory) : (s.setOutbuf v).env = s.env := rfl
@[simp] theorem setOutbuf_gain (s : State) (v : Memory) : (s.setOutbuf v).gain = s.gain := rfl
@[simp] theorem setOutbuf_filter (s : State) (v : Memory) : (s.setOutbuf v).filter = s.filter := rfl
@[simp] theorem setOutbuf_midi (s : State) (v : Memory) : (s.setOutbuf v).midi = s.midi := rfl
@[simp] theorem setOutbuf_table (s : State) (v : Memory) : (s.setOutbuf v).table = s.table := rfl
@[simp] theorem setOutbuf_outbuf (s : State) (v : Memory) : (s.setOutbuf v).outbuf = v := rfl
@[simp] theorem setOutbuf_host (s : State) (v : Memory) : (s.setOutbuf v).host = s.host := rfl
@[simp] theorem setOutbuf_resp (s : State) (v : Memory) : (s.setOutbuf v).resp = s.resp := rfl

@[simp] theorem setHost_cfg (s : State) (v : List Cmd) : (s.setHost v).cfg = s.cfg := rfl
@[simp] theorem setHost_lifecycle (s : State) (v : List Cmd) : (s.setHost v).lifecycle = s.lifecycle := rfl
@[simp] theorem setHost_ctrl (s : State) (v : List Cmd) : (s.setHost v).ctrl = s.ctrl := rfl
@[simp] theorem setHost_nonfinite (s : State) (v : List Cmd) : (s.setHost v).nonfinite = s.nonfinite := rfl
@[simp] theorem setHost_sampleCount (s : State) (v : List Cmd) : (s.setHost v).sampleCount = s.sampleCount := rfl
@[simp] theorem setHost_voice (s : State) (v : List Cmd) : (s.setHost v).voice = s.voice := rfl
@[simp] theorem setHost_ramp (s : State) (v : List Cmd) : (s.setHost v).ramp = s.ramp := rfl
@[simp] theorem setHost_osc (s : State) (v : List Cmd) : (s.setHost v).osc = s.osc := rfl
@[simp] theorem setHost_env (s : State) (v : List Cmd) : (s.setHost v).env = s.env := rfl
@[simp] theorem setHost_gain (s : State) (v : List Cmd) : (s.setHost v).gain = s.gain := rfl
@[simp] theorem setHost_filter (s : State) (v : List Cmd) : (s.setHost v).filter = s.filter := rfl
@[simp] theorem setHost_midi (s : State) (v : List Cmd) : (s.setHost v).midi = s.midi := rfl
@[simp] theorem setHost_table (s : State) (v : List Cmd) : (s.setHost v).table = s.table := rfl
@[simp] theorem setHost_outbuf (s : State) (v : List Cmd) : (s.setHost v).outbuf = s.outbuf := rfl
@[simp] theorem setHost_host (s : State) (v : List Cmd) : (s.setHost v).host = v := rfl
@[simp] theorem setHost_resp (s : State) (v : List Cmd) : (s.setHost v).resp = s.resp := rfl

@[simp] theorem setResp_cfg (s : State) (v : Option Response) : (s.setResp v).cfg = s.cfg := rfl
@[simp] theorem setResp_lifecycle (s : State) (v : Option Response) : (s.setResp v).lifecycle = s.lifecycle := rfl
@[simp] theorem setResp_ctrl (s : State) (v : Option Response) : (s.setResp v).ctrl = s.ctrl := rfl
@[simp] theorem setResp_nonfinite (s : State) (v : Option Response) : (s.setResp v).nonfinite = s.nonfinite := rfl
@[simp] theorem setResp_sampleCount (s : State) (v : Option Response) : (s.setResp v).sampleCount = s.sampleCount := rfl
@[simp] theorem setResp_voice (s : State) (v : Option Response) : (s.setResp v).voice = s.voice := rfl
@[simp] theorem setResp_ramp (s : State) (v : Option Response) : (s.setResp v).ramp = s.ramp := rfl
@[simp] theorem setResp_osc (s : State) (v : Option Response) : (s.setResp v).osc = s.osc := rfl
@[simp] theorem setResp_env (s : State) (v : Option Response) : (s.setResp v).env = s.env := rfl
@[simp] theorem setResp_gain (s : State) (v : Option Response) : (s.setResp v).gain = s.gain := rfl
@[simp] theorem setResp_filter (s : State) (v : Option Response) : (s.setResp v).filter = s.filter := rfl
@[simp] theorem setResp_midi (s : State) (v : Option Response) : (s.setResp v).midi = s.midi := rfl
@[simp] theorem setResp_table (s : State) (v : Option Response) : (s.setResp v).table = s.table := rfl
@[simp] theorem setResp_outbuf (s : State) (v : Option Response) : (s.setResp v).outbuf = s.outbuf := rfl
@[simp] theorem setResp_host (s : State) (v : Option Response) : (s.setResp v).host = s.host := rfl
@[simp] theorem setResp_resp (s : State) (v : Option Response) : (s.setResp v).resp = v := rfl

end Sys2Proof.Machine.State
end

