-- ==== Sys2Proof/Laws/Ops.lean ====
section
/-! SUPPORT. What the shared answers of a command are, and what one step can be. -/

namespace Sys2Proof.Machine

theorem finish_eq (rw : Word) (s : State) : finish rw s = .next (s.setResp (some ⟨.ok, rw⟩)) := rfl

theorem raise_eq (st : Status) (s : State) : raise st s = .next (s.setResp (some ⟨st, 0#64⟩)) := rfl

theorem enterError_eq (s : State) : enterError s = .next
    ((s.setMidi { Midi.reset with pstate := .error, q := s.midi.q }).setResp (some ⟨.protocolDecodeError, 0#64⟩)) := rfl

theorem conclude_ok (t s : State) : conclude (.ok t) s = .next (t.setResp (some ⟨.ok, 0#64⟩)) := rfl

theorem conclude_error (st : Status) (s : State) : conclude (.error st) s = .next (s.setResp (some ⟨st, 0#64⟩)) := rfl

/-- A checked command either has its effect or leaves the state as it was. -/
theorem conclude_cases {r : Except Status State} {s t : State} (h : conclude r s = .next t) :
    (∃ u, r = .ok u ∧ t = u.setResp (some ⟨.ok, 0#64⟩)) ∨
      (∃ st, r = .error st ∧ t = s.setResp (some ⟨st, 0#64⟩)) := by
  cases r with
  | ok u => exact .inl ⟨u, rfl, (Host.Outcome.next.inj h).symm⟩
  | error st => exact .inr ⟨st, rfl, (Host.Outcome.next.inj h).symm⟩

theorem conclude_ne_fault (r : Except Status State) (s : State) (e : Fault) : conclude r s ≠ .fault e := by
  cases r <;> simp [conclude, finish, raise]

/-- What a step can be: nothing, where the host issues nothing; the decoded command; or an illegal encoding. -/
theorem step_eq (s : State) :
    step s = match s.host with
      | [] => .next s
      | c :: rest =>
        match decode s.cfg.fmt c with
        | .ok i => exec i (s.setHost rest)
        | .error _ => raise .illegalCommand (s.setHost rest) := by
  rw [step, fetch]
  cases s.host <;> rfl

/-- The inversion of a step that answers a next state. -/
theorem step_cases {s t : State} (h : step s = .next t) :
    (s.host = [] ∧ t = s) ∨
      (∃ c rest i, s.host = c :: rest ∧ decode s.cfg.fmt c = .ok i ∧ exec i (s.setHost rest) = .next t) ∨
      (∃ c rest e, s.host = c :: rest ∧ decode s.cfg.fmt c = .error e ∧
        t = (s.setHost rest).setResp (some ⟨.illegalCommand, 0#64⟩)) := by
  rw [step_eq] at h
  split at h
  · rename_i hh; exact .inl ⟨hh, (Host.Outcome.next.inj h).symm⟩
  · rename_i c rest hh
    split at h
    · rename_i i hd; exact .inr (.inl ⟨c, rest, i, hh, hd, h⟩)
    · rename_i e hd; exact .inr (.inr ⟨c, rest, e, hh, hd, (Host.Outcome.next.inj h).symm⟩)

end Sys2Proof.Machine
end

