-- ==== Sys2Proof/Laws/Memory.lean ====
section
/-! SUPPORT. The laws of the word memories: a read after a write, the canonical form, and what a write does to the words. -/

namespace Sys2Proof.Machine

/-! ### Insert -/

@[simp] theorem Memory.lookup_insert_self (m : Memory) (a : Nat) (v : Word) :
    Memory.lookup (Memory.insert m a v) a = some v := by
  induction m with
  | nil => simp [Memory.insert, Memory.lookup]
  | cons c rest ih =>
    simp only [Memory.insert]
    split
    · simp [Memory.lookup]
    · split
      · simp [Memory.lookup]
      · simp [Memory.lookup, *]

theorem Memory.lookup_insert_ne (m : Memory) {a b : Nat} (v : Word) (h : b ≠ a) :
    Memory.lookup (Memory.insert m a v) b = Memory.lookup m b := by
  induction m with
  | nil => simp [Memory.insert, Memory.lookup, h]
  | cons c rest ih =>
    simp only [Memory.insert]
    split
    · rename_i hc; simp [Memory.lookup, h, ← hc]
    · split
      · simp [Memory.lookup, h]
      · simp [Memory.lookup, ih]

theorem Memory.all_insert (p : Nat × Word → Bool) (m : Memory) (a : Nat) (v : Word) (hm : m.all p = true)
    (hv : p (a, v) = true) : (Memory.insert m a v).all p = true := by
  induction m with
  | nil => simp [Memory.insert, hv]
  | cons c rest ih =>
    simp only [List.all_cons, Bool.and_eq_true] at hm
    simp only [Memory.insert]
    split
    · simp [hv, hm.2]
    · split
      · simp [hv, hm.1, hm.2]
      · simp [hm.1, ih hm.2]

/-! ### Erase -/

theorem Memory.all_erase (p : Nat × Word → Bool) (m : Memory) (a : Nat) (hm : m.all p = true) :
    (Memory.erase m a).all p = true := by
  induction m with
  | nil => simp [Memory.erase]
  | cons c rest ih =>
    simp only [List.all_cons, Bool.and_eq_true] at hm
    simp only [Memory.erase]
    split
    · exact hm.2
    · split
      · simp [hm.1, hm.2]
      · simp [hm.1, ih hm.2]

/-! ### The canonical form -/

theorem Memory.wfFrom_cons (d : Option Word) (lo : Option Nat) (a : Nat) (w : Word) (rest : Memory) :
    Memory.wfFrom d lo ((a, w) :: rest) = true ↔
      (∀ l, lo = some l → l < a) ∧ d ≠ some w ∧ Memory.wfFrom d (some a) rest = true := by
  cases lo <;> simp [Memory.wfFrom, and_assoc]

/-- A lower bound can be lowered. -/
theorem Memory.wfFrom_mono (d : Option Word) {lo lo' : Option Nat} (m : Memory)
    (h : ∀ l', lo' = some l' → ∃ l, lo = some l ∧ l' ≤ l) (hm : Memory.wfFrom d lo m = true) :
    Memory.wfFrom d lo' m = true := by
  cases m with
  | nil => rfl
  | cons c rest =>
    rw [Memory.wfFrom_cons] at hm ⊢
    refine ⟨fun l' hl' => ?_, hm.2⟩
    obtain ⟨l, hl, hle⟩ := h l' hl'
    exact Nat.lt_of_le_of_lt hle (hm.1 l hl)

/-- No address at or below the bound is listed. -/
theorem Memory.lookup_of_wfFrom (d : Option Word) {lo : Nat} (m : Memory) (hm : Memory.wfFrom d (some lo) m = true)
    {a : Nat} (h : a ≤ lo) : Memory.lookup m a = none := by
  induction m generalizing lo with
  | nil => rfl
  | cons c rest ih =>
    rw [Memory.wfFrom_cons] at hm
    have h1 := hm.1 lo rfl
    rw [Memory.lookup, if_neg (by omega), ih hm.2.2 (by omega)]

theorem Memory.wfFrom_insert (d : Option Word) (lo : Option Nat) (m : Memory) (a : Nat) (v : Word)
    (hm : Memory.wfFrom d lo m = true) (ha : ∀ l, lo = some l → l < a) (hv : d ≠ some v) :
    Memory.wfFrom d lo (Memory.insert m a v) = true := by
  induction m generalizing lo with
  | nil => rw [Memory.insert, Memory.wfFrom_cons]; exact ⟨ha, hv, rfl⟩
  | cons c rest ih =>
    rw [Memory.wfFrom_cons] at hm
    simp only [Memory.insert]
    split
    · rename_i hc
      rw [Memory.wfFrom_cons]; exact ⟨ha, hv, hc ▸ hm.2.2⟩
    · split
      · rename_i hlt
        rw [Memory.wfFrom_cons, Memory.wfFrom_cons]
        exact ⟨ha, hv, fun l hl => Option.some.inj hl ▸ hlt, hm.2⟩
      · rw [Memory.wfFrom_cons]
        exact ⟨hm.1, hm.2.1, ih _ hm.2.2 fun l hl => by have := Option.some.inj hl; omega⟩

theorem Memory.wfFrom_erase (d : Option Word) (lo : Option Nat) (m : Memory) (a : Nat)
    (hm : Memory.wfFrom d lo m = true) : Memory.wfFrom d lo (Memory.erase m a) = true := by
  induction m generalizing lo with
  | nil => rfl
  | cons c rest ih =>
    have hm' := hm
    rw [Memory.wfFrom_cons] at hm'
    simp only [Memory.erase]
    split
    · exact Memory.wfFrom_mono d rest (fun l' hl' => ⟨_, rfl, Nat.le_of_lt (hm'.1 l' hl')⟩) hm'.2.2
    · split
      · exact hm
      · rw [Memory.wfFrom_cons]; exact ⟨hm'.1, hm'.2.1, ih _ hm'.2.2⟩

/-- Every write keeps the canonical form. -/
theorem Memory.wf_write (d : Option Word) (m : Memory) (a : Nat) (v : Word) (hm : Memory.wf d m = true) :
    Memory.wf d (Memory.write d m a v) = true := by
  rw [Memory.write]
  split
  · exact Memory.wfFrom_erase d none m a hm
  · exact Memory.wfFrom_insert d none m a v hm (by simp) (by assumption)

theorem Memory.lookup_erase_self (d : Option Word) (lo : Option Nat) (m : Memory) (a : Nat)
    (hm : Memory.wfFrom d lo m = true) : Memory.lookup (Memory.erase m a) a = none := by
  induction m generalizing lo with
  | nil => rfl
  | cons c rest ih =>
    rw [Memory.wfFrom_cons] at hm
    simp only [Memory.erase]
    split
    · rename_i hc; exact Memory.lookup_of_wfFrom d rest hm.2.2 (by omega)
    · rename_i hc
      split
      · rename_i hlt
        rw [Memory.lookup, if_neg hc, Memory.lookup_of_wfFrom d rest hm.2.2 (by omega)]
      · rw [Memory.lookup, if_neg hc, ih _ hm.2.2]

theorem Memory.lookup_erase_ne (m : Memory) {a b : Nat} (h : b ≠ a) :
    Memory.lookup (Memory.erase m a) b = Memory.lookup m b := by
  induction m with
  | nil => rfl
  | cons c rest ih =>
    simp only [Memory.erase]
    split
    · rename_i hc; rw [Memory.lookup, if_neg (by omega)]
    · split
      · rfl
      · simp [Memory.lookup, ih]

/-- A read after a write of the same address gives the word written. -/
theorem Memory.read_write_self (d : Option Word) (m : Memory) (a : Nat) (v : Word) (hm : Memory.wf d m = true) :
    Memory.read d (Memory.write d m a v) a = some v := by
  rw [Memory.write]
  split
  · rename_i h; rw [Memory.read, Memory.lookup_erase_self d none m a hm]; exact h
  · simp [Memory.read]

/-- A write leaves every other address alone. -/
theorem Memory.read_write_ne (d : Option Word) (m : Memory) {a b : Nat} (v : Word) (h : b ≠ a) :
    Memory.read d (Memory.write d m a v) b = Memory.read d m b := by
  rw [Memory.write]
  split
  · rw [Memory.read, Memory.read, Memory.lookup_erase_ne m h]
  · rw [Memory.read, Memory.read, Memory.lookup_insert_ne m v h]

theorem Memory.all_write (p : Nat × Word → Bool) (d : Option Word) (m : Memory) (a : Nat) (v : Word)
    (hm : m.all p = true) (hv : p (a, v) = true) : (Memory.write d m a v).all p = true := by
  rw [Memory.write]
  split
  · exact Memory.all_erase p m a hm
  · exact Memory.all_insert p m a v hm hv

/-! ### TABLE and OUTBUF -/

@[simp] theorem Memory.write_table (m : Memory) (a : Nat) (v : Word) :
    Memory.write tableDefault m a v = Memory.insert m a v := by simp [Memory.write, tableDefault]

theorem State.tableRead_eq_lookup (s : State) (a : Nat) : s.tableRead a = Memory.lookup s.table a := by
  simp only [State.tableRead, Memory.read, tableDefault]
  cases Memory.lookup s.table a <;> rfl

/-- `written` is exactly that a TABLE read has a value. -/
theorem State.written_iff (s : State) (a : Nat) : s.written a = true ↔ ∃ w, s.tableRead a = some w := by
  rw [State.tableRead_eq_lookup, State.written, Option.isSome_iff_exists]

theorem State.written_false_iff (s : State) (a : Nat) : s.written a = false ↔ s.tableRead a = none := by
  rw [State.tableRead_eq_lookup, State.written, Option.isSome_eq_false_iff, Option.isNone_iff_eq_none]

@[simp] theorem State.tableRead_tableWrite_self (s : State) (a : Nat) (v : Word) :
    (s.tableWrite a v).tableRead a = some v := by
  simp [State.tableRead_eq_lookup, State.tableWrite]

theorem State.tableRead_tableWrite_ne (s : State) {a b : Nat} (v : Word) (h : b ≠ a) :
    (s.tableWrite a v).tableRead b = s.tableRead b := by
  simp [State.tableRead_eq_lookup, State.tableWrite, Memory.lookup_insert_ne _ _ h]

theorem State.outbufRead_outbufWrite_self (s : State) (a : Nat) (v : Word) (h : Memory.wf outbufDefault s.outbuf = true) :
    (s.outbufWrite a v).outbufRead a = v := by
  simp [State.outbufRead, State.outbufWrite, Memory.read_write_self _ _ _ _ h]

theorem State.outbufRead_outbufWrite_ne (s : State) {a b : Nat} (v : Word) (h : b ≠ a) :
    (s.outbufWrite a v).outbufRead b = s.outbufRead b := by
  simp [State.outbufRead, State.outbufWrite, Memory.read_write_ne _ _ _ h]

/-- The memories of every block right after its construction are in canonical form. -/
theorem State.powerOn_memories (c : Cfg) :
    Memory.wf tableDefault (State.powerOn c).table = true ∧ Memory.wf outbufDefault (State.powerOn c).outbuf = true :=
  ⟨rfl, rfl⟩

end Sys2Proof.Machine
end

