-- ==== Sys2Proof/Laws/Tick.lean ====
section
/-! SUPPORT. What each stage of a sample tick can do, the inversion of a sample tick, and the induction over the samples of a
block. -/

namespace Sys2Proof.Machine

/-! ### The drain -/

/-- One event: a note on, a note off, or nothing. -/
theorem applyEvent_cases (e : BitVec 32) (s : State) :
    (evKind e = 2#4 ∧ evD2 e ≠ 0#8 ∧ applyEvent e s = noteOn (evD1 e) s) ∨
      ((evKind e = 1#4 ∨ evKind e = 2#4 ∧ evD2 e = 0#8) ∧ applyEvent e s = noteOff (evD1 e) s) ∨
      (evKind e ≠ 1#4 ∧ evKind e ≠ 2#4 ∧ applyEvent e s = s) := by
  unfold applyEvent
  split
  · rename_i h
    have h2 : evKind e = 2#4 := BitVec.eq_of_toNat_eq h
    by_cases hd : evD2 e = 0#8
    · right; left; exact ⟨.inr ⟨h2, hd⟩, by rw [if_neg]; simp [hd]⟩
    · left
      refine ⟨h2, hd, ?_⟩
      rw [if_pos]
      have : (evD2 e).toNat ≠ 0 := fun h0 => hd (BitVec.eq_of_toNat_eq h0)
      omega
  · rename_i h
    right; left; exact ⟨.inl (BitVec.eq_of_toNat_eq h), rfl⟩
  · rename_i h1 h2
    right; right
    exact ⟨fun h => h2 (by rw [h]; rfl), fun h => h1 (by rw [h]; rfl), rfl⟩

/-- One event writes VOICE.note, .gate, .in and the plan of RAMP, and nothing else. -/
theorem applyEvent_frame (e : BitVec 32) (s : State) :
    ∃ v r, applyEvent e s = (s.setVoice v).setRamp r ∧ v.detune = s.voice.detune ∧ v.fo = s.voice.fo ∧
      v.out = s.voice.out ∧ r.curve = s.ramp.curve ∧ r.duration = s.ramp.duration ∧ r.out = s.ramp.out := by
  rcases applyEvent_cases e s with ⟨-, -, h⟩ | ⟨-, h⟩ | ⟨-, -, h⟩
  · refine ⟨_, _, h, rfl, rfl, rfl, ?_⟩
    unfold Ramp.goto
    split
    · unfold Ramp.jump; cases s.ramp.curve <;> simp
    · unfold Ramp.plan; cases s.ramp.curve <;> simp
  · unfold noteOff at h
    split at h
    · exact ⟨{ s.voice with gate := Fp.zero, note := 255#8 }, s.ramp, h, rfl, rfl, rfl, rfl, rfl, rfl⟩
    · exact ⟨s.voice, s.ramp, h, rfl, rfl, rfl, rfl, rfl, rfl⟩
  · exact ⟨s.voice, s.ramp, h, rfl, rfl, rfl, rfl, rfl, rfl⟩

/-- The same of a list of events. -/
theorem applyEvents_frame (es : List (BitVec 32)) (s : State) :
    ∃ v r, applyEvents es s = (s.setVoice v).setRamp r ∧ v.detune = s.voice.detune ∧ v.fo = s.voice.fo ∧
      v.out = s.voice.out ∧ r.curve = s.ramp.curve ∧ r.duration = s.ramp.duration ∧ r.out = s.ramp.out := by
  induction es generalizing s with
  | nil => exact ⟨s.voice, s.ramp, rfl, rfl, rfl, rfl, rfl, rfl, rfl⟩
  | cons e rest ih =>
    obtain ⟨v, r, h, h1, h2, h3, h4, h5, h6⟩ := applyEvent_frame e s
    obtain ⟨v', r', h', k1, k2, k3, k4, k5, k6⟩ := ih (applyEvent e s)
    rw [h] at h' k1 k2 k3 k4 k5 k6
    refine ⟨v', r', by rw [applyEvents, h, h']; rfl, ?_, ?_, ?_, ?_, ?_, ?_⟩
    · exact k1.trans h1
    · exact k2.trans h2
    · exact k3.trans h3
    · exact k4.trans h4
    · exact k5.trans h5
    · exact k6.trans h6

/-- A property of the state that every event keeps is kept by the drain of events that satisfy `P`. -/
theorem applyEvents_induct {Inv : State → Prop} {P : BitVec 32 → Prop}
    (hstep : ∀ e s, P e → Inv s → Inv (applyEvent e s)) (es : List (BitVec 32)) (hP : ∀ e ∈ es, P e) (s : State)
    (h : Inv s) : Inv (applyEvents es s) := by
  induction es generalizing s with
  | nil => exact h
  | cons e rest ih =>
    exact ih (fun e' he' => hP e' (List.mem_cons_of_mem _ he')) _ (hstep e s (hP e List.mem_cons_self) h)

/-- The drain stage writes VOICE, RAMP and the queue. -/
theorem drainStage_frame (s : State) :
    ∃ v r, drainStage s = ((s.setMidi { s.midi with q := if s.ctrl.midiDrive then [] else s.midi.q }).setVoice v).setRamp r ∧
      v.detune = s.voice.detune ∧ v.fo = s.voice.fo ∧ v.out = s.voice.out ∧ r.curve = s.ramp.curve ∧
      r.duration = s.ramp.duration ∧ r.out = s.ramp.out ∧ (s.ctrl.midiDrive = false → v = s.voice ∧ r = s.ramp) := by
  unfold drainStage
  cases hd : s.ctrl.midiDrive
  · exact ⟨s.voice, s.ramp, by simp [State.setMidi, State.setVoice, State.setRamp], rfl, rfl, rfl, rfl, rfl, rfl,
      fun _ => ⟨rfl, rfl⟩⟩
  · obtain ⟨v, r, h, h1, h2, h3, h4, h5, h6⟩ := applyEvents_frame s.midi.q (s.setMidi { s.midi with q := [] })
    exact ⟨v, r, by simpa [voiceDrain] using h, h1, h2, h3, h4, h5, h6, by simp⟩

/-! ### The tick -/

/-- The inversion of a sample tick: the drain to `u`, then every unit from `u`, the oscillator answering `o`. -/
theorem sampleTick_cases {s t : State} (h : sampleTick s = .ok t) :
    ∃ o, (beforeOsc s).osc.tick s.cfg s.table = .ok o ∧ t = afterOsc ((beforeOsc s).setOsc o) := by
  obtain ⟨v, r, hd, -⟩ := drainStage_frame s
  unfold sampleTick oscStage at h
  have hc : (beforeOsc s).cfg = s.cfg := by simp [beforeOsc, hd, rampStage, latchStage]
  have ht : (beforeOsc s).table = s.table := by simp [beforeOsc, hd, rampStage, latchStage]
  rw [hc, ht] at h
  cases ho : (beforeOsc s).osc.tick s.cfg s.table with
  | ok o => rw [ho] at h; exact ⟨o, rfl, (Except.ok.inj h).symm⟩
  | error e => rw [ho] at h; cases h

/-- The sample tick as an equation. -/
theorem sampleTick_eq (s : State) :
    sampleTick s = match (beforeOsc s).osc.tick s.cfg s.table with
      | .ok o => .ok (afterOsc ((beforeOsc s).setOsc o))
      | .error e => .error e := by
  obtain ⟨v, r, hd, -⟩ := drainStage_frame s
  unfold sampleTick oscStage
  have hc : (beforeOsc s).cfg = s.cfg := by simp [beforeOsc, hd, rampStage, latchStage]
  have ht : (beforeOsc s).table = s.table := by simp [beforeOsc, hd, rampStage, latchStage]
  rw [hc, ht]
  cases (beforeOsc s).osc.tick s.cfg s.table <;> rfl

/-- What the oscillator tick keeps of OSC. -/
theorem Osc.tick_cases {c : Cfg} {table : Memory} {o o' : Osc} (h : o.tick c table = .ok o') :
    ∃ out, octaveSample c table o.bank o.phase (o.freq c.fmt) = .ok out ∧
      o' = { o with
        feff := o.freq c.fmt
        k := BitVec.ofNat 8 (octave c (o.freq c.fmt)).1
        frac := (octave c (o.freq c.fmt)).2
        out := out
        phase := phaseAdvance c o.phase (o.freq c.fmt) } := by
  unfold Osc.tick at h
  cases ho : octaveSample c table o.bank o.phase (o.freq c.fmt) with
  | ok out => rw [ho] at h; exact ⟨out, rfl, (Except.ok.inj h).symm⟩
  | error e => rw [ho] at h; cases h

/-- What precedes the oscillator, from the drained voice `v` and ramp `r`. -/
theorem beforeOsc_eq {s : State} {v : Voice} {r : Ramp}
    (h : drainStage s = ((s.setMidi { s.midi with q := if s.ctrl.midiDrive then [] else s.midi.q }).setVoice v).setRamp r) :
    beforeOsc s = { s with
      midi := { s.midi with q := if s.ctrl.midiDrive then [] else s.midi.q }
      voice := v
      ramp := r.tick s.cfg.fmt
      osc := { s.osc with inp := (r.tick s.cfg.fmt).out, detune := v.detune }
      env := { s.env with gate := v.gate }
      filter := { s.filter with fo := v.fo } } := by
  simp only [beforeOsc, h, rampStage, latchStage, State.setMidi, State.setVoice, State.setRamp, State.setEnv, State.setOsc,
    State.setFilter]

/-- What follows the oscillator. -/
theorem afterOsc_eq (s : State) :
    afterOsc s =
      let env := s.env.tick s.cfg
      let gain : Gain := ⟨env.amp, s.osc.out, Fp.mul s.cfg.fmt s.osc.out env.amp⟩
      let filter := if s.ctrl.filterEn then ({ s.filter with inp := gain.out } : Filter).tick s.cfg else s.filter
      let out := if s.ctrl.filterEn then filter.out else gain.out
      { s with
        env := env
        gain := gain
        filter := filter
        voice := { s.voice with out := out }
        nonfinite := s.nonfinite || !Fp.finite s.cfg.fmt out
        sampleCount := s.sampleCount + 1#32 } := by
  cases hf : s.ctrl.filterEn <;>
    simp [afterOsc, filterStage, ampStage, countStage, State.flagOutput, Gain.tick, State.setVoice, State.setGain, State.setEnv,
      State.setFilter, State.setNonfinite, State.setSampleCount, hf]

/-- The whole of a sample tick: every field of the new state from the drained voice `v` and ramp `r` and the oscillator's
answer `o`. -/
theorem sampleTick_ok {s t : State} (h : sampleTick s = .ok t) :
    ∃ v r o, drainStage s = ((s.setMidi { s.midi with q := if s.ctrl.midiDrive then [] else s.midi.q }).setVoice v).setRamp r ∧
      Osc.tick s.cfg s.table { s.osc with inp := (r.tick s.cfg.fmt).out, detune := v.detune } = .ok o ∧
      t =
        let env := Env.tick s.cfg { s.env with gate := v.gate }
        let gain : Gain := ⟨env.amp, o.out, Fp.mul s.cfg.fmt o.out env.amp⟩
        let filter := if s.ctrl.filterEn then Filter.tick s.cfg { s.filter with fo := v.fo, inp := gain.out }
          else { s.filter with fo := v.fo }
        let out := if s.ctrl.filterEn then filter.out else gain.out
        { s with
          midi := { s.midi with q := if s.ctrl.midiDrive then [] else s.midi.q }
          voice := { v with out := out }
          ramp := r.tick s.cfg.fmt
          osc := o
          env := env
          gain := gain
          filter := filter
          nonfinite := s.nonfinite || !Fp.finite s.cfg.fmt out
          sampleCount := s.sampleCount + 1#32 } := by
  obtain ⟨v, r, hd, -⟩ := drainStage_frame s
  obtain ⟨o, ho, rfl⟩ := sampleTick_cases h
  refine ⟨v, r, o, hd, ?_, ?_⟩
  · rw [beforeOsc_eq hd] at ho; exact ho
  · simp only [beforeOsc_eq hd, afterOsc_eq, State.setOsc]

/-! ### The tick and OUTBUF -/

/-- An event's effect does not see OUTBUF. -/
theorem applyEvent_setOutbuf (e : BitVec 32) (s : State) (m : Memory) :
    applyEvent e (s.setOutbuf m) = (applyEvent e s).setOutbuf m := by
  unfold applyEvent noteOn noteOff
  split
  · split
    · rfl
    · show (if _ = s.voice.note then _ else _) = _
      split <;> rfl
  · show (if _ = s.voice.note then _ else _) = _
    split <;> rfl
  · rfl

/-- Nor does that of a list of events. -/
theorem applyEvents_setOutbuf (es : List (BitVec 32)) (s : State) (m : Memory) :
    applyEvents es (s.setOutbuf m) = (applyEvents es s).setOutbuf m := by
  induction es generalizing s with
  | nil => rfl
  | cons e rest ih => rw [applyEvents, applyEvent_setOutbuf, ih, applyEvents]

/-- Nor does the drain. -/
theorem drainStage_setOutbuf (s : State) (m : Memory) : drainStage (s.setOutbuf m) = (drainStage s).setOutbuf m := by
  unfold drainStage voiceDrain
  cases h : s.ctrl.midiDrive
  · simp [h]
  · have := applyEvents_setOutbuf s.midi.q (s.setMidi { s.midi with q := [] }) m
    simpa [h, State.setOutbuf, State.setMidi] using this

/-- A sample tick does not read OUTBUF: with another OUTBUF it is the same tick (R85). -/
theorem sampleTick_setOutbuf (s : State) (m : Memory) :
    sampleTick (s.setOutbuf m) = match sampleTick s with
      | .ok t => .ok (t.setOutbuf m)
      | .error e => .error e := by
  have hb : beforeOsc (s.setOutbuf m) = (beforeOsc s).setOutbuf m := by
    simp only [beforeOsc, drainStage_setOutbuf]; rfl
  rw [sampleTick_eq, sampleTick_eq, hb]
  show (match (beforeOsc s).osc.tick s.cfg s.table with | .ok o => _ | .error e => _) = _
  cases (beforeOsc s).osc.tick s.cfg s.table with
  | error e => rfl
  | ok o =>
    simp only
    congr 1
    rw [afterOsc_eq, afterOsc_eq]
    rfl

/-- A sample tick does not write OUTBUF. -/
theorem sampleTick_outbuf {s t : State} (h : sampleTick s = .ok t) : t.outbuf = s.outbuf := by
  obtain ⟨v, r, o, -, -, rfl⟩ := sampleTick_ok h; rfl

/-! ### The block -/

/-- A property that every sample tick and every write of an output word keep holds after the ticks of a block. -/
theorem blockTicks_induct {Inv : State → Prop} {n i : Nat} {s t : State}
    (hstep : ∀ j u v, i ≤ j → j < i + n → Inv u → sampleTick u = .ok v → Inv (v.outbufWrite j v.voice.out))
    (hs : Inv s) (h : blockTicks n i s = .ok t) : Inv t := by
  induction n generalizing i s with
  | zero => exact Except.ok.inj h ▸ hs
  | succ n ih =>
    unfold blockTicks at h
    cases hu : sampleTick s with
    | error e => rw [hu] at h; cases h
    | ok u =>
      rw [hu] at h
      exact ih (fun j u' v hj hj' => hstep j u' v (by omega) (by omega)) (hstep i s u (by omega) (by omega) hs hu) h

/-- A block is its first samples and then one more. -/
theorem blockTicks_succ (n i : Nat) (s : State) :
    blockTicks (n + 1) i s = match blockTicks n i s with
      | .error e => .error e
      | .ok u =>
        match sampleTick u with
        | .error e => .error e
        | .ok v => .ok (v.outbufWrite (i + n) v.voice.out) := by
  induction n generalizing i s with
  | zero =>
    simp only [blockTicks]
    cases sampleTick s <;> rfl
  | succ n ih =>
    rw [blockTicks]
    conv_rhs => rw [blockTicks]
    cases sampleTick s with
    | error e => rfl
    | ok u =>
      simp only
      rw [ih]
      have : i + 1 + n = i + (n + 1) := by omega
      rw [this]

end Sys2Proof.Machine
end

