-- ==== Sys2Proof/Laws/Commands.lean ====
section
/-! SUPPORT. What each command can do: the inversion of every write rule and of `exec`, which the invariants are proved from. -/

namespace Sys2Proof.Machine

/-! ### The write rules -/

/-- What a port write changes, when it is accepted. -/
inductive PortEffect (dw : Word) (s : State) : State → Prop where
  | voiceIn (hf : Fp.finite s.cfg.fmt dw = true) (h0 : Fp.lt s.cfg.fmt dw Fp.zero = false)
      (h1 : Fp.lt s.cfg.fmt s.cfg.halfFs dw = false)
      (he : s.ramp.curve = .exp → expOk s.cfg.fmt (s.ramp.value s.cfg.fmt) dw = true) :
      PortEffect dw s ((s.setRamp (s.ramp.plan s.cfg (s.ramp.value s.cfg.fmt) dw)).setVoice { s.voice with inp := dw })
  | gate (hf : Fp.finite s.cfg.fmt dw = true) : PortEffect dw s (s.setVoice { s.voice with gate := dw })
  | detune (hf : Fp.finite s.cfg.fmt dw = true) (h : Fp.lt s.cfg.fmt s.cfg.detuneMax (Fp.abs s.cfg.fmt dw) = false) :
      PortEffect dw s (s.setVoice { s.voice with detune := dw })
  | filterOffset (hf : Fp.finite s.cfg.fmt dw = true) :
      PortEffect dw s ((s.setVoice { s.voice with fo := dw }).setFilter { s.filter with dirty := true })

theorem writePort_cases {p : Port} {dw : Word} {s t : State} (h : writePort p dw s = .ok t) : PortEffect dw s t := by
  cases p
  case voiceIn =>
    simp only [writePort, writeVoiceIn] at h
    split at h
    · cases h
    · rename_i hc
      split at h
      · cases h
      · rename_i he
        obtain rfl := Except.ok.inj h
        simp only [not_or, Bool.not_eq_false, Bool.not_eq_true] at hc
        exact .voiceIn hc.1 hc.2.1 hc.2.2 (by simpa using he)
  case voiceGate =>
    simp only [writePort, writeVoiceGate] at h
    split at h
    · cases h
    · obtain rfl := Except.ok.inj h; exact .gate (by simp_all)
  case voiceDetune =>
    simp only [writePort, writeVoiceDetune] at h
    split at h
    · cases h
    · obtain rfl := Except.ok.inj h; exact .detune (by simp_all) (by simp_all)
  case voiceFilterOffset =>
    simp only [writePort, writeVoiceFilterOffset] at h
    split at h
    · cases h
    · obtain rfl := Except.ok.inj h; exact .filterOffset (by simp_all)
  all_goals simp [writePort] at h

/-- What a parameter write changes, when it is accepted. -/
inductive RegEffect (dw : Word) (s : State) : State → Prop where
  | rampValue (hf : Fp.finite s.cfg.fmt dw = true) (h0 : Fp.lt s.cfg.fmt dw Fp.zero = false)
      (h1 : Fp.lt s.cfg.fmt s.cfg.halfFs dw = false) (he : s.ramp.curve = .exp → Fp.lt s.cfg.fmt Fp.zero dw = true) :
      RegEffect dw s ((s.setRamp (s.ramp.jump dw)).setVoice { s.voice with inp := dw })
  | rampDuration (h : durationOk s.cfg.fmt dw = true) : RegEffect dw s (s.setRamp { s.ramp with duration := dw })
  | rampCurveSame : RegEffect dw s s
  | rampCurve (k : Curve) (hk : k ≠ s.ramp.curve)
      (he : k = .exp → expOk s.cfg.fmt (s.ramp.value s.cfg.fmt) s.ramp.toVal = true) :
      RegEffect dw s (s.setRamp (({ s.ramp with curve := k } : Ramp).plan s.cfg (s.ramp.value s.cfg.fmt) s.ramp.toVal))
  | oscBank (h : dw.toNat < s.cfg.numBanks) : RegEffect dw s (s.setOsc { s.osc with bank := BitVec.ofNat 8 dw.toNat })
  | oscPhase (hf : Fp.finite s.cfg.fmt dw = true) (h0 : Fp.lt s.cfg.fmt dw Fp.zero = false)
      (h1 : Fp.le s.cfg.fmt (Fp.one s.cfg.fmt) dw = false) : RegEffect dw s (s.setOsc { s.osc with phase := dw })
  | envAttack (h : durationOk s.cfg.fmt dw = true) : RegEffect dw s (s.setEnv { s.env with attack := dw })
  | envDecay (h : durationOk s.cfg.fmt dw = true) : RegEffect dw s (s.setEnv { s.env with decay := dw })
  | envRelease (h : durationOk s.cfg.fmt dw = true) : RegEffect dw s (s.setEnv { s.env with release := dw })
  | envSustain (hf : Fp.finite s.cfg.fmt dw = true) (h0 : Fp.lt s.cfg.fmt dw Fp.zero = false)
      (h1 : Fp.lt s.cfg.fmt (Fp.one s.cfg.fmt) dw = false) : RegEffect dw s (s.setEnv { s.env with sustain := dw })
  | filterBase (hf : Fp.finite s.cfg.fmt dw = true) : RegEffect dw s (s.setFilter { s.filter with base := dw, dirty := true })
  | filterDepth (hf : Fp.finite s.cfg.fmt dw = true) : RegEffect dw s (s.setFilter { s.filter with depth := dw, dirty := true })
  | filterQ (hf : Fp.finite s.cfg.fmt dw = true) (h : Fp.lt s.cfg.fmt dw s.cfg.qMin = false) :
      RegEffect dw s (s.setFilter { s.filter with q := dw, dirty := true })
  | sysCtrl (h : dw.toNat < 4) : RegEffect dw s (s.setCtrl (Ctrl.ofWord dw))
  | sysStatus : RegEffect dw s (s.clearFlags dw)

theorem writeReg_cases {r : Reg} {dw : Word} {s t : State} (h : writeReg r dw s = .ok t) : RegEffect dw s t := by
  cases r
  case rampValue =>
    simp only [writeReg, writeRampValue] at h
    split at h
    · cases h
    · rename_i hc
      split at h
      · cases h
      · rename_i he
        obtain rfl := Except.ok.inj h
        simp only [not_or, Bool.not_eq_false, Bool.not_eq_true] at hc
        exact .rampValue hc.1 hc.2.1 hc.2.2 (by simpa using he)
  case rampDuration =>
    simp only [writeReg, writeRampDuration] at h
    split at h
    · obtain rfl := Except.ok.inj h; exact .rampDuration (by assumption)
    · cases h
  case rampCurve =>
    simp only [writeReg, writeRampCurve] at h
    split at h
    · cases h
    · rename_i k _
      split at h
      · obtain rfl := Except.ok.inj h; exact .rampCurveSame
      · rename_i hk
        split at h
        · cases h
        · rename_i he
          obtain rfl := Except.ok.inj h
          exact .rampCurve k hk (by simpa using he)
  case oscBank =>
    simp only [writeReg, writeOscBank] at h
    split at h
    · cases h
    · obtain rfl := Except.ok.inj h; exact .oscBank (by omega)
  case oscPhase =>
    simp only [writeReg, writeOscPhase] at h
    split at h
    · cases h
    · obtain rfl := Except.ok.inj h; exact .oscPhase (by simp_all) (by simp_all) (by simp_all)
  case envAttack =>
    simp only [writeReg, writeEnvAttack] at h
    split at h
    · obtain rfl := Except.ok.inj h; exact .envAttack (by assumption)
    · cases h
  case envDecay =>
    simp only [writeReg, writeEnvDecay] at h
    split at h
    · obtain rfl := Except.ok.inj h; exact .envDecay (by assumption)
    · cases h
  case envRelease =>
    simp only [writeReg, writeEnvRelease] at h
    split at h
    · obtain rfl := Except.ok.inj h; exact .envRelease (by assumption)
    · cases h
  case envSustain =>
    simp only [writeReg, writeEnvSustain] at h
    split at h
    · cases h
    · obtain rfl := Except.ok.inj h; exact .envSustain (by simp_all) (by simp_all) (by simp_all)
  case filterBase =>
    simp only [writeReg, writeFilterBase] at h
    split at h
    · cases h
    · obtain rfl := Except.ok.inj h; exact .filterBase (by simp_all)
  case filterDepth =>
    simp only [writeReg, writeFilterDepth] at h
    split at h
    · cases h
    · obtain rfl := Except.ok.inj h; exact .filterDepth (by simp_all)
  case filterQ =>
    simp only [writeReg, writeFilterQ] at h
    split at h
    · cases h
    · obtain rfl := Except.ok.inj h; exact .filterQ (by simp_all) (by simp_all)
  case sysCtrl =>
    simp only [writeReg, writeSysCtrl] at h
    split at h
    · cases h
    · obtain rfl := Except.ok.inj h; exact .sysCtrl (by omega)
  case sysStatus =>
    simp only [writeReg, writeSysStatus] at h
    obtain rfl := Except.ok.inj h; exact .sysStatus
  all_goals simp [writeReg] at h

/-! ### The statuses of the write rules -/

theorem writePort_error {p : Port} {dw : Word} {s : State} {st : Status} (h : writePort p dw s = .error st)
    (hp : p.writable = true) : st = .invalidParameter := by
  cases p <;> simp [Port.writable] at hp <;>
    simp only [writePort, writeVoiceIn, writeVoiceGate, writeVoiceDetune, writeVoiceFilterOffset] at h <;>
    (repeat' split at h) <;> simp_all

theorem writeReg_error {r : Reg} {dw : Word} {s : State} {st : Status} (h : writeReg r dw s = .error st)
    (hr : r.writable = true) : st = .invalidParameter := by
  cases r <;> simp [Reg.writable] at hr <;>
    simp only [writeReg, writeRampValue, writeRampDuration, writeRampCurve, writeOscBank, writeOscPhase, writeEnvAttack,
      writeEnvDecay, writeEnvRelease, writeEnvSustain, writeFilterBase, writeFilterDepth, writeFilterQ, writeSysCtrl,
      writeSysStatus] at h <;>
    (repeat' split at h) <;> simp_all

/-! ### The commands -/

/-- What a command that answers leaves of the state, but for the response. -/
inductive Effect (i : Instr) (s : State) : State → Response → Prop where
  /-- An error: nothing. -/
  | error (st : Status) (h : mayAnswer i st = true) (hne : st ≠ .ok)
      (hd : st = .protocolDecodeError → s.midi.pstate = .error) : Effect i s s ⟨st, 0#64⟩
  | nop (hi : i = .nop) : Effect i s s ⟨.ok, 0#64⟩
  | reset (hi : i = .reset) : Effect i s (softReset s) ⟨.ok, 0#64⟩
  | tick (hi : i = .tick) (u : State) (hl : s.lifecycle = .run) (h : sampleTick s = .ok u) : Effect i s u ⟨.ok, u.voice.out⟩
  | tickb (hi : i = .tickb) (u : State) (hl : s.lifecycle = .run) (h : blockTicks s.cfg.blockSize 0 s = .ok u) :
      Effect i s u ⟨.ok, u.voice.out⟩
  | rdbuf (a : BitVec 24) (hi : i = .rdbuf a) (ha : a.toNat < s.cfg.blockSize) : Effect i s s ⟨.ok, s.outbufRead a.toNat⟩
  | port (unit : UnitId) (sel : Byte) (dw : Word) (hi : i = .wport unit sel dw) (u : State) (h : PortEffect dw s u) :
      Effect i s u ⟨.ok, 0#64⟩
  | rport (unit : UnitId) (sel : Byte) (p : Port) (hi : i = .rport unit sel) (h : portOf unit sel = some p) :
      Effect i s s ⟨.ok, readPort p s⟩
  | reg (unit : UnitId) (sel : Byte) (dw : Word) (hi : i = .wparam unit sel dw) (u : State) (h : RegEffect dw s u) :
      Effect i s u ⟨.ok, 0#64⟩
  | rparam (unit : UnitId) (sel : Byte) (r : Reg) (hi : i = .rparam unit sel) (h : regOf unit sel = some r) :
      Effect i s s ⟨.ok, readReg r s⟩
  | twrite (a : BitVec 24) (dw : Word) (hi : i = .twrite a dw) (hl : s.lifecycle = .load) (ha : a.toNat < s.cfg.tableSize)
      (hf : Fp.finite s.cfg.fmt dw = true) : Effect i s (s.tableWrite a.toNat dw) ⟨.ok, 0#64⟩
  | tread (a : BitVec 24) (w : Word) (hi : i = .tread a) (ha : a.toNat < s.cfg.tableSize)
      (h : s.tableRead a.toNat = some w) : Effect i s s ⟨.ok, w⟩
  | sealed (hi : i = .sealTables) (hl : s.lifecycle = .load) : Effect i s (s.setLifecycle .run) ⟨.ok, 0#64⟩
  | byte (b : Byte) (hi : i = .mpush b) (m : Midi) (h : parseByte s.cfg.evqDepth b s.midi = .taken m) :
      Effect i s (s.setMidi m) ⟨.ok, intWord m.count⟩
  | broken (b : Byte) (hi : i = .mpush b) (hs : s.midi.pstate ≠ .error)
      (h : parseByte s.cfg.evqDepth b s.midi = .broken) :
      Effect i s (s.setMidi { Midi.reset with pstate := .error, q := s.midi.q }) ⟨.protocolDecodeError, 0#64⟩
  | pop (hi : i = .mpop) (e : BitVec 32) (rest : List (BitVec 32)) (h : s.midi.q = e :: rest) :
      Effect i s (s.setMidi { s.midi with q := rest }) ⟨.ok, intWord e.toNat⟩
  | mreset (hi : i = .mreset) : Effect i s (s.setMidi { Midi.reset with q := s.midi.q }) ⟨.ok, 0#64⟩

/-- The inversion of `exec`: every answer of a command is one of the effects above. -/
theorem exec_effect {i : Instr} {s t : State} (h : exec i s = .next t) :
    ∃ u r, Effect i s u r ∧ t = u.setResp (some r) := by
  cases i with
  | nop => exact ⟨_, _, .nop rfl, (Host.Outcome.next.inj h).symm⟩
  | reset => exact ⟨_, _, .reset rfl, (Host.Outcome.next.inj h).symm⟩
  | tick =>
    simp only [exec, execTick] at h
    split at h
    · exact ⟨_, _, .error _ (by rfl) (by simp) (by simp), (Host.Outcome.next.inj h).symm⟩
    · rename_i hl
      split at h
      · rename_i u hu; exact ⟨_, _, .tick rfl u hl hu, (Host.Outcome.next.inj h).symm⟩
      · cases h
  | tickb =>
    simp only [exec, execTickb] at h
    split at h
    · exact ⟨_, _, .error _ (by rfl) (by simp) (by simp), (Host.Outcome.next.inj h).symm⟩
    · rename_i hl
      split at h
      · rename_i u hu; exact ⟨_, _, .tickb rfl u hl hu, (Host.Outcome.next.inj h).symm⟩
      · cases h
  | rdbuf a =>
    simp only [exec, execRdbuf] at h
    split at h
    · exact ⟨_, _, .error _ (by rfl) (by simp) (by simp), (Host.Outcome.next.inj h).symm⟩
    · exact ⟨_, _, .rdbuf a rfl (by omega), (Host.Outcome.next.inj h).symm⟩
  | wport unit sel dw =>
    simp only [exec, execWport] at h
    split at h
    · exact ⟨_, _, .error _ (by rfl) (by simp) (by simp), (Host.Outcome.next.inj h).symm⟩
    · split at h
      · rename_i p _ hp
        split at h
        · rcases conclude_cases h with ⟨u, hu, rfl⟩ | ⟨st, hst, rfl⟩
          · exact ⟨_, _, .port unit sel dw rfl u (writePort_cases hu), rfl⟩
          · obtain rfl := writePort_error hst hp
            exact ⟨_, _, .error _ (by rfl) (by simp) (by simp), rfl⟩
        · exact ⟨_, _, .error _ (by rfl) (by simp) (by simp), (Host.Outcome.next.inj h).symm⟩
      · exact ⟨_, _, .error _ (by rfl) (by simp) (by simp), (Host.Outcome.next.inj h).symm⟩
  | rport unit sel =>
    simp only [exec, execRport] at h
    split at h
    · exact ⟨_, _, .error _ (by rfl) (by simp) (by simp), (Host.Outcome.next.inj h).symm⟩
    · rename_i p hp; exact ⟨_, _, .rport unit sel p rfl hp, (Host.Outcome.next.inj h).symm⟩
  | wparam unit sel dw =>
    simp only [exec, execWparam] at h
    split at h
    · exact ⟨_, _, .error _ (by rfl) (by simp) (by simp), (Host.Outcome.next.inj h).symm⟩
    · split at h
      · rename_i r _ hr
        split at h
        · exact ⟨_, _, .error _ (by rfl) (by simp) (by simp), (Host.Outcome.next.inj h).symm⟩
        · rcases conclude_cases h with ⟨u, hu, rfl⟩ | ⟨st, hst, rfl⟩
          · exact ⟨_, _, .reg unit sel dw rfl u (writeReg_cases hu), rfl⟩
          · obtain rfl := writeReg_error hst hr
            exact ⟨_, _, .error _ (by rfl) (by simp) (by simp), rfl⟩
      · exact ⟨_, _, .error _ (by rfl) (by simp) (by simp), (Host.Outcome.next.inj h).symm⟩
  | rparam unit sel =>
    simp only [exec, execRparam] at h
    split at h
    · exact ⟨_, _, .error _ (by rfl) (by simp) (by simp), (Host.Outcome.next.inj h).symm⟩
    · rename_i r hr; exact ⟨_, _, .rparam unit sel r rfl hr, (Host.Outcome.next.inj h).symm⟩
  | twrite a dw =>
    simp only [exec, execTwrite] at h
    split at h
    · exact ⟨_, _, .error _ (by rfl) (by simp) (by simp), (Host.Outcome.next.inj h).symm⟩
    · rename_i hl
      split at h
      · exact ⟨_, _, .error _ (by rfl) (by simp) (by simp), (Host.Outcome.next.inj h).symm⟩
      · split at h
        · rename_i hf; exact ⟨_, _, .twrite a dw rfl hl (by omega) hf, (Host.Outcome.next.inj h).symm⟩
        · exact ⟨_, _, .error _ (by rfl) (by simp) (by simp), (Host.Outcome.next.inj h).symm⟩
  | tread a =>
    simp only [exec, execTread] at h
    split at h
    · exact ⟨_, _, .error _ (by rfl) (by simp) (by simp), (Host.Outcome.next.inj h).symm⟩
    · split at h
      · rename_i w hw; exact ⟨_, _, .tread a w rfl (by omega) hw, (Host.Outcome.next.inj h).symm⟩
      · cases h
  | sealTables =>
    simp only [exec, execSeal] at h
    split at h
    · rename_i hl; exact ⟨_, _, .sealed rfl hl, (Host.Outcome.next.inj h).symm⟩
    · exact ⟨_, _, .error _ (by rfl) (by simp) (by simp), (Host.Outcome.next.inj h).symm⟩
  | mpush b =>
    simp only [exec, execMpush] at h
    split at h
    · rename_i hs; exact ⟨_, _, .error _ (by rfl) (by simp) (fun _ => hs), (Host.Outcome.next.inj h).symm⟩
    · rename_i hs
      split at h
      · rename_i m hm; exact ⟨_, _, .byte b rfl m hm, (Host.Outcome.next.inj h).symm⟩
      · exact ⟨_, _, .error _ (by rfl) (by simp) (by simp), (Host.Outcome.next.inj h).symm⟩
      · rename_i hm; exact ⟨_, _, .broken b rfl hs hm, (Host.Outcome.next.inj h).symm⟩
  | mpop =>
    simp only [exec, execMpop] at h
    split at h
    · exact ⟨_, _, .error _ (by rfl) (by simp) (by simp), (Host.Outcome.next.inj h).symm⟩
    · rename_i e rest hq; exact ⟨_, _, .pop rfl e rest hq, (Host.Outcome.next.inj h).symm⟩
  | mreset => exact ⟨_, _, .mreset rfl, (Host.Outcome.next.inj h).symm⟩

/-- No command is refused, and a fault is the model's one. -/
theorem exec_not_refused (i : Instr) (s : State) (r : Refusal) : exec i s ≠ .refused r := by
  intro h
  cases i <;>
    simp only [exec, execNop, execReset, execTick, execTickb, execRdbuf, execWport, execRport, execWparam, execRparam, execTwrite,
      execTread, execSeal, execMpush, execMpop, execMreset, enterError, conclude, finish, raise] at h <;>
    (repeat' split at h) <;> cases h

/-- An invariant that does not see the response or the host's commands is kept by every step if every effect keeps it. -/
theorem step_keeps {Inv : State → Prop} (hr : ∀ s r, Inv s → Inv (s.setResp r)) (hh : ∀ s l, Inv s → Inv (s.setHost l))
    (he : ∀ i s u r, Inv s → Effect i s u r → Inv u) {s t : State} (hs : Inv s) (h : step s = .next t) : Inv t := by
  rcases step_cases h with ⟨-, rfl⟩ | ⟨c, rest, i, -, -, hx⟩ | ⟨c, rest, e, -, -, rfl⟩
  · exact hs
  · obtain ⟨u, r, hu, rfl⟩ := exec_effect hx
    exact hr _ _ (he i _ u r (hh _ _ hs) hu)
  · exact hr _ _ (hh _ _ hs)

end Sys2Proof.Machine
end

