-- ==== Sys2Proof/Laws/Decode.lean ====
section
/-! SUPPORT. The fields of the words that the encoder writes, and of the words that the decoder reads. -/

namespace Sys2Proof

/-! ### The four formats -/

theorem toNat_append (n m : Nat) (x : BitVec n) (y : BitVec m) : (x ++ y).toNat = x.toNat * 2 ^ m + y.toNat := by
  rw [BitVec.toNat_append, ← Nat.shiftLeft_add_eq_or_of_lt y.isLt, Nat.shiftLeft_eq]

theorem toNat_field (w s l : Nat) (x : BitVec w) : (x.extractLsb' s l).toNat = x.toNat / 2 ^ s % 2 ^ l := by
  rw [BitVec.extractLsb'_toNat, Nat.shiftRight_eq_div_pow]

theorem cwN_toNat (op : Byte) : (cwN op).toNat = op.toNat * 2 ^ 24 := by
  show (op ++ (0#24 : BitVec 24)).toNat = _
  rw [toNat_append]; simp

theorem cwP_toNat (op : Byte) (u : UnitId) (sel : Byte) :
    (cwP op u sel).toNat = op.toNat * 2 ^ 24 + u.code.toNat * 2 ^ 8 + sel.toNat := by
  show (op ++ ((0#8 ++ (u.code ++ sel : BitVec 16)) : BitVec 24)).toNat = _
  rw [toNat_append, toNat_append 8 16, toNat_append 8 8]
  simp; omega

theorem cwB_toNat (op b : Byte) : (cwB op b).toNat = op.toNat * 2 ^ 24 + b.toNat := by
  show (op ++ ((0#16 ++ b) : BitVec 24)).toNat = _
  rw [toNat_append, toNat_append 16 8]
  simp

theorem cwA_toNat (op : Byte) (a : BitVec 24) : (cwA op a).toNat = op.toNat * 2 ^ 24 + a.toNat := toNat_append 8 24 op a

@[simp] theorem op_cwN (op : Byte) (dw : Word) : Cmd.op ⟨cwN op, dw⟩ = op := by
  apply BitVec.eq_of_toNat_eq; rw [Cmd.op, toNat_field, cwN_toNat]; have := op.isLt; omega
@[simp] theorem op_cwP (op : Byte) (u : UnitId) (sel : Byte) (dw : Word) : Cmd.op ⟨cwP op u sel, dw⟩ = op := by
  apply BitVec.eq_of_toNat_eq; rw [Cmd.op, toNat_field, cwP_toNat]
  have := op.isLt; have := u.code.isLt; have := sel.isLt; omega
@[simp] theorem op_cwB (op b : Byte) (dw : Word) : Cmd.op ⟨cwB op b, dw⟩ = op := by
  apply BitVec.eq_of_toNat_eq; rw [Cmd.op, toNat_field, cwB_toNat]; have := op.isLt; have := b.isLt; omega
@[simp] theorem op_cwA (op : Byte) (a : BitVec 24) (dw : Word) : Cmd.op ⟨cwA op a, dw⟩ = op := by
  apply BitVec.eq_of_toNat_eq; rw [Cmd.op, toNat_field, cwA_toNat]; have := op.isLt; have := a.isLt; omega

@[simp] theorem addr_cwN (op : Byte) (dw : Word) : Cmd.addr ⟨cwN op, dw⟩ = 0#24 := by
  apply BitVec.eq_of_toNat_eq; rw [Cmd.addr, toNat_field, cwN_toNat]; simp
@[simp] theorem addr_cwA (op : Byte) (a : BitVec 24) (dw : Word) : Cmd.addr ⟨cwA op a, dw⟩ = a := by
  apply BitVec.eq_of_toNat_eq; rw [Cmd.addr, toNat_field, cwA_toNat]; have := a.isLt; omega

@[simp] theorem high_cwP (op : Byte) (u : UnitId) (sel : Byte) (dw : Word) : Cmd.high ⟨cwP op u sel, dw⟩ = 0#8 := by
  apply BitVec.eq_of_toNat_eq; rw [Cmd.high, toNat_field, cwP_toNat]
  have := u.code.isLt; have := sel.isLt; simp; omega
@[simp] theorem unit_cwP (op : Byte) (u : UnitId) (sel : Byte) (dw : Word) : Cmd.unit ⟨cwP op u sel, dw⟩ = u.code := by
  apply BitVec.eq_of_toNat_eq; rw [Cmd.unit, toNat_field, cwP_toNat]
  have := u.code.isLt; have := sel.isLt; omega
@[simp] theorem low_cwP (op : Byte) (u : UnitId) (sel : Byte) (dw : Word) : Cmd.low ⟨cwP op u sel, dw⟩ = sel := by
  apply BitVec.eq_of_toNat_eq; rw [Cmd.low, toNat_field, cwP_toNat]
  have := u.code.isLt; have := sel.isLt; omega

@[simp] theorem mid_cwB (op b : Byte) (dw : Word) : Cmd.mid ⟨cwB op b, dw⟩ = 0#16 := by
  apply BitVec.eq_of_toNat_eq; rw [Cmd.mid, toNat_field, cwB_toNat]; have := b.isLt; simp; omega
@[simp] theorem low_cwB (op b : Byte) (dw : Word) : Cmd.low ⟨cwB op b, dw⟩ = b := by
  apply BitVec.eq_of_toNat_eq; rw [Cmd.low, toNat_field, cwB_toNat]; have := b.isLt; omega

/-- A command word is its fields. -/
theorem cw_toNat (c : Cmd) : c.cw.toNat = c.op.toNat * 2 ^ 24 + c.addr.toNat := by
  rw [Cmd.op, Cmd.addr, toNat_field, toNat_field]; have := c.cw.isLt; omega

theorem addr_toNat (c : Cmd) : c.addr.toNat = c.high.toNat * 2 ^ 16 + c.unit.toNat * 2 ^ 8 + c.low.toNat := by
  rw [Cmd.addr, Cmd.high, Cmd.unit, Cmd.low, toNat_field, toNat_field, toNat_field, toNat_field]; omega

theorem addr_toNat_mid (c : Cmd) : c.addr.toNat = c.mid.toNat * 2 ^ 8 + c.low.toNat := by
  rw [Cmd.addr, Cmd.mid, Cmd.low, toNat_field, toNat_field, toNat_field]; omega

/-! ### The encoded words of a decoded command -/

theorem cwN_of {c : Cmd} (h : c.addr = 0#24) : cwN c.op = c.cw := by
  apply BitVec.eq_of_toNat_eq; rw [cwN_toNat, cw_toNat, h, BitVec.toNat_zero, Nat.add_zero]

theorem cwB_of {c : Cmd} (h : c.mid = 0#16) : cwB c.op c.low = c.cw := by
  apply BitVec.eq_of_toNat_eq; rw [cwB_toNat, cw_toNat, addr_toNat_mid, h]; simp

theorem cwA_of (c : Cmd) : cwA c.op c.addr = c.cw := by
  apply BitVec.eq_of_toNat_eq; rw [cwA_toNat, cw_toNat]

theorem Cmd.op_of {c : Cmd} {k : Nat} (h : c.op.toNat = k) : c.op = BitVec.ofNat 8 k := by rw [← h]; simp

/-! ### The formats, inverted -/

theorem decodeN_ok {c : Cmd} {i j : Instr} (h : decodeN c i = .ok j) : c.addr = 0#24 ∧ j = i := by
  unfold decodeN at h
  by_cases ha : c.addr = 0#24
  · rw [if_pos ha] at h; exact ⟨ha, (Except.ok.inj h).symm⟩
  · rw [if_neg ha] at h; cases h

theorem decodeB_ok {c : Cmd} {k : Byte → Instr} {j : Instr} (h : decodeB c k = .ok j) : c.mid = 0#16 ∧ j = k c.low := by
  unfold decodeB at h
  by_cases ha : c.mid = 0#16
  · rw [if_pos ha] at h; exact ⟨ha, (Except.ok.inj h).symm⟩
  · rw [if_neg ha] at h; cases h

theorem decodeP_ok {c : Cmd} {k : UnitId → Byte → Instr} {j : Instr} (h : decodeP c k = .ok j) :
    ∃ u, c.high = 0#8 ∧ UnitId.ofCode c.unit = some u ∧ j = k u c.low := by
  unfold decodeP at h
  by_cases ha : c.high = 0#8
  · rw [if_pos ha] at h
    cases hu : UnitId.ofCode c.unit with
    | none => rw [hu] at h; cases h
    | some u => rw [hu] at h; exact ⟨u, ha, rfl, (Except.ok.inj h).symm⟩
  · rw [if_neg ha] at h; cases h

theorem decodeA_ok {c : Cmd} {k : BitVec 24 → Instr} {j : Instr} (h : decodeA c k = .ok j) : j = k c.addr :=
  (Except.ok.inj h).symm

/-! ### Units -/

@[simp] theorem UnitId.ofCode_code (u : UnitId) : UnitId.ofCode u.code = some u := by cases u <;> rfl

theorem UnitId.code_of_ofCode {b : Byte} {u : UnitId} (h : UnitId.ofCode b = some u) : u.code = b := by
  unfold UnitId.ofCode at h
  split at h <;> first
    | (cases h; rename_i hb; exact (BitVec.eq_of_toNat_eq hb).symm)
    | cases h

theorem UnitId.ofCode_none_iff (b : Byte) : UnitId.ofCode b = none ↔ 7 < b.toNat := by revert b; decide

theorem cwP_of {c : Cmd} {u : UnitId} (h : c.high = 0#8) (hu : UnitId.ofCode c.unit = some u) : cwP c.op u c.low = c.cw := by
  apply BitVec.eq_of_toNat_eq
  rw [cwP_toNat, cw_toNat, addr_toNat, h, UnitId.code_of_ofCode hu]; simp; omega

/-! ### Data words -/

@[simp] theorem Fmt.trunc_of_fits (f : Fmt) {w : Word} (h : f.fits w = true) : f.trunc w = w := by
  apply BitVec.eq_of_toNat_eq
  simp only [Fmt.fits, decide_eq_true_eq] at h
  simp only [Fmt.trunc, BitVec.toNat_ofNat]
  rw [Nat.mod_eq_of_lt h, Nat.mod_eq_of_lt w.isLt]

@[simp] theorem Fmt.fits_trunc (f : Fmt) (w : Word) : f.fits (f.trunc w) = true := by
  have h1 : w.toNat % 2 ^ f.bits < 2 ^ f.bits := Nat.mod_lt _ (Nat.two_pow_pos _)
  simp only [Fmt.fits, decide_eq_true_eq, Fmt.trunc, BitVec.toNat_ofNat]
  exact Nat.lt_of_le_of_lt (Nat.mod_le _ _) h1

/-- The bytes of a number read back as the number. -/
theorem leNat_leBytes (n v : Nat) : leNat (leBytes n v) = v % 256 ^ n := by
  induction n generalizing v with
  | zero => simp [leBytes, leNat, Nat.mod_one]
  | succ n ih =>
    rw [leBytes, leNat, ih, BitVec.toNat_ofNat, Nat.pow_succ 256 n, Nat.mul_comm (256 ^ n) 256, Nat.mod_mul]

@[simp] theorem leBytes_length (n v : Nat) : (leBytes n v).length = n := by
  induction n generalizing v with
  | zero => rfl
  | succ n ih => simp [leBytes, ih]

end Sys2Proof
end

