-- ==== Sys2Proof/Laws/Float.lean ====
section
/-! SUPPORT. What the FMT operations do, said over exact integers: every result fits its format; rounding is monotone and exact
on the numbers of the format; and so a sum, product or quotient whose exact value is bounded by a finite number is bounded by
it. `floor` and the fraction `x − floor(x)` are exact. -/

namespace Sys2Proof.Fp

/-! ### Every result has FMT_BITS bits -/

theorem infBits_fits (f : Fmt) (s : Bool) : f.fits (pack f s (infBits f)) = true := fits_pack f s (infBits_lt f)

theorem pack_zero_fits (f : Fmt) (s : Bool) : f.fits (pack f s 0) = true := fits_pack f s (by cases f <;> decide)

theorem nan_fits (f : Fmt) : f.fits (nan f) = true := by cases f <;> decide

theorem zero_fits (f : Fmt) : f.fits zero = true := by cases f <;> decide

theorem ofRat_fits (f : Fmt) (n : Int) (d : Nat) : f.fits (ofRat f n d) = true := fits_pack f _ (roundMag_lt f _ _)

theorem ofInt_fits (f : Fmt) (n : Int) : f.fits (ofInt f n) = true := ofRat_fits f n 1

theorem add_fits (f : Fmt) (a b : Word) : f.fits (add f a b) = true := by
  unfold add
  repeat' split
  all_goals first
    | exact nan_fits f
    | exact infBits_fits f _
    | exact pack_zero_fits f _
    | exact fits_pack f _ (roundMag_lt f _ _)

theorem neg_fits (f : Fmt) (a : Word) : f.fits (neg f a) = true := fits_pack f _ (magBits_lt f a)

theorem sub_fits (f : Fmt) (a b : Word) : f.fits (sub f a b) = true := add_fits f a _

theorem mul_fits (f : Fmt) (a b : Word) : f.fits (mul f a b) = true := by
  unfold mul
  repeat' split
  all_goals first
    | exact nan_fits f
    | exact infBits_fits f _
    | exact fits_pack f _ (roundMag_lt f _ _)

theorem div_fits (f : Fmt) (a b : Word) : f.fits (div f a b) = true := by
  unfold div
  repeat' split
  all_goals first
    | exact nan_fits f
    | exact infBits_fits f _
    | exact pack_zero_fits f _
    | exact fits_pack f _ (roundMag_lt f _ _)

theorem floor_fits (f : Fmt) (a : Word) : f.fits (floor f a) = true := by
  unfold floor
  repeat' split
  all_goals first
    | exact nan_fits f
    | exact infBits_fits f _
    | exact pack_zero_fits f _
    | exact ofInt_fits f _

theorem lerp_fits (f : Fmt) (a b t : Word) : f.fits (lerp f a b t) = true := add_fits f _ _

theorem clamp_fits (f : Fmt) {v lo hi : Word} (hv : f.fits v = true) (hl : f.fits lo = true) (hh : f.fits hi = true) :
    f.fits (clamp f v lo hi) = true := by
  unfold clamp; repeat' split
  all_goals assumption

theorem fmin_fits (f : Fmt) {a b : Word} (ha : f.fits a = true) (hb : f.fits b = true) : f.fits (fmin f a b) = true := by
  unfold fmin; split <;> assumption

theorem fmax_fits (f : Fmt) {a b : Word} (ha : f.fits a = true) (hb : f.fits b = true) : f.fits (fmax f a b) = true := by
  unfold fmax; split <;> assumption

theorem exp2_fits (f : Fmt) (x : Word) : f.fits (exp2 f x) = true := (exp2_lawful f).2.2.2 x

theorem log2_fits (f : Fmt) (x : Word) : f.fits (log2 f x) = true := (log2_lawful f).2.2.2 x

theorem tan_fits (f : Fmt) (x : Word) : f.fits (tan f x) = true := (tan_lawful f).2.2.2.2 x

/-! ### Magnitudes -/

/-- Magnitudes rise strictly with their patterns. -/
theorem mag_lt_succ (f : Fmt) (m : Nat) : mag f m < mag f (m + 1) := by
  have hp : 0 < 2 ^ f.fracBits := Nat.two_pow_pos _
  simp only [mag]
  generalize 2 ^ f.fracBits = P at hp
  have hm := Nat.div_add_mod m P
  have hr := Nat.mod_lt m hp
  rcases Nat.lt_or_ge (m % P + 1) P with h | h
  · have hd : (m + 1) / P = m / P := by
      have := Nat.mul_comm P (m / P)
      exact Nat.div_eq_of_lt_le (by omega) (by rw [Nat.add_mul]; omega)
    have hmod : (m + 1) % P = m % P + 1 := by
      have := Nat.div_add_mod (m + 1) P
      rw [hd] at this; omega
    rw [hd, hmod]
    split
    · omega
    · exact Nat.mul_lt_mul_of_pos_right (by omega) (by positivity)
  · have hd : (m + 1) / P = m / P + 1 := by
      have := Nat.mul_comm P (m / P)
      exact Nat.div_eq_of_lt_le (by rw [Nat.add_mul]; omega)
        (by rw [show (m / P + 1 + 1) * P = P * (m / P) + P + P by ring]; omega)
    have hmod : (m + 1) % P = 0 := by
      have := Nat.div_add_mod (m + 1) P
      rw [hd, Nat.mul_add] at this; omega
    rw [hd, hmod]
    simp only [Nat.add_eq_zero_iff, one_ne_zero, and_false, if_false, Nat.add_sub_cancel, Nat.add_zero]
    split
    · rename_i h0; simp only [h0, Nat.pow_zero]; omega
    · rename_i h0
      have e : 2 ^ (m / P) = 2 * 2 ^ (m / P - 1) := by
        rw [← pow_succ', Nat.sub_add_cancel (Nat.one_le_iff_ne_zero.2 h0)]
      rw [e, ← Nat.mul_assoc]
      exact Nat.mul_lt_mul_of_pos_right (by omega) (by positivity)

theorem mag_strictMono (f : Fmt) : StrictMono (mag f) := strictMono_nat_of_lt_succ (mag_lt_succ f)

theorem mag_le_iff (f : Fmt) {m n : Nat} : mag f m ≤ mag f n ↔ m ≤ n := (mag_strictMono f).le_iff_le

theorem mag_zero (f : Fmt) : mag f 0 = 0 := by simp [mag]

/-- A magnitude is a significand of at most fracBits + 1 bits times a power of two. -/
theorem mag_form (f : Fmt) (m : Nat) : ∃ k j, k < 2 ^ (f.fracBits + 1) ∧ mag f m = k * 2 ^ j := by
  have hp : 0 < 2 ^ f.fracBits := Nat.two_pow_pos _
  have hr := Nat.mod_lt m hp
  rw [pow_succ]
  unfold mag
  split
  · exact ⟨m % 2 ^ f.fracBits, 0, by omega, by simp⟩
  · exact ⟨2 ^ f.fracBits + m % 2 ^ f.fracBits, m / 2 ^ f.fracBits - 1, by omega, rfl⟩

/-! ### Rounding -/

theorem roundQuot_bounds (n : Nat) {d : Nat} (hd : 0 < d) :
    2 * (roundQuot n d * d) ≤ 2 * n + d ∧ 2 * n ≤ 2 * (roundQuot n d * d) + d ∧
      (2 * (roundQuot n d * d) = 2 * n + d → roundQuot n d % 2 = 0) ∧
      (2 * n = 2 * (roundQuot n d * d) + d → roundQuot n d % 2 = 0) := by
  have hm := Nat.div_add_mod n d
  have hr := Nat.mod_lt n hd
  have hc := Nat.mul_comm d (n / d)
  unfold roundQuot
  split
  · refine ⟨by omega, by omega, by omega, by omega⟩
  · split
    · rw [Nat.add_mul]; refine ⟨by omega, by omega, by omega, by omega⟩
    · have h2 : n / d % 2 = 0 ∨ n / d % 2 = 1 := by omega
      rcases h2 with h2 | h2
      · rw [h2, Nat.add_zero]; exact ⟨by omega, by omega, fun _ => h2, fun _ => h2⟩
      · rw [h2, Nat.add_mul]; exact ⟨by omega, by omega, by omega, by omega⟩

theorem roundQuot_mono {n₁ d₁ n₂ d₂ : Nat} (h₁ : 0 < d₁) (h₂ : 0 < d₂) (h : n₁ * d₂ ≤ n₂ * d₁) :
    roundQuot n₁ d₁ ≤ roundQuot n₂ d₂ := by
  obtain ⟨a1, -, a3, -⟩ := roundQuot_bounds n₁ h₁
  obtain ⟨-, b2, -, b4⟩ := roundQuot_bounds n₂ h₂
  generalize roundQuot n₁ d₁ = k₁ at *
  generalize roundQuot n₂ d₂ = k₂ at *
  by_contra hc
  have hk : k₂ + 1 ≤ k₁ := by omega
  have e1 : 2 * (k₁ * d₁) * d₂ ≤ (2 * n₁ + d₁) * d₂ := Nat.mul_le_mul_right _ a1
  have e2 : 2 * n₂ * d₁ ≤ (2 * (k₂ * d₂) + d₂) * d₁ := Nat.mul_le_mul_right _ b2
  have e3 : (k₂ + 1) * (d₁ * d₂) ≤ k₁ * (d₁ * d₂) := Nat.mul_le_mul_right _ hk
  have hpos : 0 < d₁ * d₂ := Nat.mul_pos h₁ h₂
  have i1 : 2 * (k₁ * d₁) * d₂ = 2 * (k₁ * (d₁ * d₂)) := by ring
  have i2 : (2 * n₁ + d₁) * d₂ = 2 * (n₁ * d₂) + d₁ * d₂ := by ring
  have i3 : 2 * n₂ * d₁ = 2 * (n₂ * d₁) := by ring
  have i4 : (2 * (k₂ * d₂) + d₂) * d₁ = 2 * (k₂ * (d₁ * d₂)) + d₁ * d₂ := by ring
  have i5 : (k₂ + 1) * (d₁ * d₂) = k₂ * (d₁ * d₂) + d₁ * d₂ := by ring
  have j1 : k₁ * (d₁ * d₂) = (k₂ + 1) * (d₁ * d₂) := by omega
  have j2 : k₁ = k₂ + 1 := Nat.eq_of_mul_eq_mul_right hpos j1
  have t1 : 2 * (k₁ * d₁) = 2 * n₁ + d₁ := by
    apply Nat.eq_of_mul_eq_mul_right h₂; omega
  have t2 : 2 * n₂ = 2 * (k₂ * d₂) + d₂ := by
    apply Nat.eq_of_mul_eq_mul_right h₁; omega
  have := a3 t1
  have := b4 t2
  omega

theorem log2_mono {a b : Nat} (h : a ≤ b) : a.log2 ≤ b.log2 := by
  rcases Nat.eq_zero_or_pos a with rfl | ha
  · simp
  · exact (Nat.le_log2 (by omega)).2 (le_trans (Nat.log2_self_le ha.ne') h)

/-- Rounding is monotone in the exact quotient. -/
theorem roundMag_mono (f : Fmt) {n₁ d₁ n₂ d₂ : Nat} (h₁ : 0 < d₁) (h₂ : 0 < d₂) (h : n₁ * d₂ ≤ n₂ * d₁) :
    roundMag f n₁ d₁ ≤ roundMag f n₂ d₂ := by
  have hq : n₁ / d₁ ≤ n₂ / d₂ := by
    rw [Nat.le_div_iff_mul_le h₂]
    have := Nat.div_mul_le_self n₁ d₁
    have h3 : n₁ / d₁ * d₁ * d₂ ≤ n₂ * d₁ := le_trans (Nat.mul_le_mul_right _ this) h
    have h4 : n₁ / d₁ * d₁ * d₂ = n₁ / d₁ * d₂ * d₁ := by ring
    exact Nat.le_of_mul_le_mul_right (h4 ▸ h3) h₁
  have he : (n₁ / d₁).log2 - f.fracBits ≤ (n₂ / d₂).log2 - f.fracBits := Nat.sub_le_sub_right (log2_mono hq) _
  have key : ((n₁ / d₁).log2 - f.fracBits) * 2 ^ f.fracBits + roundQuot n₁ (d₁ * 2 ^ ((n₁ / d₁).log2 - f.fracBits)) ≤
      ((n₂ / d₂).log2 - f.fracBits) * 2 ^ f.fracBits + roundQuot n₂ (d₂ * 2 ^ ((n₂ / d₂).log2 - f.fracBits)) := by
    generalize hp : f.fracBits = p at *
    have hlt : n₁ / d₁ < 2 ^ (((n₁ / d₁).log2 - p) + (p + 1)) :=
      lt_of_lt_of_le Nat.lt_log2_self (Nat.pow_le_pow_right (by omega) (by omega))
    have hge : (n₁ / d₁).log2 - p < (n₂ / d₂).log2 - p → 2 ^ (((n₂ / d₂).log2 - p) + p) ≤ n₂ / d₂ := fun hl => by
      have hne : n₂ / d₂ ≠ 0 := fun h0 => by rw [h0] at hl; simp at hl
      exact le_trans (Nat.pow_le_pow_right (by omega) (by omega)) (Nat.log2_self_le hne)
    generalize (n₁ / d₁).log2 - p = e₁ at *
    generalize (n₂ / d₂).log2 - p = e₂ at *
    rcases Nat.lt_or_eq_of_le he with hl | hl
    · have u : roundQuot n₁ (d₁ * 2 ^ e₁) ≤ 2 ^ (p + 1) := by
        have hx : roundQuot n₁ (d₁ * 2 ^ e₁) ≤ roundQuot (2 ^ (p + 1)) 1 := by
          apply roundQuot_mono (by positivity) (by omega)
          rw [Nat.mul_one]
          rw [Nat.div_lt_iff_lt_mul h₁, pow_add] at hlt
          have : 2 ^ e₁ * 2 ^ (p + 1) * d₁ = 2 ^ (p + 1) * (d₁ * 2 ^ e₁) := by ring
          omega
        simpa [roundQuot, Nat.mod_one] using hx
      have v : 2 ^ p ≤ roundQuot n₂ (d₂ * 2 ^ e₂) := by
        have hx : roundQuot (2 ^ p) 1 ≤ roundQuot n₂ (d₂ * 2 ^ e₂) := by
          apply roundQuot_mono (by omega) (by positivity)
          rw [Nat.mul_one]
          have hg := hge hl
          rw [Nat.le_div_iff_mul_le h₂, pow_add] at hg
          have : 2 ^ e₂ * 2 ^ p * d₂ = 2 ^ p * (d₂ * 2 ^ e₂) := by ring
          omega
        simpa [roundQuot, Nat.mod_one] using hx
      have w : (e₁ + 1) * 2 ^ p ≤ e₂ * 2 ^ p := Nat.mul_le_mul_right _ hl
      rw [Nat.add_mul] at w
      rw [pow_succ] at u
      omega
    · rw [hl]
      apply Nat.add_le_add_left
      apply roundQuot_mono (by positivity) (by positivity)
      calc n₁ * (d₂ * 2 ^ e₂) = n₁ * d₂ * 2 ^ e₂ := by ring
        _ ≤ n₂ * d₁ * 2 ^ e₂ := Nat.mul_le_mul_right _ h
        _ = n₂ * (d₁ * 2 ^ e₂) := by ring
  unfold roundMag
  exact min_le_min_left _ key

/-- A finite pattern's own magnitude rounds to it. -/
theorem roundMag_mag (f : Fmt) {m : Nat} (h : m < infBits f) : roundMag f (mag f m) 1 = m := by
  obtain ⟨k, j, hk, e⟩ := mag_form f m
  have hfin : k * 2 ^ j < mag f (infBits f) := e ▸ mag_strictMono f h
  have := (roundMag_exact f hk hfin).2
  rw [← e] at this
  exact (mag_strictMono f).injective this

theorem roundMag_le_of_le (f : Fmt) {n d m : Nat} (hd : 0 < d) (hm : m < infBits f) (h : n ≤ mag f m * d) :
    roundMag f n d ≤ m := by
  rw [← roundMag_mag f hm]
  exact roundMag_mono f hd (by omega) (by omega)

theorem le_roundMag_of_le (f : Fmt) {n d m : Nat} (hd : 0 < d) (hm : m < infBits f) (h : mag f m * d ≤ n) :
    m ≤ roundMag f n d := by
  conv_lhs => rw [← roundMag_mag f hm]
  exact roundMag_mono f (by omega) hd (by omega)

/-- An exact quotient that is a number of the format rounds to it. -/
theorem roundMag_eq_of_eq (f : Fmt) {n d m : Nat} (hd : 0 < d) (hm : m < infBits f) (h : n = mag f m * d) :
    roundMag f n d = m :=
  Nat.le_antisymm (roundMag_le_of_le f hd hm h.le) (le_roundMag_of_le f hd hm h.ge)

/-! ### Values -/

theorem val_pack (f : Fmt) (s : Bool) {m : Nat} (h : m < 2 ^ (f.bits - 1)) :
    val f (pack f s m) = if s then -(mag f m : Int) else (mag f m : Int) := by
  rw [val, sign_pack f s h, magBits_pack f s h]

theorem natAbs_val (f : Fmt) (w : Word) : (val f w).natAbs = mag f (magBits f w) := by
  unfold val; split <;> simp

theorem finite_iff (f : Fmt) (w : Word) : finite f w = true ↔ magBits f w < infBits f := by simp [finite]

theorem finite_of_natAbs_le (f : Fmt) {x c : Word} (hc : finite f c = true) (h : (val f x).natAbs ≤ (val f c).natAbs) :
    finite f x = true := by
  rw [finite_iff] at hc ⊢
  rw [natAbs_val, natAbs_val, mag_le_iff] at h
  omega

theorem not_isInf_of_finite (f : Fmt) {w : Word} (h : finite f w = true) : isInf f w = false := by
  rw [finite_iff] at h
  simp only [isInf, beq_eq_false_iff_ne]; omega

/-- Between two finite numbers there is no infinity and no NaN. -/
theorem finite_of_between (f : Fmt) {lo x hi : Word} (hl : finite f lo = true) (hh : finite f hi = true)
    (h1 : le f lo x = true) (h2 : le f x hi = true) : finite f x = true := by
  simp only [le, Bool.and_eq_true, decide_eq_true_eq] at h1 h2
  rcases le_total 0 (val f x) with h | h
  · exact finite_of_natAbs_le f hh (by omega)
  · exact finite_of_natAbs_le f hl (by omega)

theorem le_iff_of_finite (f : Fmt) {a b : Word} (ha : finite f a = true) (hb : finite f b = true) :
    le f a b = true ↔ val f a ≤ val f b := by rw [le_of_finite f ha hb, decide_eq_true_eq]

theorem lt_iff_of_finite (f : Fmt) {a b : Word} (ha : finite f a = true) (hb : finite f b = true) :
    lt f a b = true ↔ val f a < val f b := by rw [lt_of_finite f ha hb, decide_eq_true_eq]

theorem not_isNaN_pack (f : Fmt) (s : Bool) {m : Nat} (h : m ≤ infBits f) : isNaN f (pack f s m) = false := by
  have := infBits_lt f
  rw [isNaN, magBits_pack f s (by omega), decide_eq_false_iff_not]; omega

/-- A rounded result at or below a finite number: of the sign and magnitude of an exact integer quotient. -/
theorem pack_round_le (f : Fmt) {s : Bool} {n d : Nat} {c : Word} (hd : 0 < d) (hc : finite f c = true)
    (h : (if s then -(n : Int) else (n : Int)) ≤ val f c * d) : le f (pack f s (roundMag f n d)) c = true := by
  have hb := roundMag_lt f n d
  have hn := not_isNaN_pack f s (roundMag_le f n d)
  simp only [le, hn, not_isNaN_of_finite f hc, Bool.not_false, Bool.true_and, decide_eq_true_eq, val_pack f s hb]
  rw [finite_iff] at hc
  have hv : val f c = if sign f c then -(mag f (magBits f c) : Int) else (mag f (magBits f c) : Int) := rfl
  rw [hv] at h ⊢
  have hmz : (0 : Int) ≤ mag f (magBits f c) := by positivity
  have hmr : (0 : Int) ≤ mag f (roundMag f n d) := by positivity
  have hdz : (0 : Int) < d := by exact_mod_cast hd
  cases s <;> cases hsc : sign f c <;> simp only [hsc, if_true, if_false, Bool.false_eq_true] at h ⊢
  · have : roundMag f n d ≤ magBits f c := roundMag_le_of_le f hd hc (by exact_mod_cast h)
    exact_mod_cast (mag_mono f this)
  · -- n ≤ 0, so the result is 0 and so is c
    have h0 : (n : Int) = 0 ∧ (mag f (magBits f c) : Int) * d = 0 := by
      have : (0 : Int) ≤ mag f (magBits f c) * d := by positivity
      rw [neg_mul] at h
      constructor <;> omega
    have hc0 : (mag f (magBits f c) : Int) = 0 := by
      rcases mul_eq_zero.1 h0.2 with h | h
      · exact h
      · omega
    have hn0 : n = 0 := by exact_mod_cast h0.1
    have : roundMag f n d = 0 := by
      apply roundMag_eq_of_eq f hd (by cases f <;> decide); rw [hn0, mag_zero]; simp
    rw [this, mag_zero, hc0]; simp
  · omega
  · have h' : (mag f (magBits f c) : Int) * d ≤ n := by rw [neg_mul] at h; omega
    have : magBits f c ≤ roundMag f n d := le_roundMag_of_le f hd hc (by exact_mod_cast h')
    have := mag_mono f this
    omega

/-- The dual: a rounded result at or above a finite number. -/
theorem le_pack_round (f : Fmt) {s : Bool} {n d : Nat} {c : Word} (hd : 0 < d) (hc : finite f c = true)
    (h : val f c * d ≤ (if s then -(n : Int) else (n : Int))) : le f c (pack f s (roundMag f n d)) = true := by
  have hb := roundMag_lt f n d
  have hn := not_isNaN_pack f s (roundMag_le f n d)
  simp only [le, hn, not_isNaN_of_finite f hc, Bool.not_false, Bool.true_and, decide_eq_true_eq, val_pack f s hb]
  rw [finite_iff] at hc
  have hv : val f c = if sign f c then -(mag f (magBits f c) : Int) else (mag f (magBits f c) : Int) := rfl
  rw [hv] at h ⊢
  have hmz : (0 : Int) ≤ mag f (magBits f c) := by positivity
  have hmr : (0 : Int) ≤ mag f (roundMag f n d) := by positivity
  have hdz : (0 : Int) < d := by exact_mod_cast hd
  cases s <;> cases hsc : sign f c <;> simp only [hsc, if_true, if_false, Bool.false_eq_true] at h ⊢
  · have : magBits f c ≤ roundMag f n d := le_roundMag_of_le f hd hc (by exact_mod_cast h)
    exact_mod_cast (mag_mono f this)
  · omega
  · have h0 : (n : Int) = 0 ∧ (mag f (magBits f c) : Int) * d = 0 := by
      have : (0 : Int) ≤ mag f (magBits f c) * d := by positivity
      constructor <;> omega
    have hc0 : (mag f (magBits f c) : Int) = 0 := by
      rcases mul_eq_zero.1 h0.2 with h | h
      · exact h
      · omega
    have hn0 : n = 0 := by exact_mod_cast h0.1
    have : roundMag f n d = 0 := by
      apply roundMag_eq_of_eq f hd (by cases f <;> decide); rw [hn0, mag_zero]; simp
    rw [this, mag_zero, hc0]; simp
  · have h' : (n : Int) ≤ mag f (magBits f c) * d := by rw [neg_mul] at h; omega
    have : roundMag f n d ≤ magBits f c := roundMag_le_of_le f hd hc (by exact_mod_cast h')
    have := mag_mono f this
    omega

/-! ### Addition -/

theorem add_of_finite (f : Fmt) {a b : Word} (ha : finite f a = true) (hb : finite f b = true) :
    add f a b = if val f a + val f b = 0 then pack f (sign f a && sign f b) 0
      else pack f (decide (val f a + val f b < 0)) (roundMag f (val f a + val f b).natAbs 1) := by
  simp [add, not_isNaN_of_finite f ha, not_isNaN_of_finite f hb, not_isInf_of_finite f ha, not_isInf_of_finite f hb]

theorem add_not_isNaN (f : Fmt) {a b : Word} (ha : finite f a = true) (hb : finite f b = true) :
    isNaN f (add f a b) = false := by
  rw [add_of_finite f ha hb]
  split
  · exact not_isNaN_pack f _ (Nat.zero_le _)
  · exact not_isNaN_pack f _ (roundMag_le f _ _)

theorem val_pack_zero (f : Fmt) (s : Bool) : val f (pack f s 0) = 0 := by
  rw [val_pack f s (by cases f <;> decide), mag_zero]; cases s <;> rfl

theorem finite_pack_zero (f : Fmt) (s : Bool) : finite f (pack f s 0) = true := by
  rw [finite_iff, magBits_pack f s (by cases f <;> decide)]; cases f <;> decide

/-- A sum whose exact value is at most a finite number is at most it. -/
theorem add_le (f : Fmt) {a b c : Word} (ha : finite f a = true) (hb : finite f b = true) (hc : finite f c = true)
    (h : val f a + val f b ≤ val f c) : le f (add f a b) c = true := by
  rw [add_of_finite f ha hb]
  split
  · rename_i h0
    rw [le_iff_of_finite f (finite_pack_zero f _) hc, val_pack_zero]; omega
  · apply pack_round_le f (by omega) hc
    by_cases hs : val f a + val f b < 0
    · simp only [hs, decide_true, if_true]; omega
    · simp only [hs, decide_false, Bool.false_eq_true, if_false]; omega

/-- A sum whose exact value is at least a finite number is at least it. -/
theorem le_add (f : Fmt) {a b c : Word} (ha : finite f a = true) (hb : finite f b = true) (hc : finite f c = true)
    (h : val f c ≤ val f a + val f b) : le f c (add f a b) = true := by
  rw [add_of_finite f ha hb]
  split
  · rename_i h0
    rw [le_iff_of_finite f hc (finite_pack_zero f _), val_pack_zero]; omega
  · apply le_pack_round f (by omega) hc
    by_cases hs : val f a + val f b < 0
    · simp only [hs, decide_true, if_true]; omega
    · simp only [hs, decide_false, Bool.false_eq_true, if_false]; omega

/-- A sum that is a number of the format is exact. -/
theorem add_exact (f : Fmt) {a b : Word} (ha : finite f a = true) (hb : finite f b = true) {k j : Nat}
    (hk : k < 2 ^ (f.fracBits + 1)) (hfin : k * 2 ^ j < mag f (infBits f)) (h : (val f a + val f b).natAbs = k * 2 ^ j) :
    finite f (add f a b) = true ∧ val f (add f a b) = val f a + val f b := by
  rw [add_of_finite f ha hb]
  split
  · rename_i h0; exact ⟨finite_pack_zero f _, by rw [val_pack_zero, h0]⟩
  · obtain ⟨h1, h2⟩ := roundMag_exact f hk hfin
    rw [← h] at h1 h2
    have hb := roundMag_lt f (val f a + val f b).natAbs 1
    refine ⟨by rw [finite_iff, magBits_pack f _ hb]; exact h1, ?_⟩
    rw [val_pack f _ hb, h2]
    by_cases hs : val f a + val f b < 0
    · simp [hs, abs_of_neg hs]
    · simp [hs, abs_of_nonneg (not_lt.1 hs)]

theorem finite_neg (f : Fmt) {a : Word} (ha : finite f a = true) : finite f (neg f a) = true := by
  rw [finite_iff] at ha ⊢
  rw [neg, magBits_pack f _ (magBits_lt f a)]; exact ha

theorem val_neg (f : Fmt) (a : Word) : val f (neg f a) = -val f a := by
  rw [neg, val_pack f _ (magBits_lt f a), val]; cases sign f a <;> simp

theorem sub_le (f : Fmt) {a b c : Word} (ha : finite f a = true) (hb : finite f b = true) (hc : finite f c = true)
    (h : val f a - val f b ≤ val f c) : le f (sub f a b) c = true :=
  add_le f ha (finite_neg f hb) hc (by rw [val_neg]; omega)

theorem le_sub (f : Fmt) {a b c : Word} (ha : finite f a = true) (hb : finite f b = true) (hc : finite f c = true)
    (h : val f c ≤ val f a - val f b) : le f c (sub f a b) = true :=
  le_add f ha (finite_neg f hb) hc (by rw [val_neg]; omega)

theorem sub_exact (f : Fmt) {a b : Word} (ha : finite f a = true) (hb : finite f b = true) {k j : Nat}
    (hk : k < 2 ^ (f.fracBits + 1)) (hfin : k * 2 ^ j < mag f (infBits f)) (h : (val f a - val f b).natAbs = k * 2 ^ j) :
    finite f (sub f a b) = true ∧ val f (sub f a b) = val f a - val f b := by
  have := add_exact f ha (finite_neg f hb) hk hfin (by rw [val_neg, ← sub_eq_add_neg]; exact h)
  rwa [val_neg, ← sub_eq_add_neg] at this

/-! ### Multiplication and division -/

theorem mul_of_finite (f : Fmt) {a b : Word} (ha : finite f a = true) (hb : finite f b = true) :
    mul f a b = pack f (sign f a != sign f b)
      (roundMag f (mag f (magBits f a) * mag f (magBits f b)) (2 ^ f.scale)) := by
  simp [mul, not_isNaN_of_finite f ha, not_isNaN_of_finite f hb, not_isInf_of_finite f ha, not_isInf_of_finite f hb]

theorem mul_not_isNaN (f : Fmt) {a b : Word} (ha : finite f a = true) (hb : finite f b = true) :
    isNaN f (mul f a b) = false := by
  rw [mul_of_finite f ha hb]; exact not_isNaN_pack f _ (roundMag_le f _ _)

/-- The exact product, with the sign that `mul` gives it. -/
theorem mul_signed (f : Fmt) (a b : Word) :
    (if (sign f a != sign f b) then -((mag f (magBits f a) * mag f (magBits f b) : Nat) : Int)
      else ((mag f (magBits f a) * mag f (magBits f b) : Nat) : Int)) = val f a * val f b := by
  simp only [val]; cases sign f a <;> cases sign f b <;> simp

theorem mul_le (f : Fmt) {a b c : Word} (ha : finite f a = true) (hb : finite f b = true) (hc : finite f c = true)
    (h : val f a * val f b ≤ val f c * (2 ^ f.scale : Nat)) : le f (mul f a b) c = true := by
  rw [mul_of_finite f ha hb]
  exact pack_round_le f (by positivity) hc (by rw [mul_signed]; exact h)

theorem le_mul (f : Fmt) {a b c : Word} (ha : finite f a = true) (hb : finite f b = true) (hc : finite f c = true)
    (h : val f c * (2 ^ f.scale : Nat) ≤ val f a * val f b) : le f c (mul f a b) = true := by
  rw [mul_of_finite f ha hb]
  exact le_pack_round f (by positivity) hc (by rw [mul_signed]; exact h)

/-- A product whose exact value is a number of the format is exact. -/
theorem mul_exact (f : Fmt) {a b : Word} (ha : finite f a = true) (hb : finite f b = true) {k j : Nat}
    (hk : k < 2 ^ (f.fracBits + 1)) (hfin : k * 2 ^ j < mag f (infBits f))
    (h : mag f (magBits f a) * mag f (magBits f b) = k * 2 ^ j * 2 ^ f.scale) :
    finite f (mul f a b) = true ∧ val f (mul f a b) * (2 ^ f.scale : Nat) = val f a * val f b := by
  obtain ⟨h1, h2⟩ := roundMag_exact f hk hfin
  have hr : roundMag f (mag f (magBits f a) * mag f (magBits f b)) (2 ^ f.scale) = roundMag f (k * 2 ^ j) 1 :=
    roundMag_eq_of_eq f (by positivity) h1 (by rw [h2, h])
  rw [mul_of_finite f ha hb, hr]
  have hb := roundMag_lt f (k * 2 ^ j) 1
  refine ⟨by rw [finite_iff, magBits_pack f _ hb]; exact h1, ?_⟩
  rw [val_pack f _ hb, h2, ← mul_signed, h]
  cases (sign f a != sign f b) <;> push_cast <;> simp

theorem isZero_eq_false (f : Fmt) {b : Word} (h : val f b ≠ 0) : isZero f b = false := by
  simp only [isZero, beq_eq_false_iff_ne]
  intro h0; apply h; simp [val, h0, mag_zero]

theorem div_of_finite (f : Fmt) {a b : Word} (ha : finite f a = true) (hb : finite f b = true) (h0 : val f b ≠ 0) :
    div f a b = pack f (sign f a != sign f b)
      (roundMag f (mag f (magBits f a) * 2 ^ f.scale) (mag f (magBits f b))) := by
  simp [div, not_isNaN_of_finite f ha, not_isNaN_of_finite f hb, not_isInf_of_finite f ha, not_isInf_of_finite f hb,
    isZero_eq_false f h0]

theorem div_not_isNaN (f : Fmt) {a b : Word} (ha : finite f a = true) (hb : finite f b = true) (h0 : val f b ≠ 0) :
    isNaN f (div f a b) = false := by
  rw [div_of_finite f ha hb h0]; exact not_isNaN_pack f _ (roundMag_le f _ _)

theorem div_signed (f : Fmt) (a : Word) {b : Word} (hb : sign f b = false) :
    (if (sign f a != sign f b) then -((mag f (magBits f a) * 2 ^ f.scale : Nat) : Int)
      else ((mag f (magBits f a) * 2 ^ f.scale : Nat) : Int)) = val f a * (2 ^ f.scale : Nat) := by
  simp only [val, hb]; cases sign f a <;> simp

/-- A quotient by a positive number whose exact value is at most a finite number is at most it. -/
theorem div_le (f : Fmt) {a b c : Word} (ha : finite f a = true) (hb : finite f b = true) (hp : 0 < val f b)
    (hc : finite f c = true) (h : val f a * (2 ^ f.scale : Nat) ≤ val f c * val f b) : le f (div f a b) c = true := by
  have hs := sign_of_pos f hp
  have hv : val f b = (mag f (magBits f b) : Int) := by simp [val, hs]
  rw [div_of_finite f ha hb hp.ne']
  exact pack_round_le f (by rw [hv] at hp; exact_mod_cast hp) hc (by rw [div_signed f a hs, ← hv]; exact h)

theorem le_div (f : Fmt) {a b c : Word} (ha : finite f a = true) (hb : finite f b = true) (hp : 0 < val f b)
    (hc : finite f c = true) (h : val f c * val f b ≤ val f a * (2 ^ f.scale : Nat)) : le f c (div f a b) = true := by
  have hs := sign_of_pos f hp
  have hv : val f b = (mag f (magBits f b) : Int) := by simp [val, hs]
  rw [div_of_finite f ha hb hp.ne']
  exact le_pack_round f (by rw [hv] at hp; exact_mod_cast hp) hc (by rw [div_signed f a hs, ← hv]; exact h)

/-! ### floor and the fraction -/

theorem scale_pos (f : Fmt) : (0 : Int) < (2 ^ f.scale : Nat) := by positivity

theorem floorInt_le (f : Fmt) (w : Word) : floorInt f w * (2 ^ f.scale : Nat) ≤ val f w :=
  Int.ediv_mul_le _ (scale_pos f).ne'

theorem lt_floorInt (f : Fmt) (w : Word) : val f w < (floorInt f w + 1) * (2 ^ f.scale : Nat) :=
  Int.lt_ediv_add_one_mul_self _ (scale_pos f)

/-- A value of at least 2^fracBits is an integer. -/
theorem integer_of_large (f : Fmt) {w : Word} (h : 2 ^ f.fracBits * 2 ^ f.scale ≤ mag f (magBits f w)) :
    ∃ k j, k < 2 ^ (f.fracBits + 1) ∧ mag f (magBits f w) = k * 2 ^ j * 2 ^ f.scale := by
  obtain ⟨k, j, hk, e⟩ := mag_form f (magBits f w)
  rcases Nat.le_total f.scale j with hj | hj
  · refine ⟨k, j - f.scale, hk, ?_⟩
    rw [e, Nat.mul_assoc, ← pow_add]; congr 2; omega
  · -- then j = scale − 1 at most and k is even enough: the significand times 2^j is below 2^(p+1) * 2^j
    have h1 : 2 ^ f.fracBits * 2 ^ f.scale ≤ k * 2 ^ j := e ▸ h
    have e2 : 2 ^ f.scale = 2 ^ (f.scale - j) * 2 ^ j := by rw [← pow_add]; congr 1; omega
    rw [e2, ← Nat.mul_assoc] at h1
    have h2 : 2 ^ f.fracBits * 2 ^ (f.scale - j) ≤ k := Nat.le_of_mul_le_mul_right h1 (by positivity)
    have h3 : 2 ^ (f.scale - j) < 2 := by
      have : 2 ^ f.fracBits * 2 ^ (f.scale - j) < 2 ^ f.fracBits * 2 := by rw [← pow_succ]; omega
      exact Nat.lt_of_mul_lt_mul_left this
    have h4 : f.scale - j = 0 := by
      by_contra hne
      have : 2 ^ 1 ≤ 2 ^ (f.scale - j) := Nat.pow_le_pow_right (by omega) (by omega)
      omega
    refine ⟨k, 0, hk, ?_⟩
    have : j = f.scale := by omega
    rw [e, this]; ring

/-- floor is exact on every finite number (R13). -/
theorem floor_exact (f : Fmt) {w : Word} (hw : finite f w = true) :
    finite f (floor f w) = true ∧ val f (floor f w) = floorInt f w * (2 ^ f.scale : Nat) := by
  have hdef : floor f w = if floorInt f w = 0 then pack f (sign f w) 0 else ofInt f (floorInt f w) := by
    simp [floor, not_isNaN_of_finite f hw, not_isInf_of_finite f hw]
  rw [hdef]
  split
  · rename_i h0; rw [h0]; exact ⟨finite_pack_zero f _, by rw [val_pack_zero]; simp⟩
  · rcases Nat.lt_or_ge (2 ^ f.fracBits) (floorInt f w).natAbs with h | h
    · -- large: w is an integer, and floor(w) is w
      have hl := floorInt_le f w
      have hg := lt_floorInt f w
      have hS := scale_pos f
      have hmag : 2 ^ f.fracBits * 2 ^ f.scale ≤ mag f (magBits f w) := by
        rw [← natAbs_val]
        rcases le_or_gt 0 (floorInt f w) with hp | hn
        · have h1 : ((2 ^ f.fracBits : Nat) : Int) ≤ floorInt f w := by omega
          have h2 := Int.mul_le_mul_of_nonneg_right h1 hS.le
          have : ((2 ^ f.fracBits * 2 ^ f.scale : Nat) : Int) ≤ val f w := by push_cast at *; omega
          omega
        · have h1 : floorInt f w + 1 ≤ -((2 ^ f.fracBits : Nat) : Int) := by omega
          have h2 := Int.mul_le_mul_of_nonneg_right h1 hS.le
          have : val f w ≤ -((2 ^ f.fracBits * 2 ^ f.scale : Nat) : Int) := by push_cast at *; rw [neg_mul] at h2; omega
          omega
      obtain ⟨k, j, hk, e⟩ := integer_of_large f hmag
      have hval : val f w = floorInt f w * (2 ^ f.scale : Nat) := by
        have hdvd : ((2 ^ f.scale : Nat) : Int) ∣ val f w := by
          rw [← Int.natAbs_dvd_natAbs, natAbs_val, e]; exact ⟨k * 2 ^ j, by simp [Nat.mul_comm]⟩
        rw [floorInt, Int.ediv_mul_cancel hdvd]
      have hn : (floorInt f w).natAbs * 2 ^ f.scale = mag f (magBits f w) := by
        rw [← natAbs_val, hval, Int.natAbs_mul]; simp
      rw [finite_iff] at hw
      have hr : roundMag f ((floorInt f w).natAbs * 2 ^ f.scale) 1 = magBits f w := by rw [hn, roundMag_mag f hw]
      have hb := magBits_lt f w
      constructor
      · rw [finite_iff, ofInt, ofRat, hr, magBits_pack f _ hb]; exact hw
      · rw [ofInt, ofRat, hr, val_pack f _ hb, ← hn]
        push_cast
        by_cases hs : floorInt f w < 0
        · simp [hs, abs_of_neg hs]
        · simp [hs, abs_of_nonneg (not_lt.1 hs)]
    · obtain ⟨h1, h2, -⟩ := ofInt_exact f h
      exact ⟨h1, by rw [h2]; push_cast; rfl⟩

/-- x − floor(x) is exact and lies in [0, 1), for every finite x ≥ 0 (R267, R268, R270). -/
theorem fraction_exact (f : Fmt) {x : Word} (hx : finite f x = true) (h0 : 0 ≤ val f x) :
    finite f (sub f x (floor f x)) = true ∧ val f (sub f x (floor f x)) = val f x % (2 ^ f.scale : Nat) := by
  obtain ⟨hf, hv⟩ := floor_exact f hx
  have hmod : val f x - floorInt f x * (2 ^ f.scale : Nat) = val f x % (2 ^ f.scale : Nat) := by
    have := Int.mul_ediv_add_emod (val f x) (2 ^ f.scale : Nat)
    rw [floorInt]; rw [mul_comm] at this; omega
  obtain ⟨k, j, hk, e⟩ := mag_form f (magBits f x)
  have hval : val f x = ((k * 2 ^ j : Nat) : Int) := by
    rw [← e, ← natAbs_val, Int.natAbs_of_nonneg h0]
  have hform : ∃ k' j', k' < 2 ^ (f.fracBits + 1) ∧ (k * 2 ^ j) % 2 ^ f.scale = k' * 2 ^ j' := by
    rcases Nat.le_total f.scale j with hj | hj
    · refine ⟨0, 0, by positivity, ?_⟩
      have : 2 ^ f.scale ∣ k * 2 ^ j := Dvd.dvd.mul_left (pow_dvd_pow 2 hj) k
      rw [Nat.mod_eq_zero_of_dvd this]; simp
    · have e2 : 2 ^ f.scale = 2 ^ (f.scale - j) * 2 ^ j := by rw [← pow_add]; congr 1; omega
      refine ⟨k % 2 ^ (f.scale - j), j, lt_of_le_of_lt (Nat.mod_le _ _) hk, ?_⟩
      rw [e2, Nat.mul_mod_mul_right]
  obtain ⟨k', j', hk', e'⟩ := hform
  have hm : val f x % (2 ^ f.scale : Nat) = ((k' * 2 ^ j' : Nat) : Int) := by
    rw [hval, ← e']; norm_cast
  have hlt : k' * 2 ^ j' < mag f (infBits f) := by
    rw [← e']
    exact lt_of_lt_of_le (Nat.mod_lt _ (by positivity)) (by cases f <;> decide +kernel)
  have hd : val f x - val f (floor f x) = ((k' * 2 ^ j' : Nat) : Int) := by rw [hv, hmod, hm]
  have := sub_exact f hx hf hk' hlt (by rw [hd]; rfl)
  exact ⟨this.1, by rw [this.2, hd, hm]⟩

/-! ### Constants -/

theorem finite_ofInt (f : Fmt) {n : Int} (h : n.natAbs ≤ 2 ^ f.fracBits) : finite f (ofInt f n) = true := (ofInt_exact f h).1

theorem val_ofInt (f : Fmt) {n : Int} (h : n.natAbs ≤ 2 ^ f.fracBits) : val f (ofInt f n) = n * (2 ^ f.scale : Nat) := by
  rw [(ofInt_exact f h).2.1]; push_cast; rfl

theorem finite_one (f : Fmt) : finite f (one f) = true := finite_ofInt f (by cases f <;> decide)

theorem val_one (f : Fmt) : val f (one f) = (2 ^ f.scale : Nat) := by
  rw [one, val_ofInt f (by cases f <;> decide), one_mul]

/-- 2^n, exactly. -/
theorem pow2_eq_ofInt_zero (f : Fmt) : pow2 f 0 = one f := by cases f <;> decide +kernel

theorem floorInt_ofInt (f : Fmt) {n : Int} (h : n.natAbs ≤ 2 ^ f.fracBits) : floorInt f (ofInt f n) = n := by
  rw [floorInt, val_ofInt f h]; exact Int.mul_ediv_cancel _ (scale_pos f).ne'

/-- `int` of the floor of a finite number (R13). -/
theorem toNat_floor (f : Fmt) {w : Word} (hw : finite f w = true) : toNat f (floor f w) = (floorInt f w).toNat := by
  rw [toNat, floorInt, (floor_exact f hw).2, Int.mul_ediv_cancel _ (scale_pos f).ne']

/-! ### clamp, min and max -/

theorem clamp_mem (f : Fmt) {v lo hi : Word} (hv : isNaN f v = false) (hl : finite f lo = true) (hh : finite f hi = true)
    (h : val f lo ≤ val f hi) : le f lo (clamp f v lo hi) = true ∧ le f (clamp f v lo hi) hi = true := by
  have nl := not_isNaN_of_finite f hl
  have nh := not_isNaN_of_finite f hh
  unfold clamp
  split
  · simp [le, nl, nh, h]
  · rename_i h1
    split
    · simp [le, nl, nh, h]
    · rename_i h2
      simp [lt, hv, nl, nh] at h1 h2
      simp [le, hv, nl, nh, h1, h2]

theorem fmin_val (f : Fmt) {a b : Word} (ha : finite f a = true) (hb : finite f b = true) :
    finite f (fmin f a b) = true ∧ val f (fmin f a b) = min (val f a) (val f b) := by
  unfold fmin
  rw [le_of_finite f ha hb]
  by_cases h : val f a ≤ val f b
  · simp [h, ha]
  · simp [h, hb]; omega

theorem fmax_val (f : Fmt) {a b : Word} (ha : finite f a = true) (hb : finite f b = true) :
    finite f (fmax f a b) = true ∧ val f (fmax f a b) = max (val f a) (val f b) := by
  unfold fmax
  rw [le_of_finite f hb ha]
  by_cases h : val f b ≤ val f a
  · simp [h, ha]
  · simp [h, hb]; omega

/-- EXP2 of a finite number is no NaN: by law (c) it is comparable with itself. -/
theorem exp2_not_isNaN (f : Fmt) {x : Word} (hx : finite f x = true) : isNaN f (exp2 f x) = false := by
  have := (exp2_lawful f).2.2.1 x x hx hx ((le_iff_of_finite f hx hx).2 (le_refl _))
  simp [le] at this
  exact this

/-! ### Bounds as comparisons with 0 and 1 -/

theorem zero_le_iff (f : Fmt) {x : Word} (hx : finite f x = true) : le f zero x = true ↔ 0 ≤ val f x := by
  rw [le_iff_of_finite f (finite_zero f) hx, val_zero]

theorem zero_lt_iff (f : Fmt) {x : Word} (hx : finite f x = true) : lt f zero x = true ↔ 0 < val f x := by
  rw [lt_iff_of_finite f (finite_zero f) hx, val_zero]

theorem le_one_iff (f : Fmt) {x : Word} (hx : finite f x = true) : le f x (one f) = true ↔ val f x ≤ (2 ^ f.scale : Nat) := by
  rw [le_iff_of_finite f hx (finite_one f), val_one]

theorem lt_one_iff (f : Fmt) {x : Word} (hx : finite f x = true) : lt f x (one f) = true ↔ val f x < (2 ^ f.scale : Nat) := by
  rw [lt_iff_of_finite f hx (finite_one f), val_one]

theorem one_le_iff (f : Fmt) {x : Word} (hx : finite f x = true) : le f (one f) x = true ↔ (2 ^ f.scale : Nat) ≤ val f x := by
  rw [le_iff_of_finite f (finite_one f) hx, val_one]

/-- x − floor(x) lies in [0, 1) (R267, R268, R270). -/
theorem fraction_mem (f : Fmt) {x : Word} (hx : finite f x = true) (h0 : 0 ≤ val f x) :
    finite f (sub f x (floor f x)) = true ∧
      le f zero (sub f x (floor f x)) = true ∧ lt f (sub f x (floor f x)) (one f) = true := by
  obtain ⟨a, b⟩ := fraction_exact f hx h0
  have hs := scale_pos f
  refine ⟨a, ?_, ?_⟩
  · rw [zero_le_iff f a, b]; exact Int.emod_nonneg _ (ne_of_gt hs)
  · rw [lt_one_iff f a, b]; exact Int.emod_lt_of_pos _ hs

/-! ### NaN, infinities and zeros -/

theorem finite_or_isInf (f : Fmt) {w : Word} (h : isNaN f w = false) : finite f w = true ∨ isInf f w = true := by
  simp only [finite, isNaN, isInf, decide_eq_false_iff_not, decide_eq_true_eq, beq_iff_eq] at *; omega

theorem le_of_not_le (f : Fmt) {a b : Word} (ha : isNaN f a = false) (hb : isNaN f b = false) (h : le f a b = false) :
    le f b a = true := by
  simp only [le, ha, hb, Bool.not_false, Bool.true_and, decide_eq_false_iff_not, decide_eq_true_eq] at *; omega

/-- A finite number plus an infinity. -/
theorem add_of_isInf_right (f : Fmt) {a b : Word} (ha : finite f a = true) (hb : isNaN f b = false) (h : isInf f b = true) :
    add f a b = pack f (sign f b) (infBits f) := by
  simp [add, not_isNaN_of_finite f ha, not_isInf_of_finite f ha, hb, h]

/-- An infinity of a known side of 0 has that sign. -/
theorem sign_of_isInf (f : Fmt) {w : Word} (h : isInf f w = true) :
    (le f zero w = true → sign f w = false) ∧ (le f w zero = true → sign f w = true) := by
  have : 0 < mag f (infBits f) := by cases f <;> decide +kernel
  have hz := val_zero f
  have hv : val f w = if sign f w then -(mag f (infBits f) : Int) else (mag f (infBits f) : Int) := by
    simp only [isInf, beq_iff_eq] at h; rw [val, h]
  constructor
  · intro h2
    simp only [le, Bool.and_eq_true, decide_eq_true_eq, hz, hv] at h2
    cases hs : sign f w
    · rfl
    · rw [hs] at h2; simp only [if_true] at h2; omega
  · intro h2
    simp only [le, Bool.and_eq_true, decide_eq_true_eq, hz, hv] at h2
    cases hs : sign f w
    · rw [hs] at h2; simp only [Bool.false_eq_true, if_false] at h2; omega
    · rfl

theorem isZero_iff (f : Fmt) {a : Word} : isZero f a = true ↔ magBits f a = 0 := by simp [isZero]

theorem isZero_pack (f : Fmt) (s : Bool) : isZero f (pack f s 0) = true := by
  rw [isZero_iff, magBits_pack f s (by cases f <;> decide)]

theorem val_of_isZero (f : Fmt) {a : Word} (h : isZero f a = true) : val f a = 0 := by
  rw [isZero_iff] at h; rw [val, h, mag_zero]; cases sign f a <;> rfl

theorem finite_of_isZero (f : Fmt) {b : Word} (hb : isZero f b = true) : finite f b = true := by
  rw [isZero_iff] at hb; rw [finite_iff, hb]; cases f <;> decide

/-- A finite number times a zero. -/
theorem mul_of_isZero_right (f : Fmt) {a b : Word} (ha : finite f a = true) (hb : isZero f b = true) :
    mul f a b = pack f (sign f a != sign f b) 0 := by
  have hb' : magBits f b = 0 := by simpa [isZero] using hb
  have fb : finite f b = true := by rw [finite_iff, hb']; cases f <;> decide
  rw [mul_of_finite f ha fb, hb', mag_zero, Nat.mul_zero]
  congr 1
  cases f <;> decide +kernel

/-- A sum of two zeros. -/
theorem add_of_isZero (f : Fmt) {a b : Word} (ha : isZero f a = true) (hb : isZero f b = true) :
    add f a b = pack f (sign f a && sign f b) 0 := by
  rw [add_of_finite f (finite_of_isZero f ha) (finite_of_isZero f hb), val_of_isZero f ha, val_of_isZero f hb]; rfl

theorem isZero_neg (f : Fmt) {a : Word} (h : isZero f a = true) : isZero f (neg f a) = true := by
  rw [isZero_iff] at h; rw [neg, h]; exact isZero_pack f _

theorem sign_pack_zero (f : Fmt) (s : Bool) : sign f (pack f s 0) = s := sign_pack f s (by cases f <;> decide)

/-- A difference of two zeros. -/
theorem sub_of_isZero (f : Fmt) {a b : Word} (ha : isZero f a = true) (hb : isZero f b = true) :
    sub f a b = pack f (sign f a && !sign f b) 0 := by
  rw [sub, add_of_isZero f ha (isZero_neg f hb)]
  congr 2
  rw [neg, sign_pack f _ (magBits_lt f b)]

theorem pack_false_zero (f : Fmt) : pack f false 0 = zero := by cases f <;> decide

theorem sign_zero_eq (f : Fmt) : sign f zero = false := by cases f <;> decide

/-- Adding a zero keeps the value. -/
theorem add_of_isZero_right (f : Fmt) {a b : Word} (ha : finite f a = true) (hb : isZero f b = true) :
    finite f (add f a b) = true ∧ val f (add f a b) = val f a := by
  obtain ⟨k, j, hk, e⟩ := mag_form f (magBits f a)
  have := add_exact f ha (finite_of_isZero f hb) (k := k) (j := j) hk
    (by rw [← e]; exact mag_strictMono f ((finite_iff f a).1 ha))
    (by rw [val_of_isZero f hb, add_zero, natAbs_val, e])
  rw [val_of_isZero f hb, add_zero] at this; exact this

theorem eq_of_val_eq (f : Fmt) {a b : Word} (ha : finite f a = true) (hb : finite f b = true) (h : val f a = val f b) :
    eq f a b = true := by
  simp [eq, not_isNaN_of_finite f ha, not_isNaN_of_finite f hb, h]

theorem add_not_isNaN_right (f : Fmt) {a b : Word} (ha : finite f a = true) (hb : isNaN f b = false) :
    isNaN f (add f a b) = false := by
  rcases finite_or_isInf f hb with h | h
  · exact add_not_isNaN f ha h
  · rw [add_of_isInf_right f ha hb h]; exact not_isNaN_pack f _ (le_refl _)

theorem div_not_isNaN_left (f : Fmt) {a b : Word} (ha : isNaN f a = false) (hb : finite f b = true) (h0 : val f b ≠ 0) :
    isNaN f (div f a b) = false := by
  rcases finite_or_isInf f ha with h | h
  · exact div_not_isNaN f h hb h0
  · simp only [div, ha, not_isNaN_of_finite f hb, Bool.or_self, Bool.false_eq_true, if_false, h, if_true,
      not_isInf_of_finite f hb]
    exact not_isNaN_pack f _ (le_refl _)

theorem mul_not_isNaN_right (f : Fmt) {a b : Word} (ha : finite f a = true) (h0 : val f a ≠ 0) (hb : isNaN f b = false) :
    isNaN f (mul f a b) = false := by
  rcases finite_or_isInf f hb with h | h
  · exact mul_not_isNaN f ha h
  · have z : isZero f b = false := by
      simp only [isInf, isZero, beq_iff_eq, beq_eq_false_iff_ne] at *; rw [h]; cases f <;> decide
    simp only [mul, not_isNaN_of_finite f ha, hb, Bool.or_self, Bool.false_eq_true, if_false, h, Bool.or_true, if_true,
      isZero_eq_false f h0, z]
    exact not_isNaN_pack f _ (le_refl _)

theorem lt_self (f : Fmt) (v : Word) : lt f v v = false := by simp [lt]

theorem fmin_self (f : Fmt) (v : Word) : fmin f v v = v := by simp [fmin]

theorem fmax_self (f : Fmt) (v : Word) : fmax f v v = v := by simp [fmax]

theorem clamp_self (f : Fmt) (v : Word) : clamp f v v v = v := by simp [clamp, lt_self]

/-- A word of FMT_BITS bits is its sign and its magnitude. -/
theorem word_ext (f : Fmt) {a b : Word} (ha : f.fits a = true) (hb : f.fits b = true) (h1 : sign f a = sign f b)
    (h2 : magBits f a = magBits f b) : a = b := by
  apply BitVec.eq_of_toNat_eq
  simp only [Fmt.fits, decide_eq_true_eq] at ha hb
  have e1 : ∀ w : Word, w.toNat < 2 ^ f.bits → w.toNat = (if sign f w then 2 ^ (f.bits - 1) else 0) + magBits f w := by
    intro w hw
    have hb : 2 ^ f.bits = 2 ^ (f.bits - 1) * 2 := by rw [← pow_succ]; cases f <;> rfl
    rw [sign, magBits, Nat.testBit_eq_decide_div_mod_eq]
    have hd := Nat.div_add_mod w.toNat (2 ^ (f.bits - 1))
    have : w.toNat / 2 ^ (f.bits - 1) < 2 := (Nat.div_lt_iff_lt_mul (by positivity)).2 (by omega)
    have : w.toNat / 2 ^ (f.bits - 1) = 0 ∨ w.toNat / 2 ^ (f.bits - 1) = 1 := by
      clear hd; generalize w.toNat / 2 ^ (f.bits - 1) = q at *; omega
    rcases this with h | h
    · rw [h] at hd; simp [h]; omega
    · rw [h] at hd; simp [h]; omega
  rw [e1 a ha, e1 b hb, h1, h2]

theorem roundMag_self (f : Fmt) {w : Word} (hw : finite f w = true) :
    roundMag f (mag f (magBits f w)) 1 = magBits f w :=
  roundMag_mag f ((finite_iff f w).1 hw)

/-- Adding +0.0 keeps the word, but for −0.0. -/
theorem add_zero_eq (f : Fmt) {v : Word} (hv : finite f v = true) (hf : f.fits v = true) (hn : v ≠ neg f zero) :
    add f v zero = v := by
  rw [add_of_finite f hv (finite_zero f), val_zero, add_zero]
  have hm := (finite_iff f v).1 hv
  have hl : magBits f v < 2 ^ (f.bits - 1) := hm.trans (infBits_lt f)
  split
  · rename_i h
    rw [sign_zero_eq, Bool.and_false, pack_false_zero]
    have h0 : magBits f v = 0 := by
      have : mag f (magBits f v) = 0 := by rw [← natAbs_val, h]; rfl
      by_contra hc
      have := mag_strictMono f (show 0 < magBits f v by omega)
      rw [mag_zero] at this; omega
    cases hs : sign f v
    · exact (word_ext f (zero_fits f) hf (by rw [hs, sign_zero_eq]) (by rw [h0]; cases f <;> decide)).trans rfl
    · exfalso; apply hn
      apply word_ext f hf (neg_fits f _)
      · rw [hs]; cases f <;> decide
      · rw [h0]; cases f <;> decide
  · rename_i h
    rw [natAbs_val, roundMag_self f hv]
    apply word_ext f (fits_pack f _ hl) hf
    · rw [sign_pack f _ hl]
      rw [val] at h ⊢
      cases hs : sign f v <;>
        simp only [hs, if_true, if_false, Bool.false_eq_true, decide_eq_true_eq, decide_eq_false_iff_not] at h ⊢ <;>
        omega
    · rw [magBits_pack f _ hl]

/-- Multiplying by 1.0 keeps the word. -/
theorem mul_one_eq (f : Fmt) {v : Word} (hv : finite f v = true) (hf : f.fits v = true) : mul f v (one f) = v := by
  rw [mul_of_finite f hv (finite_one f)]
  have hm := (finite_iff f v).1 hv
  have hl : magBits f v < 2 ^ (f.bits - 1) := hm.trans (infBits_lt f)
  have e : mag f (magBits f (one f)) = 2 ^ f.scale := by rw [← natAbs_val, val_one]; norm_cast
  rw [e, roundMag_eq_of_eq f (by positivity) hm rfl]
  apply word_ext f (fits_pack f _ hl) hf
  · rw [sign_pack f _ hl]
    have : sign f (one f) = false := by cases f <;> decide +kernel
    simp [this]
  · rw [magBits_pack f _ hl]

theorem exp2_zero (f : Fmt) : exp2 f zero = one f := by cases f <;> decide +kernel

end Sys2Proof.Fp
end

