-- ==== Sys2Proof/Laws/Midi.lean ====
section
/-! SUPPORT. The event word as a number, its fields, the emission of an event, and MPUSH by the state of the parser. -/

namespace Sys2Proof.Machine

/-! ### Event words (R125, R366) -/

theorem eventWord_toNat (k c : BitVec 4) (st d1 d2 : Byte) :
    (eventWord k c st d1 d2).toNat =
      k.toNat * 2 ^ 28 + c.toNat * 2 ^ 24 + st.toNat * 2 ^ 16 + d1.toNat * 2 ^ 8 + d2.toNat := by
  show (k ++ ((c ++ ((st ++ (d1 ++ d2 : BitVec 16)) : BitVec 24)) : BitVec 28)).toNat = _
  rw [toNat_append 4 28, toNat_append 4 24, toNat_append 8 16, toNat_append 8 8]; omega

theorem eventWord_fields (k c : BitVec 4) (st d1 d2 : Byte) :
    evKind (eventWord k c st d1 d2) = k ∧ evD1 (eventWord k c st d1 d2) = d1 ∧ evD2 (eventWord k c st d1 d2) = d2 := by
  have := k.isLt; have := c.isLt; have := st.isLt; have := d1.isLt; have := d2.isLt
  refine ⟨?_, ?_, ?_⟩ <;> apply BitVec.eq_of_toNat_eq <;>
    simp only [evKind, evD1, evD2, toNat_field, eventWord_toNat] <;> omega

theorem high_nibble (b : Byte) : (b.extractLsb' 4 4).toNat = b.toNat / 16 := by
  rw [toNat_field]; have := b.isLt; omega

theorem low_nibble (b : Byte) : (b.extractLsb' 0 4).toNat = b.toNat % 16 := by
  rw [toNat_field]; omega

/-- The kinds of the channel-voice messages are 1 to 7. -/
theorem voiceKind_range (st : Byte) : 1 ≤ (voiceKind st).toNat ∧ (voiceKind st).toNat ≤ 7 := by
  unfold voiceKind; split <;> decide

/-! ### Emitting an event (R365) -/

theorem emitEvent_of_room {d : Nat} {e : BitVec 32} {m : Midi} (h : m.q.length ≠ d) :
    emitEvent d e m = .taken { m with q := m.q ++ [e] } := if_neg h

theorem emitEvent_of_full {d : Nat} {e : BitVec 32} {m : Midi} (h : m.q.length = d) : emitEvent d e m = .full := if_pos h

theorem emitEvent_taken {d : Nat} {e : BitVec 32} {m m' : Midi} (h : emitEvent d e m = .taken m') :
    m.q.length ≠ d ∧ m' = { m with q := m.q ++ [e] } := by
  by_cases hq : m.q.length = d
  · rw [emitEvent_of_full hq] at h; cases h
  · rw [emitEvent_of_room hq] at h; cases h; exact ⟨hq, rfl⟩

/-! ### MPUSH -/

/-- What MPUSH answers for what the parser says of the byte. -/
def ByteResult.answer (s : State) : ByteResult → Result
  | .taken m => finish (intWord m.count) (s.setMidi m)
  | .full => raise .queueFull s
  | .broken => enterError s

/-- R361: outside ERROR, MPUSH answers what the parser says of the byte. -/
theorem execMpush_eq {s : State} (b : Byte) (h : s.midi.pstate ≠ .error) :
    execMpush b s = (parseByte s.cfg.evqDepth b s.midi).answer s := by
  unfold execMpush
  rw [if_neg h]
  cases parseByte s.cfg.evqDepth b s.midi <;> rfl

theorem parseByte_idle {m : Midi} (d : Nat) (b : Byte) (h : m.pstate = .idle) : parseByte d b m = idleByte d b m := by
  unfold parseByte; rw [h]

theorem parseByte_msg {m : Midi} (d : Nat) (b : Byte) (h : m.pstate = .msg) : parseByte d b m = msgByte d b m := by
  unfold parseByte; rw [h]

theorem parseByte_sysex {m : Midi} (d : Nat) (b : Byte) (h : m.pstate = .sysex) : parseByte d b m = sysexByte d b m := by
  unfold parseByte; rw [h]

end Sys2Proof.Machine
end

