-- ==== Sys2Proof/Laws/PerInstr.lean ====
section
/-! SUPPORT. The statement made of every instruction: its command word matches its row of spec/opcode_table.json. Every mask of
the table is a run of ones from bit 31 down to a first operand bit, so "the word under the mask is the row's match" is "the
word divided by 2^operandBits is the row's match divided by it". -/

namespace Sys2Proof.Laws.TableRow

/-- The operand bits of a row, those its mask leaves free: all at the low end of the word. -/
def operandBits : Instr → Nat
  | .nop => 0
  | .reset => 0
  | .tick => 0
  | .tickb => 0
  | .rdbuf _ => 24
  | .wport _ _ _ => 16
  | .rport _ _ => 16
  | .wparam _ _ _ => 16
  | .rparam _ _ => 16
  | .twrite _ _ => 24
  | .tread _ => 24
  | .sealTables => 0
  | .mpush _ => 8
  | .mpop => 0
  | .mreset => 0

/-- The row's match. -/
def rowMatch : Instr → Nat
  | .nop => 0x00000000
  | .reset => 0x01000000
  | .tick => 0x02000000
  | .tickb => 0x03000000
  | .rdbuf _ => 0x04000000
  | .wport _ _ _ => 0x10000000
  | .rport _ _ => 0x11000000
  | .wparam _ _ _ => 0x12000000
  | .rparam _ _ => 0x13000000
  | .twrite _ _ => 0x20000000
  | .tread _ => 0x21000000
  | .sealTables => 0x22000000
  | .mpush _ => 0x30000000
  | .mpop => 0x31000000
  | .mreset => 0x32000000

/-- The command word is its row's match wherever the row's mask has a one. -/
def Statement (i : Instr) : Prop := (encode i).cw.toNat / 2 ^ operandBits i = rowMatch i / 2 ^ operandBits i

theorem nop : Statement .nop := by unfold Statement; decide

theorem reset : Statement .reset := by unfold Statement; decide

theorem tick : Statement .tick := by unfold Statement; decide

theorem tickb : Statement .tickb := by unfold Statement; decide

theorem rdbuf (addr : BitVec 24) : Statement (.rdbuf addr) := by
  simp only [Statement, encode, operandBits, rowMatch, cwA_toNat, BitVec.toNat_ofNat]
  have := addr.isLt; omega

theorem wport (unit : UnitId) (sel : Byte) (dw : Word) : Statement (.wport unit sel dw) := by
  simp only [Statement, encode, operandBits, rowMatch, cwP_toNat, BitVec.toNat_ofNat]
  have := unit.code.isLt; have := sel.isLt; omega

theorem rport (unit : UnitId) (sel : Byte) : Statement (.rport unit sel) := by
  simp only [Statement, encode, operandBits, rowMatch, cwP_toNat, BitVec.toNat_ofNat]
  have := unit.code.isLt; have := sel.isLt; omega

theorem wparam (unit : UnitId) (sel : Byte) (dw : Word) : Statement (.wparam unit sel dw) := by
  simp only [Statement, encode, operandBits, rowMatch, cwP_toNat, BitVec.toNat_ofNat]
  have := unit.code.isLt; have := sel.isLt; omega

theorem rparam (unit : UnitId) (sel : Byte) : Statement (.rparam unit sel) := by
  simp only [Statement, encode, operandBits, rowMatch, cwP_toNat, BitVec.toNat_ofNat]
  have := unit.code.isLt; have := sel.isLt; omega

theorem twrite (addr : BitVec 24) (dw : Word) : Statement (.twrite addr dw) := by
  simp only [Statement, encode, operandBits, rowMatch, cwA_toNat, BitVec.toNat_ofNat]
  have := addr.isLt; omega

theorem tread (addr : BitVec 24) : Statement (.tread addr) := by
  simp only [Statement, encode, operandBits, rowMatch, cwA_toNat, BitVec.toNat_ofNat]
  have := addr.isLt; omega

theorem sealTables : Statement .sealTables := by unfold Statement; decide

theorem mpush (byte : Byte) : Statement (.mpush byte) := by
  simp only [Statement, encode, operandBits, rowMatch, cwB_toNat, BitVec.toNat_ofNat]
  have := byte.isLt; omega

theorem mpop : Statement .mpop := by unfold Statement; decide

theorem mreset : Statement .mreset := by unfold Statement; decide

end Sys2Proof.Laws.TableRow
end

