-- ==== Sys2Proof/Laws/Units.lean ====
section
/-! SUPPORT. What the ticks of the units leave unchanged, and how an event of the drain reads the queue. -/

namespace Sys2Proof.Machine

/-! ### The envelope and the filter keep their parameters -/

theorem Env.gateStep_keeps (f : Fmt) (e : Env) :
    (e.gateStep f).attack = e.attack ∧ (e.gateStep f).decay = e.decay ∧ (e.gateStep f).sustain = e.sustain ∧
      (e.gateStep f).release = e.release ∧ (e.gateStep f).gate = e.gate := by
  unfold Env.gateStep; split <;> split <;> exact ⟨rfl, rfl, rfl, rfl, rfl⟩

theorem Env.segmentStep_keeps (c : Cfg) (e : Env) :
    (e.segmentStep c).attack = e.attack ∧ (e.segmentStep c).decay = e.decay ∧ (e.segmentStep c).sustain = e.sustain ∧
      (e.segmentStep c).release = e.release ∧ (e.segmentStep c).gate = e.gate := by
  unfold Env.segmentStep Env.attackStep Env.decayStep Env.releaseStep
  split
  · split <;> exact ⟨rfl, rfl, rfl, rfl, rfl⟩
  · split <;> exact ⟨rfl, rfl, rfl, rfl, rfl⟩
  · exact ⟨rfl, rfl, rfl, rfl, rfl⟩
  · split <;> exact ⟨rfl, rfl, rfl, rfl, rfl⟩

/-- An envelope tick writes ENV.state, .pos, .anchor and .amp alone (R204). -/
theorem Env.tick_keeps (c : Cfg) (e : Env) :
    (e.tick c).attack = e.attack ∧ (e.tick c).decay = e.decay ∧ (e.tick c).sustain = e.sustain ∧
      (e.tick c).release = e.release ∧ (e.tick c).gate = e.gate := by
  obtain ⟨a1, a2, a3, a4, a5⟩ := Env.gateStep_keeps c.fmt e
  obtain ⟨b1, b2, b3, b4, b5⟩ := Env.segmentStep_keeps c (e.gateStep c.fmt)
  exact ⟨b1.trans a1, b2.trans a2, b3.trans a3, b4.trans a4, b5.trans a5⟩

/-- A filter tick keeps the parameters, the input and the modulation, and leaves the filter clean (R238). -/
theorem Filter.tick_keeps (c : Cfg) (x : Filter) :
    (x.tick c).base = x.base ∧ (x.tick c).depth = x.depth ∧ (x.tick c).q = x.q ∧ (x.tick c).inp = x.inp ∧
      (x.tick c).fo = x.fo ∧ (x.tick c).dirty = false := by
  unfold Filter.tick Filter.sample Filter.historyShift Filter.refresh
  cases h : x.dirty <;> simp [Filter.coefficients, Filter.setCoefficients, h]

/-- A ramp tick writes RAMP.pos and .out alone (R303). -/
theorem Ramp.tick_keeps (f : Fmt) (r : Ramp) :
    (r.tick f).fromVal = r.fromVal ∧ (r.tick f).toVal = r.toVal ∧ (r.tick f).speed = r.speed ∧
      (r.tick f).endPos = r.endPos ∧ (r.tick f).curve = r.curve ∧ (r.tick f).duration = r.duration :=
  ⟨rfl, rfl, rfl, rfl, rfl, rfl⟩

/-! ### The table reads of the oscillator -/

theorem tableFetch_ok {table : Memory} {a : Nat} {w : Word} (h : tableFetch table a = .ok w) :
    Memory.lookup table a = some w := by
  unfold tableFetch Memory.read at h
  cases hl : Memory.lookup table a with
  | none => rw [hl] at h; cases h
  | some v => rw [hl] at h; exact congrArg some (Except.ok.inj h)

theorem tableFetch_of_lookup {table : Memory} {a : Nat} (h : (Memory.lookup table a).isSome = true) :
    ∃ w, tableFetch table a = .ok w := by
  unfold tableFetch Memory.read
  cases hl : Memory.lookup table a with
  | none => rw [hl] at h; cases h
  | some w => exact ⟨w, rfl⟩

/-- R82: the address of a sample of a table of a bank lies in TABLE. -/
theorem Cfg.taddr_lt {c : Cfg} {b k i : Nat} (hb : b < c.numBanks) (hk : k < c.numTables) (hi : i < c.tableLen) :
    c.taddr b k 0 + i < c.tableSize := by
  unfold Cfg.taddr Cfg.tableSize
  have h1 : b * c.numTables + k + 1 ≤ c.numBanks * c.numTables := by
    calc b * c.numTables + k + 1 ≤ b * c.numTables + c.numTables := by omega
      _ = (b + 1) * c.numTables := by ring
      _ ≤ _ := Nat.mul_le_mul_right _ hb
  calc (b * c.numTables + k) * c.tableLen + 0 + i < (b * c.numTables + k + 1) * c.tableLen := by
        rw [Nat.add_mul (_ + k)]; omega
    _ ≤ _ := Nat.mul_le_mul_right _ h1

/-! ### The drain and the queue -/

/-- An event's effect does not see the parser or the queue. -/
theorem applyEvent_setMidi (e : BitVec 32) (s : State) (m : Midi) :
    applyEvent e (s.setMidi m) = (applyEvent e s).setMidi m := by
  unfold applyEvent noteOn noteOff
  split
  · split
    · rfl
    · show (if _ = s.voice.note then _ else _) = _
      split <;> rfl
  · show (if _ = s.voice.note then _ else _) = _
    split <;> rfl
  · rfl

end Sys2Proof.Machine
end

