-- ==== Sys2Proof/Machine/Assembler.lean ====
section
/-! DEFINITION. The textual form of commands (spec/30_encoding.md R128) and the pseudo-instructions (R129): from one line of
text to the commands it stands for. The block itself never sees text. A text is a list of characters. -/

namespace Sys2Proof.Machine

/-! ### Words of a line -/

/-- A `;` starts a comment. -/
def stripComment : List Char → List Char
  | [] => []
  | c :: cs => if c = ';' then [] else c :: stripComment cs

/-- The characters that part the words of a line: the blank, the tab and the comma. -/
def isGap (c : Char) : Bool := c = ' ' || c = '\t' || c = ','

/-- The words of a line; `cur` holds the characters of the word in progress, the last one first. -/
def splitWords (cur : List Char) : List Char → List (List Char)
  | [] => if cur = [] then [] else [cur.reverse]
  | c :: cs =>
    if isGap c then if cur = [] then splitWords [] cs else cur.reverse :: splitWords [] cs
    else splitWords (c :: cur) cs

/-- A text split at the first occurrence of a character. -/
def splitAtChar (sep : Char) : List Char → Option (List Char × List Char)
  | [] => none
  | c :: cs =>
    if c = sep then some ([], cs)
    else
      match splitAtChar sep cs with
      | some (a, b) => some (c :: a, b)
      | none => none

/-! ### Literals -/

/-- The value of a digit in bases up to 16. -/
def digitVal (c : Char) : Option Nat :=
  if '0'.toNat ≤ c.toNat && c.toNat ≤ '9'.toNat then some (c.toNat - '0'.toNat)
  else if 'a'.toNat ≤ c.toNat && c.toNat ≤ 'f'.toNat then some (c.toNat - 'a'.toNat + 10)
  else if 'A'.toNat ≤ c.toNat && c.toNat ≤ 'F'.toNat then some (c.toNat - 'A'.toNat + 10)
  else none

/-- The number that digits of a base spell after `acc`; none where a character is no digit of the base. -/
def digitsFrom (base acc : Nat) : List Char → Option Nat
  | [] => some acc
  | c :: cs =>
    match digitVal c with
    | some d => if d < base then digitsFrom base (acc * base + d) cs else none
    | none => none

/-- One digit or more. -/
def digits (base : Nat) (cs : List Char) : Option Nat := if cs = [] then none else digitsFrom base 0 cs

/-- R128: an unsigned integer literal, decimal or with 0x hexadecimal. -/
def uintLit : List Char → Option Nat
  | '0' :: 'x' :: cs => digits 16 cs
  | cs => digits 10 cs

/-- A signed decimal exponent. -/
def expLit : List Char → Option Int
  | '-' :: cs => (digits 10 cs).map fun n => -(n : Int)
  | '+' :: cs => (digits 10 cs).map fun n => (n : Int)
  | cs => (digits 10 cs).map fun n => (n : Int)

/-- Digits with at most one point: the number without the point, and how many digits follow it. -/
def pointLit (base : Nat) (cs : List Char) : Option (Nat × Nat) :=
  match splitAtChar '.' cs with
  | none => (digits base cs).map fun n => (n, 0)
  | some (a, b) => (digits base (a ++ b)).map fun n => (n, b.length)

/-- m × radix^e / base^k rounded once to FMT, with a sign. -/
def roundLit (f : Fmt) (neg : Bool) (m base k radix : Nat) (e : Int) : Word :=
  Fp.pack f neg (Fp.roundMag f (m * radix ^ e.toNat * 2 ^ f.scale) (base ^ k * radix ^ (-e).toNat))

/-- An unsigned floating-point literal: decimal with an optional `e` exponent of ten, or hexadecimal with an optional `p`
exponent of two. -/
def absLit (f : Fmt) (neg : Bool) : List Char → Option Word
  | '0' :: 'x' :: cs =>
    match splitAtChar 'p' cs with
    | none => (pointLit 16 cs).map fun m => roundLit f neg m.1 16 m.2 2 0
    | some (a, b) =>
      match pointLit 16 a, expLit b with
      | some m, some e => some (roundLit f neg m.1 16 m.2 2 e)
      | _, _ => none
  | cs =>
    match splitAtChar 'e' cs with
    | none => (pointLit 10 cs).map fun m => roundLit f neg m.1 10 m.2 10 0
    | some (a, b) =>
      match pointLit 10 a, expLit b with
      | some m, some e => some (roundLit f neg m.1 10 m.2 10 e)
      | _, _ => none

/-- R128: a real literal, rounded to FMT by roundTiesToEven. -/
def realLit (f : Fmt) : List Char → Option Word
  | '-' :: cs => absLit f true cs
  | '+' :: cs => absLit f false cs
  | cs => absLit f false cs

/-! ### Names -/

/-- The entry of a list of names that a text names. -/
def lookupName {α : Type} (names : List (String × α)) (cs : List Char) : Option α :=
  match names with
  | [] => none
  | (n, v) :: rest => if n.toList = cs then some v else lookupName rest cs

/-- R128: the unit names. -/
def unitNames : List (String × UnitId) :=
  [("voice", .voice), ("ramp", .ramp), ("osc", .osc), ("env", .env), ("gain", .gain), ("filter", .filter), ("midi", .midi),
    ("sys", .sys)]

/-- R128: the port names, with their codes (R33). -/
def portNames : List (String × Nat) := [("in", 0), ("out", 1), ("gate", 2), ("detune", 3), ("filterOffset", 4)]

/-- R45: the lower-case register names of a unit, with their ids. -/
def regNames : UnitId → List (String × Nat)
  | .voice => [("note", 0)]
  | .ramp =>
    [("value", 0), ("duration", 1), ("curve", 2), ("from", 3), ("to", 4), ("pos", 5), ("speed", 6), ("end", 7)]
  | .osc => [("bank", 0), ("phase", 1), ("feff", 2), ("k", 3), ("frac", 4)]
  | .env =>
    [("attack", 0), ("decay", 1), ("sustain", 2), ("release", 3), ("state", 4), ("pos", 5), ("anchor", 6), ("amp", 7)]
  | .gain => [("gain", 0)]
  | .filter =>
    [("base", 0), ("depth", 1), ("q", 2), ("fc", 3), ("b0", 4), ("b1", 5), ("b2", 6), ("a1", 7), ("a2", 8), ("x1", 9),
      ("x2", 10), ("y1", 11), ("y2", 12), ("dirty", 13)]
  | .midi => [("pstate", 0), ("blen", 1), ("need", 2), ("sxlen", 3), ("count", 4), ("buf", 5)]
  | .sys =>
    [("ctrl", 0), ("status", 1), ("sample_count", 2), ("lifecycle", 3), ("id", 4), ("fs", 0x10), ("block_size", 0x11),
      ("table_len", 0x12), ("num_tables", 0x13), ("num_banks", 0x14), ("base_freq", 0x15), ("evq_depth", 0x16),
      ("fmt", 0x17), ("q_min", 0x18), ("cutoff_min", 0x19), ("cutoff_max", 0x1A), ("detune_max", 0x1B)]

/-- `<unit>.<port>`. -/
def portOperand (cs : List Char) : Option (UnitId × Byte) :=
  match splitAtChar '.' cs with
  | none => none
  | some (a, b) =>
    match lookupName unitNames a, lookupName portNames b with
    | some u, some n => some (u, BitVec.ofNat 8 n)
    | _, _ => none

/-- `<unit>.<reg>`. -/
def regOperand (cs : List Char) : Option (UnitId × Byte) :=
  match splitAtChar '.' cs with
  | none => none
  | some (a, b) =>
    match lookupName unitNames a with
    | none => none
    | some u => (lookupName (regNames u) b).map fun n => (u, BitVec.ofNat 8 n)

/-- `<value>`: a real for a REAL register, an unsigned integer of FMT_BITS bits for an INT register. -/
def valueOperand (f : Fmt) (u : UnitId) (sel : Byte) (cs : List Char) : Option Word :=
  match (regOf u sel).map Reg.kind with
  | some .real => realLit f cs
  | some .int => (uintLit cs).bind fun n => if n < 2 ^ f.bits then some (BitVec.ofNat 64 n) else none
  | none => none

/-- `<byte>`. -/
def byteOperand (cs : List Char) : Option Byte :=
  (uintLit cs).bind fun n => if n < 256 then some (BitVec.ofNat 8 n) else none

/-- `<addr>`. -/
def plainAddr (cs : List Char) : Option (BitVec 24) :=
  (uintLit cs).bind fun n => if n < 2 ^ 24 then some (BitVec.ofNat 24 n) else none

/-- `<addr>` of a table command, or `b:k:i` for taddr(b, k, i) within the bounds of R82 (R129). -/
def addrOperand (c : Cfg) (cs : List Char) : Option (BitVec 24) :=
  match splitAtChar ':' cs with
  | none => plainAddr cs
  | some (b, rest) =>
    match splitAtChar ':' rest with
    | none => none
    | some (k, i) =>
      match uintLit b, uintLit k, uintLit i with
      | some b, some k, some i =>
        if b < c.numBanks ∧ k < c.numTables ∧ i < c.tableLen then some (BitVec.ofNat 24 (c.taddr b k i)) else none
      | _, _, _ => none

/-- R129: the three bytes of a note message with status nibble `hi`. -/
def noteBytes (hi : Nat) (ch n v : List Char) : Option (List Instr) :=
  match uintLit ch, byteOperand n, byteOperand v with
  | some ch, some n, some v =>
    if ch < 16 then some [.mpush (BitVec.ofNat 8 (hi + ch)), .mpush n, .mpush v] else none
  | _, _, _ => none

/-! ### Lines -/

/-- The mnemonics of R128 and R129. -/
inductive Mnemonic where
  | nop | reset | tick | tickb | rdbuf | wport | rport | wparam | rparam | twrite | tread | sealTables | mpush | mpop | mreset
  | noteOn | noteOff | gateOn | gateOff | glide | jump | clrstat | tickn | ctrl
  deriving DecidableEq, Repr

def mnemonics : List (String × Mnemonic) :=
  [("nop", .nop), ("reset", .reset), ("tick", .tick), ("tickb", .tickb), ("rdbuf", .rdbuf), ("wport", .wport),
    ("rport", .rport), ("wparam", .wparam), ("rparam", .rparam), ("twrite", .twrite), ("tread", .tread),
    ("seal", .sealTables), ("mpush", .mpush), ("mpop", .mpop), ("mreset", .mreset), ("note_on", .noteOn),
    ("note_off", .noteOff), ("gate_on", .gateOn), ("gate_off", .gateOff), ("glide", .glide), ("jump", .jump),
    ("clrstat", .clrstat), ("tickn", .tickn), ("ctrl", .ctrl)]

/-- R128, R129: the commands that a mnemonic with its operands stands for. -/
def assembleOp (c : Cfg) (m : Mnemonic) (ops : List (List Char)) : Option (List Instr) :=
  match m, ops with
  | .nop, [] => some [.nop]
  | .reset, [] => some [.reset]
  | .tick, [] => some [.tick]
  | .tickb, [] => some [.tickb]
  | .rdbuf, [a] => (plainAddr a).map fun a => [.rdbuf a]
  | .wport, [p, v] =>
    match portOperand p, realLit c.fmt v with
    | some (u, sel), some w => some [.wport u sel w]
    | _, _ => none
  | .rport, [p] => (portOperand p).map fun p => [.rport p.1 p.2]
  | .wparam, [r, v] =>
    match regOperand r with
    | none => none
    | some (u, sel) => (valueOperand c.fmt u sel v).map fun w => [.wparam u sel w]
  | .rparam, [r] => (regOperand r).map fun r => [.rparam r.1 r.2]
  | .twrite, [a, v] =>
    match addrOperand c a, realLit c.fmt v with
    | some a, some w => some [.twrite a w]
    | _, _ => none
  | .tread, [a] => (addrOperand c a).map fun a => [.tread a]
  | .sealTables, [] => some [.sealTables]
  | .mpush, [b] => (byteOperand b).map fun b => [.mpush b]
  | .mpop, [] => some [.mpop]
  | .mreset, [] => some [.mreset]
  | .noteOn, [ch, n, v] => noteBytes 0x90 ch n v
  | .noteOff, [ch, n, v] => noteBytes 0x80 ch n v
  | .gateOn, [] => some [.wport .voice 2#8 (Fp.one c.fmt)]
  | .gateOff, [] => some [.wport .voice 2#8 Fp.zero]
  | .glide, [fr, d] =>
    match realLit c.fmt fr, realLit c.fmt d with
    | some fr, some d => some [.wparam .ramp 1#8 d, .wport .voice 0#8 fr]
    | _, _ => none
  | .jump, [v] => (realLit c.fmt v).map fun w => [.wparam .ramp 0#8 w]
  | .clrstat, [] => some [.wparam .sys 1#8 4#64]
  | .tickn, [n] => (uintLit n).map fun n => List.replicate n .tick
  | .ctrl, [v] => (valueOperand c.fmt .sys 0#8 v).map fun w => [.wparam .sys 0#8 w]
  | _, _ => none

/-- R128: one line of text. An empty line, or one that holds only a comment, is no command; a line that is none of these
assembles to nothing (none). -/
def assembleLine (c : Cfg) (line : List Char) : Option (List Instr) :=
  match splitWords [] (stripComment line) with
  | [] => some []
  | w :: ops =>
    match lookupName mnemonics w with
    | some m => assembleOp c m ops
    | none => none

/-- The commands of a text, line by line. -/
def assemble (c : Cfg) : List (List Char) → Option (List Cmd)
  | [] => some []
  | l :: rest =>
    match assembleLine c l, assemble c rest with
    | some is, some cs => some (is.map encode ++ cs)
    | _, _ => none

end Sys2Proof.Machine
end

