-- ==== Sys2Proof/Tests/Slice0.lean ====
section
/-! SUPPORT. The model's own tests. Expected values come from spec/95_test_vectors.md (the section is named with each test) or
from the formats and tables of the spec; nothing is copied from a run of the model. The last part holds, for every statement
of Obligations.lean that has hypotheses, a concrete case that meets them (`test_witness_…`). -/

-- One thread is enough for the tests; many at once come close to the memory limit of the check.
set_option Elab.async false

namespace Sys2Proof.Tests

open Sys2Proof Sys2Proof.Machine Sys2Proof.Claims

/-! ### Small states -/

/-- CFG-T of spec/95_test_vectors.md §0. -/
def cfgT : Cfg where
  fmt := .binary32
  fs := 0x41800000#64
  blockSize := 4
  tableLen := 4
  numTables := 2
  numBanks := 1
  baseFreq := 0x3F800000#64
  evqDepth := 4
  qMin := 0x3DCCCCCD#64
  cutoffMin := 0x3F000000#64
  cutoffMax := 0x40E00000#64
  detuneMax := 0x41000000#64

/-- CFG-T in binary64, with FS and the other parameters as there. -/
def cfgD : Cfg where
  fmt := .binary64
  fs := 0x4030000000000000#64
  blockSize := 4
  tableLen := 4
  numTables := 2
  numBanks := 1
  baseFreq := 0x3FF0000000000000#64
  evqDepth := 4
  qMin := 0x3FB999999999999A#64
  cutoffMin := 0x3FE0000000000000#64
  cutoffMax := 0x401C000000000000#64
  detuneMax := 0x4020000000000000#64

/-- Power-on reset under CFG-T. -/
def off : State := State.powerOn cfgT

/-- The standard tables T, §0. -/
def tablesT : Memory :=
  [(0, 0x00000000#64), (1, 0x3F800000#64), (2, 0x00000000#64), (3, 0xBF800000#64), (4, 0x3F800000#64), (5, 0x3F000000#64),
    (6, 0xBF800000#64), (7, 0xBF000000#64)]

/-- "From T" of §0. -/
def fromT : State := { off with lifecycle := .run, table := tablesT }

/-- The host sends one command. -/
def send (s : State) (cw : BitVec 32) (dw : Word) : State := { s with host := [⟨cw, dw⟩] }

/-- The state after one command. -/
def sent (s : State) (cw : BitVec 32) (dw : Word) : State :=
  match step (send s cw dw) with
  | .next t => t
  | _ => s

/-- ST and RW of one command; none at the model fault. -/
def ask (s : State) (cw : BitVec 32) (dw : Word) : Option (Nat × Word) :=
  match step (send s cw dw) with
  | .next t => t.resp.map fun r => (r.st.code.toNat, r.rw)
  | _ => none

/-- A parser in a message, or at its start, with its bytes. -/
def parser (p : PState) (b0 b1 : Byte) (blen need : BitVec 2) (n : BitVec 16) (q : List (BitVec 32)) : State :=
  { off with midi := ⟨p, b0, b1, 0#8, blen, need, n, q⟩ }

/-- The events queued after one MPUSH. -/
def queued (s : State) (b : Byte) : List (BitVec 32) := (after (.mpush b) s).midi.q

/-- Four realtime events: a full queue under CFG-T. -/
def fullQ : List (BitVec 32) := [0xA0F80000#32, 0xA0F80000#32, 0xA0F80000#32, 0xA0F80000#32]

/-! ### The configuration and the well-formedness checks -/

/-- CFG-T and its binary64 twin meet R5, and so does the default. -/
theorem test_configurations_valid : Cfg.default.valid = true ∧ cfgT.valid = true ∧ cfgD.valid = true := by decide +kernel

/-- R5: each constraint refuses a configuration that breaks it. -/
theorem test_configurations_refused :
    Cfg.valid { cfgT with fs := 0x41840000#64 } = false ∧ Cfg.valid { cfgT with fs := 0x00000000#64 } = false ∧
    Cfg.valid { cfgT with fs := 0x7F800000#64 } = false ∧ Cfg.valid { cfgT with fs := 0x4B800001#64 } = false ∧
    Cfg.valid { cfgT with blockSize := 0 } = false ∧ Cfg.valid { cfgT with tableLen := 3 } = false ∧
    Cfg.valid { cfgT with tableLen := 1 } = false ∧ Cfg.valid { cfgT with numTables := 0 } = false ∧
    Cfg.valid { cfgT with numBanks := 256 } = false ∧ Cfg.valid { cfgT with evqDepth := 0 } = false ∧
    Cfg.valid { cfgT with baseFreq := 0x80000000#64 } = false ∧ Cfg.valid { cfgT with qMin := 0x7FC00000#64 } = false ∧
    Cfg.valid { cfgT with cutoffMin := 0x3A000000#64 } = false ∧ Cfg.valid { cfgT with cutoffMin := 0x40E00000#64 } = false ∧
    Cfg.valid { cfgT with cutoffMax := 0x41000000#64 } = false ∧ Cfg.valid { cfgT with detuneMax := 0x41880000#64 } = false ∧
    Cfg.valid { cfgT with detuneMax := 0x1_41000000#64 } = false ∧
    Cfg.valid { cfgT with tableLen := 2 ^ 16, numTables := 255, numBanks := 2 } = false := by decide +kernel

/-- R110: the three checks of a well-formed command: a data word of more than FMT_BITS bits. -/
theorem test_wf_refuses_wide_data :
    (Instr.wport .voice 0#8 0x100000000#64).wf .binary32 = false ∧
    (Instr.wparam .env 0#8 0x100000000#64).wf .binary32 = false ∧
    (Instr.twrite 0#24 0x100000000#64).wf .binary32 = false ∧ Cmd.wf .binary32 ⟨0#32, 0x100000000#64⟩ = false ∧
    (Instr.twrite 0#24 0xFFFFFFFF#64).wf .binary32 = true ∧
    (Instr.twrite 0#24 0xFFFFFFFFFFFFFFFF#64).wf .binary64 = true := by decide

/-! ### Decoding: a word of every command, from the formats and §2, §3 of the vectors -/

theorem test_decode_control :
    decodeTableWord 32 0x00000000 = some .nop ∧ decodeTableWord 32 0x01000000 = some .reset ∧
    decodeTableWord 32 0x02000000 = some .tick ∧ decodeTableWord 32 0x03000000 = some .tickb ∧
    decodeTableWord 32 0x04FFFFFF = some (.rdbuf 0xFFFFFF#24) ∧ decodeTableWord 32 0x04000003 = some (.rdbuf 3#24) := by
  decide

theorem test_decode_ports_and_parameters :
    decodeTableWord 64 0x41000000_10000003 = some (.wport .voice 3#8 0x41000000#64) ∧
    decodeTableWord 32 0x11000701 = some (.rport .sys 1#8) ∧
    decodeTableWord 64 0x3E800000_12000300 = some (.wparam .env 0#8 0x3E800000#64) ∧
    decodeTableWord 32 0x1300050D = some (.rparam .filter 0x0D#8) := by decide

theorem test_decode_tables :
    decodeTableWord 64 0xBF800000_20000003 = some (.twrite 3#24 0xBF800000#64) ∧
    decodeTableWord 32 0x21000007 = some (.tread 7#24) ∧ decodeTableWord 32 0x22000000 = some .sealTables := by decide

theorem test_decode_midi :
    decodeTableWord 32 0x30000090 = some (.mpush 0x90#8) ∧ decodeTableWord 32 0x31000000 = some .mpop ∧
    decodeTableWord 32 0x32000000 = some .mreset := by decide

/-- R119 and §2.1. -/
theorem test_decode_refuses :
    decodeTableWord 32 0x00000001 = none ∧ decodeTableWord 32 0x05000000 = none ∧ decodeTableWord 32 0xFF000000 = none ∧
    decodeTableWord 32 0x02000001 = none ∧ decodeTableWord 32 0x32000001 = none ∧ decodeTableWord 32 0x10000800 = none ∧
    decodeTableWord 32 0x10010000 = none ∧ decodeTableWord 32 0x30000190 = none := by decide

/-- R86: the bytes of `wparam env.attack, 0.25`, least significant first, and a stream that ends too early. -/
theorem test_decode_bytes :
    decodeBytes .binary32 [0x00#8, 0x03#8, 0x00#8, 0x12#8, 0x00#8, 0x00#8, 0x80#8, 0x3E#8, 0x55#8] =
      .ok (.wparam .env 0#8 0x3E800000#64, [0x55#8]) ∧
    decodeBytes .binary32 [0x00#8, 0x03#8, 0x00#8] = .error .shortStream := by decide

/-! ### FMT arithmetic: values the vectors name -/

/-- RN(0.1), RN(1/3), RN(2/48000), RN(440/275), RN(1/√2), π; the canonical NaN of 0 × ∞ and ∞ − ∞; −0.0 = +0.0. -/
theorem test_arithmetic :
    Fp.ofRat .binary32 1 10 = 0x3DCCCCCD#64 ∧ Fp.div .binary32 0x3F800000#64 0x40400000#64 = 0x3EAAAAAB#64 ∧
    Fp.div .binary32 0x40000000#64 0x473B8000#64 = 0x382EC33E#64 ∧
    Fp.div .binary32 0x43DC0000#64 0x43898000#64 = 0x3FCCCCCD#64 ∧
    Fp.invSqrt2 .binary32 = 0x3F3504F3#64 ∧ Fp.pi .binary32 = 0x40490FDB#64 ∧
    Fp.mul .binary32 0xBF800000#64 0x00000000#64 = 0x80000000#64 ∧
    Fp.mul .binary32 0x00000000#64 0x7F800000#64 = 0x7FC00000#64 ∧
    Fp.sub .binary32 0x7F800000#64 0x7F800000#64 = 0x7FC00000#64 ∧
    Fp.sub .binary32 0x7F7FFFFF#64 0xFF7FFFFF#64 = 0x7F800000#64 ∧
    Fp.eq .binary32 0x80000000#64 0#64 = true ∧ Fp.lt .binary32 0x80000000#64 0#64 = false := by decide +kernel

/-- R14 (a), R15 (a): EXP2 and LOG2 on their exact points. -/
theorem test_exact_points :
    Fp.exp2 .binary32 0x40000000#64 = 0x40800000#64 ∧ Fp.exp2 .binary32 0xC0A00000#64 = 0x3D000000#64 ∧
    Fp.log2 .binary32 0x40800000#64 = 0x40000000#64 ∧ Fp.log2 .binary32 0x3F800000#64 = 0x00000000#64 := by decide +kernel

/-! ### Control commands (§2.1, §2.2, §2.13, P1, P4) -/

theorem test_nop_and_illegal_words :
    ask fromT 0x00000000#32 0xFFFFFFFF#64 = some (0, 0#64) ∧ ask fromT 0x00000001#32 0#64 = some (5, 0#64) ∧
    ask fromT 0x05000000#32 0#64 = some (5, 0#64) ∧ ask fromT 0xFF000000#32 0#64 = some (5, 0#64) ∧
    ask off 0x02000001#32 0#64 = some (5, 0#64) ∧ ask fromT 0x10000805#32 0#64 = some (5, 0#64) ∧
    (sent fromT 0x02000001#32 0#64).sampleCount = 0#32 := by decide +kernel

/-- RESET in RUN keeps LIFECYCLE and the tables, and clears the rest. -/
theorem test_reset :
    let s := { fromT with sampleCount := 1#32, ctrl := ⟨true, true⟩, outbuf := [(0, 0x3F800000#64)] }
    ask s 0x01000000#32 0#64 = some (0, 0#64) ∧ (sent s 0x01000000#32 0#64).lifecycle = .run ∧
      (sent s 0x01000000#32 0#64).sampleCount = 0#32 ∧ (sent s 0x01000000#32 0#64).table = tablesT ∧
      (sent s 0x01000000#32 0#64).ctrl = ⟨false, false⟩ ∧ (sent s 0x01000000#32 0#64).outbuf = [] ∧
      (sent off 0x01000000#32 0#64).lifecycle = .load := by decide +kernel

/-- P1 before its 6th tick: ramp at 4, phase 0.6875, the envelope at the start of its decay. -/
def midP1 : State :=
  { fromT with
    voice := { off.voice with inp := 0x40800000#64, gate := 0x3F800000#64 }
    ramp := ⟨0x40000000#64, 0x40800000#64, 0x40800000#64, 0x3F800000#64, 0x40800000#64, .lin, 0x3E000000#64, 0x40400000#64⟩
    osc := { off.osc with phase := 0x3F300000#64 }
    env := ⟨0x3E800000#64, 0x3E800000#64, 0x3F000000#64, 0x3E800000#64, .decaying, 0#64, 0#64, 0x3F800000#64, 0x3F800000#64⟩ }

/-- P1, tick 6: VOICE.out = −0.625, and TICK in LOAD. -/
theorem test_tick :
    ask midP1 0x02000000#32 0#64 = some (0, 0xBF200000#64) ∧
    (sent midP1 0x02000000#32 0#64).osc.phase = 0x3F700000#64 ∧ (sent midP1 0x02000000#32 0#64).env.pos = 0x3E800000#64 ∧
    (sent midP1 0x02000000#32 0#64).sampleCount = 1#32 ∧ ask off 0x02000000#32 0#64 = some (6, 0#64) := by decide +kernel

/-- §2.13: a NaN sample sets NONFINITE, and the block goes on. -/
theorem test_tick_nonfinite :
    let s := { fromT with
      table := [(0, 0xFF7FFFFF#64), (1, 0x7F7FFFFF#64)] ++ (List.range 6).map (fun a => (a + 2, 0#64))
      osc := { off.osc with phase := 0x3E000000#64 } }
    ask s 0x02000000#32 0#64 = some (0, 0x7FC00000#64) ∧
      ask (sent s 0x02000000#32 0#64) 0x13000701#32 0#64 = some (0, 0xB05#64) ∧
      ask (sent { s with nonfinite := true } 0x12000701#32 4#64) 0x13000701#32 0#64 = some (0, 0xB01#64) := by decide +kernel

/-- A voice at frequency 4 and amplitude 1, for the block of E6. -/
def steady : State :=
  { fromT with
    voice := { off.voice with inp := 0x40800000#64, gate := 0x3F800000#64 }
    ramp := { off.ramp with fromVal := 0x40800000#64, toVal := 0x40800000#64, pos := 0x40800000#64, endPos := 0x40800000#64 }
    env := { off.env with state := .sustaining, sustain := 0x3F800000#64, amp := 0x3F800000#64 } }

/-- E6 as one block: 1, 0.5, −1, −0.5 in OUTBUF. -/
theorem test_tickb :
    ask steady 0x03000000#32 0#64 = some (0, 0xBF000000#64) ∧
    (sent steady 0x03000000#32 0#64).outbuf =
      [(0, 0x3F800000#64), (1, 0x3F000000#64), (2, 0xBF800000#64), (3, 0xBF000000#64)] ∧
    (sent steady 0x03000000#32 0#64).sampleCount = 4#32 ∧ ask off 0x03000000#32 0#64 = some (6, 0#64) := by decide +kernel

theorem test_rdbuf :
    ask off 0x04000000#32 0#64 = some (0, 0#64) ∧ ask fromT 0x04000004#32 0#64 = some (9, 0#64) ∧
    ask fromT 0x04FFFFFF#32 0#64 = some (9, 0#64) ∧
    ask { off with outbuf := [(3, 0x3F800000#64)] } 0x04000003#32 0#64 = some (0, 0x3F800000#64) := by decide +kernel

/-! ### Ports (§2.3, §2.12) -/

theorem test_wport_accepts :
    ask fromT 0x10000000#32 0x41000000#64 = some (0, 0#64) ∧ ask fromT 0x10000000#32 0x80000000#64 = some (0, 0#64) ∧
    ask fromT 0x10000003#32 0x41000000#64 = some (0, 0#64) ∧ ask fromT 0x10000002#32 0xBF800000#64 = some (0, 0#64) ∧
    (sent fromT 0x10000004#32 0x40000000#64).voice.fo = 0x40000000#64 ∧
    (sent fromT 0x10000004#32 0x40000000#64).filter.dirty = true ∧
    (sent { fromT with ramp := { off.ramp with duration := 0x3E000000#64 } } 0x10000000#32 0x40000000#64).ramp.speed =
      0x3F800000#64 := by decide +kernel

theorem test_wport_rejects :
    ask fromT 0x10000200#32 0x3F800000#64 = some (1, 0#64) ∧ ask fromT 0x10000001#32 0x3F800000#64 = some (1, 0#64) ∧
    ask fromT 0x10000005#32 0x3F800000#64 = some (1, 0#64) ∧ ask fromT 0x10000800#32 0x3F800000#64 = some (5, 0#64) ∧
    ask fromT 0x10010000#32 0x3F800000#64 = some (5, 0#64) ∧ ask fromT 0x10000000#32 0x7FC00000#64 = some (2, 0#64) ∧
    ask fromT 0x10000200#32 0x7FC00000#64 = some (1, 0#64) ∧ ask fromT 0x10000000#32 0x41080000#64 = some (2, 0#64) ∧
    ask fromT 0x10000000#32 0xBF800000#64 = some (2, 0#64) ∧ ask fromT 0x10000003#32 0xC1080000#64 = some (2, 0#64) ∧
    ask fromT 0x10000002#32 0x7F800000#64 = some (2, 0#64) := by decide +kernel

theorem test_rport :
    ask fromT 0x11000600#32 0#64 = some (1, 0#64) ∧ ask fromT 0x11000701#32 0#64 = some (1, 0#64) ∧
    ask (sent fromT 0x10000000#32 0x41000000#64) 0x11000000#32 0#64 = some (0, 0x41000000#64) ∧
    ask (sent fromT 0x10000000#32 0x41000000#64) 0x11000100#32 0#64 = some (0, 0x41000000#64) ∧
    ask fromT 0x11000301#32 0#64 = some (0, 0#64) := by decide +kernel

/-! ### Parameters (§2.4, §2.9) -/

theorem test_rparam :
    ask fromT 0x13000704#32 0#64 = some (0, 0x53563100#64) ∧ ask fromT 0x13000710#32 0#64 = some (0, 0x41800000#64) ∧
    ask fromT 0x13000717#32 0#64 = some (0, 0#64) ∧ ask fromT 0x13000718#32 0#64 = some (0, 0x3DCCCCCD#64) ∧
    ask fromT 0x13000701#32 0#64 = some (0, 0xB01#64) ∧ ask off 0x13000703#32 0#64 = some (0, 0#64) ∧
    ask fromT 0x1300071C#32 0#64 = some (5, 0#64) ∧ ask fromT 0x13000400#32 0#64 = some (0, 0#64) := by decide +kernel

theorem test_wparam_refuses_read_only :
    ask fromT 0x12000704#32 0#64 = some (5, 0#64) ∧ ask fromT 0x1200070F#32 0#64 = some (5, 0#64) ∧
    ask fromT 0x12000001#32 0#64 = some (5, 0#64) ∧ ask fromT 0x12000202#32 0x3F800000#64 = some (5, 0#64) ∧
    ask fromT 0x12000400#32 0x3F800000#64 = some (5, 0#64) ∧ ask fromT 0x12000103#32 0x3F800000#64 = some (5, 0#64) ∧
    ask fromT 0x12000704#32 0x7FC00000#64 = some (5, 0#64) := by decide +kernel

theorem test_wparam_system_and_oscillator :
    ask fromT 0x12000700#32 4#64 = some (2, 0#64) ∧ ask fromT 0x12000700#32 0xFFFFFFFF#64 = some (2, 0#64) ∧
    ask (sent fromT 0x12000700#32 3#64) 0x13000700#32 0#64 = some (0, 3#64) ∧
    ask fromT 0x12000701#32 0xFFFFFFFF#64 = some (0, 0#64) ∧ ask fromT 0x12000200#32 1#64 = some (2, 0#64) ∧
    ask fromT 0x12000200#32 0#64 = some (0, 0#64) ∧ ask fromT 0x12000201#32 0x3F800000#64 = some (2, 0#64) ∧
    ask fromT 0x12000201#32 0x3F7FBE77#64 = some (0, 0#64) := by decide +kernel

theorem test_wparam_envelope_and_filter :
    ask fromT 0x12000300#32 0#64 = some (2, 0#64) ∧ ask fromT 0x12000300#32 0x80000000#64 = some (2, 0#64) ∧
    ask fromT 0x12000300#32 1#64 = some (0, 0#64) ∧ ask fromT 0x12000302#32 0x80000000#64 = some (0, 0#64) ∧
    ask fromT 0x12000302#32 0x3FC00000#64 = some (2, 0#64) ∧ ask fromT 0x12000502#32 0x3DCCCCCD#64 = some (0, 0#64) ∧
    ask fromT 0x12000502#32 0x3DCCCCCC#64 = some (2, 0#64) ∧ ask fromT 0x12000502#32 0#64 = some (2, 0#64) ∧
    ask fromT 0x12000500#32 0xC0A00000#64 = some (0, 0#64) ∧ ask fromT 0x12000500#32 0x7F800000#64 = some (2, 0#64) := by
  decide +kernel

theorem test_wparam_ramp :
    ask fromT 0x12000102#32 1#64 = some (2, 0#64) ∧ ask fromT 0x12000102#32 0#64 = some (0, 0#64) ∧
    ask fromT 0x12000102#32 2#64 = some (2, 0#64) ∧ ask fromT 0x12000101#32 0#64 = some (2, 0#64) ∧
    ask fromT 0x12000101#32 0xBF800000#64 = some (2, 0#64) ∧ ask fromT 0x12000101#32 0x7F800000#64 = some (2, 0#64) ∧
    (sent fromT 0x12000100#32 0x40000000#64).ramp.pos = 0x40000000#64 ∧
    (sent fromT 0x12000100#32 0x40000000#64).voice.inp = 0x40000000#64 ∧
    ask (sent fromT 0x12000100#32 0x40000000#64) 0x12000102#32 1#64 = some (0, 0#64) := by decide +kernel

/-! ### Tables (§2.5, §2.12) -/

theorem test_twrite :
    ask off 0x20000008#32 0x3F800000#64 = some (9, 0#64) ∧ ask off 0x20000007#32 0x7FC00000#64 = some (2, 0#64) ∧
    ask off 0x20000008#32 0x7FC00000#64 = some (9, 0#64) ∧ ask fromT 0x20000000#32 0x3F800000#64 = some (6, 0#64) ∧
    ask fromT 0x20000008#32 0x7FC00000#64 = some (6, 0#64) ∧
    (sent off 0x20000007#32 0xBF000000#64).table = [(7, 0xBF000000#64)] := by decide +kernel

theorem test_tread :
    ask fromT 0x21000007#32 0#64 = some (0, 0xBF000000#64) ∧ ask fromT 0x21000008#32 0#64 = some (9, 0#64) ∧
    ask { off with table := [(0, 0x3F800000#64)] } 0x21000001#32 0#64 = none := by decide +kernel

theorem test_seal :
    ask fromT 0x22000000#32 0#64 = some (6, 0#64) ∧ ask off 0x22000000#32 0#64 = some (0, 0#64) ∧
    (sent off 0x22000000#32 0#64).lifecycle = .run ∧
    ask (sent off 0x22000000#32 0#64) 0x02000000#32 0#64 = none := by decide +kernel

/-! ### MIDI (E7, E8, §2.11, P2) -/

theorem test_mpush_starts :
    ask off 0x30000090#32 0#64 = some (0, 0#64) ∧ (sent off 0x30000090#32 0#64).midi.need = 3#2 ∧
    (sent off 0x300000C5#32 0#64).midi.need = 2#2 ∧ (sent off 0x300000F0#32 0#64).midi.pstate = .sysex ∧
    ask off 0x300000F4#32 0#64 = some (3, 0#64) ∧ ask off 0x300000F7#32 0#64 = some (3, 0#64) ∧
    ask off 0x30000041#32 0#64 = some (3, 0#64) ∧ (sent off 0x30000041#32 0#64).midi.pstate = .error ∧
    queued off 0xF6#8 = [0x90F60000#32] ∧ queued off 0xFF#8 = [0xA0FF0000#32] := by decide +kernel

theorem test_mpush_completes :
    queued (parser .msg 0x90#8 0x40#8 2#2 3#2 0#16 []) 0x7F#8 = [0x2090407F#32] ∧
    queued (parser .msg 0xF2#8 0x05#8 2#2 3#2 0#16 []) 0x06#8 = [0x90F20506#32] ∧
    queued (parser .msg 0xF1#8 0#8 1#2 2#2 0#16 []) 0x7F#8 = [0x90F17F00#32] ∧
    queued (parser .msg 0xE3#8 0x00#8 2#2 3#2 0#16 []) 0x40#8 = [0x73E30040#32] ∧
    queued (parser .msg 0xD2#8 0#8 1#2 2#2 0#16 []) 0x33#8 = [0x62D23300#32] ∧
    queued (parser .msg 0xB1#8 0x07#8 2#2 3#2 0#16 []) 0x64#8 = [0x41B10764#32] ∧
    queued (parser .msg 0xA0#8 0x40#8 2#2 3#2 0#16 []) 0x10#8 = [0x30A04010#32] ∧
    queued (parser .msg 0xC5#8 0#8 1#2 2#2 0#16 []) 0x07#8 = [0x55C50700#32] ∧
    queued (parser .sysex 0#8 0#8 0#2 0#2 0#16 []) 0xF7#8 = [0x80F00000#32] ∧
    queued (parser .sysex 0#8 0#8 0#2 0#2 2#16 []) 0xF7#8 = [0x80F00002#32] ∧
    (after (.mpush 0x11#8) (parser .sysex 0#8 0#8 0#2 0#2 0xFFFF#16 [])).midi.sxlen = 0xFFFF#16 := by decide +kernel

/-- A full queue: the byte is not consumed; a realtime byte inside a message; any byte in ERROR. -/
theorem test_mpush_rejects :
    ask (parser .msg 0x90#8 0x40#8 2#2 3#2 0#16 fullQ) 0x3000007F#32 0#64 = some (8, 0#64) ∧
    (sent (parser .msg 0x90#8 0x40#8 2#2 3#2 0#16 fullQ) 0x3000007F#32 0#64).midi.blen = 2#2 ∧
    ask (parser .msg 0x90#8 0x40#8 2#2 3#2 0#16 fullQ) 0x300000F8#32 0#64 = some (3, 0#64) ∧
    ask (parser .error 0#8 0#8 0#2 0#2 0#16 fullQ) 0x30000041#32 0#64 = some (3, 0#64) ∧
    ask (parser .idle 0#8 0#8 0#2 0#2 0#16 fullQ) 0x300000FE#32 0#64 = some (8, 0#64) := by decide +kernel

theorem test_mpop_and_mreset :
    ask (parser .idle 0#8 0#8 0#2 0#2 0#16 [0x2090407F#32, 0x55C50700#32]) 0x31000000#32 0#64 = some (0, 0x2090407F#64) ∧
    (sent (parser .idle 0#8 0#8 0#2 0#2 0#16 [0x2090407F#32, 0x55C50700#32]) 0x31000000#32 0#64).midi.q = [0x55C50700#32] ∧
    ask off 0x31000000#32 0#64 = some (7, 0#64) ∧
    ask (parser .error 0#8 0#8 0#2 0#2 0#16 fullQ) 0x32000000#32 0#64 = some (0, 0#64) ∧
    (sent (parser .error 0#8 0#8 0#2 0#2 0#16 fullQ) 0x32000000#32 0#64).midi = ⟨.idle, 0#8, 0#8, 0#8, 0#2, 0#2, 0#16, fullQ⟩ := by
  decide +kernel

/-- P2, steps 14 and 17: STATUS with a full queue, and with the parser in ERROR. -/
theorem test_status :
    ask (parser .idle 0#8 0#8 0#2 0#2 0#16 fullQ) 0x13000701#32 0#64 = some (0, 0xB18#64) ∧
    ask (parser .error 0#8 0#8 0#2 0#2 0#16 fullQ) 0x13000701#32 0#64 = some (0, 0xB1A#64) := by decide +kernel

/-! ### The voice (§2.10) -/

/-- The note frequencies that are exact. -/
theorem test_note_frequencies :
    noteFreq .binary32 9#8 = 0x415C0000#64 ∧ noteFreq .binary32 57#8 = 0x435C0000#64 ∧
    noteFreq .binary32 69#8 = 0x43DC0000#64 ∧ noteFreq .binary32 81#8 = 0x445C0000#64 ∧
    noteFreq .binary32 117#8 = 0x45DC0000#64 := by decide +kernel

/-- Legato: 90 45 64 90 51 64 80 45 00; a NoteOn of velocity 0. -/
theorem test_voice_drain :
    (voiceDrain (parser .idle 0#8 0#8 0#2 0#2 0#16 [0x20904564#32, 0x20905164#32, 0x10804500#32])).voice.note = 81#8 ∧
    (voiceDrain (parser .idle 0#8 0#8 0#2 0#2 0#16 [0x20904564#32, 0x20905164#32, 0x10804500#32])).ramp.toVal =
      0x445C0000#64 ∧
    (voiceDrain (parser .idle 0#8 0#8 0#2 0#2 0#16 [0x20904564#32, 0x20904500#32])).voice =
      ⟨0x43DC0000#64, 0#64, 0#64, 0#64, 0#64, 255#8⟩ := by decide +kernel

/-! ### The units, one tick at a time (E1 to E4, §2.6 to §2.9) -/

/-- E3: from 0 to 2 at speed 1, the second and the last tick. -/
theorem test_ramp_linear :
    let r : Ramp := ⟨0#64, 0x40000000#64, 0x3F800000#64, 0x3F800000#64, 0x40000000#64, .lin, 0x3E000000#64, 0#64⟩
    (r.tick .binary32).out = 0x3F800000#64 ∧ (r.tick .binary32).pos = 0x40000000#64 ∧
      (((r.tick .binary32).tick .binary32).tick .binary32).out = 0x40000000#64 := by decide +kernel

/-- E4 in CFG-T: the plan from 2 to 8, and the tick at position 1. -/
theorem test_ramp_exponential :
    let r := Ramp.plan cfgT 0x40000000#64 0x41000000#64 { off.ramp with curve := .exp, duration := 0x3E000000#64 }
    r.speed = 0x3F800000#64 ∧ r.endPos = 0x40000000#64 ∧ r.pos = 0#64 ∧
      (Ramp.tick .binary32 { r with pos := 0x3F800000#64 }).out = 0x40800000#64 := by decide +kernel

/-- §2.9: a subnormal duration gives speed +∞, and the first tick ends at the target. -/
theorem test_ramp_subnormal_duration :
    let r := Ramp.plan cfgT 0#64 0x41000000#64 { off.ramp with duration := 1#64 }
    r.speed = 0x7F800000#64 ∧ (r.tick .binary32).out = 0#64 ∧ (r.tick .binary32).pos = 0x41000000#64 := by decide +kernel

/-- E2, ticks 4, 6 and 7: the gate released at 0.5; engaged again at 0.375. -/
theorem test_envelope_gate_changes :
    let a : Env := ⟨0x3E800000#64, 0x3E000000#64, 0x3F000000#64, 0x3E800000#64, .attacking, 0x3F400000#64, 0#64, 0x3F000000#64, 0#64⟩
    let r : Env := { a with state := .releasing, anchor := 0x3F000000#64, amp := 0x3EC00000#64, gate := 0x3F800000#64 }
    (a.tick cfgT).amp = 0x3F000000#64 ∧ (a.tick cfgT).state = .releasing ∧ (a.tick cfgT).anchor = 0x3F000000#64 ∧
      (r.tick cfgT).amp = 0x3EC00000#64 ∧ (r.tick cfgT).state = .attacking ∧
      ((r.tick cfgT).tick cfgT).amp = 0x3F080000#64 := by decide +kernel

/-- E1: the tick at position 1 of the attack enters Decaying at 1.0, the one at position 1 of the decay enters Sustaining. -/
theorem test_envelope_segments :
    let a : Env := ⟨0x3E800000#64, 0x3E800000#64, 0x3F000000#64, 0x3E800000#64, .attacking, 0x3F800000#64, 0#64, 0x3F400000#64,
      0x3F800000#64⟩
    (a.tick cfgT).amp = 0x3F800000#64 ∧ (a.tick cfgT).pos = 0#64 ∧ (a.tick cfgT).state = .decaying ∧
      (Env.tick cfgT { a with state := .decaying, pos := 0x3E800000#64 }).amp = 0x3F600000#64 ∧
      (Env.tick cfgT { a with state := .decaying }).state = .sustaining ∧
      (Env.tick cfgT { a with state := .decaying }).amp = 0x3F000000#64 := by decide +kernel

/-- R201, R209: a decay of 2^-149 leaves position +∞, and with sustain 1.0 written then the segment ends at the next tick, at
the sustain. -/
theorem test_r209_corner :
    let e : Env := ⟨0x3E800000#64, 1#64, 0x3F000000#64, 0x3E800000#64, .decaying, 0#64, 0#64, 0x3F800000#64, 0x3F800000#64⟩
    (e.tick cfgT).amp = 0x3F800000#64 ∧ (e.tick cfgT).pos = 0x7F800000#64 ∧ (e.tick cfgT).state = .decaying ∧
      (Env.tick cfgT { e.tick cfgT with sustain := 0x3F800000#64 }).amp = 0x3F800000#64 ∧
      (Env.tick cfgT { e.tick cfgT with sustain := 0x3F800000#64 }).state = .sustaining := by decide +kernel

/-- §2.7: the coefficients of K = 1 at q = 1, at the default q and at Q_MIN. -/
theorem test_filter_coefficients :
    let k (q : Word) := Filter.setCoefficients .binary32 (Fp.div .binary32 0x3F800000#64 q) 0x3F800000#64 off.filter
    (k 0x3F800000#64).b0 = 0x3EAAAAAB#64 ∧ (k 0x3F800000#64).b1 = 0x3F2AAAAB#64 ∧ (k 0x3F800000#64).a2 = 0x3EAAAAAB#64 ∧
      (k 0x3F800000#64).a1 = 0#64 ∧ (k 0x3F3504F3#64).b0 = 0x3E95F619#64 ∧ (k 0x3F3504F3#64).a2 = 0x3E2FB0CD#64 ∧
      (k 0x3DCCCCCD#64).b0 = 0x3DAAAAAB#64 ∧ (k 0x3DCCCCCD#64).a2 = 0xBF2AAAAB#64 := by decide +kernel

/-- §2.7: the third and the fifth sample of the impulse response. -/
theorem test_filter_impulse :
    let x : Filter := { off.filter with
      b0 := 0x3EAAAAAB#64, b1 := 0x3F2AAAAB#64, b2 := 0x3EAAAAAB#64, a2 := 0x3EAAAAAB#64, dirty := false
      x2 := 0x3F800000#64, y1 := 0x3F2AAAAB#64, y2 := 0x3EAAAAAB#64 }
    (x.tick cfgT).out = 0x3E638E39#64 ∧
      (Filter.tick cfgT { x with x2 := 0#64, y1 := 0xBE638E3A#64, y2 := 0x3E638E39#64 }).out = 0xBD97B426#64 := by
  decide +kernel

/-- §2.8: the intra-table row and the detune row. -/
theorem test_oscillator :
    (match Osc.tick cfgT tablesT { off.osc with phase := 0x3F600000#64, inp := 0x3F000000#64 } with
      | .ok o => (o.out, o.k, o.frac)
      | .error _ => (0#64, 9#8, 0#64)) = (0xBF000000#64, 0#8, 0#64) ∧
    (match Osc.tick cfgT tablesT { off.osc with phase := 0x3E800000#64, inp := 0x40000000#64, detune := 0x3F800000#64 } with
      | .ok o => (o.out, o.feff, o.phase)
      | .error _ => (0#64, 0#64, 0#64)) = (0x3F000000#64, 0x40800000#64, 0x3F000000#64) := by decide +kernel

/-! ### The textual form (R128, R129) -/

theorem test_assembler :
    (assembleLine cfgT "wparam env.attack, 0.25".toList).map (List.map encode) = some [⟨0x12000300#32, 0x3E800000#64⟩] ∧
    (assembleLine cfgT "note_on 0, 0x45, 0x64".toList).map (List.map encode) =
      some [⟨0x30000090#32, 0#64⟩, ⟨0x30000045#32, 0#64⟩, ⟨0x30000064#32, 0#64⟩] ∧
    (assembleLine cfgT "jump 440.0 ; a comment".toList).map (List.map encode) = some [⟨0x12000100#32, 0x43DC0000#64⟩] ∧
    (assembleLine cfgT "ctrl 2".toList).map (List.map encode) = some [⟨0x12000700#32, 2#64⟩] ∧
    (assembleLine cfgT "twrite 0:1:3, -0.5".toList).map (List.map encode) = some [⟨0x20000007#32, 0xBF000000#64⟩] ∧
    assembleLine cfgT "twrite 1:0:0, 1.0".toList = none ∧ assembleLine cfgT "".toList = some [] ∧
    assembleLine cfgT "fly 1".toList = none := by decide +kernel

/-! ### Every statement with hypotheses has a case that meets them -/

/-- The step answers. -/
def answers (o : Result) : Bool :=
  match o with
  | .next _ => true
  | _ => false

theorem exec_after {i : Instr} {s : State} (h : answers (exec i s) = true) : exec i s = .next (after i s) := by
  unfold after
  cases hx : exec i s <;> simp_all [answers]

theorem step_sent {s : State} {cw : BitVec 32} {dw : Word} (h : answers (step (send s cw dw)) = true) :
    step (send s cw dw) = .next (sent s cw dw) := by
  unfold sent
  cases hx : step (send s cw dw) <;> simp_all [answers]

/-- The state of a sample tick that meets no fault. -/
def ticked (s : State) : State :=
  match sampleTick s with
  | .ok t => t
  | .error _ => s

theorem sampleTick_ticked {s : State} (h : (sampleTick s).toBool = true) : sampleTick s = .ok (ticked s) := by
  unfold ticked
  cases hx : sampleTick s <;> simp_all [Except.toBool]

/-- From T, with the drive on and a NoteOn in the queue. -/
def driven : State := { fromT with ctrl := ⟨false, true⟩, midi := { off.midi with q := [0x20904564#32] } }

/-- From T, with the filter on. -/
def filtered : State := { fromT with ctrl := ⟨true, false⟩ }

/-- StepRunsDecodedCommand: the three clauses. -/
theorem test_witness_step :
    (send fromT 0x02000000#32 0#64).host = [⟨0x02000000#32, 0#64⟩] ∧
    decode (send fromT 0x02000000#32 0#64).cfg.fmt ⟨0x02000000#32, 0#64⟩ = .ok .tick ∧
    decode (send fromT 0x10000800#32 0#64).cfg.fmt ⟨0x10000800#32, 0#64⟩ = .error (.noSuchUnit 8#8) ∧
    fromT.host = [] := by decide +kernel

/-- DecodeOfEncodeIsIdentity, ByteStreamRoundTrip: the widest data word of each format. -/
theorem test_witness_encode :
    (Instr.wport .sys 0xFF#8 0xFFFFFFFF#64).wf .binary32 = true ∧
    (Instr.wparam .voice 0#8 0xFFFFFFFFFFFFFFFF#64).wf .binary64 = true ∧ (Instr.rdbuf 0xFFFFFF#24).wf .binary32 = true := by
  decide

/-- EncodeOfDecodeIsIdentity: a data word wider than FMT. -/
theorem test_witness_decode :
    decode .binary32 ⟨0x20FFFFFF#32, 0x1BF000000#64⟩ = .ok (.twrite 0xFFFFFF#24 0xBF000000#64) ∧
    decode .binary32 ⟨0x32000000#32, 7#64⟩ = .ok .mreset := by decide

/-- IllegalEncodingsAreRefused: a word of each kind of R119, and a legal word at the edge of each. -/
theorem test_witness_illegal :
    illegalWord 0x05000000 = true ∧ illegalWord 0x02000001 = true ∧ illegalWord 0x10010000 = true ∧
    illegalWord 0x13000800 = true ∧ illegalWord 0x30000100 = true ∧ illegalWord 0x1300071C = true ∧
    illegalWord 0x12000704 = true ∧ illegalWord 0x1300071B = false ∧ illegalWord 0x300000FF = false ∧
    illegalWord 0x12000701 = false ∧ illegalWord 0x110007FF = false ∧
    step (send fromT 0x110007FF#32 0#64) = .next (sent fromT 0x110007FF#32 0#64) :=
  ⟨by decide, by decide, by decide, by decide, by decide, by decide, by decide, by decide, by decide, by decide, by decide,
    step_sent (by decide +kernel)⟩

/-- ErrorsArePrecise: an ordinary error, PROTOCOL_DECODE_ERROR in ERROR, and in MSG. -/
theorem test_witness_errors :
    (step (send fromT 0x22000000#32 0#64) = .next (sent fromT 0x22000000#32 0#64) ∧
      statusOf (sent fromT 0x22000000#32 0#64) = some .stateError) ∧
    (step (send (parser .error 0#8 0#8 0#2 0#2 0#16 fullQ) 0x300000F8#32 0#64) =
        .next (sent (parser .error 0#8 0#8 0#2 0#2 0#16 fullQ) 0x300000F8#32 0#64) ∧
      statusOf (sent (parser .error 0#8 0#8 0#2 0#2 0#16 fullQ) 0x300000F8#32 0#64) = some .protocolDecodeError) ∧
    (step (send (parser .msg 0x90#8 0x40#8 2#2 3#2 0#16 fullQ) 0x300000F8#32 0#64) =
        .next (sent (parser .msg 0x90#8 0x40#8 2#2 3#2 0#16 fullQ) 0x300000F8#32 0#64) ∧
      statusOf (sent (parser .msg 0x90#8 0x40#8 2#2 3#2 0#16 fullQ) 0x300000F8#32 0#64) = some .protocolDecodeError) :=
  ⟨⟨step_sent (by decide +kernel), by decide +kernel⟩, ⟨step_sent (by decide +kernel), by decide +kernel⟩,
    ⟨step_sent (by decide +kernel), by decide +kernel⟩⟩

/-- CommandsAnswerTheirStatuses: a command that answers. -/
theorem test_witness_answer : exec .tick fromT = .next (after .tick fromT) := exec_after (by decide +kernel)

/-- FirstErrorIsReported: each clause at the edge of its range. -/
theorem test_witness_first_error :
    fromT.lifecycle = .run ∧ off.lifecycle = .load ∧ off.cfg.tableSize = (8#24).toNat ∧
    (7#24).toNat < off.cfg.tableSize ∧ Fp.finite off.cfg.fmt 0x7F800000#64 = false ∧
    (UnitId.osc, 0#8) ∉ portWrites ∧ (UnitId.voice, 1#8) ∉ portWrites ∧ (UnitId.voice, 4#8) ∈ portWrites ∧
    (UnitId.sys.code.toNat, (4#8).toNat, true) ∉ registerRows := by decide +kernel

/-- FaultsNeedAnUnwrittenEntry: TREAD, TICK and TICKB of a block sealed with no table. -/
theorem test_witness_faults :
    exec (.tread 1#24) off = .fault .unwrittenTableRead ∧
    exec .tick { off with lifecycle := .run } = .fault .unwrittenTableRead ∧
    exec .tickb { off with lifecycle := .run } = .fault .unwrittenTableRead := ⟨rfl, rfl, rfl⟩

/-- LoadedBlockNeverFaults: T, in RUN; and the invariants of the step statements. -/
theorem test_witness_invariants :
    fromT.audioInv = true ∧ fromT.tableFull ∧ fromT.memInv = true ∧ fromT.midiInv = true ∧ fromT.targetInv = true ∧
    fromT.fitsInv = true ∧ fromT.paramInv = true ∧ fromT.cfg.valid = true ∧ fromT.voice.inp = fromT.ramp.toVal ∧
    (parser .msg 0x90#8 0x40#8 2#2 3#2 0#16 fullQ).midiInv = true := by decide +kernel

/-- The step statements, from T: the invariants of the state with a pending TICK or WPORT, and its step. -/
theorem test_witness_next :
    (step (send fromT 0x02000000#32 0#64) = .next (sent fromT 0x02000000#32 0#64) ∧
      (send fromT 0x02000000#32 0#64).memInv = true ∧ (send fromT 0x02000000#32 0#64).midiInv = true ∧
      (send fromT 0x02000000#32 0#64).fitsInv = true ∧ (send fromT 0x02000000#32 0#64).paramInv = true ∧
      (send fromT 0x02000000#32 0#64).cfg.valid = true ∧ (send fromT 0x02000000#32 0#64).lifecycle = .run ∧
      (send fromT 0x02000000#32 0#64).audioInv = true ∧ (send fromT 0x02000000#32 0#64).tableFull) ∧
    (step (send fromT 0x10000000#32 0x41000000#64) = .next (sent fromT 0x10000000#32 0x41000000#64) ∧
      (send fromT 0x10000000#32 0x41000000#64).voice.inp = (send fromT 0x10000000#32 0x41000000#64).ramp.toVal) :=
  ⟨⟨step_sent (by decide +kernel), by decide +kernel⟩, ⟨step_sent (by decide +kernel), by decide +kernel⟩⟩

/-- PowerOnState: a legal configuration of each format (FS = 16, TABLE_LEN = 2^2), and an illegal one. -/
theorem test_witness_power_on : LegalConfig cfgT ∧ LegalConfig cfgD ∧ ¬ LegalConfig { cfgT with blockSize := 0 } := by
  refine ⟨⟨?_, ⟨16, by decide +kernel⟩, by decide +kernel, ⟨2, by decide +kernel⟩, by decide +kernel⟩,
    ⟨?_, ⟨16, by decide +kernel⟩, by decide +kernel, ⟨2, by decide +kernel⟩, by decide +kernel⟩,
    fun h => absurd h.2.2.1.1 (by decide)⟩ <;>
  · simp only [List.forall_mem_cons, List.not_mem_nil, false_imp_iff, implies_true, and_true]; decide +kernel

/-- VoiceInEqualsRampTo, ParserStateIsBounded: a constructed block, and one that has answered a command. -/
theorem test_witness_reachable : Reachable off ∧ Reachable (sent off 0x30000090#32 0#64) :=
  have h : Reachable off := .construct cfgT off (by decide +kernel)
  ⟨h, .step _ _ (.issue off [⟨0x30000090#32, 0#64⟩] h) (step_sent (by decide +kernel))⟩

/-- LifecycleGovernsTables: a step in RUN; SEAL, from LOAD to RUN; a written entry. -/
theorem test_witness_lifecycle :
    step (send off 0x22000000#32 0#64) = .next (sent off 0x22000000#32 0#64) ∧ (send off 0x22000000#32 0#64).lifecycle = .load ∧
    (sent off 0x22000000#32 0#64).lifecycle = .run ∧ fromT.written 7 = true ∧ (send fromT 0#32 0#64).lifecycle = .run :=
  ⟨step_sent (by decide +kernel), by decide +kernel, by decide +kernel, by decide +kernel, by decide +kernel⟩

/-- TickReturnsItsSample: the three clauses. -/
theorem test_witness_tick :
    off.lifecycle = .load ∧ (fromT.lifecycle = .run ∧ oscEntriesWritten fromT = true) ∧
    oscEntriesWritten { off with lifecycle := .run } = false := by decide +kernel

/-- A block of one sample, with a word in OUTBUF. -/
def oneSample : State := { fromT with cfg := { cfgT with blockSize := 1 }, outbuf := [(0, 0x3F800000#64)] }

/-- TickbStoresEverySample: LOAD; both grounds of the second clause (`oneSample` by its samples, `steady` by audioInv and its
tables); RUN with an unwritten entry. -/
theorem test_witness_tickb :
    off.lifecycle = .load ∧
    (oneSample.lifecycle = .run ∧ Memory.wf outbufDefault oneSample.outbuf = true ∧
      samplesWritten oneSample.cfg.blockSize oneSample = true) ∧
    (steady.lifecycle = .run ∧ Memory.wf outbufDefault steady.outbuf = true ∧ steady.audioInv = true ∧ steady.tableFull) ∧
    samplesWritten off.cfg.blockSize { off with lifecycle := .run } = false := by decide +kernel

/-- SampleTickStages, WiringFidelity, SampleTickFrame, OscillatorSample, FilterInTheTick: a sample tick with the filter off, with
it on, and with a pending event. -/
theorem test_witness_sample_tick :
    (sampleTick fromT = .ok (ticked fromT) ∧ fromT.ctrl.filterEn = false ∧ fromT.ctrl.midiDrive = false) ∧
    (sampleTick filtered = .ok (ticked filtered) ∧ filtered.ctrl.filterEn = true ∧ filtered.filter.dirty = true) ∧
    (sampleTick driven = .ok (ticked driven) ∧ driven.ctrl.midiDrive = true) ∧ fromT.midi.q = [] ∧
    driven.midi.q = 0x20904564#32 :: [] :=
  ⟨⟨sampleTick_ticked (by decide +kernel), rfl, rfl⟩, ⟨sampleTick_ticked (by decide +kernel), rfl, rfl⟩,
    ⟨sampleTick_ticked (by decide +kernel), rfl⟩, rfl, rfl⟩

/-- FilterInTheTick: the filter on and not dirty. -/
theorem test_witness_clean_filter :
    sampleTick { filtered with filter := { off.filter with dirty := false } } =
      .ok (ticked { filtered with filter := { off.filter with dirty := false } }) := sampleTick_ticked (by decide +kernel)

/-- RdbufReadsOneWord: the last address inside and the first outside. -/
theorem test_witness_rdbuf : (3#24).toNat < fromT.cfg.blockSize ∧ fromT.cfg.blockSize ≤ (4#24).toNat := by decide

/-- An exponential ramp at 2. -/
def expRamp : State :=
  { fromT with
    ramp := { off.ramp with curve := .exp, fromVal := 0x40000000#64, toVal := 0x40000000#64 }
    voice := { off.voice with inp := 0x40000000#64 } }

/-- WportVoiceInPlansAGlide, WparamRampValueAndDuration: FS/2 and −0.0 in LIN, FS/2 in EXP; each ground of refusal. -/
theorem test_witness_targets :
    (Fp.finite .binary32 0x41000000#64 = true ∧ Fp.lt .binary32 0x41000000#64 Fp.zero = false ∧
      Fp.lt .binary32 fromT.cfg.halfFs 0x41000000#64 = false ∧ fromT.ramp.curve = .lin) ∧
    (Fp.finite .binary32 0x80000000#64 = true ∧ Fp.lt .binary32 0x80000000#64 Fp.zero = false ∧
      Fp.lt .binary32 fromT.cfg.halfFs 0x80000000#64 = false) ∧
    (expRamp.ramp.curve = .exp ∧ planOk .binary32 (rampNow .binary32 expRamp.ramp) 0x41000000#64 = true ∧
      Fp.lt .binary32 Fp.zero 0x41000000#64 = true) ∧
    Fp.lt .binary32 0x80000001#64 Fp.zero = true ∧ Fp.lt .binary32 fromT.cfg.halfFs 0x41000001#64 = true ∧
    Fp.finite .binary32 0x7F800000#64 = false ∧
    (planOk .binary32 (rampNow .binary32 expRamp.ramp) 0#64 = false ∧ Fp.lt .binary32 Fp.zero 0#64 = false) ∧
    (Fp.finite .binary32 1#64 = true ∧ Fp.le .binary32 1#64 Fp.zero = false) ∧ Fp.le .binary32 0x80000000#64 Fp.zero = true := by
  decide +kernel

/-- WportWritesItsLatch: the largest finite gate, the largest detune, and the first one refused. -/
theorem test_witness_latches :
    Fp.finite .binary32 0x7F7FFFFF#64 = true ∧ Fp.finite .binary32 0x7F800000#64 = false ∧
    (Fp.finite .binary32 0xC1000000#64 = true ∧
      Fp.lt .binary32 fromT.cfg.detuneMax (Fp.abs .binary32 0xC1000000#64) = false) ∧
    Fp.lt .binary32 fromT.cfg.detuneMax (Fp.abs .binary32 0xC1000001#64) = true := by decide +kernel

/-- PortMismatchExactly: pairs in and out of the tables, and a WPORT and an RPORT that answer. -/
theorem test_witness_ports :
    (UnitId.voice, 5#8) ∉ portWrites ∧ (UnitId.voice, 0#8) ∈ portWrites ∧
    (UnitId.ramp, 2#8) ∉ portReads.map (fun r => (r.1, r.2.1)) ∧ (UnitId.ramp, 1#8) ∈ portReads.map (fun r => (r.1, r.2.1)) ∧
    exec (.wport .voice 0#8 0#64) fromT = .next (after (.wport .voice 0#8 0#64) fromT) ∧
    exec (.rport .ramp 1#8) fromT = .next (after (.rport .ramp 1#8) fromT) :=
  ⟨by decide, by decide, by decide, by decide, exec_after (by decide +kernel), exec_after (by decide +kernel)⟩

/-- RportReturnsItsLatch, RparamReturnsItsRegister: their tables are not empty, and a register outside. -/
theorem test_witness_read_tables :
    portReads.length = 17 ∧ registerReads.length = 58 ∧
    (registerRows.all fun r => !(r.1 == UnitId.sys.code.toNat && r.2.1 == (0x1C#8).toNat)) = true := by decide

/-- WparamEnvelopeParameters: the least duration taken, 0 refused, sustain 0 and 1 taken, what lies outside refused. -/
theorem test_witness_envelope_parameters :
    (Fp.finite .binary32 1#64 = true ∧ Fp.le .binary32 1#64 Fp.zero = false) ∧ Fp.le .binary32 0#64 Fp.zero = true ∧
    (Fp.finite .binary32 0x3F800000#64 = true ∧ Fp.lt .binary32 0x3F800000#64 Fp.zero = false ∧
      Fp.lt .binary32 (Fp.one .binary32) 0x3F800000#64 = false) ∧
    Fp.lt .binary32 (Fp.one .binary32) 0x3F800001#64 = true ∧ Fp.lt .binary32 0x80000001#64 Fp.zero = true := by decide +kernel

/-- WparamRampCurveSwitches: the same kind; LIN to EXP from a positive ramp and back; EXP refused at reset; kind 2. -/
theorem test_witness_curves :
    (0#64 = (if Curve.lin = .lin then 0#64 else 1#64) ∧ Curve.lin = fromT.ramp.curve) ∧
    (1#64 = (if Curve.exp = .lin then 0#64 else 1#64) ∧ Curve.exp ≠ steady.ramp.curve ∧
      planOk .binary32 (rampNow .binary32 steady.ramp) steady.ramp.toVal = true) ∧ Curve.lin ≠ expRamp.ramp.curve ∧
    (fromT.ramp.curve = .lin ∧ planOk .binary32 (rampNow .binary32 fromT.ramp) fromT.ramp.toVal = false) ∧ 1 < (2#64).toNat := by
  decide +kernel

/-- WparamOscillator: the last bank and the first beyond; the greatest phase below 1, and 1. -/
theorem test_witness_oscillator_parameters :
    fromT.cfg.numBanks ≤ 255 ∧ (0#64).toNat < fromT.cfg.numBanks ∧ fromT.cfg.numBanks ≤ (1#64).toNat ∧
    (Fp.finite .binary32 0x3F7FFFFF#64 = true ∧ Fp.lt .binary32 0x3F7FFFFF#64 Fp.zero = false ∧
      Fp.le .binary32 (Fp.one .binary32) 0x3F7FFFFF#64 = false) ∧
    Fp.le .binary32 (Fp.one .binary32) 0x3F800000#64 = true := by decide +kernel

/-- WparamFilter: Q_MIN and one unit below. -/
theorem test_witness_filter_parameters :
    (Fp.finite .binary32 0x3DCCCCCD#64 = true ∧ Fp.lt .binary32 0x3DCCCCCD#64 fromT.cfg.qMin = false) ∧
    Fp.lt .binary32 0x3DCCCCCC#64 fromT.cfg.qMin = true ∧ Fp.finite .binary32 0x7F800000#64 = false := by decide +kernel

/-- WparamSys: 3 and 4 for CTRL; STATUS with bit 2 and without. -/
theorem test_witness_sys :
    (3#64).toNat < 4 ∧ 4 ≤ (4#64).toNat ∧ (4#64).getLsbD 2 = true ∧ (0xFFFFFFFB#64).getLsbD 2 = false := by decide

/-- TablesHoldWhatIsWritten: the last address in LOAD; a written and an unwritten entry; the first address outside. -/
theorem test_witness_tables :
    (off.lifecycle = .load ∧ (7#24).toNat < off.cfg.tableSize ∧ Fp.finite .binary32 0x7F7FFFFF#64 = true) ∧
    fromT.written (7#24).toNat = true ∧ off.written (7#24).toNat = false ∧ off.cfg.tableSize ≤ (8#24).toNat := by
  decide +kernel

/-- NopAndSeal, MpopAndMreset: both lifecycles; a queue with an event and one without. -/
theorem test_witness_seal_and_queue :
    off.lifecycle = .load ∧ fromT.lifecycle = .run ∧ driven.midi.q = 0x20904564#32 :: [] ∧ off.midi.q = [] :=
  ⟨rfl, rfl, rfl, rfl⟩

/-- IdleByteRule, RejectedBytesAreNotConsumed: bytes at the edges of each clause, with room and without. -/
theorem test_witness_idle :
    off.midi.pstate = .idle ∧ (0x80 ≤ (0x80#8).toNat ∧ (0x80#8).toNat < 0xF0) ∧ (0xEF#8).toNat < 0xF0 ∧
    0xF8 ≤ (0xF8#8).toNat ∧ off.midi.q.length ≠ off.cfg.evqDepth ∧ (0x7F#8).toNat < 0x80 ∧
    ((parser .idle 0#8 0#8 0#2 0#2 0#16 fullQ).midi.pstate = .idle ∧
      (parser .idle 0#8 0#8 0#2 0#2 0#16 fullQ).midi.q.length = off.cfg.evqDepth) := by decide

/-- MessageByteRule, RejectedBytesAreNotConsumed: the clauses by `blen` and `need`. -/
theorem test_witness_message :
    ((parser .msg 0x90#8 0#8 1#2 3#2 0#16 []).midi.pstate = .msg ∧ (parser .msg 0x90#8 0#8 1#2 3#2 0#16 []).midi.blen = 1#2 ∧
      (parser .msg 0x90#8 0#8 1#2 3#2 0#16 []).midi.need = 3#2) ∧
    ((parser .msg 0xC0#8 0#8 1#2 2#2 0#16 []).midi.need = 2#2 ∧
      (parser .msg 0xC0#8 0#8 1#2 2#2 0#16 []).midi.q.length ≠ off.cfg.evqDepth) ∧
    ((parser .msg 0x90#8 0x40#8 2#2 3#2 0#16 []).midi.pstate = .msg ∧ (parser .msg 0x90#8 0x40#8 2#2 3#2 0#16 []).midi.blen = 2#2 ∧
      (parser .msg 0x90#8 0x40#8 2#2 3#2 0#16 []).midi.need = 3#2 ∧
      (parser .msg 0x90#8 0x40#8 2#2 3#2 0#16 []).midi.q.length ≠ off.cfg.evqDepth) ∧
    ((parser .msg 0x90#8 0x40#8 2#2 3#2 0#16 fullQ).midi.blen.toNat + 1 =
        (parser .msg 0x90#8 0x40#8 2#2 3#2 0#16 fullQ).midi.need.toNat ∧
      (parser .msg 0x90#8 0x40#8 2#2 3#2 0#16 fullQ).midi.q.length = off.cfg.evqDepth) ∧
    0x80 ≤ (0x80#8).toNat ∧ (0x7F#8).toNat < 0x80 := by decide

/-- SysexByteRule, RejectedBytesAreNotConsumed: a counter at its limit, with room; a full queue; ERROR. -/
theorem test_witness_sysex :
    ((parser .sysex 0#8 0#8 0#2 0#2 0xFFFF#16 []).midi.pstate = .sysex ∧
      (parser .sysex 0#8 0#8 0#2 0#2 0xFFFF#16 []).midi.q.length ≠ off.cfg.evqDepth) ∧
    ((parser .sysex 0#8 0#8 0#2 0#2 0#16 fullQ).midi.pstate = .sysex ∧
      (parser .sysex 0#8 0#8 0#2 0#2 0#16 fullQ).midi.q.length = off.cfg.evqDepth) ∧
    (0x80 ≤ (0xF8#8).toNat ∧ 0xF8#8 ≠ 0xF7#8) ∧ (parser .error 0#8 0#8 0#2 0#2 0#16 []).midi.pstate = .error := by decide

/-- EventWordFields, NoteOnBytesGiveOneEvent, SysexOfAnyLength: status and data bytes at their ends, from IDLE with room. -/
theorem test_witness_streams :
    (0x80 ≤ (0xEF#8).toNat ∧ (0xEF#8).toNat < 0xF0) ∧ 0xF8 ≤ (0xFF#8).toNat ∧
    (off.midi.pstate = .idle ∧ off.midi.q.length < off.cfg.evqDepth) ∧
    ((0x9F#8).toNat / 16 = 9 ∧ (0x7F#8).toNat < 128 ∧ (0#8).toNat < 128) ∧ ∀ b ∈ [0x7F#8, 0#8], b.toNat < 0x80 := by decide

/-- DrainedEventRule: in LIN and in EXP, by a plan and by a jump, a NoteOn, a NoteOn of velocity 0, a NoteOff, of the current note and of another; a ControlChange. -/
theorem test_witness_events :
    (evKind 0x20904564#32 = 2#4 ∧ evD2 0x20904564#32 ≠ 0#8) ∧ (evKind 0x20904500#32 = 2#4 ∧ evD2 0x20904500#32 = 0#8) ∧
    evKind 0x10804500#32 = 1#4 ∧ evD1 0x10804500#32 = { off.voice with note := 69#8 }.note ∧
    evD1 0x10804500#32 ≠ off.voice.note ∧ (evKind 0x41B10764#32 ≠ 1#4 ∧ evKind 0x41B10764#32 ≠ 2#4) ∧
    (fromT.ramp.curve = .lin ∧ expRamp.ramp.curve = .exp ∧
      planOk .binary32 (rampNow .binary32 expRamp.ramp) (noteFreq .binary32 69#8) = true ∧
      planOk .binary32 (rampNow .binary32 { expRamp.ramp with fromVal := 1#64, toVal := 1#64 }) (noteFreq .binary32 69#8) = false) := by
  decide +kernel

/-- NoteFrequencies: the last note. -/
theorem test_witness_note : (127#8).toNat < 128 := by decide

/-- JumpHoldsItsValue, RampNeverOvershoots: a jump in each kind; a plan in each kind; a ramp within its plan. -/
theorem test_witness_ramp :
    (Fp.finite .binary32 0x40000000#64 = true ∧ Fmt.binary32.fits 0x40000000#64 = true ∧
      0x40000000#64 ≠ Fp.neg .binary32 Fp.zero ∧ Fp.lt .binary32 Fp.zero 0x40000000#64 = true) ∧
    (Fp.finite .binary32 0#64 = true ∧ 0#64 ≠ Fp.neg .binary32 Fp.zero ∧ off.ramp.curve = .lin) ∧
    (cfgT.valid = true ∧ Fp.finite .binary32 0x41000000#64 = true ∧ Fp.finite .binary32 off.ramp.duration = true ∧
      Fp.lt .binary32 Fp.zero off.ramp.duration = true ∧ expRamp.ramp.curve = .exp ∧
      Fp.finite .binary32 expRamp.ramp.duration = true ∧ Fp.lt .binary32 Fp.zero expRamp.ramp.duration = true ∧
      expOk .binary32 0x40000000#64 0x41000000#64 = true) ∧
    inPlan .binary32 (off.ramp.plan cfgT 0x41000000#64 0#64) = true ∧ inPlan .binary32 expRamp.ramp = true := by decide +kernel

/-- PhaseAndIndexStayInRange: the greatest phase below 1, and a frequency above FS. -/
theorem test_witness_phase :
    (cfgT.valid = true ∧ Fp.finite .binary32 0x3F7FFFFF#64 = true ∧ Fp.le .binary32 Fp.zero 0x3F7FFFFF#64 = true ∧
      Fp.lt .binary32 0x3F7FFFFF#64 (Fp.one .binary32) = true) ∧
    (Fp.finite .binary32 0x42000000#64 = true ∧ Fp.le .binary32 Fp.zero 0x42000000#64 = true ∧
      Fp.finite .binary32 (Fp.add .binary32 0x3F7FFFFF#64 (Fp.div .binary32 0x42000000#64 cfgT.fs)) = true) := by decide +kernel

/-- A bank of three tables, for an octave in between. -/
def cfg3 : Cfg := { cfgT with numTables := 3 }

/-- OctaveStaysInTheBank: the three clauses, at BASE_FREQ, at four times it and at twice it. -/
theorem test_witness_octave :
    cfg3.valid = true ∧ Fp.le .binary32 0x3F800000#64 cfg3.baseFreq = true ∧
    (Fp.finite .binary32 0x40800000#64 = true ∧ Fp.finite .binary32 (Fp.div .binary32 0x40800000#64 cfg3.baseFreq) = true ∧
      Fp.le .binary32 0x40800000#64 cfg3.baseFreq = false ∧
      Fp.le .binary32 (Fp.ofInt .binary32 2) (Fp.log2 .binary32 (Fp.div .binary32 0x40800000#64 cfg3.baseFreq)) = true) ∧
    (Fp.finite .binary32 0x40000000#64 = true ∧ Fp.finite .binary32 (Fp.div .binary32 0x40000000#64 cfg3.baseFreq) = true ∧
      Fp.le .binary32 0x40000000#64 cfg3.baseFreq = false ∧
      Fp.le .binary32 (Fp.ofInt .binary32 2) (Fp.log2 .binary32 (Fp.div .binary32 0x40000000#64 cfg3.baseFreq)) = false) := by
  decide +kernel

/-- An envelope in a segment with a gate, halfway. -/
def envAt (seg : Segment) (gate : Word) : Env :=
  ⟨0x3E800000#64, 0x3E800000#64, 0x3F000000#64, 0x3E800000#64, seg, 0x3F000000#64, 0x3F800000#64, 0x3F000000#64, gate⟩

/-- EnvelopeSegments, GateChangesAreContinuous: every clause; the gates 0.0, −0.0 and the least positive one. -/
theorem test_witness_envelope :
    (Fp.lt .binary32 Fp.zero (envAt .releasing 1#64).gate = true ∧ Fp.lt .binary32 Fp.zero (envAt .attacking 0#64).gate = false ∧
      Fp.lt .binary32 Fp.zero (envAt .releasing 0x80000000#64).gate = false) ∧
    ((envAt .releasing 1#64).state = .releasing ∧ (envAt .attacking 1#64).state = .attacking ∧
      (envAt .decaying 1#64).state = .decaying ∧ (envAt .sustaining 1#64).state = .sustaining ∧
      (envAt .sustaining 0#64).state ≠ .releasing) ∧
    inUnit .binary32 (envAt .attacking 0#64).amp = true := by decide +kernel

/-- EnvelopeStaysInUnitInterval: halfway; the position +∞ in an attack from below 1.0 and in a decay to 0.5 and to 1.0; a step;
a reachable state. -/
theorem test_witness_envelope_bounds :
    cfgT.valid = true ∧
    (let e := envAt .decaying 1#64
     envelopeOk .binary32 e = true ∧
      ([e.attack, e.decay, e.release].all fun d => Fp.finite .binary32 d && Fp.lt .binary32 Fp.zero d) = true ∧
      envelopeOk .binary32 { e with state := .attacking, anchor := 0x3F7FFFFF#64, pos := 0x7F800000#64 } = true ∧
      envelopeOk .binary32 { e with pos := 0x7F800000#64 } = true ∧
      envelopeOk .binary32 { e with pos := 0x7F800000#64, sustain := 0x3F800000#64 } = true) ∧
    (let s := send fromT 0x02000000#32 0#64
     s.cfg.valid = true ∧ s.paramInv = true ∧ envelopeOk .binary32 s.env = true ∧ step s = .next (sent fromT 0x02000000#32 0#64)) ∧
    Reachable off :=
  ⟨by decide +kernel, by decide +kernel, ⟨by decide +kernel, by decide +kernel, by decide +kernel, step_sent (by decide +kernel)⟩,
    test_witness_reachable.1⟩

/-- ZeroHistoryStaysZero: a clean filter with zero history and finite coefficients. -/
theorem test_witness_zero_history :
    let x : Filter := { off.filter with b0 := 0x3EAAAAAB#64, a1 := 0xBF800000#64, dirty := false }
    x.dirty = false ∧ Fp.finite .binary32 x.b0 = true ∧ Fp.finite .binary32 x.b1 = true ∧ Fp.finite .binary32 x.b2 = true ∧
      Fp.finite .binary32 x.a1 = true ∧ Fp.finite .binary32 x.a2 = true ∧
      [x.inp, x.x1, x.x2, x.y1, x.y2].all (Fp.isZero .binary32) = true ∧
      [x.inp, x.x1, x.x2, x.y1, x.y2] = List.replicate 5 Fp.zero ∧ Fp.sign .binary32 x.b0 = false := by decide +kernel

end Sys2Proof.Tests
end

/-! PROOFS. Construction and the power-on state (spec/00_scope.md R5 and R6, spec/70_reset_and_hazards.md R440 and R442): the
integer comparisons of `Cfg.valid` are R5's comparisons of numbers, and the reset values are the patterns of R442. -/

namespace Sys2Proof.Claims

open Sys2Proof Sys2Proof.Machine

/-! ### The numbers of FMT words, compared as multiples of 2^-scale -/

theorem scale_unit_pos (f : Fmt) : (0 : Rat) < ((2 ^ f.scale : Nat) : Rat) := by positivity

theorem realOf_pos_iff (f : Fmt) (w : Word) : 0 < realOf f w ↔ 0 < Fp.val f w := by
  rw [realOf, div_pos_iff_of_pos_right (scale_unit_pos f), Int.cast_pos]

theorem realOf_nonneg_iff (f : Fmt) (w : Word) : 0 ≤ realOf f w ↔ 0 ≤ Fp.val f w := by
  rw [realOf, le_div_iff₀ (scale_unit_pos f), zero_mul, Int.cast_nonneg_iff]

theorem realOf_lt_iff (f : Fmt) (v w : Word) : realOf f v < realOf f w ↔ Fp.val f v < Fp.val f w := by
  rw [realOf, realOf, div_lt_div_iff_of_pos_right (scale_unit_pos f), Int.cast_lt]

theorem realOf_eq_natCast_iff (f : Fmt) (w : Word) (n : Nat) :
    realOf f w = (n : Rat) ↔ Fp.val f w = n * (2 ^ f.scale : Nat) := by
  rw [realOf, div_eq_iff (scale_unit_pos f).ne']
  exact_mod_cast Iff.rfl

theorem realOf_le_natCast_iff (f : Fmt) (w : Word) (n : Nat) :
    realOf f w ≤ (n : Rat) ↔ Fp.val f w ≤ (n * 2 ^ f.scale : Nat) := by
  rw [realOf, div_le_iff₀ (scale_unit_pos f)]
  exact_mod_cast Iff.rfl

/-- A lower bound 1 / n, multiplied out. -/
theorem one_div_le_realOf_iff (f : Fmt) (w : Word) {n : Nat} (hn : 0 < n) :
    1 / (n : Rat) ≤ realOf f w ↔ ((2 ^ f.scale : Nat) : Int) ≤ n * Fp.val f w := by
  rw [realOf, div_le_div_iff₀ (Nat.cast_pos.2 hn) (scale_unit_pos f), one_mul, mul_comm]
  exact_mod_cast Iff.rfl

/-- An upper bound (p / q) × v, multiplied out. -/
theorem realOf_le_ratio_mul_iff (f : Fmt) (v w : Word) (p : Nat) {q : Nat} (hq : 0 < q) :
    realOf f w ≤ (p : Rat) / q * realOf f v ↔ q * Fp.val f w ≤ p * Fp.val f v := by
  rw [realOf, realOf, ← mul_div_assoc, div_le_div_iff_of_pos_right (scale_unit_pos f), div_mul_eq_mul_div,
    le_div_iff₀ (Nat.cast_pos.2 hq), mul_comm]
  exact_mod_cast Iff.rfl

/-! ### R5, row by row -/

theorem fits_iff_lt_of_binary32 (f : Fmt) (w : Word) : f.fits w = true ↔ (f = .binary32 → w.toNat < 2 ^ 32) := by
  rw [Fmt.fits, decide_eq_true_eq]
  cases f
  · simp [Fmt.bits]
  · simpa [Fmt.bits] using w.isLt

/-- A positive multiple of d that d divides into at most `hi` is one of d, 2d, …, hi × d. -/
theorem exists_nat_multiple_iff (v : Int) {d : Nat} (hd : 0 < d) (hi : Nat) :
    (∃ n : Nat, 0 < n ∧ n ≤ hi ∧ v = n * d) ↔ 0 < v ∧ v % d = 0 ∧ v / d ≤ hi := by
  have hd' : (0 : Int) < d := by exact_mod_cast hd
  constructor
  · rintro ⟨n, hn, hle, rfl⟩
    refine ⟨by positivity, Int.mul_emod_left _ _, ?_⟩
    rw [Int.mul_ediv_cancel _ hd'.ne']
    exact_mod_cast hle
  · rintro ⟨hpos, hmod, hle⟩
    obtain ⟨k, rfl⟩ := Int.dvd_of_emod_eq_zero hmod
    have hk : 0 < k := pos_of_mul_pos_right hpos hd'.le
    rw [Int.mul_ediv_cancel_left _ hd'.ne'] at hle
    lift k to Nat using hk.le
    exact ⟨k, by exact_mod_cast hk, by exact_mod_cast hle, mul_comm _ _⟩

theorem fsOk_iff (c : Cfg) : c.fsOk = true ↔
    Fp.finite c.fmt c.fs = true ∧ ∃ n : Nat, 0 < n ∧ n ≤ 2 ^ 24 ∧ realOf c.fmt c.fs = (n : Rat) := by
  simp only [realOf_eq_natCast_iff, exists_nat_multiple_iff _ (Nat.two_pow_pos _), Cfg.fsOk, Bool.and_eq_true,
    decide_eq_true_eq, and_assoc]
  rw [Fp.floorInt]
  norm_cast

/-- TABLE_LEN: a power of two from 2 to 2^16, by its logarithm and by its exponent. -/
theorem isTableLen_iff (l : Nat) :
    (l = 2 ^ l.log2 ∧ 2 ≤ l ∧ l ≤ 2 ^ 16) ↔ ∃ n : Nat, 1 ≤ n ∧ n ≤ 16 ∧ l = 2 ^ n := by
  constructor
  · rintro ⟨hl, hlo, hhi⟩
    refine ⟨l.log2, ?_, ?_, hl⟩
    · exact (Nat.le_log2 (by omega)).2 hlo
    · rw [hl] at hhi
      exact (Nat.pow_le_pow_iff_right (by decide)).1 hhi
  · rintro ⟨n, hlo, hhi, rfl⟩
    exact ⟨by rw [Nat.log2_two_pow], Nat.pow_le_pow_right (n := 2) (by decide) hlo, Nat.pow_le_pow_right (by decide) hhi⟩

theorem sizesOk_iff (c : Cfg) : c.sizesOk = true ↔
    (1 ≤ c.blockSize ∧ c.blockSize ≤ 2 ^ 24) ∧ (∃ n : Nat, 1 ≤ n ∧ n ≤ 16 ∧ c.tableLen = 2 ^ n) ∧
    (1 ≤ c.numTables ∧ c.numTables ≤ 255) ∧ (1 ≤ c.numBanks ∧ c.numBanks ≤ 255) ∧
    (1 ≤ c.evqDepth ∧ c.evqDepth ≤ 255) ∧ c.numBanks * c.numTables * c.tableLen ≤ 2 ^ 24 := by
  simp only [Cfg.sizesOk, Bool.and_eq_true, decide_eq_true_eq, isTableLen_iff, and_assoc]

theorem positiveOk_iff (c : Cfg) : c.positiveOk = true ↔
    Fp.finite c.fmt c.baseFreq = true ∧ 0 < realOf c.fmt c.baseFreq ∧
    Fp.finite c.fmt c.qMin = true ∧ 0 < realOf c.fmt c.qMin := by
  simp only [Cfg.positiveOk, Bool.and_eq_true, decide_eq_true_eq, realOf_pos_iff, and_assoc]

theorem cutoffOk_iff (c : Cfg) : c.cutoffOk = true ↔
    Fp.finite c.fmt c.cutoffMin = true ∧ Fp.finite c.fmt c.cutoffMax = true ∧
    1 / 1000 ≤ realOf c.fmt c.cutoffMin ∧ realOf c.fmt c.cutoffMin < realOf c.fmt c.cutoffMax ∧
    realOf c.fmt c.cutoffMax ≤ 49 / 100 * realOf c.fmt c.fs := by
  have hlo := one_div_le_realOf_iff c.fmt c.cutoffMin (n := 1000) (by decide)
  have hhi := realOf_le_ratio_mul_iff c.fmt c.fs c.cutoffMax 49 (q := 100) (by decide)
  simp only [Nat.cast_ofNat] at hlo hhi
  simp only [Cfg.cutoffOk, Bool.and_eq_true, decide_eq_true_eq, hlo, hhi, realOf_lt_iff, and_assoc]

theorem detuneOk_iff (c : Cfg) : c.detuneOk = true ↔
    Fp.finite c.fmt c.detuneMax = true ∧ 0 ≤ realOf c.fmt c.detuneMax ∧ realOf c.fmt c.detuneMax ≤ 16 := by
  have hhi := realOf_le_natCast_iff c.fmt c.detuneMax 16
  simp only [Nat.cast_ofNat] at hhi
  simp only [Cfg.detuneOk, Bool.and_eq_true, decide_eq_true_eq, hhi, realOf_nonneg_iff, and_assoc]

theorem fitsFmt_iff (c : Cfg) : c.fitsFmt = true ↔
    ∀ w ∈ [c.fs, c.baseFreq, c.qMin, c.cutoffMin, c.cutoffMax, c.detuneMax], c.fmt = .binary32 → w.toNat < 2 ^ 32 := by
  simp only [Cfg.fitsFmt, Bool.and_eq_true, fits_iff_lt_of_binary32, List.forall_mem_cons, List.not_mem_nil,
    false_imp_iff, implies_true, and_true, and_assoc]

theorem finiteWords_iff (c : Cfg) :
    (∀ w ∈ [c.fs, c.baseFreq, c.qMin, c.cutoffMin, c.cutoffMax, c.detuneMax], Fp.finite c.fmt w = true) ↔
    Fp.finite c.fmt c.fs = true ∧ Fp.finite c.fmt c.baseFreq = true ∧ Fp.finite c.fmt c.qMin = true ∧
    Fp.finite c.fmt c.cutoffMin = true ∧ Fp.finite c.fmt c.cutoffMax = true ∧ Fp.finite c.fmt c.detuneMax = true := by
  simp only [List.forall_mem_cons, List.not_mem_nil, false_imp_iff, implies_true, and_true]

/-- The model's check of a configuration is R5: the two sides have the same conjuncts in another order. -/
theorem valid_iff_legalConfig (c : Cfg) : c.valid = true ↔ LegalConfig c := by
  simp only [Cfg.valid, LegalConfig, Bool.and_eq_true, fitsFmt_iff, fsOk_iff, sizesOk_iff, positiveOk_iff, cutoffOk_iff,
    detuneOk_iff, forall₂_and, finiteWords_iff]
  constructor
  · rintro ⟨⟨⟨⟨⟨hfits, hfsFin, hfs⟩, hblock, hlen, htables, hbanks, hevq, hsize⟩, hbaseFin, hbase, hqFin, hq⟩,
      hminFin, hmaxFin, hmin, hlt, hmax⟩, hdetFin, hdet⟩
    exact ⟨⟨hfits, hfsFin, hbaseFin, hqFin, hminFin, hmaxFin, hdetFin⟩,
      hfs, hblock, hlen, htables, hbanks, hbase, hevq, hq, hmin, hlt, hmax, hdet, hsize⟩
  · rintro ⟨⟨hfits, hfsFin, hbaseFin, hqFin, hminFin, hmaxFin, hdetFin⟩,
      hfs, hblock, hlen, htables, hbanks, hbase, hevq, hq, hmin, hlt, hmax, hdet, hsize⟩
    exact ⟨⟨⟨⟨⟨hfits, hfsFin, hfs⟩, hblock, hlen, htables, hbanks, hevq, hsize⟩, hbaseFin, hbase, hqFin, hq⟩,
      hminFin, hmaxFin, hmin, hlt, hmax⟩, hdetFin, hdet⟩

/-! ### R442: the reset values as patterns -/

theorem rampReset_eq_patterns (f : Fmt) : Ramp.reset f =
    { fromVal := 0#64, toVal := 0#64, pos := 0#64, speed := 0#64, endPos := 0#64, out := 0#64, curve := .lin
      duration := pattern f 0x3D800000#64 0x3FB0000000000000#64 } := by
  cases f <;> decide +kernel

theorem envReset_eq_patterns (f : Fmt) : Env.reset f =
    { attack := pattern f 0x3C000000#64 0x3F80000000000000#64
      decay := pattern f 0x3E000000#64 0x3FC0000000000000#64
      sustain := pattern f 0x3F000000#64 0x3FE0000000000000#64
      release := pattern f 0x3E800000#64 0x3FD0000000000000#64
      state := .releasing, pos := 0#64, anchor := 0#64, amp := 0#64, gate := 0#64 } := by
  cases f <;> decide +kernel

theorem filterReset_eq_patterns (f : Fmt) : Filter.reset f =
    { base := pattern f 0x447A0000#64 0x408F400000000000#64, depth := 0#64
      q := pattern f 0x3F3504F3#64 0x3FE6A09E667F3BCD#64, fc := 0#64
      b0 := 0#64, b1 := 0#64, b2 := 0#64, a1 := 0#64, a2 := 0#64
      x1 := 0#64, x2 := 0#64, y1 := 0#64, y2 := 0#64, dirty := true, inp := 0#64, fo := 0#64, out := 0#64 } := by
  cases f <;> decide +kernel

/-! ### Construction -/

theorem construct_eq_none_of_not_legal {c : Cfg} (h : ¬ LegalConfig c) : State.construct c = none :=
  if_neg (mt (valid_iff_legalConfig c).1 h)

theorem construct_eq_powerOn_of_legal {c : Cfg} (h : LegalConfig c) : State.construct c = some (State.powerOn c) :=
  if_pos ((valid_iff_legalConfig c).2 h)

/-- Settles O13: construction decides R5 (`valid_iff_legalConfig`), and the state it gives has empty memories and the reset
patterns of R442. -/
theorem powerOnState : Obligations.PowerOnState := by
  refine ⟨fun c h => construct_eq_none_of_not_legal h,
    fun c h => ⟨State.powerOn c, construct_eq_powerOn_of_legal h, ?_, ?_, ?_⟩⟩
  · exact fun a => rfl
  · exact fun a => rfl
  · rw [State.powerOn, rampReset_eq_patterns, envReset_eq_patterns, filterReset_eq_patterns]
    rfl

end Sys2Proof.Claims

/-! PROOFS. SYS.STATUS and the lifecycle (spec/10_state.md R40, R42 and R49, spec/20_memory.md R83): the bits of the STATUS
word as digits of its number, and what each command can do to the configuration, LIFECYCLE and TABLE. -/

namespace Sys2Proof.Claims

open Sys2Proof Sys2Proof.Machine

/-! ### R42: the bits of SYS.STATUS -/

/-- A bit of a word is a binary digit of its number. -/
theorem getLsbD_eq_of_digit {w : Word} {n : Nat} {b : Bool} (h : w.toNat / 2 ^ n % 2 = b.toNat) : w.getLsbD n = b := by
  rw [BitVec.getLsbD, Nat.testBit_eq_decide_div_mod_eq, h]
  cases b <;> rfl

theorem lifecycleCode_eq_toNat (l : Lifecycle) : l.code = (decide (l = .run)).toNat := by cases l <;> rfl

theorem segmentCode_lt (g : Segment) : g.code < 4 := by cases g <;> decide

/-- R42: bits 0 to 4, 8 and 9, 10 and 11 of the STATUS word are the eight fields, and every other bit reads 0. -/
theorem statusWord_bits (s : State) :
    s.statusWord.getLsbD 0 = decide (s.lifecycle = .run) ∧ s.statusWord.getLsbD 1 = s.midiErr ∧
    s.statusWord.getLsbD 2 = s.nonfinite ∧ s.statusWord.getLsbD 3 = s.evqFull ∧ s.statusWord.getLsbD 4 = s.evqNonempty ∧
    s.statusWord.getLsbD 5 = false ∧ s.statusWord.getLsbD 6 = false ∧ s.statusWord.getLsbD 7 = false ∧
    (s.statusWord.extractLsb' 8 2).toNat = s.env.state.code ∧
    s.statusWord.getLsbD 10 = s.ramp.active s.cfg.fmt ∧ s.statusWord.getLsbD 11 = s.filter.dirty ∧
    ∀ n, 12 ≤ n → s.statusWord.getLsbD n = false := by
  have hnum : s.statusWord.toNat = ((decide (s.lifecycle = .run)).toNat + s.midiErr.toNat * 2 + s.nonfinite.toNat * 4 +
      s.evqFull.toNat * 8 + s.evqNonempty.toNat * 16 + s.env.state.code * 256 + (s.ramp.active s.cfg.fmt).toNat * 1024 +
      s.filter.dirty.toNat * 2048) % 2 ^ 64 := by
    rw [State.statusWord, BitVec.toNat_ofNat, lifecycleCode_eq_toNat]
  have hrun := Bool.toNat_le (decide (s.lifecycle = .run))
  have herr := Bool.toNat_le s.midiErr
  have hnonfinite := Bool.toNat_le s.nonfinite
  have hfull := Bool.toNat_le s.evqFull
  have hnonempty := Bool.toNat_le s.evqNonempty
  have hseg := segmentCode_lt s.env.state
  have hactive := Bool.toNat_le (s.ramp.active s.cfg.fmt)
  have hdirty := Bool.toNat_le s.filter.dirty
  refine ⟨getLsbD_eq_of_digit ?_, getLsbD_eq_of_digit ?_, getLsbD_eq_of_digit ?_, getLsbD_eq_of_digit ?_,
    getLsbD_eq_of_digit ?_, getLsbD_eq_of_digit ?reserved5, getLsbD_eq_of_digit ?reserved6, getLsbD_eq_of_digit ?reserved7,
    ?segment, getLsbD_eq_of_digit ?_, getLsbD_eq_of_digit ?_, fun n hn => Nat.testBit_lt_two_pow ?high⟩
  case reserved5 | reserved6 | reserved7 => rw [Bool.toNat_false]; omega
  case segment => rw [toNat_field]; omega
  case high =>
    calc s.statusWord.toNat < 2 ^ 12 := by omega
      _ ≤ 2 ^ n := Nat.pow_le_pow_right (by decide) hn
  all_goals omega

/-- R161: RPARAM of SYS.STATUS answers the STATUS word and changes nothing. -/
theorem exec_rparam_sysStatus (s : State) : exec (.rparam .sys 1#8) s = .next (answered s s.statusWord) := rfl

/-- Settles O38: the read answers `statusWord`, whose bits are its fields (`statusWord_bits`). -/
theorem statusReadsItsFields : Obligations.StatusReadsItsFields := by
  intro s
  obtain ⟨hrun, herr, hnonfinite, hfull, hnonempty, h5, h6, h7, hseg, hactive, hdirty, hhigh⟩ := statusWord_bits s
  refine ⟨s.statusWord, exec_rparam_sysStatus s, hrun, herr, hnonfinite, hfull, hnonempty, h5, h6, h7, ?_, hactive, hdirty,
    hhigh⟩
  rw [hseg]
  cases s.env.state <;> rfl

/-! ### R40, R83: the configuration, LIFECYCLE and TABLE -/

/-- From `s` to `t` the configuration, LIFECYCLE and TABLE are unchanged. -/
structure KeepsTables (s t : State) : Prop where
  cfg : t.cfg = s.cfg
  lifecycle : t.lifecycle = s.lifecycle
  table : t.table = s.table

theorem KeepsTables.trans {s t u : State} (hst : KeepsTables s t) (htu : KeepsTables t u) : KeepsTables s u :=
  ⟨htu.cfg.trans hst.cfg, htu.lifecycle.trans hst.lifecycle, htu.table.trans hst.table⟩

theorem sampleTick_keepsTables {s t : State} (h : sampleTick s = .ok t) : KeepsTables s t := by
  obtain ⟨v, r, o, -, -, rfl⟩ := sampleTick_ok h
  exact ⟨rfl, rfl, rfl⟩

theorem blockTicks_keepsTables {n i : Nat} {s t : State} (h : blockTicks n i s = .ok t) : KeepsTables s t := by
  refine blockTicks_induct (Inv := KeepsTables s) (fun j u v _ _ hu hv => ?_) ⟨rfl, rfl, rfl⟩ h
  exact (hu.trans (sampleTick_keepsTables hv)).trans ⟨rfl, rfl, rfl⟩

theorem portEffect_keepsTables {dw : Word} {s t : State} (h : PortEffect dw s t) : KeepsTables s t := by
  cases h <;> exact ⟨rfl, rfl, rfl⟩

theorem regEffect_keepsTables {dw : Word} {s t : State} (h : RegEffect dw s t) : KeepsTables s t := by
  cases h <;> exact ⟨rfl, rfl, rfl⟩

/-- Only three things happen to these fields: nothing, a TWRITE in LOAD, or the SEAL that ends LOAD. -/
theorem effect_tables {i : Instr} {s t : State} {r : Response} (h : Effect i s t r) :
    KeepsTables s t ∨ (s.lifecycle = .load ∧ ∃ a dw, t = s.tableWrite a dw) ∨
      (i = .sealTables ∧ s.lifecycle = .load ∧ t = s.setLifecycle .run) := by
  cases h
  case tick hl ht => exact .inl (sampleTick_keepsTables ht)
  case tickb hl ht => exact .inl (blockTicks_keepsTables ht)
  case port hp => exact .inl (portEffect_keepsTables hp)
  case reg hr => exact .inl (regEffect_keepsTables hr)
  case twrite a dw hi hl ha hf => exact .inr (.inl ⟨hl, a.toNat, dw, rfl⟩)
  case sealed hi hl => exact .inr (.inr ⟨hi, hl, rfl⟩)
  all_goals exact .inl ⟨rfl, rfl, rfl⟩

/-- R40, R83, R49 from `s` to `t`, where `isSeal` says that the command between them is SEAL. -/
structure LifecycleGoverns (isSeal : Prop) (s t : State) : Prop where
  cfg : t.cfg = s.cfg
  run : s.lifecycle = .run → t.lifecycle = .run ∧ t.table = s.table
  enters : s.lifecycle = .load → t.lifecycle = .run → isSeal
  written : ∀ a, s.written a = true → t.written a = true

theorem KeepsTables.governs {isSeal : Prop} {s t : State} (h : KeepsTables s t) : LifecycleGoverns isSeal s t where
  cfg := h.cfg
  run hrun := ⟨h.lifecycle.trans hrun, h.table⟩
  enters hload hrun := by rw [h.lifecycle, hload] at hrun; cases hrun
  written a ha := by rwa [State.written, h.table]

/-- A TABLE write sets the written bit of its entry and clears none (R49). -/
theorem written_tableWrite {s : State} {a : Nat} (b : Nat) (v : Word) (h : s.written a = true) :
    (s.tableWrite b v).written a = true := by
  rw [State.written_iff] at h ⊢
  by_cases hab : a = b
  · exact ⟨v, by rw [hab, State.tableRead_tableWrite_self]⟩
  · rwa [State.tableRead_tableWrite_ne s v hab]

theorem tableWrite_governs {isSeal : Prop} {s : State} (hl : s.lifecycle = .load) (a : Nat) (v : Word) :
    LifecycleGoverns isSeal s (s.tableWrite a v) where
  cfg := rfl
  run hrun := by rw [hl] at hrun; cases hrun
  enters _ hrun := by rw [show (s.tableWrite a v).lifecycle = .load from hl] at hrun; cases hrun
  written _ ha := written_tableWrite a v ha

theorem setRun_governs {isSeal : Prop} {s : State} (hs : isSeal) : LifecycleGoverns isSeal s (s.setLifecycle .run) where
  cfg := rfl
  run _ := ⟨rfl, rfl⟩
  enters _ _ := hs
  written _ ha := ha

/-- Every command that answers obeys R40, R83 and R49. -/
theorem effect_governs {i : Instr} {s t : State} {r : Response} (h : Effect i s t r) :
    LifecycleGoverns (i = .sealTables) s t := by
  rcases effect_tables h with hk | ⟨hl, a, v, rfl⟩ | ⟨hi, -, rfl⟩
  · exact hk.governs
  · exact tableWrite_governs hl a v
  · exact setRun_governs hi

/-- The host's commands and the last response are no part of what `LifecycleGoverns` speaks of. -/
theorem LifecycleGoverns.of_setHost_setResp {isSeal isSeal' : Prop} {s u : State} {rest : List Cmd} (r : Option Response)
    (h : LifecycleGoverns isSeal (s.setHost rest) u) (himp : isSeal → isSeal') :
    LifecycleGoverns isSeal' s (u.setResp r) :=
  ⟨h.cfg, h.run, fun hl hr => himp (h.enters hl hr), h.written⟩

/-- Every step that answers obeys R40, R83 and R49: SEAL is then the host's next command. -/
theorem step_governs {s t : State} (h : step s = .next t) :
    LifecycleGoverns (∃ c rest, s.host = c :: rest ∧ decode s.cfg.fmt c = .ok .sealTables) s t := by
  rcases step_cases h with ⟨-, rfl⟩ | ⟨c, rest, i, hhost, hdec, hx⟩ | ⟨c, rest, e, -, -, rfl⟩
  · exact KeepsTables.governs ⟨rfl, rfl, rfl⟩
  · obtain ⟨u, r, hu, rfl⟩ := exec_effect hx
    exact (effect_governs hu).of_setHost_setResp _ fun hi => ⟨c, rest, hhost, hi ▸ hdec⟩
  · exact KeepsTables.governs ⟨rfl, rfl, rfl⟩

/-- Settles O20: the four rules are the fields of `LifecycleGoverns`, which every step obeys (`step_governs`). -/
theorem lifecycleGovernsTables : Obligations.LifecycleGovernsTables := by
  intro s t h
  have hg := step_governs h
  exact ⟨hg.cfg, hg.run, hg.enters, hg.written⟩

end Sys2Proof.Claims

/-! PROOFS. The canonical form and the bounds of TABLE and OUTBUF (spec/20_memory.md R80, R82, R85 and R262): the two
writes keep them, and so does every command. -/

namespace Sys2Proof.Claims

open Sys2Proof Sys2Proof.Machine

/-! ### R80, R82, R85, R262: the form of the two memories -/

theorem memInv_iff (s : State) : s.memInv = true ↔
    (Memory.wf tableDefault s.table = true ∧
      s.table.all (fun c => decide (c.1 < s.cfg.tableSize) && Fp.finite s.cfg.fmt c.2) = true) ∧
    (Memory.wf outbufDefault s.outbuf = true ∧ s.outbuf.all (fun c => decide (c.1 < s.cfg.blockSize)) = true) := by
  rw [State.memInv, Bool.and_eq_true, Bool.and_eq_true, Bool.and_eq_true]
  tauto

/-- The form depends on the configuration and the two memories alone. -/
theorem memInv_of_keeps {s t : State} (hs : s.memInv = true) (hk : KeepsTables s t) (ho : t.outbuf = s.outbuf) :
    t.memInv = true := by
  rwa [State.memInv, hk.cfg, hk.table, ho]

/-- A finite word written within TABLE keeps the form (R262). -/
theorem memInv_tableWrite {s : State} {a : Nat} {v : Word} (hs : s.memInv = true) (ha : a < s.cfg.tableSize)
    (hv : Fp.finite s.cfg.fmt v = true) : (s.tableWrite a v).memInv = true := by
  rw [memInv_iff] at hs ⊢
  obtain ⟨⟨hwf, hall⟩, houtbuf⟩ := hs
  have hcell : (decide (a < s.cfg.tableSize) && Fp.finite s.cfg.fmt v) = true := by rw [hv, decide_eq_true ha, Bool.true_and]
  exact ⟨⟨Memory.wf_write _ _ a v hwf, Memory.all_write _ tableDefault _ a v hall hcell⟩, houtbuf⟩

/-- Any word written within OUTBUF keeps the form: a +0.0 is taken out of the list (R85, R156). -/
theorem memInv_outbufWrite {s : State} {a : Nat} (v : Word) (hs : s.memInv = true) (ha : a < s.cfg.blockSize) :
    (s.outbufWrite a v).memInv = true := by
  rw [memInv_iff] at hs ⊢
  obtain ⟨htable, hwf, hall⟩ := hs
  exact ⟨htable, Memory.wf_write _ _ a v hwf, Memory.all_write _ outbufDefault _ a v hall (decide_eq_true ha)⟩

/-- The soft reset keeps TABLE and leaves no word of OUTBUF listed (R441). -/
theorem memInv_softReset {s : State} (hs : s.memInv = true) : (softReset s).memInv = true := by
  rw [memInv_iff] at hs ⊢
  exact ⟨hs.1, rfl, rfl⟩

theorem sampleTick_memInv {s t : State} (hs : s.memInv = true) (h : sampleTick s = .ok t) : t.memInv = true :=
  memInv_of_keeps hs (sampleTick_keepsTables h) (sampleTick_outbuf h)

/-- The samples of a block go to the words below BLOCK_SIZE (R156). -/
theorem blockTicks_memInv {s t : State} (hs : s.memInv = true) (h : blockTicks s.cfg.blockSize 0 s = .ok t) :
    t.memInv = true := by
  have hinv : t.cfg = s.cfg ∧ t.memInv = true := by
    refine blockTicks_induct (Inv := fun u => u.cfg = s.cfg ∧ u.memInv = true) (fun j u v _ hj hu hv => ?_) ⟨rfl, hs⟩ h
    obtain ⟨hcfg, hmem⟩ := hu
    have hcfg' : v.cfg = s.cfg := (sampleTick_keepsTables hv).cfg.trans hcfg
    have hj' : j < v.cfg.blockSize := by rw [hcfg']; omega
    exact ⟨hcfg', memInv_outbufWrite v.voice.out (sampleTick_memInv hmem hv) hj'⟩
  exact hinv.2

theorem portEffect_outbuf {dw : Word} {s t : State} (h : PortEffect dw s t) : t.outbuf = s.outbuf := by
  cases h <;> rfl

theorem regEffect_outbuf {dw : Word} {s t : State} (h : RegEffect dw s t) : t.outbuf = s.outbuf := by
  cases h <;> rfl

/-- Only RESET, TICKB and TWRITE write a memory; every command that answers keeps the form. -/
theorem effect_memInv {i : Instr} {s t : State} {r : Response} (hs : s.memInv = true) (h : Effect i s t r) :
    t.memInv = true := by
  cases h
  case reset => exact memInv_softReset hs
  case tick ht => exact sampleTick_memInv hs ht
  case tickb ht => exact blockTicks_memInv hs ht
  case port hp => exact memInv_of_keeps hs (portEffect_keepsTables hp) (portEffect_outbuf hp)
  case reg hr => exact memInv_of_keeps hs (regEffect_keepsTables hr) (regEffect_outbuf hr)
  case twrite ha hf => exact memInv_tableWrite hs ha hf
  all_goals exact hs

/-- Settles O15: every effect keeps the form (`effect_memInv`), and the response and the host's commands are no part of
it. -/
theorem stepKeepsMemoryForm : Obligations.StepKeepsMemoryForm := by
  intro s t hs h
  exact step_keeps (Inv := fun u => u.memInv = true) (fun _ _ hu => hu) (fun _ _ hu => hu)
    (fun _ _ _ _ hu he => effect_memInv hu he) hs h

end Sys2Proof.Claims

/-! PROOFS. The encoding of commands (spec/30_encoding.md R110 to R119): decoding an encoded command, encoding a decoded one,
and the words that raise ILLEGAL_COMMAND. -/

namespace Sys2Proof.Claims

open Sys2Proof Sys2Proof.Machine

/-! ### Decoding the words of each format -/

theorem decodeN_cwN (op : Byte) (dw : Word) (i : Instr) : decodeN ⟨cwN op, dw⟩ i = .ok i := by simp [decodeN]

theorem decodeP_cwP (op : Byte) (u : UnitId) (sel : Byte) (dw : Word) (mk : UnitId → Byte → Instr) :
    decodeP ⟨cwP op u sel, dw⟩ mk = .ok (mk u sel) := by simp [decodeP]

theorem decodeB_cwB (op b : Byte) (dw : Word) (mk : Byte → Instr) : decodeB ⟨cwB op b, dw⟩ mk = .ok (mk b) := by
  simp [decodeB]

theorem decodeA_cwA (op : Byte) (a : BitVec 24) (dw : Word) (mk : BitVec 24 → Instr) :
    decodeA ⟨cwA op a, dw⟩ mk = .ok (mk a) := by simp [decodeA]

/-- Settles O3: the opcode selects the command's own format, the fields of an encoded word are the operands (the lemmas
above), and a data word of FMT_BITS bits is not cut. -/
theorem decodeOfEncodeIsIdentity : Obligations.DecodeOfEncodeIsIdentity := by
  intro f i hwf
  cases i with
  | nop | reset | tick | tickb | sealTables | mpop | mreset =>
    rw [encode, decode, op_cwN, decodeN_cwN]
    rfl
  | rdbuf | tread => simp [encode, decode, decodeA_cwA]
  | rport | rparam => simp [encode, decode, decodeP_cwP]
  | mpush => simp [encode, decode, decodeB_cwB]
  | wport | wparam => simp [encode, decode, decodeP_cwP, f.trunc_of_fits hwf]
  | twrite => simp [encode, decode, decodeA_cwA, f.trunc_of_fits hwf]

/-! ### Encoding what each format decodes to -/

theorem decodeN_ok_cw {c : Cmd} {i j : Instr} {k : Nat} (h : decodeN c i = .ok j) (hop : c.op.toNat = k) :
    j = i ∧ cwN (BitVec.ofNat 8 k) = c.cw := by
  obtain ⟨haddr, rfl⟩ := decodeN_ok h
  exact ⟨rfl, Cmd.op_of hop ▸ cwN_of haddr⟩

theorem decodeP_ok_cw {c : Cmd} {mk : UnitId → Byte → Instr} {j : Instr} {k : Nat} (h : decodeP c mk = .ok j)
    (hop : c.op.toNat = k) : ∃ u, j = mk u c.low ∧ cwP (BitVec.ofNat 8 k) u c.low = c.cw := by
  obtain ⟨u, hhigh, hunit, rfl⟩ := decodeP_ok h
  exact ⟨u, rfl, Cmd.op_of hop ▸ cwP_of hhigh hunit⟩

theorem decodeB_ok_cw {c : Cmd} {mk : Byte → Instr} {j : Instr} {k : Nat} (h : decodeB c mk = .ok j)
    (hop : c.op.toNat = k) : j = mk c.low ∧ cwB (BitVec.ofNat 8 k) c.low = c.cw := by
  obtain ⟨hmid, rfl⟩ := decodeB_ok h
  exact ⟨rfl, Cmd.op_of hop ▸ cwB_of hmid⟩

theorem decodeA_ok_cw {c : Cmd} {mk : BitVec 24 → Instr} {j : Instr} {k : Nat} (h : decodeA c mk = .ok j)
    (hop : c.op.toNat = k) : j = mk c.addr ∧ cwA (BitVec.ofNat 8 k) c.addr = c.cw :=
  ⟨decodeA_ok h, Cmd.op_of hop ▸ cwA_of c⟩

/-- Settles O4: one case per opcode of R118, in the order of `decode`, each by its format; the data word is cut by `trunc`,
whose result fits. -/
theorem encodeOfDecodeIsIdentity : Obligations.EncodeOfDecodeIsIdentity := by
  intro f c i h
  unfold decode at h
  split at h
  case h_1 hop | h_2 hop | h_3 hop | h_4 hop | h_12 hop | h_14 hop | h_15 hop =>
    obtain ⟨rfl, hcw⟩ := decodeN_ok_cw h hop
    exact ⟨rfl, hcw, rfl⟩
  case h_5 hop | h_11 hop =>
    obtain ⟨rfl, hcw⟩ := decodeA_ok_cw h hop
    exact ⟨rfl, hcw, rfl⟩
  case h_10 hop =>
    obtain ⟨rfl, hcw⟩ := decodeA_ok_cw h hop
    exact ⟨f.fits_trunc c.dw, hcw, rfl⟩
  case h_6 hop | h_8 hop =>
    obtain ⟨u, rfl, hcw⟩ := decodeP_ok_cw h hop
    exact ⟨f.fits_trunc c.dw, hcw, rfl⟩
  case h_7 hop | h_9 hop =>
    obtain ⟨u, rfl, hcw⟩ := decodeP_ok_cw h hop
    exact ⟨rfl, hcw, rfl⟩
  case h_13 hop =>
    obtain ⟨rfl, hcw⟩ := decodeB_ok_cw h hop
    exact ⟨rfl, hcw, rfl⟩
  case h_16 => cases h

/-! ### R119: illegal encodings -/

/-- R119, the kinds that a decoded command can still be: an unlisted register, and a read-only one where it is written. -/
def refusesRegister : Instr → Bool
  | .wparam u sel _ => !(regOf u sel).any Reg.writable
  | .rparam u sel => !(regOf u sel).isSome
  | _ => false

/-- R119, on what the decoder makes of a word. -/
def isIllegal : Except DecodeError Instr → Bool
  | .ok i => refusesRegister i
  | .error _ => true

/-- The rows of R45 are the registers of the map. -/
theorem registerRows_any_eq_isSome (u : UnitId) (sel : Byte) :
    registerRows.any (fun r => r.1 == u.code.toNat && r.2.1 == sel.toNat) = (regOf u sel).isSome := by
  cases u <;> (revert sel; decide +kernel)

/-- The rows marked writable are the writable registers. -/
theorem registerRows_any_eq_writable (u : UnitId) (sel : Byte) :
    registerRows.any (fun r => r.1 == u.code.toNat && r.2.1 == sel.toNat && r.2.2) = (regOf u sel).any Reg.writable := by
  cases u <;> (revert sel; decide +kernel)

/-- The two clauses of R119 that speak of WPARAM's register: an unlisted one has no writable row either. -/
theorem refusesRegister_wparam (u : UnitId) (sel : Byte) (dw : Word) : refusesRegister (.wparam u sel dw) =
    (!registerRows.any (fun r => r.1 == u.code.toNat && r.2.1 == sel.toNat) ||
      !registerRows.any (fun r => r.1 == u.code.toNat && r.2.1 == sel.toNat && r.2.2)) := by
  rw [registerRows_any_eq_isSome, registerRows_any_eq_writable, refusesRegister]
  cases regOf u sel <;> rfl

/-- `illegalWord`, with the quotients and remainders of CW named as the fields they are (R111 to R115). -/
theorem illegalWord_eq_of_fields (c : Cmd) : illegalWord c.cw.toNat =
    (!opcodes.contains c.op.toNat
      || ([0x00, 0x01, 0x02, 0x03, 0x22, 0x31, 0x32].contains c.op.toNat && c.addr.toNat != 0)
      || ([0x10, 0x11, 0x12, 0x13].contains c.op.toNat && (c.high.toNat != 0 || decide (7 < c.unit.toNat)))
      || (c.op.toNat == 0x30 && c.mid.toNat != 0)
      || ([0x12, 0x13].contains c.op.toNat && !registerRows.any (fun r => r.1 == c.unit.toNat && r.2.1 == c.low.toNat))
      || (c.op.toNat == 0x12 && !registerRows.any (fun r => r.1 == c.unit.toNat && r.2.1 == c.low.toNat && r.2.2))) := by
  have hop : c.cw.toNat / 2 ^ 24 = c.op.toNat := by rw [Cmd.op, toNat_field]; have := c.cw.isLt; omega
  have haddr : c.cw.toNat % 2 ^ 24 = c.addr.toNat := by simp [Cmd.addr]
  have hhigh : c.cw.toNat / 2 ^ 16 % 256 = c.high.toNat := (toNat_field 32 16 8 c.cw).symm
  have hunit : c.cw.toNat / 2 ^ 8 % 256 = c.unit.toNat := (toNat_field 32 8 8 c.cw).symm
  have hmid : c.cw.toNat / 2 ^ 8 % 2 ^ 16 = c.mid.toNat := (toNat_field 32 8 16 c.cw).symm
  have hlow : c.cw.toNat % 256 = c.low.toNat := by simp [Cmd.low]
  simp only [illegalWord, hop, haddr, hlow, hunit, hhigh, hmid]

theorem toNat_bne_zero {n : Nat} (x : BitVec n) : (x.toNat != 0) = !decide (x = 0#n) := by
  simp [bne, BitVec.toNat_eq, beq_eq_decide]

theorem isIllegal_decodeN (c : Cmd) {i : Instr} (hi : refusesRegister i = false) :
    isIllegal (decodeN c i) = (c.addr.toNat != 0) := by
  rw [toNat_bne_zero, decodeN]
  split <;> simp_all [isIllegal]

theorem isIllegal_decodeB (c : Cmd) {mk : Byte → Instr} (hi : refusesRegister (mk c.low) = false) :
    isIllegal (decodeB c mk) = (c.mid.toNat != 0) := by
  rw [toNat_bne_zero, decodeB]
  split <;> simp_all [isIllegal]

/-- In format P the register is looked at (`refused`) only where the two checks of the form pass. -/
theorem isIllegal_decodeP (c : Cmd) {mk : UnitId → Byte → Instr} {refused : Bool}
    (hi : ∀ u, u.code = c.unit → refusesRegister (mk u c.low) = refused) :
    isIllegal (decodeP c mk) = (c.high.toNat != 0 || decide (7 < c.unit.toNat) || refused) := by
  rw [toNat_bne_zero, decodeP]
  split
  · cases hu : UnitId.ofCode c.unit with
    | none => simp_all [isIllegal, ← UnitId.ofCode_none_iff]
    | some u =>
      have hreg := hi u (UnitId.code_of_ofCode hu)
      simp_all [isIllegal, ← UnitId.ofCode_none_iff]
  · simp_all [isIllegal]

/-- R119's five kinds on the number CW are: the word does not decode, or its register is refused. One case per opcode. -/
theorem illegalWord_eq_isIllegal_decode (f : Fmt) (c : Cmd) : illegalWord c.cw.toNat = isIllegal (decode f c) := by
  rw [illegalWord_eq_of_fields]
  unfold decode
  split
  case h_1 hop | h_2 hop | h_3 hop | h_4 hop | h_12 hop | h_14 hop | h_15 hop =>
    rw [hop, isIllegal_decodeN c rfl]
    simp [opcodes]
  case h_5 hop | h_10 hop | h_11 hop =>
    rw [hop]
    rfl
  case h_6 hop | h_7 hop =>
    rw [hop, isIllegal_decodeP c fun _ _ => rfl]
    simp [opcodes]
  case h_8 hop =>
    rw [hop, isIllegal_decodeP c fun u hu => by rw [refusesRegister_wparam, hu]]
    simp [opcodes, Bool.or_assoc]
  case h_9 hop =>
    rw [hop, isIllegal_decodeP c fun u hu => by rw [refusesRegister, ← registerRows_any_eq_isSome, hu]]
    simp [opcodes]
  case h_13 hop =>
    rw [hop, isIllegal_decodeB c rfl]
    simp [opcodes]
  case h_16 =>
    have hundefined : opcodes.contains c.op.toNat = false := by simp_all [opcodes]
    rw [hundefined]
    rfl

/-- A refused register is answered with ILLEGAL_COMMAND, and nothing else changes. -/
theorem exec_of_refusesRegister {i : Instr} (s : State) (h : refusesRegister i = true) :
    exec i s = .next (rejected s .illegalCommand) := by
  cases i with
  | wparam u sel dw =>
    rw [exec, execWparam]
    cases hr : regOf u sel with
    | none => rfl
    | some r =>
      have hw : r.writable = false := by simpa [refusesRegister, hr] using h
      simp only [hw]
      rfl
  | rparam u sel =>
    have hr : regOf u sel = none := by simpa [refusesRegister] using h
    rw [exec, execRparam, hr]
    rfl
  | _ => cases h

/-- A command answers the statuses of its row of R403 alone. -/
theorem mayAnswer_of_exec {i : Instr} {s t : State} {st : Status} (h : exec i s = .next t) (ht : statusOf t = some st) :
    mayAnswer i st = true := by
  obtain ⟨u, r, he, rfl⟩ := exec_effect h
  obtain rfl : r.st = st := Option.some.inj ht
  cases he
  case error hm _ _ => exact hm
  all_goals subst_vars; rfl

theorem param_of_mayAnswer_illegalCommand {i : Instr} (h : mayAnswer i .illegalCommand = true) :
    (∃ u sel dw, i = .wparam u sel dw) ∨ (∃ u sel, i = .rparam u sel) := by
  cases i <;> simp [mayAnswer] at h ⊢

/-- WPARAM of a writable register answers OK or INVALID_PARAMETER. -/
theorem statusOf_wparam_of_writable {u : UnitId} {sel : Byte} {dw : Word} {r : Reg} {s t : State}
    (hr : regOf u sel = some r) (hw : r.writable = true) (h : exec (.wparam u sel dw) s = .next t) :
    statusOf t = some .ok ∨ statusOf t = some .invalidParameter := by
  simp only [exec, execWparam, hr, hw, if_true] at h
  split at h
  · obtain rfl := Host.Outcome.next.inj h
    exact .inr rfl
  · rcases conclude_cases h with ⟨v, -, rfl⟩ | ⟨st, hst, rfl⟩
    · exact .inl rfl
    · obtain rfl := writeReg_error hst hw
      exact .inr rfl

/-- A decoded command answers ILLEGAL_COMMAND only for a refused register. -/
theorem refusesRegister_of_exec {i : Instr} {s t : State} (h : exec i s = .next t)
    (ht : statusOf t = some .illegalCommand) : refusesRegister i = true := by
  rcases param_of_mayAnswer_illegalCommand (mayAnswer_of_exec h ht) with ⟨u, sel, dw, rfl⟩ | ⟨u, sel, rfl⟩
  · by_contra hne
    obtain ⟨r, hr, hw⟩ : ∃ r, regOf u sel = some r ∧ r.writable = true := by
      simpa [refusesRegister, Option.any_eq_true] using hne
    rcases statusOf_wparam_of_writable hr hw h with hok | hinvalid
    · rw [hok] at ht; cases ht
    · rw [hinvalid] at ht; cases ht
  · cases hr : regOf u sel with
    | none => simp [refusesRegister, hr]
    | some r =>
      rw [exec, execRparam, hr] at h
      obtain rfl := Host.Outcome.next.inj h
      cases ht

/-- Settles O5: an illegal word does not decode or names a refused register (`illegalWord_eq_isIllegal_decode`), and these
two are what ILLEGAL_COMMAND answers. -/
theorem illegalEncodingsAreRefused : Obligations.IllegalEncodingsAreRefused := by
  intro s c rest hhost
  rw [illegalWord_eq_isIllegal_decode s.cfg.fmt, step_eq, hhost]
  cases hd : decode s.cfg.fmt c with
  | error e => exact ⟨fun _ => by simp only [hd]; rfl, fun h => by cases h⟩
  | ok i =>
    simp only [hd]
    refine ⟨fun h => exec_of_refusesRegister _ h, fun h t ht hst => ?_⟩
    rw [isIllegal, refusesRegister_of_exec ht hst] at h
    cases h

end Sys2Proof.Claims

/-! PROOFS. The width of data words (spec/30_encoding.md R110, R117): every REAL field, every memory word and every result
word has FMT_BITS bits. One predicate a unit, kept by each operation of the unit. -/

namespace Sys2Proof.Machine

/-! ### The REAL fields of each unit -/

structure Voice.Fits (f : Fmt) (v : Voice) : Prop where
  inp : f.fits v.inp = true
  gate : f.fits v.gate = true
  detune : f.fits v.detune = true
  fo : f.fits v.fo = true
  out : f.fits v.out = true

structure Ramp.Fits (f : Fmt) (r : Ramp) : Prop where
  fromVal : f.fits r.fromVal = true
  toVal : f.fits r.toVal = true
  pos : f.fits r.pos = true
  speed : f.fits r.speed = true
  endPos : f.fits r.endPos = true
  duration : f.fits r.duration = true
  out : f.fits r.out = true

structure Osc.Fits (f : Fmt) (o : Osc) : Prop where
  phase : f.fits o.phase = true
  inp : f.fits o.inp = true
  detune : f.fits o.detune = true
  feff : f.fits o.feff = true
  frac : f.fits o.frac = true
  out : f.fits o.out = true

structure Env.Fits (f : Fmt) (e : Env) : Prop where
  attack : f.fits e.attack = true
  decay : f.fits e.decay = true
  sustain : f.fits e.sustain = true
  release : f.fits e.release = true
  pos : f.fits e.pos = true
  anchor : f.fits e.anchor = true
  amp : f.fits e.amp = true
  gate : f.fits e.gate = true

structure Gain.Fits (f : Fmt) (g : Gain) : Prop where
  gain : f.fits g.gain = true
  inp : f.fits g.inp = true
  out : f.fits g.out = true

structure Filter.Fits (f : Fmt) (x : Filter) : Prop where
  base : f.fits x.base = true
  depth : f.fits x.depth = true
  q : f.fits x.q = true
  fc : f.fits x.fc = true
  b0 : f.fits x.b0 = true
  b1 : f.fits x.b1 = true
  b2 : f.fits x.b2 = true
  a1 : f.fits x.a1 = true
  a2 : f.fits x.a2 = true
  x1 : f.fits x.x1 = true
  x2 : f.fits x.x2 = true
  y1 : f.fits x.y1 = true
  y2 : f.fits x.y2 = true
  inp : f.fits x.inp = true
  fo : f.fits x.fo = true
  out : f.fits x.out = true

/-- The words of a memory have FMT_BITS bits. -/
def Memory.Fits (f : Fmt) (m : Memory) : Prop := m.all (fun c => f.fits c.2) = true

/-- `fitsInv` without its clause on the response, unit by unit. -/
structure State.RealsFit (s : State) : Prop where
  voice : s.voice.Fits s.cfg.fmt
  ramp : s.ramp.Fits s.cfg.fmt
  osc : s.osc.Fits s.cfg.fmt
  env : s.env.Fits s.cfg.fmt
  gain : s.gain.Fits s.cfg.fmt
  filter : s.filter.Fits s.cfg.fmt
  table : Memory.Fits s.cfg.fmt s.table
  outbuf : Memory.Fits s.cfg.fmt s.outbuf

theorem Voice.fits_iff (f : Fmt) (v : Voice) :
    v.Fits f ↔ [v.inp, v.gate, v.detune, v.fo, v.out].all f.fits = true := by
  refine ⟨fun ⟨_, _, _, _, _⟩ => by simp [*], fun h => ?_⟩
  constructor <;> simp_all

theorem Ramp.fits_iff (f : Fmt) (r : Ramp) :
    r.Fits f ↔ [r.fromVal, r.toVal, r.pos, r.speed, r.endPos, r.duration, r.out].all f.fits = true := by
  refine ⟨fun ⟨_, _, _, _, _, _, _⟩ => by simp [*], fun h => ?_⟩
  constructor <;> simp_all

theorem Osc.fits_iff (f : Fmt) (o : Osc) :
    o.Fits f ↔ [o.phase, o.inp, o.detune, o.feff, o.frac, o.out].all f.fits = true := by
  refine ⟨fun ⟨_, _, _, _, _, _⟩ => by simp [*], fun h => ?_⟩
  constructor <;> simp_all

theorem Env.fits_iff (f : Fmt) (e : Env) :
    e.Fits f ↔ [e.attack, e.decay, e.sustain, e.release, e.pos, e.anchor, e.amp, e.gate].all f.fits = true := by
  refine ⟨fun ⟨_, _, _, _, _, _, _, _⟩ => by simp [*], fun h => ?_⟩
  constructor <;> simp_all

theorem Gain.fits_iff (f : Fmt) (g : Gain) : g.Fits f ↔ [g.gain, g.inp, g.out].all f.fits = true := by
  refine ⟨fun ⟨_, _, _⟩ => by simp [*], fun h => ?_⟩
  constructor <;> simp_all

theorem Filter.fits_iff (f : Fmt) (x : Filter) :
    x.Fits f ↔ [x.base, x.depth, x.q, x.fc, x.b0, x.b1, x.b2, x.a1, x.a2].all f.fits = true ∧
      [x.x1, x.x2, x.y1, x.y2, x.inp, x.fo, x.out].all f.fits = true := by
  refine ⟨fun ⟨_, _, _, _, _, _, _, _, _, _, _, _, _, _, _, _⟩ => by simp [*], fun h => ?_⟩
  constructor <;> simp_all

theorem State.realsFit_iff (s : State) : s.RealsFit ↔ s.reals.all s.cfg.fmt.fits = true := by
  simp only [State.reals, List.all_append, List.all_map, Bool.and_eq_true, ← Voice.fits_iff, ← Ramp.fits_iff,
    ← Osc.fits_iff, ← Env.fits_iff, ← Gain.fits_iff]
  constructor
  · rintro ⟨hv, hr, ho, he, hg, hx, ht, hb⟩
    obtain ⟨hx, hx'⟩ := (Filter.fits_iff _ _).1 hx
    exact ⟨⟨⟨⟨⟨⟨⟨⟨hv, hr⟩, ho⟩, he⟩, hg⟩, hx⟩, hx'⟩, ht⟩, hb⟩
  · rintro ⟨⟨⟨⟨⟨⟨⟨⟨hv, hr⟩, ho⟩, he⟩, hg⟩, hx⟩, hx'⟩, ht⟩, hb⟩
    exact ⟨hv, hr, ho, he, hg, (Filter.fits_iff _ _).2 ⟨hx, hx'⟩, ht, hb⟩

theorem State.fitsInv_iff (s : State) :
    s.fitsInv = true ↔ s.RealsFit ∧ ∀ r, s.resp = some r → s.cfg.fmt.fits r.rw = true := by
  rw [State.fitsInv, Bool.and_eq_true, ← State.realsFit_iff]
  cases s.resp <;> simp

/-! ### Reset -/

theorem Voice.fits_reset (f : Fmt) : Voice.reset.Fits f := by
  constructor <;> exact Fp.zero_fits f

theorem Ramp.fits_reset (f : Fmt) : (Ramp.reset f).Fits f := by
  constructor
  case duration => exact Fp.ofRat_fits f _ _
  all_goals exact Fp.zero_fits f

theorem Osc.fits_reset (f : Fmt) : Osc.reset.Fits f := by
  constructor <;> exact Fp.zero_fits f

theorem Env.fits_reset (f : Fmt) : (Env.reset f).Fits f := by
  constructor
  case attack | decay | sustain | release => exact Fp.ofRat_fits f _ _
  all_goals exact Fp.zero_fits f

theorem Gain.fits_reset (f : Fmt) : Gain.reset.Fits f := by
  constructor <;> exact Fp.zero_fits f

theorem Filter.fits_reset (f : Fmt) : (Filter.reset f).Fits f := by
  constructor
  case base => exact Fp.ofInt_fits f _
  case q => cases f <;> decide
  all_goals exact Fp.zero_fits f

theorem State.RealsFit.softReset {s : State} (h : s.RealsFit) : (softReset s).RealsFit where
  voice := Voice.fits_reset _
  ramp := Ramp.fits_reset _
  osc := Osc.fits_reset _
  env := Env.fits_reset _
  gain := Gain.fits_reset _
  filter := Filter.fits_reset _
  table := h.table
  outbuf := rfl

/-! ### The ramp -/

theorem Ramp.value_fits {f : Fmt} {r : Ramp} (h : r.Fits f) : f.fits (r.value f) = true := by
  unfold Ramp.value
  split
  · exact h.pos
  · exact Fp.clamp_fits f (Fp.mul_fits f _ _) (Fp.fmin_fits f h.fromVal h.toVal) (Fp.fmax_fits f h.fromVal h.toVal)

theorem Ramp.Fits.plan {c : Cfg} {a b : Word} {r : Ramp} (h : r.Fits c.fmt) (ha : c.fmt.fits a = true)
    (hb : c.fmt.fits b = true) : (r.plan c a b).Fits c.fmt := by
  unfold Ramp.plan
  split
  · exact { h with fromVal := ha, toVal := hb, pos := ha, endPos := hb, speed := Fp.div_fits _ _ _ }
  · exact { h with
      fromVal := ha, toVal := hb, pos := Fp.zero_fits _, endPos := Fp.log2_fits _ _, speed := Fp.div_fits _ _ _ }

theorem Ramp.Fits.jump {f : Fmt} {v : Word} {r : Ramp} (h : r.Fits f) (hv : f.fits v = true) : (r.jump v).Fits f := by
  unfold Ramp.jump
  split
  · exact { h with fromVal := hv, toVal := hv, speed := Fp.zero_fits f, pos := hv, endPos := hv }
  · exact { h with fromVal := hv, toVal := hv, speed := Fp.zero_fits f, pos := Fp.zero_fits f, endPos := Fp.zero_fits f }

theorem Ramp.Fits.goto {c : Cfg} {v : Word} {r : Ramp} (h : r.Fits c.fmt) (hv : c.fmt.fits v = true) :
    (r.goto c v).Fits c.fmt := by
  unfold Ramp.goto
  split
  · exact h.jump hv
  · exact h.plan (Ramp.value_fits h) hv

theorem Ramp.startPos_fits {f : Fmt} {r : Ramp} (h : r.Fits f) : f.fits r.startPos = true := by
  unfold Ramp.startPos
  split
  · exact h.fromVal
  · exact Fp.zero_fits f

theorem Ramp.Fits.tick {f : Fmt} {r : Ramp} (h : r.Fits f) : (r.tick f).Fits f :=
  { h with
    out := Ramp.value_fits h
    pos := Fp.clamp_fits f (Fp.add_fits f _ _) (Fp.fmin_fits f (Ramp.startPos_fits h) h.endPos)
      (Fp.fmax_fits f (Ramp.startPos_fits h) h.endPos) }

/-! ### The oscillator -/

theorem octave_frac_fits (c : Cfg) (freq : Word) : c.fmt.fits (octave c freq).2 = true := by
  unfold octave
  split
  · exact Fp.zero_fits _
  · split
    · exact Fp.zero_fits _
    · exact Fp.sub_fits _ _ _

theorem octaveSample_fits {c : Cfg} {table : Memory} {bank : Byte} {phase freq w : Word}
    (h : octaveSample c table bank phase freq = .ok w) : c.fmt.fits w = true := by
  unfold octaveSample at h
  split at h
  · cases h
  · split at h
    · cases h
    · exact Except.ok.inj h ▸ Fp.lerp_fits _ _ _ _

theorem Osc.Fits.tick {c : Cfg} {table : Memory} {o o' : Osc} (h : o.Fits c.fmt) (ht : o.tick c table = .ok o') :
    o'.Fits c.fmt := by
  obtain ⟨out, hout, rfl⟩ := Osc.tick_cases ht
  exact { h with
    feff := Fp.mul_fits _ _ _
    frac := octave_frac_fits c _
    out := octaveSample_fits hout
    phase := Fp.sub_fits _ _ _ }

/-! ### The envelope and the gain -/

theorem Env.Fits.enter {f : Fmt} {e : Env} (h : e.Fits f) (seg : Segment) : (e.enter seg).Fits f :=
  { h with anchor := h.amp, pos := Fp.zero_fits f }

theorem Env.Fits.gateStep {f : Fmt} {e : Env} (h : e.Fits f) : (e.gateStep f).Fits f := by
  unfold Env.gateStep
  split
  case h_1 => split; exacts [h.enter _, h]
  all_goals split; exacts [h, h.enter _]

theorem Env.Fits.attackStep {c : Cfg} {e : Env} (h : e.Fits c.fmt) : (e.attackStep c).Fits c.fmt := by
  unfold Env.attackStep
  split
  · exact { h with amp := Fp.ofInt_fits _ _, pos := Fp.zero_fits _ }
  · exact { h with amp := Fp.lerp_fits _ _ _ _, pos := Fp.add_fits _ _ _ }

theorem Env.Fits.decayStep {c : Cfg} {e : Env} (h : e.Fits c.fmt) : (e.decayStep c).Fits c.fmt := by
  unfold Env.decayStep
  split
  · exact { h with amp := h.sustain, pos := Fp.add_fits _ _ _ }
  · exact { h with amp := Fp.lerp_fits _ _ _ _, pos := Fp.add_fits _ _ _ }

theorem Env.Fits.releaseStep {c : Cfg} {e : Env} (h : e.Fits c.fmt) : (e.releaseStep c).Fits c.fmt := by
  unfold Env.releaseStep
  split
  · exact { h with
      amp := Fp.clamp_fits _ (Fp.lerp_fits _ _ _ _) (Fp.zero_fits _) (Fp.ofInt_fits _ _), pos := Fp.add_fits _ _ _ }
  · exact h

theorem Env.Fits.tick {c : Cfg} {e : Env} (h : e.Fits c.fmt) : (e.tick c).Fits c.fmt := by
  have hg := h.gateStep
  unfold Env.tick Env.segmentStep
  split
  · exact hg.attackStep
  · exact hg.decayStep
  · exact { hg with amp := hg.sustain }
  · exact hg.releaseStep

theorem Gain.Fits.tick {f : Fmt} {g : Gain} (h : g.Fits f) : (g.tick f).Fits f := { h with out := Fp.mul_fits f _ _ }

/-! ### The filter -/

theorem Filter.Fits.refresh {c : Cfg} {x : Filter} (h : x.Fits c.fmt) (hmin : c.fmt.fits c.cutoffMin = true)
    (hmax : c.fmt.fits c.cutoffMax = true) : (x.refresh c).Fits c.fmt := by
  unfold Filter.refresh
  split
  · exact { h with
      fc := Fp.clamp_fits _ (Fp.add_fits _ _ _) hmin hmax
      b0 := Fp.mul_fits _ _ _
      b1 := Fp.mul_fits _ _ _
      b2 := Fp.mul_fits _ _ _
      a1 := Fp.mul_fits _ _ _
      a2 := Fp.mul_fits _ _ _ }
  · exact h

theorem Filter.Fits.sample {f : Fmt} {x : Filter} (h : x.Fits f) : (x.sample f).Fits f :=
  { h with x2 := h.x1, x1 := h.inp, y2 := h.y1, y1 := Fp.sub_fits f _ _, out := Fp.sub_fits f _ _ }

theorem Filter.Fits.tick {c : Cfg} {x : Filter} (h : x.Fits c.fmt) (hmin : c.fmt.fits c.cutoffMin = true)
    (hmax : c.fmt.fits c.cutoffMax = true) : (x.tick c).Fits c.fmt := (h.refresh hmin hmax).sample

/-! ### The memories -/

theorem Memory.Fits.write {f : Fmt} {m : Memory} (h : m.Fits f) (d : Option Word) (a : Nat) {v : Word}
    (hv : f.fits v = true) : (Memory.write d m a v).Fits f := Memory.all_write _ d m a v h hv

theorem Memory.Fits.lookup {f : Fmt} {m : Memory} (h : m.Fits f) {a : Nat} {w : Word}
    (hw : Memory.lookup m a = some w) : f.fits w = true := by
  induction m with
  | nil => cases hw
  | cons c rest ih =>
    obtain ⟨hc, hrest⟩ : f.fits c.2 = true ∧ Memory.Fits f rest := by simpa [Memory.Fits] using h
    unfold Memory.lookup at hw
    split at hw
    · exact Option.some.inj hw ▸ hc
    · exact ih hrest hw

theorem State.outbufRead_fits {s : State} (h : Memory.Fits s.cfg.fmt s.outbuf) (a : Nat) :
    s.cfg.fmt.fits (s.outbufRead a) = true := by
  unfold State.outbufRead Memory.read
  split
  · rename_i w hw; exact h.lookup hw
  · exact Fp.zero_fits _

/-! ### A sample tick -/

theorem State.RealsFit.noteOn {s : State} (h : s.RealsFit) (n : Byte) : (noteOn n s).RealsFit :=
  { h with
    voice := { h.voice with gate := Fp.ofInt_fits _ _, inp := Fp.mul_fits _ _ _ }
    ramp := h.ramp.goto (Fp.mul_fits _ _ _) }

theorem State.RealsFit.noteOff {s : State} (h : s.RealsFit) (n : Byte) : (noteOff n s).RealsFit := by
  unfold Machine.noteOff
  split
  · exact { h with voice := { h.voice with gate := Fp.zero_fits _ } }
  · exact h

theorem State.RealsFit.applyEvent {s : State} (h : s.RealsFit) (e : BitVec 32) : (applyEvent e s).RealsFit := by
  rcases applyEvent_cases e s with ⟨-, -, heq⟩ | ⟨-, heq⟩ | ⟨-, -, heq⟩ <;> rw [heq]
  · exact h.noteOn _
  · exact h.noteOff _
  · exact h

theorem State.RealsFit.drainStage {s : State} (h : s.RealsFit) : (drainStage s).RealsFit := by
  unfold Machine.drainStage
  split
  · exact applyEvents_induct (Inv := State.RealsFit) (P := fun _ => True) (fun e _ _ hu => hu.applyEvent e) s.midi.q
      (fun _ _ => trivial) _ { h with }
  · exact h

/-- R155, in the order of the stages: each unit's input fits, so its tick does. -/
theorem State.RealsFit.sampleTick {s t : State} (h : s.RealsFit) (hmin : s.cfg.fmt.fits s.cfg.cutoffMin = true)
    (hmax : s.cfg.fmt.fits s.cfg.cutoffMax = true) (ht : sampleTick s = .ok t) : t.RealsFit := by
  obtain ⟨v, r, o, hdrain, hosc, rfl⟩ := sampleTick_ok ht
  have hd := h.drainStage
  rw [hdrain] at hd
  have hr : (r.tick s.cfg.fmt).Fits s.cfg.fmt := Ramp.Fits.tick hd.ramp
  have hlatched : Osc.Fits s.cfg.fmt { s.osc with inp := (r.tick s.cfg.fmt).out, detune := v.detune } :=
    { h.osc with inp := hr.out, detune := hd.voice.detune }
  have ho : o.Fits s.cfg.fmt := hlatched.tick hosc
  have he : (Env.tick s.cfg { s.env with gate := v.gate }).Fits s.cfg.fmt :=
    Env.Fits.tick { h.env with gate := hd.voice.gate }
  have hlevels : Gain.Fits s.cfg.fmt ⟨_, o.out, s.gain.out⟩ := ⟨he.amp, ho.out, h.gain.out⟩
  have hg := hlevels.tick
  cases hf : s.ctrl.filterEn
  · exact { h with
      voice := { hd.voice with out := hg.out }, ramp := hr, osc := ho, env := he, gain := hg
      filter := { h.filter with fo := hd.voice.fo } }
  · have hinput : Filter.Fits s.cfg.fmt { s.filter with fo := v.fo, inp := _ } :=
      { h.filter with fo := hd.voice.fo, inp := hg.out }
    have hx := hinput.tick hmin hmax
    exact { h with voice := { hd.voice with out := hx.out }, ramp := hr, osc := ho, env := he, gain := hg, filter := hx }

theorem State.RealsFit.blockTicks {s t : State} (h : s.RealsFit) (hmin : s.cfg.fmt.fits s.cfg.cutoffMin = true)
    (hmax : s.cfg.fmt.fits s.cfg.cutoffMax = true) {n i : Nat} (ht : blockTicks n i s = .ok t) : t.RealsFit := by
  have hinv : t.cfg = s.cfg ∧ t.RealsFit := by
    refine blockTicks_induct (Inv := fun u => u.cfg = s.cfg ∧ u.RealsFit) (fun j u v _ _ hu hv => ?_) ⟨rfl, h⟩ ht
    obtain ⟨hcfg, hfit⟩ := hu
    have hfit' := hfit.sampleTick (by rwa [hcfg]) (by rwa [hcfg]) hv
    exact ⟨(Claims.sampleTick_keepsTables hv).cfg.trans hcfg,
      { hfit' with outbuf := hfit'.outbuf.write _ _ hfit'.voice.out }⟩
  exact hinv.2

/-! ### The writes of the host -/

theorem PortEffect.realsFit {dw : Word} {s t : State} (h : PortEffect dw s t) (hs : s.RealsFit)
    (hdw : s.cfg.fmt.fits dw = true) : t.RealsFit := by
  cases h
  case voiceIn =>
    exact { hs with ramp := hs.ramp.plan (Ramp.value_fits hs.ramp) hdw, voice := { hs.voice with inp := hdw } }
  case gate => exact { hs with voice := { hs.voice with gate := hdw } }
  case detune => exact { hs with voice := { hs.voice with detune := hdw } }
  case filterOffset => exact { hs with voice := { hs.voice with fo := hdw }, filter := { hs.filter with } }

theorem RegEffect.realsFit {dw : Word} {s t : State} (h : RegEffect dw s t) (hs : s.RealsFit)
    (hdw : s.cfg.fmt.fits dw = true) : t.RealsFit := by
  cases h
  case rampValue => exact { hs with ramp := hs.ramp.jump hdw, voice := { hs.voice with inp := hdw } }
  case rampDuration => exact { hs with ramp := { hs.ramp with duration := hdw } }
  case rampCurve k _ _ =>
    have hk : Ramp.Fits s.cfg.fmt { s.ramp with curve := k } := { hs.ramp with }
    exact { hs with ramp := hk.plan (Ramp.value_fits hs.ramp) hs.ramp.toVal }
  case oscBank => exact { hs with osc := { hs.osc with } }
  case oscPhase => exact { hs with osc := { hs.osc with phase := hdw } }
  case envAttack => exact { hs with env := { hs.env with attack := hdw } }
  case envDecay => exact { hs with env := { hs.env with decay := hdw } }
  case envRelease => exact { hs with env := { hs.env with release := hdw } }
  case envSustain => exact { hs with env := { hs.env with sustain := hdw } }
  case filterBase => exact { hs with filter := { hs.filter with base := hdw } }
  case filterDepth => exact { hs with filter := { hs.filter with depth := hdw } }
  case filterQ => exact { hs with filter := { hs.filter with q := hdw } }
  case rampCurveSame => exact hs
  case sysCtrl | sysStatus => exact { hs with }

end Sys2Proof.Machine

namespace Sys2Proof.Claims

open Sys2Proof Sys2Proof.Machine

/-! ### Result words (R117) -/

theorem intWord_fits (f : Fmt) {n : Nat} (h : n < 2 ^ 32) : f.fits (intWord n) = true := by
  rw [fits_iff_lt_of_binary32, intWord, BitVec.toNat_ofNat]
  omega

theorem readPort_fits {s : State} (h : s.RealsFit) (p : Port) : s.cfg.fmt.fits (readPort p s) = true := by
  cases p with
  | voiceIn => exact h.voice.inp
  | voiceOut => exact h.voice.out
  | voiceGate => exact h.voice.gate
  | voiceDetune => exact h.voice.detune
  | voiceFilterOffset => exact h.voice.fo
  | rampIn => exact h.ramp.toVal
  | rampOut => exact h.ramp.out
  | oscIn => exact h.osc.inp
  | oscOut => exact h.osc.out
  | oscDetune => exact h.osc.detune
  | envOut => exact h.env.amp
  | envGate => exact h.env.gate
  | gainIn => exact h.gain.inp
  | gainOut => exact h.gain.out
  | filterIn => exact h.filter.inp
  | filterOut => exact h.filter.out
  | filterFilterOffset => exact h.filter.fo

theorem statusWord_fits (s : State) : s.cfg.fmt.fits s.statusWord = true := by
  apply intWord_fits
  have hrun := Bool.toNat_le (decide (s.lifecycle = .run))
  have herr := Bool.toNat_le s.midiErr
  have hnonfinite := Bool.toNat_le s.nonfinite
  have hfull := Bool.toNat_le s.evqFull
  have hnonempty := Bool.toNat_le s.evqNonempty
  have hseg := segmentCode_lt s.env.state
  have hactive := Bool.toNat_le (s.ramp.active s.cfg.fmt)
  have hdirty := Bool.toNat_le s.filter.dirty
  rw [lifecycleCode_eq_toNat]
  omega

theorem midi_count_le {s : State} (hm : s.midiInv = true) : s.midi.count ≤ s.cfg.evqDepth := by
  simp only [State.midiInv, Bool.and_eq_true, decide_eq_true_eq] at hm
  obtain ⟨⟨⟨hcount, -⟩, -⟩, -⟩ := hm
  exact hcount

theorem cfgWords_fit {c : Cfg} (h : c.valid = true) :
    ∀ w ∈ [c.fs, c.baseFreq, c.qMin, c.cutoffMin, c.cutoffMax, c.detuneMax], c.fmt.fits w = true := by
  intro w hw
  rw [fits_iff_lt_of_binary32]
  exact (((valid_iff_legalConfig c).1 h).1 w hw).1

/-- R5: the integer parameters are far below 2^32. -/
theorem cfgSizes_le {c : Cfg} (h : c.valid = true) :
    c.blockSize ≤ 2 ^ 24 ∧ c.tableLen ≤ 2 ^ 16 ∧ c.numTables ≤ 255 ∧ c.numBanks ≤ 255 ∧ c.evqDepth ≤ 255 := by
  obtain ⟨-, -, hblock, ⟨n, -, hn, hlen⟩, htables, hbanks, -, hdepth, -⟩ := (valid_iff_legalConfig c).1 h
  exact ⟨hblock.2, hlen ▸ Nat.pow_le_pow_right (by decide) hn, htables.2, hbanks.2, hdepth.2⟩

theorem readReg_fits_of_real {s : State} (hc : s.cfg.valid = true) (h : s.RealsFit) {r : Reg} (hr : r.kind = .real) :
    s.cfg.fmt.fits (readReg r s) = true := by
  have hcfg := cfgWords_fit hc
  cases r
  case rampValue => exact Ramp.value_fits h.ramp
  case sysFs | sysBaseFreq | sysQMin | sysCutoffMin | sysCutoffMax | sysDetuneMax => exact hcfg _ (by simp [readReg])
  case rampDuration => exact h.ramp.duration
  case rampFrom => exact h.ramp.fromVal
  case rampTo => exact h.ramp.toVal
  case rampPos => exact h.ramp.pos
  case rampSpeed => exact h.ramp.speed
  case rampEnd => exact h.ramp.endPos
  case oscPhase => exact h.osc.phase
  case oscFeff => exact h.osc.feff
  case oscFrac => exact h.osc.frac
  case envAttack => exact h.env.attack
  case envDecay => exact h.env.decay
  case envSustain => exact h.env.sustain
  case envRelease => exact h.env.release
  case envPos => exact h.env.pos
  case envAnchor => exact h.env.anchor
  case envAmp => exact h.env.amp
  case gainGain => exact h.gain.gain
  case filterBase => exact h.filter.base
  case filterDepth => exact h.filter.depth
  case filterQ => exact h.filter.q
  case filterFc => exact h.filter.fc
  case filterB0 => exact h.filter.b0
  case filterB1 => exact h.filter.b1
  case filterB2 => exact h.filter.b2
  case filterA1 => exact h.filter.a1
  case filterA2 => exact h.filter.a2
  case filterX1 => exact h.filter.x1
  case filterX2 => exact h.filter.x2
  case filterY1 => exact h.filter.y1
  case filterY2 => exact h.filter.y2
  all_goals cases hr

theorem intWord_toNat_fits (f : Fmt) {n : Nat} (b : BitVec n) (hn : n ≤ 32) : f.fits (intWord b.toNat) = true :=
  intWord_fits f (Nat.lt_of_lt_of_le b.isLt (Nat.pow_le_pow_right (by decide) hn))

theorem readReg_fits_of_int {s : State} (hc : s.cfg.valid = true) (hm : s.midiInv = true) {r : Reg} (hr : r.kind = .int) :
    s.cfg.fmt.fits (readReg r s) = true := by
  obtain ⟨hblock, hlen, htables, hbanks, hdepth⟩ := cfgSizes_le hc
  cases r
  case voiceNote | oscBank | oscK | midiBlen | midiNeed | midiSxlen | sysSampleCount => exact intWord_toNat_fits _ _ (by decide)
  case sysStatus => exact statusWord_fits s
  case sysBlockSize | sysTableLen | sysNumTables | sysNumBanks | sysEvqDepth => exact intWord_fits _ (by omega)
  case midiCount => exact intWord_fits _ (by have := midi_count_le hm; omega)
  case midiBuf => exact intWord_fits _ (by omega)
  case filterDirty => exact intWord_fits _ (by have := Bool.toNat_le s.filter.dirty; omega)
  case rampCurve => exact intWord_fits _ (by cases s.ramp.curve <;> decide)
  case envState => exact intWord_fits _ (by cases s.env.state <;> decide)
  case midiPstate => exact intWord_fits _ (by cases s.midi.pstate <;> decide)
  case sysLifecycle => exact intWord_fits _ (by cases s.lifecycle <;> decide)
  case sysFmt => exact intWord_fits _ (by cases s.cfg.fmt <;> decide)
  case sysCtrl =>
    exact intWord_fits _ (by have := Bool.toNat_le s.ctrl.filterEn; have := Bool.toNat_le s.ctrl.midiDrive; omega)
  case sysId => exact intWord_fits _ (by decide)
  all_goals cases hr

theorem readReg_fits {s : State} (hc : s.cfg.valid = true) (hm : s.midiInv = true) (hs : s.RealsFit) (r : Reg) :
    s.cfg.fmt.fits (readReg r s) = true := by
  cases hr : r.kind with
  | real => exact readReg_fits_of_real hc hs hr
  | int => exact readReg_fits_of_int hc hm hr

/-! ### The queue under MPUSH -/

theorem emitEvent_count {d : Nat} {e : BitVec 32} {m m' : Midi} (h : emitEvent d e m = .taken m') :
    m'.count ≤ m.count + 1 := by
  obtain ⟨-, rfl⟩ := emitEvent_taken h
  simp [Midi.count]

theorem startMsg_count {b : Byte} {n : BitVec 2} {m m' : Midi} (h : startMsg b n m = .taken m') :
    m'.count ≤ m.count + 1 := by
  obtain rfl := ByteResult.taken.inj h
  exact Nat.le_succ _

theorem idleByte_count {d : Nat} {b : Byte} {m m' : Midi} (h : idleByte d b m = .taken m') :
    m'.count ≤ m.count + 1 := by
  unfold idleByte at h
  split at h
  case h_8 =>
    split at h
    case h_1 => obtain rfl := ByteResult.taken.inj h; exact Nat.le_succ _
    case h_2 | h_3 | h_4 => exact startMsg_count h
    case h_7 | h_9 => exact emitEvent_count h
    all_goals cases h
  case h_9 => cases h
  all_goals exact startMsg_count h

theorem storeByte_q (b : Byte) (m : Midi) : (storeByte b m).q = m.q := by
  unfold storeByte
  split <;> rfl

theorem msgByte_count {d : Nat} {b : Byte} {m m' : Midi} (h : msgByte d b m = .taken m') : m'.count ≤ m.count + 1 := by
  unfold msgByte at h
  split at h
  · cases h
  · split at h
    · exact emitEvent_count (m := clearBuf m) h
    · obtain rfl := ByteResult.taken.inj h
      simp [Midi.count, storeByte_q]

theorem sysexByte_count {d : Nat} {b : Byte} {m m' : Midi} (h : sysexByte d b m = .taken m') :
    m'.count ≤ m.count + 1 := by
  unfold sysexByte at h
  split at h
  · exact emitEvent_count (m := { m with sxlen := 0#16, pstate := .idle }) h
  · split at h
    · cases h
    · obtain rfl := ByteResult.taken.inj h
      exact Nat.le_succ _

/-- A byte that is taken adds at most one event to the queue. -/
theorem parseByte_count {d : Nat} {b : Byte} {m m' : Midi} (h : parseByte d b m = .taken m') :
    m'.count ≤ m.count + 1 := by
  unfold parseByte at h
  split at h
  · exact idleByte_count h
  · exact msgByte_count h
  · exact sysexByte_count h
  · cases h

/-! ### A step -/

/-- A data word comes into the state from the command alone, and everything else that is stored is an FMT result. -/
theorem effect_realsFit {i : Instr} {s t : State} {r : Response} (h : Effect i s t r) (hwf : i.wf s.cfg.fmt = true)
    (hc : s.cfg.valid = true) (hs : s.RealsFit) : t.RealsFit := by
  have hmin := cfgWords_fit hc s.cfg.cutoffMin (by simp)
  have hmax := cfgWords_fit hc s.cfg.cutoffMax (by simp)
  cases h
  case reset => exact hs.softReset
  case tick ht => exact hs.sampleTick hmin hmax ht
  case tickb ht => exact hs.blockTicks hmin hmax ht
  case port hi hp => subst hi; exact hp.realsFit hs hwf
  case reg hi hr => subst hi; exact hr.realsFit hs hwf
  case twrite a _ hi _ _ _ => subst hi; exact { hs with table := hs.table.write tableDefault a.toNat hwf }
  case sealed | byte | broken | pop | mreset => exact { hs with }
  all_goals exact hs

/-- R117: a REAL result is a field or a memory word, an INT result is below 2^32. -/
theorem effect_rw_fits {i : Instr} {s t : State} {r : Response} (h : Effect i s t r) (hc : s.cfg.valid = true)
    (hm : s.midiInv = true) (hs : s.RealsFit) (ht : t.RealsFit) : t.cfg.fmt.fits r.rw = true := by
  cases h
  case tick | tickb => exact ht.voice.out
  case rdbuf => exact State.outbufRead_fits hs.outbuf _
  case rport p _ _ => exact readPort_fits hs p
  case rparam r _ _ => exact readReg_fits hc hm hs r
  case tread hw => rw [State.tableRead_eq_lookup] at hw; exact hs.table.lookup hw
  case byte hp =>
    obtain ⟨-, -, -, -, hdepth⟩ := cfgSizes_le hc
    have hbefore := midi_count_le hm
    have hafter := parseByte_count hp
    exact intWord_fits _ (by omega)
  case pop _ e _ _ => exact intWord_fits _ e.isLt
  all_goals exact Fp.zero_fits _

/-- Settles O18: a decoded data word fits (`encodeOfDecodeIsIdentity`), so every effect keeps the fields and memories within
FMT_BITS bits (`effect_realsFit`) and answers a word that fits (`effect_rw_fits`). -/
theorem stepKeepsWordWidths : Obligations.StepKeepsWordWidths := by
  intro s t hc hm hfits h
  obtain ⟨hs, -⟩ := (State.fitsInv_iff s).1 hfits
  rcases step_cases h with ⟨-, rfl⟩ | ⟨c, rest, i, -, hd, hx⟩ | ⟨c, rest, e, -, -, rfl⟩
  · exact hfits
  · obtain ⟨u, r, he, rfl⟩ := exec_effect hx
    have hs' : (s.setHost rest).RealsFit := { hs with }
    have hu := effect_realsFit he (encodeOfDecodeIsIdentity _ _ _ hd).1 hc hs'
    have hr := effect_rw_fits he hc hm hs' hu
    exact (State.fitsInv_iff _).2 ⟨{ hu with }, fun _ heq => Option.some.inj heq ▸ hr⟩
  · exact (State.fitsInv_iff _).2 ⟨{ hs with }, fun _ heq => Option.some.inj heq ▸ Fp.zero_fits _⟩

end Sys2Proof.Claims

/-! PROOFS. The frame of a sample tick and its stages (spec/40_commands.md R155, spec/45_gain_voice.md R337): what the drain
and the units leave unchanged, read off the whole new state that `sampleTick_ok` gives. -/

namespace Sys2Proof.Machine

/-! ### The drain -/

/-- The drained voice `v` and ramp `r` differ from those of `s` in what a note sets, and only where events are driven. -/
structure DrainKeeps (s : State) (v : Voice) (r : Ramp) : Prop where
  detune : v.detune = s.voice.detune
  fo : v.fo = s.voice.fo
  curve : r.curve = s.ramp.curve
  duration : r.duration = s.ramp.duration
  undriven : s.ctrl.midiDrive = false → v = s.voice ∧ r = s.ramp

/-- The drain stage determines the voice and the ramp that it is written with. -/
theorem drainStage_keeps {s : State} {m : Midi} {v : Voice} {r : Ramp}
    (h : drainStage s = ((s.setMidi m).setVoice v).setRamp r) : DrainKeeps s v r := by
  obtain ⟨v', r', h', hdetune, hfo, -, hcurve, hduration, -, hundriven⟩ := drainStage_frame s
  rw [h'] at h
  obtain rfl : v' = v := congrArg State.voice h
  obtain rfl : r' = r := congrArg State.ramp h
  exact ⟨hdetune, hfo, hcurve, hduration, hundriven⟩

/-- An empty queue drains to nothing. -/
theorem voiceDrain_nil {s : State} (h : s.midi.q = []) : voiceDrain s = s := by
  have hmidi : ({ s.midi with q := [] } : Midi) = s.midi := by rw [← h]
  rw [voiceDrain, h, hmidi]
  rfl

/-- The drain takes the oldest event first (R337). -/
theorem voiceDrain_cons {s : State} {e : BitVec 32} {rest : List (BitVec 32)} (h : s.midi.q = e :: rest) :
    voiceDrain s = voiceDrain (applyEvent e (s.setMidi { s.midi with q := rest })) := by
  rw [voiceDrain, h, applyEvents, applyEvent_setMidi, applyEvent_setMidi]
  obtain ⟨v, r, he, -⟩ := applyEvent_frame e s
  rw [he]
  rfl

end Sys2Proof.Machine

namespace Sys2Proof.Claims

open Sys2Proof Sys2Proof.Machine

/-! ### R155: the frame and the stages -/

/-- The parameters of the filter pass through the filter stage, whether it runs or not. -/
theorem filterStage_keeps (c : Cfg) (x : Filter) (on : Bool) (fo inp : Word) :
    let y := if on then Filter.tick c { x with fo := fo, inp := inp } else { x with fo := fo }
    y.base = x.base ∧ y.depth = x.depth ∧ y.q = x.q := by
  obtain ⟨hbase, hdepth, hq, -⟩ := Filter.tick_keeps c { x with fo := fo, inp := inp }
  cases on
  · exact ⟨rfl, rfl, rfl⟩
  · exact ⟨hbase, hdepth, hq⟩

/-- Settles O25: the new state is written out by `sampleTick_ok`; what is left is what the drain (`drainStage_keeps`) and the
ticks of the units keep. -/
theorem sampleTickFrame : Obligations.SampleTickFrame := by
  intro s t h
  obtain ⟨v, r, o, hdrain, hosc, rfl⟩ := sampleTick_ok h
  have hd := drainStage_keeps hdrain
  obtain ⟨out, -, rfl⟩ := Osc.tick_cases hosc
  obtain ⟨hattack, hdecay, hsustain, hrelease, -⟩ := Env.tick_keeps s.cfg { s.env with gate := v.gate }
  refine ⟨rfl, rfl, rfl, rfl, rfl, rfl, rfl, rfl, rfl, hd.detune, hd.fo, rfl, hd.curve, hd.duration, rfl,
    ⟨hattack, hdecay, hsustain, hrelease⟩, filterStage_keeps _ _ _ _ _, fun hoff => ?_⟩
  obtain ⟨rfl, rfl⟩ := hd.undriven hoff
  exact ⟨rfl, rfl, rfl, rfl, rfl, rfl, rfl⟩

theorem startPos_eq_ite (r : Ramp) : r.startPos = if r.curve = .lin then r.fromVal else Fp.zero := by
  rw [Ramp.startPos]
  cases r.curve <;> rfl

/-- Settles O23: the stages are the fields that `sampleTick_ok` writes out, from the state `u` that the drain leaves; the
drain itself is `voiceDrain_nil` and `voiceDrain_cons`. -/
theorem sampleTickStages : Obligations.SampleTickStages := by
  refine ⟨fun s t h => ?_, fun s h => voiceDrain_nil h, fun s e rest h => voiceDrain_cons h⟩
  obtain ⟨v, r, o, hdrain, hosc, rfl⟩ := sampleTick_ok h
  have hvoice : (drainStage s).voice = v := congrArg State.voice hdrain
  have hramp : (drainStage s).ramp = r := congrArg State.ramp hdrain
  refine ⟨drainStage s, rfl, ?_⟩
  rw [hvoice, hramp, ← startPos_eq_ite]
  refine ⟨rfl, hosc, rfl, rfl, fun hon => ?_, rfl⟩
  simp only [hon]
  rfl

end Sys2Proof.Claims

/-! PROOFS. The legal values of the host-written parameters (spec/40_commands.md R160 and the rules it names):
one predicate a unit, kept by a sample tick, by the soft reset and by every accepted write. -/

namespace Sys2Proof.Machine

/-! ### The legal values, unit by unit -/

/-- R201, R307: a legal duration. -/
structure IsDuration (f : Fmt) (w : Word) : Prop where
  finite : Fp.finite f w = true
  pos : Fp.lt f Fp.zero w = true

structure Env.Legal (f : Fmt) (e : Env) : Prop where
  attack : IsDuration f e.attack
  decay : IsDuration f e.decay
  release : IsDuration f e.release
  sustain : inUnit f e.sustain = true

/-- R231 to R233. The reset value of FILTER.q is legal too (notes/assumptions/19.md). -/
structure Filter.Legal (c : Cfg) (x : Filter) : Prop where
  base : Fp.finite c.fmt x.base = true
  depth : Fp.finite c.fmt x.depth = true
  q : Fp.finite c.fmt x.q = true
  qMin : x.q = Fp.invSqrt2 c.fmt ∨ Fp.lt c.fmt x.q c.qMin = false

/-- R333 to R335. -/
structure Voice.Legal (c : Cfg) (v : Voice) : Prop where
  gate : Fp.finite c.fmt v.gate = true
  fo : Fp.finite c.fmt v.fo = true
  detune : Fp.finite c.fmt v.detune = true
  detuneMax : Fp.lt c.fmt c.detuneMax (Fp.abs c.fmt v.detune) = false

/-- `paramInv`, unit by unit. -/
structure State.Legal (s : State) : Prop where
  env : s.env.Legal s.cfg.fmt
  duration : IsDuration s.cfg.fmt s.ramp.duration
  filter : s.filter.Legal s.cfg
  bank : s.osc.bank.toNat < s.cfg.numBanks
  voice : s.voice.Legal s.cfg

theorem State.paramInv_iff (s : State) : s.paramInv = true ↔ s.Legal := by
  simp only [State.paramInv, Bool.and_eq_true, Bool.or_eq_true, decide_eq_true_eq, Bool.not_eq_true', and_assoc]
  constructor
  · rintro ⟨ha, ha', hd, hd', hr, hr', hs, ht, ht', hbase, hdepth, hq, hq', hbank, hgate, hfo, hdet, hdet'⟩
    exact ⟨⟨⟨ha, ha'⟩, ⟨hd, hd'⟩, ⟨hr, hr'⟩, hs⟩, ⟨ht, ht'⟩, ⟨hbase, hdepth, hq, hq'⟩, hbank, ⟨hgate, hfo, hdet, hdet'⟩⟩
  · rintro ⟨⟨⟨ha, ha'⟩, ⟨hd, hd'⟩, ⟨hr, hr'⟩, hs⟩, ⟨ht, ht'⟩, ⟨hbase, hdepth, hq, hq'⟩, hbank, ⟨hgate, hfo, hdet, hdet'⟩⟩
    exact ⟨ha, ha', hd, hd', hr, hr', hs, ht, ht', hbase, hdepth, hq, hq', hbank, hgate, hfo, hdet, hdet'⟩

/-! ### Reset -/

theorem Env.legal_reset (f : Fmt) : (Env.reset f).Legal f := by
  cases f <;> refine ⟨⟨?_, ?_⟩, ⟨?_, ?_⟩, ⟨?_, ?_⟩, ?_⟩ <;> decide +kernel

theorem Ramp.isDuration_reset (f : Fmt) : IsDuration f (Ramp.reset f).duration := by
  cases f <;> constructor <;> decide +kernel

theorem Filter.legal_reset (c : Cfg) : (Filter.reset c.fmt).Legal c where
  base := by cases c.fmt <;> decide +kernel
  depth := Fp.finite_zero _
  q := by cases c.fmt <;> decide +kernel
  qMin := .inl rfl

/-- R5: DETUNE_MAX is at least 0. -/
theorem Voice.legal_reset {c : Cfg} (hc : c.valid = true) : Voice.reset.Legal c where
  gate := Fp.finite_zero _
  fo := Fp.finite_zero _
  detune := Fp.finite_zero _
  detuneMax := by
    simp only [Cfg.valid, Cfg.detuneOk, Bool.and_eq_true, decide_eq_true_eq] at hc
    obtain ⟨-, ⟨hfin, hnonneg⟩, -⟩ := hc
    have habs : Fp.abs c.fmt Fp.zero = Fp.zero := by cases c.fmt <;> decide
    rw [Voice.reset, habs, Fp.lt_of_finite _ hfin (Fp.finite_zero _), Fp.val_zero]
    exact decide_eq_false (by omega)

theorem State.Legal.softReset {s : State} (hc : s.cfg.valid = true) : (softReset s).Legal where
  env := Env.legal_reset _
  duration := Ramp.isDuration_reset _
  filter := Filter.legal_reset _
  bank := by
    obtain ⟨-, -, -, -, -, ⟨hbanks, -⟩, -⟩ := (Claims.valid_iff_legalConfig s.cfg).1 hc
    exact hbanks
  voice := Voice.legal_reset hc

/-! ### A sample tick -/

/-- The gate is the one parameter that an event writes: 1.0 or 0 (R338, R339). -/
theorem applyEvent_gate_finite (e : BitVec 32) {s : State} (h : Fp.finite s.cfg.fmt s.voice.gate = true) :
    Fp.finite (applyEvent e s).cfg.fmt (applyEvent e s).voice.gate = true := by
  rcases applyEvent_cases e s with ⟨-, -, heq⟩ | ⟨-, heq⟩ | ⟨-, -, heq⟩ <;> rw [heq]
  · exact Fp.finite_one _
  · unfold noteOff
    split
    · exact Fp.finite_zero _
    · exact h
  · exact h

theorem drainStage_gate_finite {s : State} (h : Fp.finite s.cfg.fmt s.voice.gate = true) :
    Fp.finite (drainStage s).cfg.fmt (drainStage s).voice.gate = true := by
  unfold drainStage
  split
  · exact applyEvents_induct (Inv := fun u => Fp.finite u.cfg.fmt u.voice.gate = true) (P := fun _ => True)
      (fun e _ _ hu => applyEvent_gate_finite e hu) s.midi.q (fun _ _ => trivial) _ h
  · exact h

/-- A sample tick writes no parameter but the gate (`sampleTickFrame`). -/
theorem State.Legal.sampleTick {s t : State} (hs : s.Legal) (h : sampleTick s = .ok t) : t.Legal := by
  obtain ⟨hcfg, -, -, -, -, -, -, -, -, hdetune, hfo, -, -, hduration, hbank, ⟨hattack, hdecay, hsustain, hrelease⟩,
    ⟨hbase, hdepth, hq⟩, -⟩ := Claims.sampleTickFrame s t h
  have hgate : Fp.finite s.cfg.fmt t.voice.gate = true := by
    obtain ⟨v, r, o, hdrain, -, rfl⟩ := sampleTick_ok h
    have hg := drainStage_gate_finite hs.voice.gate
    rwa [hdrain] at hg
  constructor <;> rw [hcfg]
  · exact ⟨hattack ▸ hs.env.attack, hdecay ▸ hs.env.decay, hrelease ▸ hs.env.release, hsustain ▸ hs.env.sustain⟩
  · exact hduration ▸ hs.duration
  · exact ⟨hbase ▸ hs.filter.base, hdepth ▸ hs.filter.depth, hq ▸ hs.filter.q, hq ▸ hs.filter.qMin⟩
  · exact hbank ▸ hs.bank
  · exact ⟨hgate, hfo ▸ hs.voice.fo, hdetune ▸ hs.voice.detune, hdetune ▸ hs.voice.detuneMax⟩

theorem State.Legal.blockTicks {s t : State} (hs : s.Legal) {n i : Nat} (h : blockTicks n i s = .ok t) : t.Legal :=
  blockTicks_induct (Inv := State.Legal) (fun _ _ _ _ _ hu hv => { hu.sampleTick hv with }) hs h

/-! ### The writes of the host -/

theorem Ramp.plan_duration (c : Cfg) (a b : Word) (r : Ramp) : (r.plan c a b).duration = r.duration := by
  unfold Ramp.plan
  split <;> rfl

theorem Ramp.jump_duration (v : Word) (r : Ramp) : (r.jump v).duration = r.duration := by
  unfold Ramp.jump
  split <;> rfl

/-- R201, R307: a data word that the duration check accepts. -/
theorem isDuration_of_durationOk {f : Fmt} {w : Word} (h : durationOk f w = true) : IsDuration f w := by
  rw [durationOk, Bool.and_eq_true, Bool.not_eq_true'] at h
  obtain ⟨hfin, hle⟩ := h
  rw [Fp.le_of_finite f hfin (Fp.finite_zero f), decide_eq_false_iff_not, Fp.val_zero] at hle
  exact ⟨hfin, (Fp.zero_lt_iff f hfin).2 (by omega)⟩

/-- R202: a data word that the sustain check accepts. -/
theorem inUnit_of_not_lt {f : Fmt} {w : Word} (hfin : Fp.finite f w = true) (h0 : Fp.lt f w Fp.zero = false)
    (h1 : Fp.lt f (Fp.one f) w = false) : inUnit f w = true := by
  rw [Fp.lt_of_finite f hfin (Fp.finite_zero f), decide_eq_false_iff_not, Fp.val_zero] at h0
  rw [Fp.lt_of_finite f (Fp.finite_one f) hfin, decide_eq_false_iff_not, Fp.val_one] at h1
  rw [inUnit, hfin, (Fp.zero_le_iff f hfin).2 (by omega), (Fp.le_one_iff f hfin).2 (by omega)]
  rfl

theorem PortEffect.legal {dw : Word} {s t : State} (h : PortEffect dw s t) (hs : s.Legal) : t.Legal := by
  cases h
  case voiceIn =>
    exact { hs with duration := (Ramp.plan_duration _ _ _ _).symm ▸ hs.duration, voice := { hs.voice with } }
  case gate hf => exact { hs with voice := { hs.voice with gate := hf } }
  case detune hf hmax => exact { hs with voice := { hs.voice with detune := hf, detuneMax := hmax } }
  case filterOffset hf => exact { hs with voice := { hs.voice with fo := hf }, filter := { hs.filter with } }

theorem RegEffect.legal {dw : Word} {s t : State} (h : RegEffect dw s t) (hs : s.Legal) : t.Legal := by
  cases h
  case rampValue =>
    exact { hs with duration := (Ramp.jump_duration _ _).symm ▸ hs.duration, voice := { hs.voice with } }
  case rampCurve => exact { hs with duration := (Ramp.plan_duration _ _ _ _).symm ▸ hs.duration }
  case rampDuration hd => exact { hs with duration := isDuration_of_durationOk hd }
  case oscBank hb =>
    have hbank : (BitVec.ofNat 8 dw.toNat).toNat < s.cfg.numBanks := by
      rw [BitVec.toNat_ofNat]
      exact Nat.lt_of_le_of_lt (Nat.mod_le _ _) hb
    exact { hs with bank := hbank }
  case envAttack hd => exact { hs with env := { hs.env with attack := isDuration_of_durationOk hd } }
  case envDecay hd => exact { hs with env := { hs.env with decay := isDuration_of_durationOk hd } }
  case envRelease hd => exact { hs with env := { hs.env with release := isDuration_of_durationOk hd } }
  case envSustain hf h0 h1 => exact { hs with env := { hs.env with sustain := inUnit_of_not_lt hf h0 h1 } }
  case filterBase hf => exact { hs with filter := { hs.filter with base := hf } }
  case filterDepth hf => exact { hs with filter := { hs.filter with depth := hf } }
  case filterQ hf hmin => exact { hs with filter := { hs.filter with q := hf, qMin := .inr hmin } }
  case rampCurveSame => exact hs
  case oscPhase | sysCtrl | sysStatus => exact { hs with }

end Sys2Proof.Machine

namespace Sys2Proof.Claims

open Sys2Proof Sys2Proof.Machine

/-! ### A step -/

/-- A parameter is written by the soft reset, by an accepted write and, the gate alone, by a drained event. -/
theorem effect_legal {i : Instr} {s t : State} {r : Response} (h : Effect i s t r) (hc : s.cfg.valid = true)
    (hs : s.Legal) : t.Legal := by
  cases h
  case reset => exact State.Legal.softReset hc
  case tick ht => exact hs.sampleTick ht
  case tickb ht => exact hs.blockTicks ht
  case port hp => exact hp.legal hs
  case reg hr => exact hr.legal hs
  case twrite | sealed | byte | broken | pop | mreset => exact { hs with }
  all_goals exact hs

/-- Settles O19: every effect keeps the legal values (`effect_legal`), and the configuration with them
(`effect_governs`). -/
theorem stepKeepsLegalParameters : Obligations.StepKeepsLegalParameters := by
  intro s t hc hs h
  have hinv : t.cfg.valid = true ∧ t.Legal := by
    refine step_keeps (Inv := fun u => u.cfg.valid = true ∧ u.Legal) (fun _ _ hu => ⟨hu.1, { hu.2 with }⟩)
      (fun _ _ hu => ⟨hu.1, { hu.2 with }⟩) (fun i u v r hu he => ?_) ⟨hc, (State.paramInv_iff s).1 hs⟩ h
    obtain ⟨hvalid, hlegal⟩ := hu
    exact ⟨(effect_governs he).cfg ▸ hvalid, effect_legal he hvalid hlegal⟩
  exact (State.paramInv_iff t).2 hinv.2

end Sys2Proof.Claims

/-! PROOFS. The control, port and parameter commands that read a field, refuse, or write SYS (spec/40_commands.md
R150, R157, R159, R161, R162, R164, R165). -/

namespace Sys2Proof.Claims

open Sys2Proof Sys2Proof.Machine

/-! ### R150, R157 -/

/-- Settles O1: the three cases are those of `step_eq`. -/
theorem stepRunsDecodedCommand : Obligations.StepRunsDecodedCommand := by
  refine ⟨fun s c rest i hhost hd => ?_, fun s c rest e hhost hd => ?_, fun s hhost => ?_⟩
  · rw [step_eq, hhost]
    simp only [hd]
    rfl
  · rw [step_eq, hhost]
    simp only [hd]
    rfl
  · rw [step_eq, hhost]

/-- Settles O26: the two clauses are the two branches of the address check. -/
theorem rdbufReadsOneWord : Obligations.RdbufReadsOneWord :=
  fun _ _ => ⟨fun ha => if_neg (Nat.not_le.2 ha), fun ha => if_pos ha⟩

/-! ### R33, R159, R162: ports -/

/-- R33: the pairs marked R are the ports of the matrix. -/
theorem mem_portReads_iff (u : UnitId) (sel : Byte) :
    (u, sel) ∈ portReads.map (fun r => (r.1, r.2.1)) ↔ (portOf u sel).isSome = true := by
  cases u <;> (revert sel; decide +kernel)

/-- R33: the pairs marked W are the writable ports. -/
theorem mem_portWrites_iff (u : UnitId) (sel : Byte) :
    (u, sel) ∈ portWrites ↔ (portOf u sel).any Port.writable = true := by
  cases u <;> (revert sel; decide +kernel)

theorem exec_rport_of_none {u : UnitId} {sel : Byte} (s : State) (h : portOf u sel = none) :
    exec (.rport u sel) s = .next (rejected s .portMismatch) := by
  rw [exec, execRport, h]
  rfl

theorem exec_rport_of_some {u : UnitId} {sel : Byte} {p : Port} (s : State) (h : portOf u sel = some p) :
    exec (.rport u sel) s = .next (answered s (readPort p s)) := by
  rw [exec, execRport, h]
  rfl

theorem exec_wport_of_not_writable {u : UnitId} {sel : Byte} (dw : Word) (s : State)
    (h : ¬ (portOf u sel).any Port.writable = true) : exec (.wport u sel dw) s = .next (rejected s .portMismatch) := by
  rw [exec, execWport]
  cases hp : portOf u sel with
  | none => rfl
  | some p =>
    have hw : p.writable = false := by simpa [hp] using h
    simp only [hw]
    rfl

/-- WPORT of a writable port answers OK or INVALID_PARAMETER. -/
theorem statusOf_wport_of_writable {u : UnitId} {sel : Byte} {dw : Word} {p : Port} {s t : State}
    (hp : portOf u sel = some p) (hw : p.writable = true) (h : exec (.wport u sel dw) s = .next t) :
    statusOf t = some .ok ∨ statusOf t = some .invalidParameter := by
  simp only [exec, execWport, hp, hw, if_true] at h
  split at h
  · rcases conclude_cases h with ⟨v, -, rfl⟩ | ⟨st, hst, rfl⟩
    · exact .inl rfl
    · obtain rfl := writePort_error hst hw
      exact .inr rfl
  · obtain rfl := Host.Outcome.next.inj h
    exact .inr rfl

/-- Settles O29: the listed pairs are those the matrix gives (`mem_portWrites_iff`, `mem_portReads_iff`), and on these the
two commands answer other statuses. -/
theorem portMismatchExactly : Obligations.PortMismatchExactly := by
  intro s u sel dw
  rw [mem_portWrites_iff, mem_portReads_iff]
  refine ⟨fun h => exec_wport_of_not_writable dw s h, fun h t ht => ?_, fun h => ?_, fun h t ht => ?_⟩
  · obtain ⟨p, hp, hw⟩ := (Option.any_eq_true _ _).1 h
    rcases statusOf_wport_of_writable hp hw ht with hok | hinvalid
    · rw [hok]; decide
    · rw [hinvalid]; decide
  · exact exec_rport_of_none s (by simpa using h)
  · obtain ⟨p, hp⟩ := Option.isSome_iff_exists.1 h
    rw [exec_rport_of_some s hp] at ht
    obtain rfl := Host.Outcome.next.inj ht
    exact fun hst => by cases hst

/-- Settles O30: at each of the 17 rows the matrix's port reads the row's field. -/
theorem rportReturnsItsLatch : Obligations.RportReturnsItsLatch := by
  intro s
  simp only [portReads, portReadsVoice, portReadsAudio, List.cons_append, List.nil_append, List.forall_mem_cons]
  refine ⟨rfl, rfl, rfl, rfl, rfl, rfl, rfl, rfl, rfl, rfl, rfl, rfl, rfl, rfl, rfl, rfl, rfl, ?_⟩
  exact fun _ hr => absurd hr List.not_mem_nil

/-! ### R45, R161, R164, R165: registers -/

theorem exec_rparam_of_readReg {u : UnitId} {sel : Byte} {r : Reg} {s : State} {w : Word} (hr : regOf u sel = some r)
    (hw : readReg r s = w) : exec (.rparam u sel) s = .next (answered s w) := by
  rw [exec, execRparam, hr, ← hw]
  rfl

theorem readReg_rampCurve (s : State) : readReg .rampCurve s = if s.ramp.curve = .lin then 0#64 else 1#64 := by
  rw [readReg]
  cases s.ramp.curve <;> rfl

theorem readReg_envState (s : State) : readReg .envState s = word (segmentCode s) := by
  rw [readReg, segmentCode]
  cases s.env.state <;> rfl

theorem readReg_filterDirty (s : State) : readReg .filterDirty s = if s.filter.dirty then 1#64 else 0#64 := by
  rw [readReg]
  cases s.filter.dirty <;> rfl

theorem readReg_midiPstate (s : State) : readReg .midiPstate s = word (parserCode s) := by
  rw [readReg, parserCode]
  cases s.midi.pstate <;> rfl

theorem readReg_sysCtrl (s : State) : readReg .sysCtrl s =
    word ((if s.ctrl.filterEn then 1 else 0) + (if s.ctrl.midiDrive then 2 else 0)) := by
  rw [readReg, Ctrl.word]
  cases s.ctrl.filterEn <;> cases s.ctrl.midiDrive <;> rfl

theorem readReg_sysLifecycle (s : State) : readReg .sysLifecycle s = if s.lifecycle = .load then 0#64 else 1#64 := by
  rw [readReg]
  cases s.lifecycle <;> rfl

theorem readReg_sysFmt (s : State) : readReg .sysFmt s = if s.cfg.fmt = .binary32 then 0#64 else 1#64 := by
  rw [readReg]
  cases s.cfg.fmt <;> rfl

/-- RPARAM of the pair of each row answers what the row reads. -/
def RowsRead (s : State) (rows : List ReadRow) : Prop :=
  ∀ r ∈ rows, exec (.rparam r.1 r.2.1) s = .next (answered s (r.2.2 s))

theorem rowsRead_append {s : State} {rows rows' : List ReadRow} (h : RowsRead s rows) (h' : RowsRead s rows') :
    RowsRead s (rows ++ rows') :=
  fun r hr => (List.mem_append.1 hr).elim (h r) (h' r)

theorem rowsRead_pitch (s : State) : RowsRead s registerReadsPitch := by
  simp only [RowsRead, registerReadsPitch, List.forall_mem_cons]
  refine ⟨rfl, rfl, exec_rparam_of_readReg rfl (readReg_rampCurve s), rfl, rfl, rfl, rfl, rfl, rfl, rfl, rfl, rfl, rfl,
    ?_⟩
  exact fun _ hr => absurd hr List.not_mem_nil

theorem rowsRead_level (s : State) : RowsRead s registerReadsLevel := by
  simp only [RowsRead, registerReadsLevel, List.forall_mem_cons]
  refine ⟨rfl, rfl, rfl, rfl, exec_rparam_of_readReg rfl (readReg_envState s), rfl, rfl, rfl, rfl, ?_⟩
  exact fun _ hr => absurd hr List.not_mem_nil

theorem rowsRead_filter (s : State) : RowsRead s registerReadsFilter := by
  simp only [RowsRead, registerReadsFilter, List.forall_mem_cons]
  refine ⟨rfl, rfl, rfl, rfl, rfl, rfl, rfl, rfl, rfl, rfl, rfl, rfl, rfl,
    exec_rparam_of_readReg rfl (readReg_filterDirty s), ?_⟩
  exact fun _ hr => absurd hr List.not_mem_nil

theorem rowsRead_system (s : State) : RowsRead s registerReadsSystem := by
  simp only [RowsRead, registerReadsSystem, List.forall_mem_cons]
  refine ⟨exec_rparam_of_readReg rfl (readReg_midiPstate s), rfl, rfl, rfl, rfl, rfl,
    exec_rparam_of_readReg rfl (readReg_sysCtrl s), rfl, exec_rparam_of_readReg rfl (readReg_sysLifecycle s), ?_⟩
  exact fun _ hr => absurd hr List.not_mem_nil

theorem rowsRead_config (s : State) : RowsRead s registerReadsConfig := by
  simp only [RowsRead, registerReadsConfig, List.forall_mem_cons]
  refine ⟨rfl, rfl, rfl, rfl, rfl, rfl, rfl, rfl, exec_rparam_of_readReg rfl (readReg_sysFmt s), rfl, rfl, rfl, rfl, ?_⟩
  exact fun _ hr => absurd hr List.not_mem_nil

/-- Settles O37: the rows unit by unit, and an unlisted pair is a refused register (`registerRows_any_eq_isSome`). -/
theorem rparamReturnsItsRegister : Obligations.RparamReturnsItsRegister := by
  refine ⟨fun s => ?_, fun s => rfl, fun s u sel h => exec_of_refusesRegister s ?_⟩
  · exact rowsRead_append (rowsRead_append (rowsRead_append (rowsRead_append (rowsRead_pitch s) (rowsRead_level s))
      (rowsRead_filter s)) (rowsRead_system s)) (rowsRead_config s)
  · rwa [refusesRegister, ← registerRows_any_eq_isSome, List.not_any_eq_all_not]

/-- WPARAM of SYS.CTRL answers what its write rule says of the data word. -/
theorem exec_wparam_sysCtrl (dw : Word) (s : State) :
    exec (.wparam .sys 0#8 dw) s = conclude (writeSysCtrl dw s) s := rfl

/-- WPARAM of SYS.STATUS never refuses. -/
theorem exec_wparam_sysStatus (dw : Word) (s : State) :
    exec (.wparam .sys 1#8 dw) s = .next (answered (s.clearFlags dw) 0#64) := rfl

/-- Settles O36: CTRL by the check of its reserved bits, STATUS by its bit 2. -/
theorem wparamSys : Obligations.WparamSys := by
  intro s dw
  refine ⟨fun h => ?_, fun h => ?_, fun h => ?_, fun h => ?_⟩
  · rw [exec_wparam_sysCtrl, writeSysCtrl, if_neg (by omega)]
    rfl
  · rw [exec_wparam_sysCtrl, writeSysCtrl, if_pos h]
    rfl
  · rw [exec_wparam_sysStatus, State.clearFlags, h, Bool.not_true, Bool.and_false]
    rfl
  · rw [exec_wparam_sysStatus, State.clearFlags, h, Bool.not_false, Bool.and_true]
    rfl

end Sys2Proof.Claims

/-! PROOFS. When a sample tick completes (spec/60_exceptions.md R417, spec/20_memory.md R84): exactly where the four
TABLE entries that its oscillator reads are written. With it TICK (spec/40_commands.md R154). -/

namespace Sys2Proof.Machine

/-! ### The four reads of the oscillator -/

/-- A computation of the oscillator that answers where `ok` is true and meets the model's fault where it is not. -/
structure AnswersIff {α : Type} (ok : Bool) (x : Except Fault α) : Prop where
  answers : ok = true → ∃ v, x = .ok v
  faults : ok = false → x = .error .unwrittenTableRead

theorem AnswersIff.of_ok {α : Type} (v : α) : AnswersIff true (.ok v) :=
  ⟨fun _ => ⟨v, rfl⟩, fun h => absurd h.symm Bool.false_ne_true⟩

theorem AnswersIff.of_error {α : Type} : AnswersIff (α := α) false (.error .unwrittenTableRead) :=
  ⟨fun h => absurd h Bool.false_ne_true, fun _ => rfl⟩

/-- One computation and then another answer where both do. -/
theorem AnswersIff.bind {α β : Type} {p q : Bool} {x : Except Fault α} {k : α → Except Fault β} (hx : AnswersIff p x)
    (hk : ∀ v, AnswersIff q (k v)) : AnswersIff (p && q) (x.bind k) := by
  cases p
  · rw [hx.faults rfl]
    exact .of_error
  · obtain ⟨v, hv⟩ := hx.answers rfl
    rw [hv, Bool.true_and]
    exact hk v

theorem tableFetch_answersIff (table : Memory) (a : Nat) :
    AnswersIff (Memory.lookup table a).isSome (tableFetch table a) := by
  unfold tableFetch Memory.read
  cases Memory.lookup table a with
  | none => exact .of_error
  | some w => exact .of_ok w

theorem tableSample_eq_bind (c : Cfg) (table : Memory) (bank : Byte) (phase : Word) (k : Nat) :
    tableSample c table bank phase k =
      (tableFetch table (c.taddr bank.toNat k 0 + tableIndex c phase)).bind fun a =>
        (tableFetch table (c.taddr bank.toNat k 0 + (tableIndex c phase + 1) % c.tableLen)).bind fun b =>
          .ok (Fp.lerp c.fmt a b (tableFrac c phase)) := by
  rw [tableSample]
  cases tableFetch table (c.taddr bank.toNat k 0 + tableIndex c phase) with
  | error e => rfl
  | ok a => cases tableFetch table (c.taddr bank.toNat k 0 + (tableIndex c phase + 1) % c.tableLen) <;> rfl

theorem octaveSample_eq_bind (c : Cfg) (table : Memory) (bank : Byte) (phase freq : Word) :
    octaveSample c table bank phase freq =
      (tableSample c table bank phase (octave c freq).1).bind fun lo =>
        (tableSample c table bank phase (nextTable c (octave c freq).1)).bind fun hi =>
          .ok (Fp.lerp c.fmt lo hi (octave c freq).2) := by
  rw [octaveSample]
  cases tableSample c table bank phase (octave c freq).1 with
  | error e => rfl
  | ok lo => cases tableSample c table bank phase (nextTable c (octave c freq).1) <;> rfl

/-- The two entries of table `k` that the phase selects are written (R267). -/
def pairWritten (c : Cfg) (table : Memory) (bank : Byte) (phase : Word) (k : Nat) : Bool :=
  (Memory.lookup table (c.taddr bank.toNat k 0 + tableIndex c phase)).isSome &&
    (Memory.lookup table (c.taddr bank.toNat k 0 + (tableIndex c phase + 1) % c.tableLen)).isSome

theorem tableSample_answersIff (c : Cfg) (table : Memory) (bank : Byte) (phase : Word) (k : Nat) :
    AnswersIff (pairWritten c table bank phase k) (tableSample c table bank phase k) := by
  rw [tableSample_eq_bind, pairWritten]
  refine (tableFetch_answersIff table _).bind fun a => ?_
  rw [← Bool.and_true (Option.isSome _)]
  exact (tableFetch_answersIff table _).bind fun b => .of_ok _

theorem octaveSample_answersIff (c : Cfg) (table : Memory) (bank : Byte) (phase freq : Word) :
    AnswersIff (pairWritten c table bank phase (octave c freq).1 &&
      pairWritten c table bank phase (nextTable c (octave c freq).1)) (octaveSample c table bank phase freq) := by
  rw [octaveSample_eq_bind]
  refine (tableSample_answersIff c table bank phase _).bind fun lo => ?_
  rw [← Bool.and_true (pairWritten _ _ _ _ _)]
  exact (tableSample_answersIff c table bank phase _).bind fun hi => .of_ok _

theorem oscTick_answersIff (c : Cfg) (table : Memory) (o : Osc) :
    AnswersIff (pairWritten c table o.bank o.phase (octave c (o.freq c.fmt)).1 &&
      pairWritten c table o.bank o.phase (nextTable c (octave c (o.freq c.fmt)).1)) (o.tick c table) := by
  have hs := octaveSample_answersIff c table o.bank o.phase (o.freq c.fmt)
  unfold Osc.tick
  refine ⟨fun h => ?_, fun h => ?_⟩
  · obtain ⟨out, hout⟩ := hs.answers h
    rw [hout]
    exact ⟨_, rfl⟩
  · rw [hs.faults h]

end Sys2Proof.Machine

namespace Sys2Proof.Claims

open Sys2Proof Sys2Proof.Machine

/-! ### R417: the sample tick -/

theorem beforeOsc_keepsTables (s : State) : KeepsTables s (beforeOsc s) := by
  obtain ⟨v, r, hdrain, -⟩ := drainStage_frame s
  rw [beforeOsc_eq hdrain]
  exact ⟨rfl, rfl, rfl⟩

/-- The four entries of `oscEntriesWritten`, two a table. -/
theorem oscEntriesWritten_eq (s : State) :
    oscEntriesWritten s =
      (pairWritten s.cfg s.table (beforeOsc s).osc.bank (beforeOsc s).osc.phase
          (octave s.cfg ((beforeOsc s).osc.freq s.cfg.fmt)).1 &&
        pairWritten s.cfg s.table (beforeOsc s).osc.bank (beforeOsc s).osc.phase
          (nextTable s.cfg (octave s.cfg ((beforeOsc s).osc.freq s.cfg.fmt)).1)) := by
  simp only [oscEntriesWritten, (beforeOsc_keepsTables s).cfg, List.all_cons, List.all_nil, Bool.and_true]
  rfl

/-- A sample tick answers exactly where the entries that its oscillator reads are written (R417). -/
theorem sampleTick_answersIff (s : State) : AnswersIff (oscEntriesWritten s) (sampleTick s) := by
  have ho := oscTick_answersIff s.cfg s.table (beforeOsc s).osc
  rw [← oscEntriesWritten_eq] at ho
  rw [sampleTick_eq]
  refine ⟨fun h => ?_, fun h => ?_⟩
  · obtain ⟨o, ho⟩ := ho.answers h
    rw [ho]
    exact ⟨_, rfl⟩
  · rw [ho.faults h]

/-! ### R154: TICK -/

theorem exec_tick_of_load {s : State} (h : s.lifecycle = .load) : exec .tick s = .next (rejected s .stateError) := by
  rw [exec, execTick, h]
  rfl

theorem exec_tick_of_ok {s t : State} (h : s.lifecycle = .run) (ht : sampleTick s = .ok t) :
    exec .tick s = .next (answered t t.voice.out) := by
  rw [exec, execTick, h, ht]
  rfl

theorem exec_tick_of_error {s : State} {e : Fault} (h : s.lifecycle = .run) (he : sampleTick s = .error e) :
    exec .tick s = .fault e := by
  rw [exec, execTick, h, he]

/-- Settles O21: TICK is a sample tick in RUN, which answers where its entries are written (`sampleTick_answersIff`). -/
theorem tickReturnsItsSample : Obligations.TickReturnsItsSample := by
  refine fun s => ⟨exec_tick_of_load, fun hrun hw => ?_, fun hrun hw => ?_⟩
  · obtain ⟨t, ht⟩ := (sampleTick_answersIff s).answers hw
    have hk := sampleTick_keepsTables ht
    exact ⟨t, ht, exec_tick_of_ok hrun ht, sampleTick_outbuf ht, hk.table, hk.cfg⟩
  · exact exec_tick_of_error hrun ((sampleTick_answersIff s).faults hw)

end Sys2Proof.Claims

/-! PROOFS. The ranges of the audio path: EXP2 and LOG2 between powers of two (spec/00_scope.md R14, R15), the frequency of a
note (spec/45_gain_voice.md R341), and what a legal configuration bounds (R5). -/

namespace Sys2Proof.Fp

/-! ### Powers of two -/

theorem val_pow2_eq (f : Fmt) {n : Int} (h : normalExp f n = true) :
    val f (pow2 f n) = ((2 ^ (f.scale + n).toNat : Nat) : Int) := by
  rw [val_pow2 f h]
  simp only [normalExp, Bool.and_eq_true, decide_eq_true_eq] at h
  have hscale := scale_eq f
  congr 2
  omega

theorem val_pow2_natCast (f : Fmt) {n : Nat} (h : normalExp f n = true) :
    val f (pow2 f n) = (2 ^ n : Nat) * (2 ^ f.scale : Nat) := by
  rw [val_pow2_eq f h, show ((f.scale : Int) + (n : Int)).toNat = n + f.scale by omega, pow_add]
  push_cast
  rfl

theorem normalExp_of_natAbs_le (f : Fmt) {n : Int} (h : n.natAbs ≤ 126) : normalExp f n = true := by
  have hbias : 127 ≤ f.bias := by cases f <;> decide
  simp only [normalExp, Bool.and_eq_true, decide_eq_true_eq]
  omega

/-! ### Numbers between two integers -/

/-- The integer `n` is a number of the format. -/
structure IsInt (f : Fmt) (n : Int) : Prop where
  finite : finite f (ofInt f n) = true
  val : val f (ofInt f n) = n * (2 ^ f.scale : Nat)

theorem isInt_of_natAbs_le (f : Fmt) {n : Int} (h : n.natAbs ≤ 2 ^ 23) : IsInt f n := by
  have hfrac : n.natAbs ≤ 2 ^ f.fracBits := h.trans (by cases f <;> decide)
  exact ⟨finite_ofInt f hfrac, val_ofInt f hfrac⟩

theorem isInt_two_pow_39 (f : Fmt) : IsInt f (2 ^ 39) := by cases f <;> constructor <;> decide +kernel

theorem isInt_two_pow_40 (f : Fmt) : IsInt f (2 ^ 40) := by cases f <;> constructor <;> decide +kernel

/-- `x` is a finite number from the integer `lo` to the integer `hi`. -/
structure InRange (f : Fmt) (lo hi : Int) (x : Word) : Prop where
  finite : finite f x = true
  lo_le : lo * (2 ^ f.scale : Nat) ≤ val f x
  le_hi : val f x ≤ hi * (2 ^ f.scale : Nat)

section
variable {f : Fmt} {lo hi lo' hi' : Int} {x y : Word}

theorem InRange.of_le (hlo : IsInt f lo) (hhi : IsInt f hi) (h : le f (ofInt f lo) x = true)
    (h' : le f x (ofInt f hi) = true) : InRange f lo hi x := by
  have hx := finite_of_between f hlo.finite hhi.finite h h'
  rw [le_iff_of_finite f hlo.finite hx, hlo.val] at h
  rw [le_iff_of_finite f hx hhi.finite, hhi.val] at h'
  exact ⟨hx, h, h'⟩

theorem InRange.ofInt {n : Int} (h : IsInt f n) : InRange f n n (ofInt f n) := ⟨h.finite, h.val.ge, h.val.le⟩

theorem InRange.mono (hx : InRange f lo hi x) (hlo : lo' ≤ lo) (hhi : hi ≤ hi') : InRange f lo' hi' x where
  finite := hx.finite
  lo_le := (Int.mul_le_mul_of_nonneg_right hlo (scale_pos f).le).trans hx.lo_le
  le_hi := hx.le_hi.trans (Int.mul_le_mul_of_nonneg_right hhi (scale_pos f).le)

theorem InRange.add (hx : InRange f lo hi x) (hy : InRange f lo' hi' y) (hlo : IsInt f (lo + lo'))
    (hhi : IsInt f (hi + hi')) : InRange f (lo + lo') (hi + hi') (add f x y) := by
  refine .of_le hlo hhi (le_add f hx.finite hy.finite hlo.finite ?_) (add_le f hx.finite hy.finite hhi.finite ?_)
  · rw [hlo.val, add_mul]; exact add_le_add hx.lo_le hy.lo_le
  · rw [hhi.val, add_mul]; exact add_le_add hx.le_hi hy.le_hi

theorem InRange.sub (hx : InRange f lo hi x) (hy : InRange f lo' hi' y) (hlo : IsInt f (lo - hi'))
    (hhi : IsInt f (hi - lo')) : InRange f (lo - hi') (hi - lo') (sub f x y) := by
  refine .of_le hlo hhi (le_sub f hx.finite hy.finite hlo.finite ?_) (sub_le f hx.finite hy.finite hhi.finite ?_)
  · rw [hlo.val, sub_mul]; exact sub_le_sub hx.lo_le hy.le_hi
  · rw [hhi.val, sub_mul]; exact sub_le_sub hx.le_hi hy.lo_le

/-- A product of two numbers that are not negative. -/
theorem InRange.mul (hx : InRange f 0 hi x) (hy : InRange f 0 hi' y) (hhi : IsInt f (hi * hi')) :
    InRange f 0 (hi * hi') (mul f x y) := by
  have h0 : IsInt f 0 := isInt_of_natAbs_le f (by decide)
  have hx0 : 0 ≤ val f x := by simpa using hx.lo_le
  have hy0 : 0 ≤ val f y := by simpa using hy.lo_le
  refine .of_le h0 hhi (le_mul f hx.finite hy.finite h0.finite ?_) (mul_le f hx.finite hy.finite hhi.finite ?_)
  · rw [h0.val, zero_mul, zero_mul]
    exact mul_nonneg hx0 hy0
  · calc val f x * val f y ≤ (hi * (2 ^ f.scale : Nat)) * (hi' * (2 ^ f.scale : Nat)) :=
          mul_le_mul hx.le_hi hy.le_hi hy0 (hx0.trans hx.le_hi)
      _ = val f (Fp.ofInt f (hi * hi')) * (2 ^ f.scale : Nat) := by rw [hhi.val]; ring

/-- A quotient by a positive integer. -/
theorem InRange.div {n : Int} (hx : InRange f lo hi x) (hy : Fp.finite f y = true) (hn : 0 < n)
    (hval : Fp.val f y = n * (2 ^ f.scale : Nat)) (hlo : IsInt f lo') (hhi : IsInt f hi') (hle : lo' * n ≤ lo)
    (hle' : hi ≤ hi' * n) : InRange f lo' hi' (div f x y) := by
  have hs := scale_pos f
  have hpos : 0 < val f y := hval ▸ Int.mul_pos hn hs
  have hx' := hx.mono hle hle'
  refine .of_le hlo hhi (le_div f hx.finite hy hpos hlo.finite ?_) (div_le f hx.finite hy hpos hhi.finite ?_)
  · calc val f (Fp.ofInt f lo') * val f y = lo' * n * (2 ^ f.scale : Nat) * (2 ^ f.scale : Nat) := by
          rw [hlo.val, hval]; ring
      _ ≤ val f x * (2 ^ f.scale : Nat) := Int.mul_le_mul_of_nonneg_right hx'.lo_le hs.le
  · calc val f x * (2 ^ f.scale : Nat) ≤ hi' * n * (2 ^ f.scale : Nat) * (2 ^ f.scale : Nat) :=
          Int.mul_le_mul_of_nonneg_right hx'.le_hi hs.le
      _ = val f (Fp.ofInt f hi') * val f y := by rw [hhi.val, hval]; ring

end

/-! ### EXP2 and LOG2 -/

/-- Law (a) of R14 at an integer of the format. -/
theorem exp2_ofInt (f : Fmt) {n : Int} (h : n.natAbs ≤ 126) : exp2 f (ofInt f n) = pow2 f n := by
  have hfrac : n.natAbs ≤ 2 ^ f.fracBits := h.trans (by cases f <;> decide)
  refine (exp2_lawful f).1 _ n ?_ (normalExp_of_natAbs_le f h)
  rw [exactInt, finite_ofInt f hfrac, val_ofInt f hfrac, Int.mul_emod_left, floorInt_ofInt f hfrac]
  rfl

/-- Law (c) of R14: EXP2 of a number between two integers lies between their powers. -/
theorem exp2_between (f : Fmt) {x : Word} {m n : Int} (hx : InRange f m n x) (hm : m.natAbs ≤ 126) (hn : n.natAbs ≤ 126) :
    finite f (exp2 f x) = true ∧ val f (pow2 f m) ≤ val f (exp2 f x) ∧ val f (exp2 f x) ≤ val f (pow2 f n) := by
  have hmInt : IsInt f m := isInt_of_natAbs_le f (hm.trans (by decide))
  have hnInt : IsInt f n := isInt_of_natAbs_le f (hn.trans (by decide))
  obtain ⟨-, -, hmono, -⟩ := exp2_lawful f
  have hlo := hmono _ x hmInt.finite hx.finite ((le_iff_of_finite f hmInt.finite hx.finite).2 (hmInt.val ▸ hx.lo_le))
  have hhi := hmono x _ hx.finite hnInt.finite ((le_iff_of_finite f hx.finite hnInt.finite).2 (hnInt.val ▸ hx.le_hi))
  rw [exp2_ofInt f hm] at hlo
  rw [exp2_ofInt f hn] at hhi
  have hpm := finite_pow2 f (normalExp_of_natAbs_le f hm)
  have hpn := finite_pow2 f (normalExp_of_natAbs_le f hn)
  have hfinite := finite_of_between f hpm hpn hlo hhi
  exact ⟨hfinite, (le_iff_of_finite f hpm hfinite).1 hlo, (le_iff_of_finite f hfinite hpn).1 hhi⟩

/-- EXP2 of a number up to `n` lies in [0, 2^n]. -/
theorem InRange.exp2 {f : Fmt} {m : Int} {n : Nat} {x : Word} (hx : InRange f m n x) (hm : m.natAbs ≤ 126)
    (hn : n ≤ 126) : InRange f 0 (2 ^ n) (exp2 f x) := by
  obtain ⟨hfinite, hlo, hhi⟩ := exp2_between f hx hm (by omega)
  rw [val_pow2_eq f (normalExp_of_natAbs_le f hm)] at hlo
  rw [val_pow2_natCast f (normalExp_of_natAbs_le f (by omega))] at hhi
  exact ⟨hfinite, by rw [zero_mul]; exact (Int.natCast_nonneg _).trans hlo, by simpa using hhi⟩

/-- R15: LOG2 of a number from 1.0 on is finite and not negative. -/
theorem log2_nonneg (f : Fmt) {x : Word} (hx : finite f x = true) (h : (2 ^ f.scale : Nat) ≤ val f x) :
    finite f (log2 f x) = true ∧ 0 ≤ val f (log2 f x) := by
  obtain ⟨hexact, hfinite, hmono, -⟩ := log2_lawful f
  have hs := scale_pos f
  have hpos : lt f zero (one f) = true := (zero_lt_iff f (finite_one f)).2 (by rw [val_one]; exact hs)
  have hlog := hfinite x hx ((zero_lt_iff f hx).2 (by omega))
  have hle := hmono (one f) x (finite_one f) hx hpos ((one_le_iff f hx).2 h)
  rw [← pow2_eq_ofInt_zero, hexact 0 (normalExp_of_natAbs_le f (by decide)),
    le_iff_of_finite f (finite_ofInt f (by simp)) hlog, val_ofInt f (by simp), zero_mul] at hle
  exact ⟨hlog, hle⟩

/-! ### Absolute values and quotients -/

theorem val_abs (f : Fmt) (w : Word) : val f (abs f w) = (val f w).natAbs := by
  rw [abs, val_pack f _ (magBits_lt f w), natAbs_val]
  rfl

theorem finite_abs (f : Fmt) {w : Word} (h : finite f w = true) : finite f (abs f w) = true := by
  rw [finite_iff] at h ⊢
  rwa [abs, magBits_pack f _ (magBits_lt f w)]

/-- A quotient below a finite one by the same number is finite. -/
theorem div_finite_of_le (f : Fmt) {a a' b : Word} (ha : finite f a = true) (ha' : finite f a' = true)
    (hb : finite f b = true) (hb0 : 0 < val f b) (h : (val f a).natAbs ≤ (val f a').natAbs)
    (hfin : finite f (div f a' b) = true) : finite f (div f a b) = true := by
  have hmag : 0 < mag f (magBits f b) := by
    rw [← natAbs_val]
    omega
  rw [div_of_finite f ha' hb hb0.ne', finite_iff, magBits_pack f _ (roundMag_lt f _ _)] at hfin
  rw [div_of_finite f ha hb hb0.ne', finite_iff, magBits_pack f _ (roundMag_lt f _ _)]
  refine lt_of_le_of_lt (roundMag_mono f hmag hmag ?_) hfin
  rw [← natAbs_val f a, ← natAbs_val f a']
  exact Nat.mul_le_mul_right _ (Nat.mul_le_mul_right _ h)

end Sys2Proof.Fp

namespace Sys2Proof.Machine

open Sys2Proof.Fp (InRange IsInt isInt_of_natAbs_le)

/-! ### R341: the frequency of a note -/

/-- (n − 69) / 12 lies between −6 and 5. -/
theorem noteExponent_inRange (f : Fmt) {n : Byte} (h : n.toNat < 128) :
    InRange f (-6) 5 (Fp.div f (Fp.sub f (Fp.ofInt f n.toNat) (Fp.ofInt f 69)) (Fp.ofInt f 12)) := by
  have hint : ∀ k : Int, k.natAbs ≤ 128 → IsInt f k := fun k hk => isInt_of_natAbs_le f (hk.trans (by decide))
  have hn : InRange f 0 127 (Fp.ofInt f n.toNat) := (InRange.ofInt (hint _ (by omega))).mono (by omega) (by omega)
  have hsub := hn.sub (.ofInt (hint 69 (by decide))) (hint _ (by decide)) (hint _ (by decide))
  have h12 := hint 12 (by decide)
  exact hsub.div h12.finite (by decide) h12.val (hint _ (by decide)) (hint _ (by decide)) (by decide) (by decide)

/-- R341: a note's frequency lies in [6.875, 14080]. -/
theorem noteFreq_bounds (f : Fmt) {n : Byte} (h : n.toNat < 128) :
    Fp.le f (Fp.ofRat f 55 8) (noteFreq f n) = true ∧ InRange f 0 14080 (noteFreq f n) := by
  have hx := noteExponent_inRange f h
  obtain ⟨hfinite, hlo, -⟩ := Fp.exp2_between f hx (by decide) (by decide)
  have h440 : IsInt f 440 := isInt_of_natAbs_le f (by decide)
  have hrat : Fp.finite f (Fp.ofRat f 55 8) = true := by cases f <;> decide +kernel
  have hexact : Fp.val f (Fp.ofRat f 55 8) * (2 ^ f.scale : Nat) = Fp.val f (Fp.ofInt f 440) * Fp.val f (Fp.pow2 f (-6)) := by
    cases f <;> decide +kernel
  refine ⟨Fp.le_mul f h440.finite hfinite hrat ?_, ?_⟩
  · rw [hexact]
    refine Int.mul_le_mul_of_nonneg_left hlo ?_
    rw [h440.val]
    positivity
  · have h32 : InRange f 0 32 (Fp.exp2 f _) := InRange.exp2 (n := 5) hx (by decide) (by decide)
    exact ((InRange.ofInt h440).mono (by decide) le_rfl).mul h32 (isInt_of_natAbs_le f (by decide))

theorem noteFreq_pos (f : Fmt) {n : Byte} (h : n.toNat < 128) : Fp.lt f Fp.zero (noteFreq f n) = true := by
  obtain ⟨hlo, hrange⟩ := noteFreq_bounds f h
  have hrat : Fp.finite f (Fp.ofRat f 55 8) = true ∧ 0 < Fp.val f (Fp.ofRat f 55 8) := by
    cases f <;> decide +kernel
  rw [Fp.le_iff_of_finite f hrat.1 hrange.finite] at hlo
  exact (Fp.zero_lt_iff f hrange.finite).2 (hrat.2.trans_le hlo)

/-! ### R5: what a legal configuration bounds -/

/-- FS is an integer from 1 to 2^24. -/
theorem fs_eq {c : Cfg} (hc : c.valid = true) :
    Fp.finite c.fmt c.fs = true ∧ ∃ n : Int, 0 < n ∧ n ≤ 2 ^ 24 ∧ Fp.val c.fmt c.fs = n * (2 ^ c.fmt.scale : Nat) := by
  obtain ⟨hwords, ⟨n, hpos, hle, heq⟩, -⟩ := (Claims.valid_iff_legalConfig c).1 hc
  rw [Claims.realOf_eq_natCast_iff] at heq
  exact ⟨(hwords c.fs (by simp)).2, n, by omega, by omega, heq⟩

theorem fs_val_pos {c : Cfg} (hc : c.valid = true) : 0 < Fp.val c.fmt c.fs := by
  obtain ⟨-, n, hpos, -, heq⟩ := fs_eq hc
  exact heq ▸ Int.mul_pos hpos (Fp.scale_pos _)

/-- FS / 2 is at most 2^23. -/
theorem halfFs_inRange {c : Cfg} (hc : c.valid = true) : InRange c.fmt 0 (2 ^ 23) c.halfFs := by
  obtain ⟨hfin, n, hpos, hle, heq⟩ := fs_eq hc
  have hfs : InRange c.fmt n n c.fs := ⟨hfin, heq.ge, heq.le⟩
  have h2 : IsInt c.fmt 2 := isInt_of_natAbs_le _ (by decide)
  exact hfs.div h2.finite (by decide) h2.val (isInt_of_natAbs_le _ (by decide)) (isInt_of_natAbs_le _ (by decide))
    (by omega) (by omega)

/-- R266: every frequency of the voice is at most 2^23. -/
theorem maxFreq_bounds {c : Cfg} (hc : c.valid = true) :
    Fp.finite c.fmt (Cfg.maxFreq c) = true ∧ Fp.val c.fmt c.halfFs ≤ Fp.val c.fmt (Cfg.maxFreq c) ∧
      14080 * (2 ^ c.fmt.scale : Nat) ≤ Fp.val c.fmt (Cfg.maxFreq c) ∧
      Fp.val c.fmt (Cfg.maxFreq c) ≤ 2 ^ 23 * (2 ^ c.fmt.scale : Nat) := by
  have hhalf := halfFs_inRange hc
  have hnote : IsInt c.fmt 14080 := isInt_of_natAbs_le _ (by decide)
  obtain ⟨hfin, hval⟩ := Fp.fmax_val c.fmt hhalf.finite hnote.finite
  rw [hnote.val] at hval
  refine ⟨hfin, hval ▸ le_max_left _ _, hval ▸ le_max_right _ _, hval ▸ max_le hhalf.le_hi ?_⟩
  exact Int.mul_le_mul_of_nonneg_right (by decide) (Fp.scale_pos _).le

theorem freqOk_iff {c : Cfg} (hc : c.valid = true) (w : Word) : freqOk c w = true ↔
    Fp.finite c.fmt w = true ∧ 0 ≤ Fp.val c.fmt w ∧ Fp.val c.fmt w ≤ Fp.val c.fmt (Cfg.maxFreq c) := by
  obtain ⟨hmax, -⟩ := maxFreq_bounds hc
  simp only [freqOk, Bool.and_eq_true, and_assoc]
  refine and_congr_right fun hw => ?_
  rw [Fp.zero_le_iff _ hw, Fp.le_iff_of_finite _ hw hmax]

theorem freqOk_inRange {c : Cfg} (hc : c.valid = true) {w : Word} (h : freqOk c w = true) :
    InRange c.fmt 0 (2 ^ 23) w := by
  obtain ⟨hfin, h0, hmax⟩ := (freqOk_iff hc w).1 h
  obtain ⟨-, -, -, hle⟩ := maxFreq_bounds hc
  exact ⟨hfin, by rwa [zero_mul], hmax.trans hle⟩

theorem freqOk_noteFreq {c : Cfg} (hc : c.valid = true) {n : Byte} (h : n.toNat < 128) :
    freqOk c (noteFreq c.fmt n) = true := by
  obtain ⟨-, hrange⟩ := noteFreq_bounds c.fmt h
  obtain ⟨-, -, hmax, -⟩ := maxFreq_bounds hc
  exact (freqOk_iff hc _).2 ⟨hrange.finite, by simpa using hrange.lo_le, hrange.le_hi.trans hmax⟩

/-- A frequency between two that the ramp can carry is one. -/
theorem freqOk_of_between {c : Cfg} {lo x hi : Word} (hc : c.valid = true) (hlo : freqOk c lo = true)
    (hhi : freqOk c hi = true) (h : Fp.le c.fmt lo x = true) (h' : Fp.le c.fmt x hi = true) : freqOk c x = true := by
  obtain ⟨hl, hl0, -⟩ := (freqOk_iff hc lo).1 hlo
  obtain ⟨hh, -, hhmax⟩ := (freqOk_iff hc hi).1 hhi
  have hx := Fp.finite_of_between c.fmt hl hh h h'
  rw [Fp.le_iff_of_finite _ hl hx] at h
  rw [Fp.le_iff_of_finite _ hx hh] at h'
  exact (freqOk_iff hc x).2 ⟨hx, hl0.trans h, h'.trans hhmax⟩

end Sys2Proof.Machine

/-! PROOFS. The ramp and the oscillator within their ranges (spec/44_ramp.md R301 to R305, spec/43_oscillator.md R266 to
R270): the ramp carries frequencies, the phase stays in [0, 1), and the oscillator reads within TABLE. -/

namespace Sys2Proof.Fp

/-! ### min, max and clamp -/

section
variable {f : Fmt} {a b v x : Word}

theorem lt_zero_of_le (ha : finite f a = true) (hx : finite f x = true) (h0 : lt f zero a = true) (h : le f a x = true) :
    lt f zero x = true := by
  rw [zero_lt_iff f ha] at h0
  rw [le_iff_of_finite f ha hx] at h
  exact (zero_lt_iff f hx).2 (h0.trans_le h)

/-- A clamp between the lesser and the greater of two finite numbers lies between them. -/
theorem clamp_fmin_fmax (ha : finite f a = true) (hb : finite f b = true) (hv : isNaN f v = false) :
    le f (fmin f a b) (clamp f v (fmin f a b) (fmax f a b)) = true ∧
      le f (clamp f v (fmin f a b) (fmax f a b)) (fmax f a b) = true := by
  obtain ⟨hmin, hminval⟩ := fmin_val f ha hb
  obtain ⟨hmax, hmaxval⟩ := fmax_val f ha hb
  exact clamp_mem f hv hmin hmax (hminval ▸ hmaxval ▸ min_le_max)

theorem finite_clamp_fmin_fmax (ha : finite f a = true) (hb : finite f b = true) (hv : isNaN f v = false) :
    finite f (clamp f v (fmin f a b) (fmax f a b)) = true := by
  obtain ⟨hlo, hhi⟩ := clamp_fmin_fmax ha hb hv
  exact finite_of_between f (fmin_val f ha hb).1 (fmax_val f ha hb).1 hlo hhi

theorem sub_not_isNaN (ha : finite f a = true) (hb : finite f b = true) : isNaN f (sub f a b) = false :=
  add_not_isNaN f ha (finite_neg f hb)

end

end Sys2Proof.Fp

namespace Sys2Proof.Machine

open Sys2Proof.Fp (InRange IsInt isInt_of_natAbs_le)

theorem freqOk_fmin {c : Cfg} {a b : Word} (ha : freqOk c a = true) (hb : freqOk c b = true) :
    freqOk c (Fp.fmin c.fmt a b) = true := by
  unfold Fp.fmin
  split <;> assumption

theorem freqOk_fmax {c : Cfg} {a b : Word} (ha : freqOk c a = true) (hb : freqOk c b = true) :
    freqOk c (Fp.fmax c.fmt a b) = true := by
  unfold Fp.fmax
  split <;> assumption

/-- A value clamped between two frequencies that the ramp can carry is one. -/
theorem freqOk_clamp {c : Cfg} {a b v : Word} (hc : c.valid = true) (ha : freqOk c a = true) (hb : freqOk c b = true)
    (hv : Fp.isNaN c.fmt v = false) :
    freqOk c (Fp.clamp c.fmt v (Fp.fmin c.fmt a b) (Fp.fmax c.fmt a b)) = true := by
  obtain ⟨hfa, -⟩ := (freqOk_iff hc a).1 ha
  obtain ⟨hfb, -⟩ := (freqOk_iff hc b).1 hb
  obtain ⟨hlo, hhi⟩ := Fp.clamp_fmin_fmax hfa hfb hv
  exact freqOk_of_between hc (freqOk_fmin ha hb) (freqOk_fmax ha hb) hlo hhi

/-! ### The ramp -/

/-- `rampInv`, of the ramp alone: the plan is one between frequencies, in EXP between positive ones. -/
structure Ramp.Carries (c : Cfg) (r : Ramp) : Prop where
  fromVal : freqOk c r.fromVal = true
  toVal : freqOk c r.toVal = true
  pos : Fp.finite c.fmt r.pos = true
  endPos : Fp.finite c.fmt r.endPos = true
  speed : Fp.isNaN c.fmt r.speed = false
  lin : r.curve = .lin → freqOk c r.pos = true ∧ freqOk c r.endPos = true
  exp : r.curve = .exp → Fp.lt c.fmt Fp.zero r.fromVal = true ∧ Fp.lt c.fmt Fp.zero r.toVal = true

theorem State.rampInv_iff (s : State) : s.rampInv = true ↔ s.ramp.Carries s.cfg := by
  simp only [State.rampInv, Bool.and_eq_true, Bool.not_eq_true']
  constructor
  · rintro ⟨⟨⟨⟨⟨hfrom, hto⟩, hpos⟩, hend⟩, hspeed⟩, hcurve⟩
    refine ⟨hfrom, hto, hpos, hend, hspeed, fun h => ?_, fun h => ?_⟩
    · simpa [h] using hcurve
    · simpa [h] using hcurve
  · rintro ⟨hfrom, hto, hpos, hend, hspeed, hlin, hexp⟩
    refine ⟨⟨⟨⟨⟨hfrom, hto⟩, hpos⟩, hend⟩, hspeed⟩, ?_⟩
    cases h : s.ramp.curve
    · simpa using hlin h
    · simpa using hexp h

section
variable {c : Cfg} {r : Ramp} {a b v : Word}

/-- R301: the value is a frequency, in EXP a positive one. -/
theorem Ramp.Carries.value (hr : r.Carries c) (hc : c.valid = true) :
    freqOk c (r.value c.fmt) = true ∧ (r.curve = .exp → Fp.lt c.fmt Fp.zero (r.value c.fmt) = true) := by
  unfold Ramp.value
  split
  · rename_i hlin
    exact ⟨(hr.lin hlin).1, fun hexp => by rw [hlin] at hexp; cases hexp⟩
  · rename_i hexp
    obtain ⟨hfrom, hto⟩ := hr.exp hexp
    obtain ⟨hffrom, -⟩ := (freqOk_iff hc _).1 hr.fromVal
    obtain ⟨hfto, -⟩ := (freqOk_iff hc _).1 hr.toVal
    have hne : Fp.val c.fmt r.fromVal ≠ 0 := ((Fp.zero_lt_iff _ hffrom).1 hfrom).ne'
    have hnan := Fp.mul_not_isNaN_right c.fmt hffrom hne (Fp.exp2_not_isNaN c.fmt hr.pos)
    obtain ⟨hlo, -⟩ := Fp.clamp_fmin_fmax hffrom hfto hnan
    have hmin : Fp.lt c.fmt Fp.zero (Fp.fmin c.fmt r.fromVal r.toVal) = true := by
      unfold Fp.fmin
      split <;> assumption
    exact ⟨freqOk_clamp hc hr.fromVal hr.toVal hnan, fun _ => Fp.lt_zero_of_le (Fp.fmin_val _ hffrom hfto).1
      (Fp.finite_clamp_fmin_fmax hffrom hfto hnan) hmin hlo⟩

/-- R302: a speed is a distance divided by a legal duration and by FS. -/
theorem speed_not_isNaN {d : Word} (hc : c.valid = true) (hd : IsDuration c.fmt d) (hv : Fp.isNaN c.fmt v = false) :
    Fp.isNaN c.fmt (Fp.div c.fmt (Fp.div c.fmt v d) c.fs) = false := by
  have hd0 : Fp.val c.fmt d ≠ 0 := ((Fp.zero_lt_iff _ hd.finite).1 hd.pos).ne'
  exact Fp.div_not_isNaN_left _ (Fp.div_not_isNaN_left _ hv hd.finite hd0) (fs_eq hc).1 (fs_val_pos hc).ne'

/-- R305: what a valid exponential plan has. -/
theorem expOk_spec {f : Fmt} (h : expOk f a b = true) :
    Fp.lt f Fp.zero a = true ∧ Fp.lt f Fp.zero b = true ∧ Fp.finite f (Fp.log2 f (Fp.div f b a)) = true := by
  simp only [expOk, Bool.and_eq_true] at h
  obtain ⟨⟨⟨ha, hb⟩, hlo⟩, hhi⟩ := h
  have hmin : Fp.normalExp f (-126) = true := Fp.normalExp_of_natAbs_le f (by decide)
  have hq := Fp.finite_of_between f (Fp.finite_pow2 f hmin)
    (Fp.finite_pow2 f (Fp.normalExp_of_natAbs_le f (by decide))) hlo hhi
  have hpos : Fp.lt f Fp.zero (Fp.pow2 f (-126)) = true := by
    rw [Fp.zero_lt_iff f (Fp.finite_pow2 f hmin), Fp.val_pow2 f hmin]
    positivity
  obtain ⟨-, hfinite, -⟩ := Fp.log2_lawful f
  exact ⟨ha, hb, hfinite _ hq (Fp.lt_zero_of_le (Fp.finite_pow2 f hmin) hq hpos hlo)⟩

theorem Ramp.carries_plan (hc : c.valid = true) (ha : freqOk c a = true) (hb : freqOk c b = true)
    (hd : IsDuration c.fmt r.duration) (he : r.curve = .exp → expOk c.fmt a b = true) : (r.plan c a b).Carries c := by
  obtain ⟨hfa, -⟩ := (freqOk_iff hc a).1 ha
  obtain ⟨hfb, -⟩ := (freqOk_iff hc b).1 hb
  unfold Ramp.plan
  split
  · rename_i hlin
    exact {
      fromVal := ha, toVal := hb, pos := hfa, endPos := hfb
      speed := speed_not_isNaN hc hd (Fp.sub_not_isNaN hfb hfa)
      lin := fun _ => ⟨ha, hb⟩
      exp := fun h => by rw [hlin] at h; cases h }
  · rename_i hexp
    obtain ⟨ha0, hb0, hlog⟩ := expOk_spec (he hexp)
    exact {
      fromVal := ha, toVal := hb, pos := Fp.finite_zero _, endPos := hlog
      speed := speed_not_isNaN hc hd (Fp.not_isNaN_of_finite _ hlog)
      lin := fun h => by rw [hexp] at h; cases h
      exp := fun _ => ⟨ha0, hb0⟩ }

theorem Ramp.carries_jump (hc : c.valid = true) (hv : freqOk c v = true)
    (h0 : r.curve = .exp → Fp.lt c.fmt Fp.zero v = true) : (r.jump v).Carries c := by
  obtain ⟨hfv, -⟩ := (freqOk_iff hc v).1 hv
  have hzero := Fp.not_isNaN_of_finite c.fmt (Fp.finite_zero c.fmt)
  unfold Ramp.jump
  split
  · rename_i hlin
    exact {
      fromVal := hv, toVal := hv, pos := hfv, endPos := hfv, speed := hzero
      lin := fun _ => ⟨hv, hv⟩
      exp := fun h => by rw [hlin] at h; cases h }
  · rename_i hexp
    exact {
      fromVal := hv, toVal := hv, pos := Fp.finite_zero _, endPos := Fp.finite_zero _, speed := hzero
      lin := fun h => by rw [hexp] at h; cases h
      exp := fun _ => ⟨h0 hexp, h0 hexp⟩ }

/-- R338, R342: a glide, or a jump where the exponential plan would be invalid. -/
theorem Ramp.Carries.goto (hr : r.Carries c) (hc : c.valid = true) (hd : IsDuration c.fmt r.duration)
    (hv : freqOk c v = true) (h0 : Fp.lt c.fmt Fp.zero v = true) : (r.goto c v).Carries c := by
  unfold Ramp.goto
  split
  · exact Ramp.carries_jump hc hv fun _ => h0
  · rename_i hplan
    exact Ramp.carries_plan hc (hr.value hc).1 hv hd fun hexp => by simpa [hexp] using hplan

/-- R303: the position moves between the start and the end of the plan. -/
theorem Ramp.Carries.tick (hr : r.Carries c) (hc : c.valid = true) : (r.tick c.fmt).Carries c := by
  have hsum := Fp.add_not_isNaN_right c.fmt hr.pos hr.speed
  have hstart : Fp.finite c.fmt r.startPos = true := by
    unfold Ramp.startPos
    split
    · exact ((freqOk_iff hc _).1 hr.fromVal).1
    · exact Fp.finite_zero _
  refine { hr with pos := Fp.finite_clamp_fmin_fmax hstart hr.endPos hsum, lin := fun (hlin : r.curve = .lin) => ?_ }
  have hfrom : r.startPos = r.fromVal := by rw [Claims.startPos_eq_ite, if_pos hlin]
  refine ⟨?_, (hr.lin hlin).2⟩
  exact freqOk_clamp hc (hfrom ▸ hr.fromVal) (hr.lin hlin).2 hsum

end

/-! ### The phase and the table index (R267, R270) -/

/-- R270: OSC.phase is in [0, 1). -/
structure IsPhase (f : Fmt) (w : Word) : Prop where
  finite : Fp.finite f w = true
  nonneg : 0 ≤ Fp.val f w
  lt_one : Fp.val f w < (2 ^ f.scale : Nat)

theorem isPhase_iff (f : Fmt) (w : Word) : IsPhase f w ↔
    Fp.finite f w = true ∧ Fp.le f Fp.zero w = true ∧ Fp.lt f w (Fp.one f) = true := by
  constructor
  · rintro ⟨hf, h0, h1⟩
    exact ⟨hf, (Fp.zero_le_iff f hf).2 h0, (Fp.lt_one_iff f hf).2 h1⟩
  · rintro ⟨hf, h0, h1⟩
    exact ⟨hf, (Fp.zero_le_iff f hf).1 h0, (Fp.lt_one_iff f hf).1 h1⟩

theorem State.phaseInv_iff (s : State) : s.phaseInv = true ↔ IsPhase s.cfg.fmt s.osc.phase := by
  rw [isPhase_iff, State.phaseInv, Bool.and_eq_true, Bool.and_eq_true, and_assoc]

theorem IsPhase.inRange {f : Fmt} {w : Word} (h : IsPhase f w) : InRange f 0 1 w :=
  ⟨h.finite, by rw [zero_mul]; exact h.nonneg, by rw [one_mul]; exact h.lt_one.le⟩

/-- R270: the advance by a frequency up to 2^39 wraps into [0, 1). -/
theorem IsPhase.advance {c : Cfg} {phase freq : Word} (hc : c.valid = true) (hp : IsPhase c.fmt phase)
    (hf : InRange c.fmt 0 (2 ^ 39) freq) : IsPhase c.fmt (phaseAdvance c phase freq) := by
  obtain ⟨hfin, n, hpos, -, hval⟩ := fs_eq hc
  have h39 := Fp.isInt_two_pow_39 c.fmt
  have h0 : IsInt c.fmt 0 := isInt_of_natAbs_le _ (by decide)
  have hq : InRange c.fmt 0 (2 ^ 39) (Fp.div c.fmt freq c.fs) := hf.div hfin hpos hval h0 h39 (by omega) (by omega)
  have hsum := (hp.inRange.mono le_rfl (by decide : (1 : Int) ≤ 2 ^ 39)).add hq h0 (Fp.isInt_two_pow_40 c.fmt)
  exact (isPhase_iff _ _).2 (Fp.fraction_mem c.fmt hsum.finite (by simpa using hsum.lo_le))

/-- The position in the table is exact: TABLE_LEN is a power of two. -/
theorem tablePos_exact {c : Cfg} {phase : Word} (hc : c.valid = true) (hp : IsPhase c.fmt phase) :
    Fp.finite c.fmt (tablePos c phase) = true ∧
      Fp.val c.fmt (tablePos c phase) = Fp.val c.fmt phase * (c.tableLen : Nat) := by
  obtain ⟨-, -, -, ⟨n, -, hn, hlen⟩, -⟩ := (Claims.valid_iff_legalConfig c).1 hc
  have hle : c.tableLen ≤ 2 ^ 16 := hlen ▸ Nat.pow_le_pow_right (by decide) hn
  have hint : IsInt c.fmt (c.tableLen : Nat) := isInt_of_natAbs_le _ (by omega)
  obtain ⟨k, j, hk, hmag⟩ := Fp.mag_form c.fmt (Fp.magBits c.fmt phase)
  have hphase : k * 2 ^ j < 2 ^ c.fmt.scale := by
    rw [← hmag, ← Fp.natAbs_val]
    have := hp.nonneg
    have := hp.lt_one
    omega
  have hbound : k * 2 ^ (j + n) < Fp.mag c.fmt (Fp.infBits c.fmt) := by
    calc k * 2 ^ (j + n) = k * 2 ^ j * 2 ^ n := by rw [pow_add, mul_assoc]
      _ < 2 ^ c.fmt.scale * 2 ^ n := Nat.mul_lt_mul_of_pos_right hphase (by positivity)
      _ ≤ 2 ^ c.fmt.scale * 2 ^ 16 := Nat.mul_le_mul_left _ (Nat.pow_le_pow_right (by decide) hn)
      _ ≤ _ := by cases c.fmt <;> decide +kernel
  have hlenMag : Fp.mag c.fmt (Fp.magBits c.fmt (Fp.ofInt c.fmt (c.tableLen : Nat))) = 2 ^ n * 2 ^ c.fmt.scale := by
    rw [← Fp.natAbs_val, hint.val, hlen]
    norm_cast
  obtain ⟨hfin, hval⟩ := Fp.mul_exact c.fmt hp.finite hint.finite (j := j + n) hk hbound
    (by rw [hmag, hlenMag, pow_add]; ring)
  rw [hint.val, ← mul_assoc] at hval
  exact ⟨hfin, Int.eq_of_mul_eq_mul_right (Fp.scale_pos _).ne' hval⟩

/-- R267: the index is below TABLE_LEN. -/
theorem tableIndex_lt {c : Cfg} {phase : Word} (hc : c.valid = true) (hp : IsPhase c.fmt phase) :
    tableIndex c phase < c.tableLen := by
  obtain ⟨hfin, hval⟩ := tablePos_exact hc hp
  have hlen : 0 < c.tableLen := by
    obtain ⟨-, -, -, ⟨n, -, -, hlen⟩, -⟩ := (Claims.valid_iff_legalConfig c).1 hc
    exact hlen ▸ Nat.two_pow_pos n
  have hfloor : Fp.floorInt c.fmt (tablePos c phase) < (c.tableLen : Nat) := by
    rw [Fp.floorInt, hval]
    refine Int.ediv_lt_of_lt_mul (Fp.scale_pos _) ?_
    rw [mul_comm]
    exact Int.mul_lt_mul_of_pos_left hp.lt_one (by exact_mod_cast hlen)
  rw [tableIndex, Fp.toNat_floor _ hfin]
  omega

/-! ### The octave (R268) -/

/-- R268: the octave is below NUM_TABLES where the quotient by BASE_FREQ is finite. -/
theorem octave_lt {c : Cfg} {freq : Word} (hc : c.valid = true) (hf : Fp.finite c.fmt freq = true)
    (hq : Fp.finite c.fmt (Fp.div c.fmt freq c.baseFreq) = true) : (octave c freq).1 < c.numTables := by
  obtain ⟨hwords, -, -, -, ⟨htables, htables'⟩, -, hbase, -⟩ := (Claims.valid_iff_legalConfig c).1 hc
  have hbaseFin : Fp.finite c.fmt c.baseFreq = true := (hwords c.baseFreq (by simp)).2
  rw [Claims.realOf_pos_iff] at hbase
  unfold octave
  split
  · exact htables
  · rename_i hlow
    split
    · exact Nat.sub_lt htables Nat.one_pos
    · rename_i htop
      rw [Fp.le_iff_of_finite _ hf hbaseFin, not_le] at hlow
      have hone := Fp.le_div c.fmt hf hbaseFin hbase (Fp.finite_one _)
        (by rw [Fp.val_one, mul_comm]; exact Int.mul_le_mul_of_nonneg_right hlow.le (Fp.scale_pos _).le)
      obtain ⟨hlog, -⟩ := Fp.log2_nonneg c.fmt hq ((Fp.one_le_iff _ hq).1 hone)
      have htopInt : IsInt c.fmt (c.numTables - 1 : Nat) := isInt_of_natAbs_le _ (by omega)
      rw [Fp.le_iff_of_finite _ htopInt.finite hlog, htopInt.val, not_le] at htop
      have hfloor := Int.ediv_lt_of_lt_mul (Fp.scale_pos c.fmt) htop
      rw [Fp.toNat_floor _ hlog, Fp.floorInt]
      omega

theorem nextTable_lt {c : Cfg} (hc : c.valid = true) (k : Nat) : nextTable c k < c.numTables := by
  obtain ⟨-, -, -, -, ⟨htables, -⟩, -⟩ := (Claims.valid_iff_legalConfig c).1 hc
  exact lt_of_le_of_lt (min_le_right _ _) (Nat.sub_lt htables Nat.one_pos)

/-- A frequency up to 2^39 divided by BASE_FREQ does not overflow, where `baseOk` says so of 2^40
(notes/assumptions/11.md). -/
theorem div_baseFreq_finite {c : Cfg} {freq : Word} (hc : c.valid = true) (hb : Cfg.baseOk c = true)
    (hf : InRange c.fmt 0 (2 ^ 39) freq) : Fp.finite c.fmt (Fp.div c.fmt freq c.baseFreq) = true := by
  obtain ⟨hwords, -, -, -, -, -, hbase, -⟩ := (Claims.valid_iff_legalConfig c).1 hc
  have h40 := Fp.isInt_two_pow_40 c.fmt
  refine Fp.div_finite_of_le c.fmt hf.finite h40.finite (hwords c.baseFreq (by simp)).2
    ((Claims.realOf_pos_iff _ _).1 hbase) ?_ hb
  have hlo := hf.lo_le
  have hhi := hf.le_hi
  rw [h40.val]
  omega

/-- R266: the effective frequency is at most 2^39, for a frequency of the ramp and a legal detune. -/
theorem oscFreq_inRange {c : Cfg} {o : Osc} (hc : c.valid = true) (hin : freqOk c o.inp = true)
    (hd : Fp.finite c.fmt o.detune = true) (hmax : Fp.lt c.fmt c.detuneMax (Fp.abs c.fmt o.detune) = false) :
    InRange c.fmt 0 (2 ^ 39) (o.freq c.fmt) := by
  have hdetune : InRange c.fmt (-16) 16 o.detune := by
    simp only [Cfg.valid, Cfg.detuneOk, Bool.and_eq_true, decide_eq_true_eq] at hc
    obtain ⟨-, ⟨hfin, -⟩, hle⟩ := hc
    rw [Fp.lt_of_finite _ hfin (Fp.finite_abs _ hd), decide_eq_false_iff_not, Fp.val_abs] at hmax
    exact ⟨hd, by omega, by omega⟩
  have hexp : InRange c.fmt 0 (2 ^ 16) (Fp.exp2 c.fmt o.detune) :=
    InRange.exp2 (n := 16) hdetune (by decide) (by decide)
  exact (freqOk_inRange hc hin).mul hexp (Fp.isInt_two_pow_39 _)

end Sys2Proof.Machine

/-! PROOFS. TICKB (spec/40_commands.md R156, spec/20_memory.md R85, spec/70_reset_and_hazards.md R444): a loaded block's
sample ticks complete and keep what that needs, and the block of samples is the samples with their outputs stored. -/

namespace Sys2Proof.Machine

open Sys2Proof.Fp (InRange)

/-! ### What a loaded block needs, and keeps -/

/-- `audioInv`, part by part. -/
structure State.Audio (s : State) : Prop where
  valid : s.cfg.valid = true
  baseOk : Cfg.baseOk s.cfg = true
  midi : s.midiInv = true
  legal : s.Legal
  ramp : s.ramp.Carries s.cfg
  phase : IsPhase s.cfg.fmt s.osc.phase

theorem State.audioInv_iff (s : State) : s.audioInv = true ↔ s.Audio := by
  simp only [State.audioInv, Bool.and_eq_true, State.paramInv_iff, State.rampInv_iff, State.phaseInv_iff]
  constructor
  · rintro ⟨⟨⟨⟨⟨hvalid, hbase⟩, hmidi⟩, hlegal⟩, hramp⟩, hphase⟩
    exact ⟨hvalid, hbase, hmidi, hlegal, hramp, hphase⟩
  · rintro ⟨hvalid, hbase, hmidi, hlegal, hramp, hphase⟩
    exact ⟨⟨⟨⟨⟨hvalid, hbase⟩, hmidi⟩, hlegal⟩, hramp⟩, hphase⟩

/-- What the drain needs of the state so that the ramp goes on carrying frequencies. -/
structure State.Glides (s : State) : Prop where
  valid : s.cfg.valid = true
  ramp : s.ramp.Carries s.cfg
  duration : IsDuration s.cfg.fmt s.ramp.duration

/-- R126: the note of a NoteOn event is below 128. -/
theorem evD1_lt_of_noteOn {e : BitVec 32} (he : eventOk e = true) (hk : evKind e = 2#4) : (evD1 e).toNat < 128 := by
  simp only [eventOk, Bool.and_eq_true, Bool.or_eq_true, decide_eq_true_eq, hk] at he
  obtain ⟨-, h8 | ⟨hd1, -⟩⟩ := he
  · exact absurd h8 (by decide)
  · exact hd1

theorem State.Glides.noteOn {s : State} (h : s.Glides) {n : Byte} (hn : n.toNat < 128) : (noteOn n s).Glides := by
  refine ⟨h.valid, h.ramp.goto h.valid h.duration (freqOk_noteFreq h.valid hn) (noteFreq_pos _ hn), ?_⟩
  show IsDuration s.cfg.fmt (s.ramp.goto s.cfg (noteFreq s.cfg.fmt n)).duration
  unfold Ramp.goto
  split
  · exact (Ramp.jump_duration _ _).symm ▸ h.duration
  · exact (Ramp.plan_duration _ _ _ _).symm ▸ h.duration

theorem State.Glides.applyEvent {s : State} (h : s.Glides) {e : BitVec 32} (he : eventOk e = true) :
    (applyEvent e s).Glides := by
  rcases applyEvent_cases e s with ⟨hk, -, heq⟩ | ⟨-, heq⟩ | ⟨-, -, heq⟩ <;> rw [heq]
  · exact h.noteOn (evD1_lt_of_noteOn he hk)
  · unfold noteOff
    split
    · exact { h with }
    · exact h
  · exact h

theorem State.Glides.drainStage {s : State} (h : s.Glides) (hm : s.midiInv = true) : (drainStage s).Glides := by
  simp only [State.midiInv, Bool.and_eq_true, List.all_eq_true] at hm
  obtain ⟨⟨⟨-, hevents⟩, -⟩, -⟩ := hm
  unfold Machine.drainStage
  split
  · exact applyEvents_induct (Inv := State.Glides) (P := fun e => eventOk e = true) (fun _ _ he hu => hu.applyEvent he)
      s.midi.q hevents _ { h with }
  · exact h

section
variable {s : State} {v : Voice} {r : Ramp} (h : s.Audio)
  (hdrain : drainStage s =
    ((s.setMidi { s.midi with q := if s.ctrl.midiDrive then [] else s.midi.q }).setVoice v).setRamp r)
include h hdrain

/-- The drained ramp carries frequencies. -/
theorem State.Audio.drained : r.Carries s.cfg := by
  have hg : s.Glides := ⟨h.valid, h.ramp, h.legal.duration⟩
  have hd := (hg.drainStage h.midi).ramp
  rwa [hdrain] at hd

/-- R266: the effective frequency of the tick's oscillator. -/
theorem State.Audio.freq_inRange : InRange s.cfg.fmt 0 (2 ^ 39)
    (Osc.freq s.cfg.fmt { s.osc with inp := (r.tick s.cfg.fmt).out, detune := v.detune }) := by
  have hdetune := (drainStage_keeps hdrain).detune
  exact oscFreq_inRange h.valid ((h.drained hdrain).value h.valid).1 (hdetune ▸ h.legal.voice.detune)
    (hdetune ▸ h.legal.voice.detuneMax)

end

section
variable {s t : State}

/-- The parser's bounds hold of a drained queue. -/
theorem midiInv_drained (h : s.midiInv = true) (on : Bool) (hcfg : t.cfg = s.cfg)
    (hmidi : t.midi = { s.midi with q := if on then [] else s.midi.q }) : t.midiInv = true := by
  cases on
  · rwa [State.midiInv, hmidi, hcfg]
  · simp only [State.midiInv, Bool.and_eq_true, hmidi, hcfg] at h ⊢
    obtain ⟨⟨-, hbuf⟩, hstate⟩ := h
    exact ⟨⟨⟨decide_eq_true (Nat.zero_le _), rfl⟩, hbuf⟩, hstate⟩

theorem State.Audio.sampleTick (h : s.Audio) (ht : sampleTick s = .ok t) : t.Audio := by
  have hlegal := h.legal.sampleTick ht
  obtain ⟨hcfg, -, -, -, -, -, -, -, -, -, -, hmidi, -⟩ := Claims.sampleTickFrame s t ht
  obtain ⟨v, r, o, hdrain, hosc, rfl⟩ := sampleTick_ok ht
  obtain ⟨out, -, rfl⟩ := Osc.tick_cases hosc
  exact {
    valid := h.valid
    baseOk := h.baseOk
    midi := midiInv_drained h.midi _ hcfg hmidi
    legal := hlegal
    ramp := (h.drained hdrain).tick h.valid
    phase := h.phase.advance h.valid (h.freq_inRange hdrain) }

/-- R267: in a full TABLE the two entries of a table of a bank are written. -/
theorem pairWritten_of_full {c : Cfg} {table : Memory} {bank : Byte} {phase : Word} {k : Nat} (hc : c.valid = true)
    (hfull : ∀ a, a < c.tableSize → (Memory.lookup table a).isSome = true) (hb : bank.toNat < c.numBanks)
    (hp : IsPhase c.fmt phase) (hk : k < c.numTables) : pairWritten c table bank phase k = true := by
  have hi := tableIndex_lt hc hp
  have hnext : (tableIndex c phase + 1) % c.tableLen < c.tableLen := Nat.mod_lt _ (by omega)
  rw [pairWritten, hfull _ (Cfg.taddr_lt hb hk hi), hfull _ (Cfg.taddr_lt hb hk hnext)]
  rfl

/-- R444: the oscillator of a loaded block reads written entries alone. -/
theorem State.Audio.oscEntriesWritten (h : s.Audio) (hfull : s.tableFull) : Claims.oscEntriesWritten s = true := by
  obtain ⟨v, r, hdrain, -⟩ := drainStage_frame s
  have hfreq := h.freq_inRange hdrain
  have hq := div_baseFreq_finite h.valid h.baseOk hfreq
  rw [Claims.oscEntriesWritten_eq, beforeOsc_eq hdrain, Bool.and_eq_true]
  exact ⟨pairWritten_of_full h.valid hfull h.legal.bank h.phase (octave_lt h.valid hfreq.finite hq),
    pairWritten_of_full h.valid hfull h.legal.bank h.phase (nextTable_lt h.valid _)⟩

end

end Sys2Proof.Machine

namespace Sys2Proof.Claims

open Sys2Proof Sys2Proof.Machine

/-! ### The samples -/

/-- The first sample is taken first. -/
theorem samples_succ (n : Nat) (s : State) : samples (n + 1) s = (sampleTick s).bind (samples n) := by
  induction n with
  | zero => cases h : sampleTick s <;> simp [samples, h, Except.bind]
  | succ n ih =>
    rw [samples, ih]
    cases sampleTick s <;> rfl

/-- `n` samples complete exactly where each reads written entries (R417). -/
theorem samples_answersIff (n : Nat) (s : State) : AnswersIff (samplesWritten n s) (samples n s) := by
  induction n generalizing s with
  | zero => exact .of_ok s
  | succ n ih =>
    rw [samples_succ, samplesWritten]
    have hs := sampleTick_answersIff s
    cases hw : oscEntriesWritten s with
    | false =>
      rw [hs.faults hw]
      exact .of_error
    | true =>
      obtain ⟨u, hu⟩ := hs.answers hw
      rw [hu]
      exact ih u

/-- R444: every sample of a loaded block reads written entries. -/
theorem samplesWritten_of_audio (n : Nat) {s : State} (h : s.Audio) (hfull : s.tableFull) : samplesWritten n s = true := by
  induction n generalizing s with
  | zero => rfl
  | succ n ih =>
    have hw := h.oscEntriesWritten hfull
    obtain ⟨u, hu⟩ := (sampleTick_answersIff s).answers hw
    have hk := sampleTick_keepsTables hu
    have hfull' : u.tableFull := fun a ha => by
      rw [State.written, hk.table]
      exact hfull a (hk.cfg ▸ ha)
    rw [samplesWritten, hw, hu, Bool.true_and]
    exact ih (h.sampleTick hu) hfull'

/-- `n` samples keep the configuration, TABLE and OUTBUF, and count up by `n` (R46). -/
structure SamplesKeep (n : Nat) (s v : State) : Prop where
  tables : KeepsTables s v
  outbuf : v.outbuf = s.outbuf
  sampleCount : v.sampleCount = s.sampleCount + BitVec.ofNat 32 n

theorem samples_keep {n : Nat} {s v : State} (h : samples n s = .ok v) : SamplesKeep n s v := by
  induction n generalizing v with
  | zero =>
    obtain rfl := Except.ok.inj h
    exact ⟨⟨rfl, rfl, rfl⟩, rfl, (BitVec.add_zero _).symm⟩
  | succ n ih =>
    rw [samples] at h
    cases hu : samples n s with
    | error e => rw [hu] at h; cases h
    | ok u =>
      rw [hu] at h
      obtain ⟨htables, houtbuf, hcount⟩ := ih hu
      obtain ⟨-, -, -, -, -, -, -, hstep, -⟩ := sampleTickFrame u v h
      refine ⟨htables.trans (sampleTick_keepsTables h), (sampleTick_outbuf h).trans houtbuf, ?_⟩
      rw [hstep, hcount, BitVec.add_assoc, BitVec.ofNat_add]

/-! ### R156: the block -/

/-- OUTBUF `m` after the first `n` samples from `s`: their outputs in the first `n` words, and the rest as before. -/
structure OutputsStored (n : Nat) (s : State) (m : Memory) : Prop where
  wf : Memory.wf outbufDefault m = true
  stored : ∀ k, k < n → ∃ w, samples (k + 1) s = .ok w ∧ (s.setOutbuf m).outbufRead k = w.voice.out
  rest : ∀ a, n ≤ a → (s.setOutbuf m).outbufRead a = s.outbufRead a

/-- One more sample stores one more word. -/
theorem OutputsStored.succ {n : Nat} {s v : State} {m : Memory} (h : OutputsStored n s m)
    (hv : samples (n + 1) s = .ok v) : OutputsStored (n + 1) s (Memory.write outbufDefault m n v.voice.out) where
  wf := Memory.wf_write _ m n _ h.wf
  stored k hk := by
    by_cases hkn : k = n
    · subst hkn
      exact ⟨v, hv, State.outbufRead_outbufWrite_self (s.setOutbuf m) k _ h.wf⟩
    · obtain ⟨w, hw, hread⟩ := h.stored k (by omega)
      exact ⟨w, hw, (State.outbufRead_outbufWrite_ne (s.setOutbuf m) _ hkn).trans hread⟩
  rest a ha := (State.outbufRead_outbufWrite_ne (s.setOutbuf m) _ (by omega)).trans (h.rest a (by omega))

/-- The ticks of a block are the samples, but for OUTBUF, which no sample reads (`sampleTick_setOutbuf`). -/
theorem blockTicks_of_samples {n : Nat} {s v : State} (h : samples n s = .ok v) :
    ∃ m, blockTicks n 0 s = .ok (v.setOutbuf m) ∧ (Memory.wf outbufDefault s.outbuf = true → OutputsStored n s m) := by
  induction n generalizing v with
  | zero =>
    obtain rfl := Except.ok.inj h
    exact ⟨s.outbuf, rfl, fun hwf => ⟨hwf, fun k hk => absurd hk (Nat.not_lt_zero k), fun _ _ => rfl⟩⟩
  | succ n ih =>
    have hsucc := h
    rw [samples] at h
    cases hu : samples n s with
    | error e => rw [hu] at h; cases h
    | ok u =>
      have htick : sampleTick u = .ok v := by rwa [hu] at h
      obtain ⟨m, hblock, hm⟩ := ih hu
      refine ⟨Memory.write outbufDefault m n v.voice.out, ?_, fun hwf => (hm hwf).succ hsucc⟩
      rw [blockTicks_succ, hblock, Nat.zero_add]
      simp only [sampleTick_setOutbuf, htick]
      rfl

/-- A block faults where its samples do. -/
theorem blockTicks_of_samples_error {n : Nat} {s : State} {e : Fault} (h : samples n s = .error e) :
    blockTicks n 0 s = .error e := by
  induction n with
  | zero => cases h
  | succ n ih =>
    rw [samples] at h
    rw [blockTicks_succ]
    cases hu : samples n s with
    | error e' =>
      rw [hu] at h
      rw [ih (hu.trans h)]
    | ok u =>
      have htick : sampleTick u = .error e := by rwa [hu] at h
      obtain ⟨m, hblock, -⟩ := blockTicks_of_samples hu
      rw [hblock]
      simp only [sampleTick_setOutbuf, htick]

theorem exec_tickb_of_load {s : State} (h : s.lifecycle = .load) : exec .tickb s = .next (rejected s .stateError) := by
  rw [exec, execTickb, h]
  rfl

theorem exec_tickb_of_ok {s t : State} (h : s.lifecycle = .run) (ht : blockTicks s.cfg.blockSize 0 s = .ok t) :
    exec .tickb s = .next (answered t t.voice.out) := by
  rw [exec, execTickb, h, ht]
  rfl

theorem exec_tickb_of_error {s : State} {e : Fault} (h : s.lifecycle = .run)
    (he : blockTicks s.cfg.blockSize 0 s = .error e) : exec .tickb s = .fault e := by
  rw [exec, execTickb, h, he]

/-- Settles O22: the block is the samples with their outputs stored (`blockTicks_of_samples`); they complete exactly
where they read written entries (`samples_answersIff`), and so in a loaded block (`samplesWritten_of_audio`). -/
theorem tickbStoresEverySample : Obligations.TickbStoresEverySample := by
  refine fun s => ⟨exec_tickb_of_load, fun hrun hwf hready => ?_, fun hrun hw => ?_⟩
  · have hw : samplesWritten s.cfg.blockSize s = true := by
      rcases hready with hw | ⟨haudio, hfull⟩
      · exact hw
      · exact samplesWritten_of_audio _ ((State.audioInv_iff s).1 haudio) hfull
    obtain ⟨v, hv⟩ := (samples_answersIff _ s).answers hw
    obtain ⟨m, hblock, hm⟩ := blockTicks_of_samples hv
    have hstored := hm hwf
    have hkeep := samples_keep hv
    exact ⟨v, m, hv, exec_tickb_of_ok hrun hblock, hstored.stored, hstored.rest, hkeep.sampleCount, hkeep.tables.table,
      hkeep.tables.cfg⟩
  · exact exec_tickb_of_error hrun (blockTicks_of_samples_error ((samples_answersIff _ s).faults hw))

end Sys2Proof.Claims

/-! PROOFS. The envelope (spec/41_envelope.md): one tick by the segment and the gate (R203 to R208), and the four parameters
(R201, R202, R211). -/

namespace Sys2Proof.Machine

/-! ### R204: a tick by the segment and the gate -/

section
variable {c : Cfg} {e : Env}

/-- A released envelope whose gate is engaged enters Attacking. -/
theorem Env.gateStep_entering_attack (hs : e.state = .releasing) (hg : e.engaged c.fmt = true) :
    e.gateStep c.fmt = e.enter .attacking := by
  rw [Env.gateStep, hs]
  exact if_pos hg

/-- An envelope in another segment whose gate is released enters Releasing. -/
theorem Env.gateStep_entering_release (hs : e.state ≠ .releasing) (hg : e.engaged c.fmt = false) :
    e.gateStep c.fmt = e.enter .releasing := by
  rw [Env.gateStep]
  cases h : e.state with
  | releasing => exact absurd h hs
  | attacking | decaying | sustaining => simp only [hg, Bool.false_eq_true, if_false]

/-- Where the gate agrees with the segment, the segment stays. -/
theorem Env.gateStep_of_stay (h : e.state = .releasing ↔ e.engaged c.fmt = false) : e.gateStep c.fmt = e := by
  rw [Env.gateStep]
  cases hs : e.state with
  | releasing => simp only [h.1 hs, Bool.false_eq_true, if_false]
  | attacking | decaying | sustaining =>
    have hg : e.engaged c.fmt = true := by simpa [hs] using h
    simp only [hg, if_true]

/-- The gate step changes nothing, or it enters a segment from the present amplitude. -/
theorem Env.gateStep_cases (c : Cfg) (e : Env) : e.gateStep c.fmt = e ∨ ∃ g, e.gateStep c.fmt = e.enter g := by
  by_cases hs : e.state = .releasing <;> cases hg : e.engaged c.fmt
  · exact .inl (Env.gateStep_of_stay (iff_of_true hs hg))
  · exact .inr ⟨_, Env.gateStep_entering_attack hs hg⟩
  · exact .inr ⟨_, Env.gateStep_entering_release hs hg⟩
  · exact .inl (Env.gateStep_of_stay (iff_of_false hs (by simp [hg])))

theorem Env.tick_entering_attack (hs : e.state = .releasing) (hg : e.engaged c.fmt = true) :
    e.tick c = (e.enter .attacking).attackStep c := by
  rw [Env.tick, Env.gateStep_entering_attack hs hg]
  rfl

theorem Env.tick_entering_release (hs : e.state ≠ .releasing) (hg : e.engaged c.fmt = false) :
    e.tick c = (e.enter .releasing).releaseStep c := by
  rw [Env.tick, Env.gateStep_entering_release hs hg]
  rfl

theorem Env.tick_of_attacking (hs : e.state = .attacking) (hg : e.engaged c.fmt = true) :
    e.tick c = e.attackStep c := by
  rw [Env.tick, Env.gateStep_of_stay (iff_of_false (by simp [hs]) (by simp [hg])), Env.segmentStep, hs]

theorem Env.tick_of_decaying (hs : e.state = .decaying) (hg : e.engaged c.fmt = true) :
    e.tick c = e.decayStep c := by
  rw [Env.tick, Env.gateStep_of_stay (iff_of_false (by simp [hs]) (by simp [hg])), Env.segmentStep, hs]

theorem Env.tick_of_sustaining (hs : e.state = .sustaining) (hg : e.engaged c.fmt = true) :
    e.tick c = { e with amp := e.sustain } := by
  rw [Env.tick, Env.gateStep_of_stay (iff_of_false (by simp [hs]) (by simp [hg])), Env.segmentStep, hs]

theorem Env.tick_of_releasing (hs : e.state = .releasing) (hg : e.engaged c.fmt = false) :
    e.tick c = e.releaseStep c := by
  rw [Env.tick, Env.gateStep_of_stay (iff_of_true hs hg), Env.segmentStep, hs]

/-- R206, R201: when a decay ends. -/
theorem Env.decayEnds_iff (f : Fmt) (e : Env) : e.decayEnds f = true ↔
    Fp.le f (Fp.lerp f (Fp.one f) e.sustain e.pos) e.sustain = true ∨
      (Fp.isInf f e.pos = true ∧ Fp.sign f e.pos = false) := by
  rw [Env.decayEnds, Bool.or_eq_true, Bool.and_eq_true, Bool.not_eq_true']

end

end Sys2Proof.Machine

namespace Sys2Proof.Claims

open Sys2Proof Sys2Proof.Machine

/-- Settles O56: a gate change enters its segment, whose next tick is the same step again; else the tick is the segment's
step. -/
theorem envelopeSegments : Obligations.EnvelopeSegments := by
  intro c e
  refine ⟨fun hs hg => ?attack, fun hs hg => ?release, fun hs hg => Env.tick_of_attacking hs hg,
    fun hs hg => ?decaying, fun hs hg => Env.tick_of_sustaining hs hg, fun hs hg => Env.tick_of_releasing hs hg⟩
  case attack =>
    rw [Env.tick_entering_attack hs hg]
    exact (Env.tick_of_attacking (e := e.enter .attacking) rfl hg).symm
  case release =>
    rw [Env.tick_entering_release hs hg]
    exact (Env.tick_of_releasing (e := e.enter .releasing) rfl hg).symm
  case decaying =>
    rw [Env.tick_of_decaying hs hg, Env.decayStep]
    exact if_congr (Env.decayEnds_iff c.fmt e) rfl rfl

/-! ### R201, R202, R211: the four parameters -/

/-- WPARAM of a writable register of a real value: the check of R10, then the register's write rule. -/
theorem exec_wparam_of_real {u : UnitId} {sel : Byte} {r : Reg} (dw : Word) (s : State) (hr : regOf u sel = some r)
    (hw : r.writable = true) (hk : r.kind = .real) : exec (.wparam u sel dw) s =
      if Fp.finite s.cfg.fmt dw then conclude (writeReg r dw s) s else .next (rejected s .invalidParameter) := by
  rw [exec, execWparam, hr]
  simp only [hw, hk, if_true, true_and]
  cases Fp.finite s.cfg.fmt dw <;> rfl

/-- WPARAM of a duration register, which stores the duration as `t`. -/
theorem exec_wparam_of_duration {u : UnitId} {sel : Byte} {r : Reg} {dw : Word} {s t : State}
    (hr : regOf u sel = some r) (hw : r.writable = true) (hk : r.kind = .real)
    (h : writeReg r dw s = if durationOk s.cfg.fmt dw then .ok t else .error .invalidParameter) :
    exec (.wparam u sel dw) s =
      .next (if durationOk s.cfg.fmt dw then answered t 0#64 else rejected s .invalidParameter) := by
  rw [exec_wparam_of_real dw s hr hw hk, h, durationOk]
  cases Fp.finite s.cfg.fmt dw
  · rfl
  · cases Fp.le s.cfg.fmt dw Fp.zero <;> rfl

theorem durationOk_eq_false_iff (f : Fmt) (dw : Word) :
    durationOk f dw = false ↔ Fp.finite f dw = false ∨ Fp.le f dw Fp.zero = true := by
  rw [durationOk, Bool.and_eq_false_iff, Bool.not_eq_false']

theorem exec_wparam_envAttack (dw : Word) (s : State) : exec (.wparam .env 0#8 dw) s =
    .next (if durationOk s.cfg.fmt dw then answered { s with env := { s.env with attack := dw } } 0#64
      else rejected s .invalidParameter) :=
  exec_wparam_of_duration (r := .envAttack) rfl rfl rfl rfl

theorem exec_wparam_envDecay (dw : Word) (s : State) : exec (.wparam .env 1#8 dw) s =
    .next (if durationOk s.cfg.fmt dw then answered { s with env := { s.env with decay := dw } } 0#64
      else rejected s .invalidParameter) :=
  exec_wparam_of_duration (r := .envDecay) rfl rfl rfl rfl

theorem exec_wparam_envRelease (dw : Word) (s : State) : exec (.wparam .env 3#8 dw) s =
    .next (if durationOk s.cfg.fmt dw then answered { s with env := { s.env with release := dw } } 0#64
      else rejected s .invalidParameter) :=
  exec_wparam_of_duration (r := .envRelease) rfl rfl rfl rfl

/-- R202: what WPARAM of ENV.SUSTAIN takes, and what it refuses. -/
theorem exec_wparam_envSustain (dw : Word) (s : State) : exec (.wparam .env 2#8 dw) s =
    .next (if Fp.finite s.cfg.fmt dw = false ∨ Fp.lt s.cfg.fmt dw Fp.zero = true ∨
        Fp.lt s.cfg.fmt (Fp.one s.cfg.fmt) dw = true then rejected s .invalidParameter
      else answered { s with env := { s.env with sustain := dw } } 0#64) := by
  rw [exec_wparam_of_real (r := .envSustain) dw s rfl rfl rfl, writeReg, writeEnvSustain]
  cases hf : Fp.finite s.cfg.fmt dw
  · rw [if_neg Bool.false_ne_true, if_pos (.inl rfl)]
  · rw [if_pos rfl]
    split <;> rfl

/-- Settles O31: the three durations by their common check, the sustain by its own. -/
theorem wparamEnvelopeParameters : Obligations.WparamEnvelopeParameters := by
  intro s dw
  refine ⟨fun hf hle => ?stored, fun h => ?refused, fun hf h0 h1 => ?sustain, fun h => ?sustainRefused⟩
  case stored =>
    have hok : durationOk s.cfg.fmt dw = true := by rw [durationOk, hf, hle]; rfl
    rw [exec_wparam_envAttack, exec_wparam_envDecay, exec_wparam_envRelease, if_pos hok, if_pos hok, if_pos hok]
    exact ⟨rfl, rfl, rfl⟩
  case refused =>
    have hbad := (durationOk_eq_false_iff s.cfg.fmt dw).2 h
    rw [exec_wparam_envAttack, exec_wparam_envDecay, exec_wparam_envRelease, hbad]
    exact ⟨rfl, rfl, rfl⟩
  case sustain => rw [exec_wparam_envSustain, if_neg (by simp [hf, h0, h1])]
  case sustainRefused => rw [exec_wparam_envSustain, if_pos h]

end Sys2Proof.Claims

/-! PROOFS. The envelope within [0, 1] (spec/41_envelope.md R209, R201) and its continuity at a gate change (R210): the
interpolations of the segments as bounds on numbers from 0 to +∞, and the bounds kept by every step of the block. -/

namespace Sys2Proof.Fp

/-! ### Sums and products of numbers from 0 to +∞ -/

section
variable {f : Fmt} {a b v x : Word}

theorem not_isNaN_of_le (h : le f a b = true) : isNaN f a = false ∧ isNaN f b = false := by
  simp only [le, Bool.and_eq_true, Bool.not_eq_true'] at h
  exact h.1

/-- The ordered comparison is transitive. -/
theorem le_of_le_of_le (h : le f a b = true) (h' : le f b v = true) : le f a v = true := by
  simp only [le, Bool.and_eq_true, Bool.not_eq_true', decide_eq_true_eq] at h h' ⊢
  obtain ⟨⟨hna, -⟩, hval⟩ := h
  obtain ⟨⟨-, hnv⟩, hval'⟩ := h'
  exact ⟨⟨hna, hnv⟩, hval.trans hval'⟩

/-- Every number is at most +∞. -/
theorem le_posInf (ha : isNaN f a = false) : le f a (pack f false (infBits f)) = true := by
  have hval : val f a ≤ val f (pack f false (infBits f)) := by
    simp only [isNaN, decide_eq_false_iff_not, not_lt] at ha
    rw [val_pack f _ (infBits_lt f)]
    have := natAbs_val f a
    have := mag_mono f ha
    simp only [Bool.false_eq_true, if_false]
    omega
  simp [le, ha, not_isNaN_pack f false le_rfl, hval]

/-- A number that is not below 0 is a finite one or +∞. -/
theorem finite_or_posInf (h : le f zero x = true) : finite f x = true ∨ isInf f x = true ∧ sign f x = false := by
  rcases finite_or_isInf f (not_isNaN_of_le h).2 with hx | hx
  · exact .inl hx
  · exact .inr ⟨hx, (sign_of_isInf f hx).1 h⟩

/-- Adding a number from 0 to +∞ does not lead below. -/
theorem le_add_of_nonneg (ha : le f zero a = true) (hb : le f zero b = true) : le f a (add f a b) = true := by
  obtain ⟨-, hna⟩ := not_isNaN_of_le ha
  obtain ⟨-, hnb⟩ := not_isNaN_of_le hb
  rcases finite_or_posInf ha with hfa | ⟨hia, hsa⟩
  · rcases finite_or_posInf hb with hfb | ⟨hib, hsb⟩
    · rw [zero_le_iff f hfb] at hb
      exact le_add f hfa hfb hfa (by omega)
    · rw [add_of_isInf_right f hfa hnb hib, hsb]
      exact le_posInf hna
  · have hsum : add f a b = pack f false (infBits f) := by
      rcases finite_or_posInf hb with hfb | ⟨hib, hsb⟩
      · simp [add, hna, hnb, hia, hsa, not_isInf_of_finite f hfb]
      · simp [add, hna, hnb, hia, hsa, hsb]
    exact hsum ▸ le_posInf hna

/-- A difference of unequal numbers does not vanish: the least subnormal is its bound. -/
theorem val_sub_pos (ha : finite f a = true) (hb : finite f b = true) (h : val f b < val f a) : 0 < val f (sub f a b) := by
  have hone : finite f 1#64 = true ∧ val f 1#64 = 1 := by cases f <;> decide
  have hle := le_sub f ha hb hone.1 (by omega)
  simp only [le, Bool.and_eq_true, decide_eq_true_eq, hone.2] at hle
  omega

/-- A product of a finite number and one from 0 to +∞, but not of 0 and +∞. -/
theorem zero_le_mul (ha : finite f a = true) (h0 : 0 ≤ val f a) (hb : le f zero b = true)
    (h : finite f b = true ∨ val f a ≠ 0) : le f zero (mul f a b) = true := by
  rcases finite_or_posInf hb with hfb | ⟨hib, hsb⟩
  · rw [zero_le_iff f hfb] at hb
    refine le_mul f ha hfb (finite_zero f) ?_
    rw [val_zero, zero_mul]
    exact Int.mul_nonneg h0 hb
  · have hne : val f a ≠ 0 := h.resolve_left fun hfb => by rw [not_isInf_of_finite f hfb] at hib; cases hib
    have hzb : isZero f b = false := by
      simp only [isInf, isZero, beq_iff_eq, beq_eq_false_iff_ne] at hib ⊢
      rw [hib]
      cases f <;> decide
    have hprod : mul f a b = pack f false (infBits f) := by
      simp [mul, not_isNaN_of_finite f ha, (not_isNaN_of_le hb).2, hib, isZero_eq_false f hne, hzb,
        sign_of_pos f (h0.lt_of_ne' hne), hsb]
    exact hprod ▸ le_posInf (not_isNaN_of_finite f (finite_zero f))

/-! ### Interpolation within [0, 1] -/

theorem inRange_one : InRange f 0 1 (one f) := (InRange.ofInt (isInt_of_natAbs_le f (by decide))).mono (by decide) le_rfl

theorem inRange_zero : InRange f 0 1 zero := ⟨finite_zero f, by simp [val_zero], by simp [val_zero]⟩

theorem InRange.nonneg (h : InRange f 0 1 x) : 0 ≤ val f x := by simpa using h.lo_le

theorem InRange.zero_le (h : InRange f 0 1 x) : le f Fp.zero x = true := (zero_le_iff f h.finite).2 h.nonneg

theorem InRange.le_one (h : InRange f 0 1 x) : le f x (Fp.one f) = true :=
  (le_one_iff f h.finite).2 (by simpa using h.le_hi)

theorem InRange.one_le_of_not_lt (h : InRange f 0 1 x) (hge : ¬ lt f x (Fp.one f) = true) : le f (Fp.one f) x = true := by
  rw [lt_one_iff f h.finite, not_lt] at hge
  exact (one_le_iff f h.finite).2 hge

theorem InRange.of_zero_le_one (h0 : le f Fp.zero x = true) (h1 : le f x (Fp.one f) = true) : InRange f 0 1 x := by
  have hx := finite_of_between f (finite_zero f) (finite_one f) h0 h1
  exact ⟨hx, by simpa using (zero_le_iff f hx).1 h0, by simpa using (le_one_iff f hx).1 h1⟩

/-- The difference of two numbers of [0, 1]. -/
theorem InRange.sub_unit (ha : InRange f 0 1 a) (hb : InRange f 0 1 b) : InRange f (-1) 1 (Fp.sub f a b) :=
  ha.sub hb (isInt_of_natAbs_le f (by decide)) (isInt_of_natAbs_le f (by decide))

theorem clamp_unit (h : InRange f 0 1 x) : clamp f x zero (one f) = x := by
  have h0 : lt f x zero = false := by
    rw [lt_of_finite f h.finite (finite_zero f), val_zero]
    exact decide_eq_false h.nonneg.not_gt
  have h1 : lt f (one f) x = false := by
    rw [lt_of_finite f (finite_one f) h.finite, val_one]
    exact decide_eq_false (by simpa using h.le_hi)
  rw [clamp, h0, h1]
  rfl

/-- At position 0 an interpolation starts from its first value. -/
theorem lerp_zero (ha : InRange f 0 1 a) (hb : InRange f 0 1 b) :
    finite f (lerp f a b zero) = true ∧ val f (lerp f a b zero) = val f a := by
  have hz : isZero f zero = true := by cases f <;> decide
  rw [lerp, mul_of_isZero_right f (hb.sub_unit ha).finite hz]
  exact add_of_isZero_right f ha.finite (isZero_pack f _)

/-- An interpolation towards 1.0 rises. -/
theorem le_lerp_one (ha : InRange f 0 1 a) (hx : le f zero x = true) (h : finite f x = true ∨ lt f a (one f) = true) :
    le f a (lerp f a (one f) x) = true := by
  have hdiff : InRange f 0 1 (sub f (one f) a) :=
    (InRange.ofInt (isInt_of_natAbs_le f (n := 1) (by decide))).sub ha (isInt_of_natAbs_le f (by decide))
      (isInt_of_natAbs_le f (by decide))
  refine le_add_of_nonneg ha.zero_le (zero_le_mul hdiff.finite hdiff.nonneg hx (h.imp_right fun hlt => ?_))
  rw [lt_iff_of_finite f ha.finite (finite_one f)] at hlt
  exact (val_sub_pos (finite_one f) ha.finite hlt).ne'

/-- At a finite position, an interpolation from 1.0 is a number at most 1.0. -/
theorem lerp_one_le (hb : InRange f 0 1 b) (hx : le f zero x = true) (hfin : finite f x = true) :
    le f (lerp f (one f) b x) (one f) = true := by
  have hx0 := (zero_le_iff f hfin).1 hx
  have hdiff : InRange f (-1) 0 (sub f b (one f)) :=
    hb.sub (InRange.ofInt (isInt_of_natAbs_le f (n := 1) (by decide))) (isInt_of_natAbs_le f (by decide))
      (isInt_of_natAbs_le f (by decide))
  have hdiff0 : val f (sub f b (one f)) ≤ 0 := by simpa using hdiff.le_hi
  have hprod0 : le f (mul f (sub f b (one f)) x) zero = true := by
    refine mul_le f hdiff.finite hfin (finite_zero f) ?_
    rw [val_zero, zero_mul]
    exact Int.mul_nonpos_of_nonpos_of_nonneg hdiff0 hx0
  have hprod : le f (neg f x) (mul f (sub f b (one f)) x) = true := by
    refine le_mul f hdiff.finite hfin (finite_neg f hfin) ?_
    calc val f (neg f x) * (2 ^ f.scale : Nat) = -1 * (2 ^ f.scale : Nat) * val f x := by rw [val_neg]; ring
      _ ≤ val f (sub f b (one f)) * val f x := Int.mul_le_mul_of_nonneg_right hdiff.lo_le hx0
  have hfinite := finite_of_between f (finite_neg f hfin) (finite_zero f) hprod hprod0
  rw [le_iff_of_finite f hfinite (finite_zero f), val_zero] at hprod0
  exact add_le f (finite_one f) hfinite (finite_one f) (by omega)

/-- Within [0, 1], an interpolation is a number. -/
theorem lerp_not_isNaN (ha : InRange f 0 1 a) (hb : InRange f 0 1 b) (hx : finite f x = true) :
    isNaN f (lerp f a b x) = false :=
  add_not_isNaN_right f ha.finite (mul_not_isNaN f (hb.sub_unit ha).finite hx)

end

end Sys2Proof.Fp

namespace Sys2Proof.Machine

open Sys2Proof.Fp (InRange inRange_one inRange_zero)

/-! ### R209: a tick keeps the amplitude and the anchor within [0, 1] -/

theorem inUnit_iff_inRange (f : Fmt) (w : Word) : inUnit f w = true ↔ InRange f 0 1 w := by
  rw [inUnit, Bool.and_eq_true, Bool.and_eq_true]
  exact ⟨fun ⟨⟨_, h0⟩, h1⟩ => .of_zero_le_one h0 h1, fun h => ⟨⟨h.finite, h.zero_le⟩, h.le_one⟩⟩

/-- `envelopeOk`, part by part. -/
structure Env.Bounded (f : Fmt) (e : Env) : Prop where
  amp : InRange f 0 1 e.amp
  anchor : InRange f 0 1 e.anchor
  sustain : InRange f 0 1 e.sustain
  pos : Fp.le f Fp.zero e.pos = true
  attack : e.state = .attacking → Fp.finite f e.pos = true ∨ Fp.lt f e.anchor (Fp.one f) = true

theorem Env.envelopeOk_iff (f : Fmt) (e : Env) : Claims.envelopeOk f e = true ↔ e.Bounded f := by
  simp only [Claims.envelopeOk, Bool.and_eq_true, Bool.or_eq_true, decide_eq_true_eq, inUnit_iff_inRange, or_assoc]
  constructor
  · rintro ⟨⟨⟨⟨hamp, hanchor⟩, hsustain⟩, hpos⟩, hattack⟩
    exact ⟨hamp, hanchor, hsustain, hpos, fun hs => hattack.resolve_left (not_not_intro hs)⟩
  · rintro ⟨hamp, hanchor, hsustain, hpos, hattack⟩
    exact ⟨⟨⟨⟨hamp, hanchor⟩, hsustain⟩, hpos⟩, or_iff_not_imp_left.2 fun hs => hattack (not_not.1 hs)⟩

theorem Env.bounded_reset (f : Fmt) : (Env.reset f).Bounded f :=
  (Env.envelopeOk_iff f _).1 (by cases f <;> decide +kernel)

section
variable {c : Cfg} {e : Env}

/-- R203: the increment of a legal duration is not negative; it may be +∞ (R201). -/
theorem segmentInc_nonneg {d : Word} (hc : c.valid = true) (hd : IsDuration c.fmt d) :
    Fp.le c.fmt Fp.zero (segmentInc c d) = true := by
  obtain ⟨hfs, n, hn, -, hval⟩ := fs_eq hc
  have hperiod : InRange c.fmt 0 1 (Fp.div c.fmt (Fp.one c.fmt) c.fs) :=
    inRange_one.div hfs hn hval (Fp.isInt_of_natAbs_le _ (by decide)) (Fp.isInt_of_natAbs_le _ (by decide)) (by omega)
      (by omega)
  refine Fp.le_div _ hperiod.finite hd.finite ((Fp.zero_lt_iff _ hd.finite).1 hd.pos) (Fp.finite_zero _) ?_
  rw [Fp.val_zero, zero_mul]
  exact Int.mul_nonneg hperiod.nonneg (Fp.scale_pos _).le

/-- The position after a step of a legal duration. -/
theorem Env.Bounded.advance {d : Word} (h : e.Bounded c.fmt) (hc : c.valid = true) (hd : IsDuration c.fmt d) :
    Fp.le c.fmt Fp.zero (Fp.add c.fmt e.pos (segmentInc c d)) = true :=
  Fp.le_of_le_of_le h.pos (Fp.le_add_of_nonneg h.pos (segmentInc_nonneg hc hd))

theorem Env.Bounded.enter {f : Fmt} (h : e.Bounded f) (g : Segment) : (e.enter g).Bounded f :=
  { h with
    anchor := h.amp
    pos := inRange_zero.zero_le
    attack := fun _ => .inl (Fp.finite_zero f) }

theorem Env.Bounded.gateStep (h : e.Bounded c.fmt) : (e.gateStep c.fmt).Bounded c.fmt := by
  rcases Env.gateStep_cases c e with heq | ⟨g, heq⟩ <;> rw [heq]
  · exact h
  · exact h.enter g

/-- R205: short of 1.0, the amplitude lies between the anchor and 1.0, and so the anchor is below 1.0. -/
theorem Env.Bounded.attackStep (h : e.Bounded c.fmt) (hc : c.valid = true) (hd : IsDuration c.fmt e.attack)
    (hs : e.state = .attacking) : (e.attackStep c).Bounded c.fmt := by
  have hup := Fp.le_lerp_one h.anchor h.pos (h.attack hs)
  rw [Env.attackStep]
  split
  · exact { h with amp := inRange_one, pos := inRange_zero.zero_le, attack := fun hne => nomatch hne }
  case isFalse hend =>
    rw [Bool.not_eq_true] at hend
    have hle := Fp.le_of_not_le _ (Fp.not_isNaN_of_finite _ (Fp.finite_one _)) (Fp.not_isNaN_of_le hup).2 hend
    have hlt : Fp.lt c.fmt e.anchor (Fp.one c.fmt) = true := by
      by_contra hge
      exact absurd (Fp.le_of_le_of_le (h.anchor.one_le_of_not_lt hge) hup) (by simp [hend])
    exact { h with
      amp := .of_zero_le_one (Fp.le_of_le_of_le h.anchor.zero_le hup) hle
      pos := h.advance hc hd
      attack := fun _ => .inr hlt }

/-- R206: a decay that does not end is at a finite position, above the sustain. -/
theorem Env.Bounded.decayStep (h : e.Bounded c.fmt) (hc : c.valid = true) (hd : IsDuration c.fmt e.decay)
    (hs : e.state = .decaying) : (e.decayStep c).Bounded c.fmt := by
  rw [Env.decayStep]
  split
  · exact { h with amp := h.sustain, pos := h.advance hc hd, attack := fun hne => nomatch hne }
  case isFalse hend =>
    obtain ⟨habove, hinf⟩ := not_or.1 (mt (Env.decayEnds_iff c.fmt e).2 hend)
    have hfin := (Fp.finite_or_posInf h.pos).resolve_right hinf
    have hdown := Fp.lerp_one_le h.sustain h.pos hfin
    have hsus := Fp.le_of_not_le _ (Fp.not_isNaN_of_le hdown).1 (Fp.not_isNaN_of_finite _ h.sustain.finite)
      (Bool.eq_false_iff.2 habove)
    exact { h with
      amp := .of_zero_le_one (Fp.le_of_le_of_le h.sustain.zero_le hsus) hdown
      pos := h.advance hc hd
      attack := fun hne => nomatch hs.symm.trans hne }

/-- R208: up to position 1 the amplitude is clamped, and past it held. -/
theorem Env.Bounded.releaseStep (h : e.Bounded c.fmt) (hc : c.valid = true) (hd : IsDuration c.fmt e.release)
    (hs : e.state = .releasing) : (e.releaseStep c).Bounded c.fmt := by
  rw [Env.releaseStep]
  split
  case isTrue hpos =>
    have hx := InRange.of_zero_le_one h.pos hpos
    obtain ⟨hlo, hhi⟩ := Fp.clamp_mem _ (Fp.lerp_not_isNaN h.anchor inRange_zero hx.finite) (Fp.finite_zero _)
      (Fp.finite_one _) (by rw [Fp.val_zero]; exact inRange_one.nonneg)
    exact { h with
      amp := .of_zero_le_one hlo hhi
      pos := h.advance hc hd
      attack := fun hne => nomatch hs.symm.trans hne }
  · exact h

theorem Env.Bounded.segmentStep (h : e.Bounded c.fmt) (hc : c.valid = true) (hd : e.Legal c.fmt) :
    (e.segmentStep c).Bounded c.fmt := by
  rw [Env.segmentStep]
  cases hs : e.state with
  | attacking => exact h.attackStep hc hd.attack hs
  | decaying => exact h.decayStep hc hd.decay hs
  | sustaining => exact { h with amp := h.sustain, attack := fun hne => nomatch hne }
  | releasing => exact h.releaseStep hc hd.release hs

theorem Env.Legal.gateStep (h : e.Legal c.fmt) : (e.gateStep c.fmt).Legal c.fmt := by
  obtain ⟨hattack, hdecay, hsustain, hrelease, -⟩ := Env.gateStep_keeps c.fmt e
  exact ⟨hattack ▸ h.attack, hdecay ▸ h.decay, hrelease ▸ h.release, hsustain ▸ h.sustain⟩

theorem Env.Bounded.tick (h : e.Bounded c.fmt) (hc : c.valid = true) (hd : e.Legal c.fmt) : (e.tick c).Bounded c.fmt :=
  h.gateStep.segmentStep hc hd.gateStep

/-! ### R210: the tick of a gate change -/

/-- R205: at position 0 the attack outputs its anchor. -/
theorem Env.attackStep_enter (h : InRange c.fmt 0 1 e.amp) :
    Fp.eq c.fmt ((e.enter .attacking).attackStep c).amp e.amp = true ∧
      ((e.enter .attacking).attackStep c).anchor = e.amp := by
  obtain ⟨hfin, hval⟩ := Fp.lerp_zero h (inRange_one (f := c.fmt))
  rw [Env.attackStep]
  split
  case isTrue hend =>
    have hge := (Fp.one_le_iff c.fmt hfin).1 hend
    have hle := (Fp.le_one_iff c.fmt h.finite).1 h.le_one
    exact ⟨Fp.eq_of_val_eq _ (Fp.finite_one _) h.finite (by rw [Fp.val_one]; omega), rfl⟩
  · exact ⟨Fp.eq_of_val_eq _ hfin h.finite hval, rfl⟩

/-- R208: at position 0 the release outputs its anchor. -/
theorem Env.releaseStep_enter (h : InRange c.fmt 0 1 e.amp) :
    Fp.eq c.fmt ((e.enter .releasing).releaseStep c).amp e.amp = true ∧
      ((e.enter .releasing).releaseStep c).anchor = e.amp := by
  obtain ⟨hfin, hval⟩ := Fp.lerp_zero h (inRange_zero (f := c.fmt))
  have hunit : InRange c.fmt 0 1 (Fp.lerp c.fmt e.amp Fp.zero Fp.zero) := ⟨hfin, hval ▸ h.lo_le, hval ▸ h.le_hi⟩
  have hstep : (e.enter .releasing).releaseStep c = { e.enter .releasing with
      amp := Fp.lerp c.fmt e.amp Fp.zero Fp.zero
      pos := Fp.add c.fmt Fp.zero (segmentInc c e.release) } := by
    rw [Env.releaseStep, Env.enter, if_pos inRange_zero.le_one, Fp.clamp_unit hunit]
  rw [hstep]
  exact ⟨Fp.eq_of_val_eq _ hfin h.finite hval, rfl⟩

end

/-! ### R209: every reachable state -/

/-- What the envelope needs of the state, and keeps. -/
structure State.EnvelopeSound (s : State) : Prop where
  valid : s.cfg.valid = true
  legal : s.Legal
  env : s.env.Bounded s.cfg.fmt

section
variable {s t : State}

theorem State.envelopeSound_powerOn {c : Cfg} (hc : c.valid = true) : (State.powerOn c).EnvelopeSound :=
  ⟨hc, State.Legal.softReset (s := State.powerOn c) hc, Env.bounded_reset c.fmt⟩

theorem State.EnvelopeSound.sampleTick (h : s.EnvelopeSound) (ht : sampleTick s = .ok t) : t.EnvelopeSound := by
  have hlegal := h.legal.sampleTick ht
  obtain ⟨v, r, o, -, -, rfl⟩ := sampleTick_ok ht
  have hbounded : Env.Bounded s.cfg.fmt { s.env with gate := v.gate } := { h.env with }
  exact ⟨h.valid, hlegal, hbounded.tick h.valid { h.legal.env with }⟩

theorem State.EnvelopeSound.blockTicks (h : s.EnvelopeSound) {n i : Nat} (ht : blockTicks n i s = .ok t) :
    t.EnvelopeSound := by
  refine blockTicks_induct (Inv := State.EnvelopeSound) (fun j u v _ _ hu hv => ?_) h ht
  have hsound := hu.sampleTick hv
  exact ⟨hsound.valid, { hsound.legal with }, hsound.env⟩

theorem PortEffect.env_eq {dw : Word} (h : PortEffect dw s t) : t.env = s.env := by
  cases h <;> rfl

/-- Of the four parameters, the sustain alone is bounded. -/
theorem RegEffect.envBounded {dw : Word} (h : RegEffect dw s t) (hs : s.env.Bounded s.cfg.fmt) :
    t.env.Bounded s.cfg.fmt := by
  cases h
  case envAttack | envDecay | envRelease => exact { hs with }
  case envSustain hf h0 h1 => exact { hs with sustain := (inUnit_iff_inRange _ _).1 (inUnit_of_not_lt hf h0 h1) }
  all_goals exact hs

end

end Sys2Proof.Machine

namespace Sys2Proof.Claims

open Sys2Proof Sys2Proof.Machine

/-- ENV is written by the soft reset, by a sample tick and by an accepted write of a parameter. -/
theorem effect_envBounded {i : Instr} {s t : State} {r : Response} (h : Effect i s t r) (hs : s.EnvelopeSound) :
    t.env.Bounded s.cfg.fmt := by
  cases h
  case reset => exact Env.bounded_reset _
  case tick ht => exact (sampleTick_keepsTables ht).cfg ▸ (hs.sampleTick ht).env
  case tickb ht => exact (blockTicks_keepsTables ht).cfg ▸ (hs.blockTicks ht).env
  case port hp => exact hp.env_eq ▸ hs.env
  case reg hr => exact hr.envBounded hs.env
  all_goals exact hs.env

theorem effect_envelopeSound {i : Instr} {s t : State} {r : Response} (h : Effect i s t r) (hs : s.EnvelopeSound) :
    t.EnvelopeSound := by
  have hcfg := (effect_governs h).cfg
  exact ⟨hcfg ▸ hs.valid, effect_legal h hs.valid hs.legal, hcfg ▸ effect_envBounded h hs⟩

theorem step_envelopeSound {s t : State} (hs : s.EnvelopeSound) (h : step s = .next t) : t.EnvelopeSound :=
  step_keeps (Inv := State.EnvelopeSound) (fun _ _ hu => ⟨hu.valid, { hu.legal with }, hu.env⟩)
    (fun _ _ hu => ⟨hu.valid, { hu.legal with }, hu.env⟩) (fun _ _ _ _ hu he => effect_envelopeSound he hu) hs h

theorem reachable_envelopeSound {s : State} (h : Reachable s) : s.EnvelopeSound := by
  induction h with
  | construct c s h =>
    rw [State.construct] at h
    split at h
    case isTrue hc => exact Option.some.inj h ▸ State.envelopeSound_powerOn hc
    case isFalse => cases h
  | issue s cmds _ ih => exact ⟨ih.valid, { ih.legal with }, ih.env⟩
  | step s t _ hs ih => exact step_envelopeSound ih hs

/-- Settles O57: a tick keeps the bounds segment by segment (`Env.Bounded.tick`), and with the legal parameters so does
every step (`step_envelopeSound`). -/
theorem envelopeStaysInUnitInterval : Obligations.EnvelopeStaysInUnitInterval := by
  refine ⟨fun f => ?reset, fun c e hc he hd => ?tick, fun s t hc hp he h => ?step, fun s h => ?reachable⟩
  case reset => exact (Env.envelopeOk_iff f _).2 (Env.bounded_reset f)
  case tick =>
    have hb := (Env.envelopeOk_iff _ _).1 he
    simp only [List.all_cons, List.all_nil, Bool.and_true, Bool.and_eq_true] at hd
    obtain ⟨⟨ha, ha'⟩, ⟨hd, hd'⟩, hr, hr'⟩ := hd
    have ht := hb.tick hc ⟨⟨ha, ha'⟩, ⟨hd, hd'⟩, ⟨hr, hr'⟩, (inUnit_iff_inRange _ _).2 hb.sustain⟩
    exact ⟨(inUnit_iff_inRange _ _).2 ht.amp, (inUnit_iff_inRange _ _).2 ht.anchor, (Env.envelopeOk_iff _ _).2 ht⟩
  case step =>
    have hs : s.EnvelopeSound := ⟨hc, (State.paramInv_iff s).1 hp, (Env.envelopeOk_iff _ _).1 he⟩
    exact (Env.envelopeOk_iff _ _).2 (step_envelopeSound hs h).env
  case reachable =>
    have hb := (reachable_envelopeSound h).env
    exact ⟨(inUnit_iff_inRange _ _).2 hb.amp, (inUnit_iff_inRange _ _).2 hb.anchor⟩

/-- Settles O58: the segment is entered with the amplitude as its anchor, and its step at position 0 outputs the anchor. -/
theorem gateChangesAreContinuous : Obligations.GateChangesAreContinuous := by
  intro c e hamp hchange
  have hunit := (inUnit_iff_inRange _ _).1 hamp
  rcases hchange with ⟨hs, hg⟩ | ⟨hs, hg⟩
  · rw [Env.tick_entering_attack hs hg]
    exact Env.attackStep_enter hunit
  · rw [Env.tick_entering_release hs hg]
    exact Env.releaseStep_enter hunit

end Sys2Proof.Claims

/-! PROOFS. The filter (spec/42_filter.md): the three parameters (R231 to R233), a sample tick of it (R236 to R240), and its
rest under zero input and zero history (R241). -/

namespace Sys2Proof.Machine

/-! ### R238, R239: a tick of a clean and of a dirty filter -/

section
variable {c : Cfg} {x : Filter}

theorem Filter.tick_of_clean (h : x.dirty = false) : x.tick c = x.sample c.fmt := by
  rw [Filter.tick, Filter.refresh, h]; rfl

theorem Filter.tick_of_dirty (h : x.dirty = true) :
    x.tick c = Filter.sample c.fmt { (x.coefficients c (x.cutoff c) x.q) with fc := x.cutoff c, dirty := false } := by
  rw [Filter.tick, Filter.refresh, if_pos h]

end

/-- R239: the input and the output of a tick enter the history, and the older samples move on. -/
theorem Filter.tick_history (c : Cfg) (x : Filter) :
    (x.tick c).x1 = x.inp ∧ (x.tick c).x2 = x.x1 ∧ (x.tick c).y1 = (x.tick c).out ∧ (x.tick c).y2 = x.y1 := by
  cases h : x.dirty
  · rw [Filter.tick_of_clean h]; exact ⟨rfl, rfl, rfl, rfl⟩
  · rw [Filter.tick_of_dirty h]; exact ⟨rfl, rfl, rfl, rfl⟩

/-- R238: the difference equation takes the history before the tick and the coefficients after its refresh. -/
theorem Filter.tick_out (c : Cfg) (x : Filter) :
    (x.tick c).out = Filter.output c.fmt { x with
      b0 := (x.tick c).b0, b1 := (x.tick c).b1, b2 := (x.tick c).b2, a1 := (x.tick c).a1, a2 := (x.tick c).a2 } := by
  cases h : x.dirty
  · rw [Filter.tick_of_clean h]; rfl
  · rw [Filter.tick_of_dirty h]; rfl

/-- The filter as its tick finds it (R155): with the input and the modulation of the sample. -/
def Filter.fed (inp fo : Word) (x : Filter) : Filter := { x with inp := inp, fo := fo }

/-- R155, R240: FILTER after a sample tick, from the product and the modulation it leaves. -/
theorem sampleTick_filter {s t : State} (h : sampleTick s = .ok t) :
    t.filter = if s.ctrl.filterEn then (s.filter.fed t.gain.out t.voice.fo).tick s.cfg
      else { s.filter with fo := t.voice.fo } := by
  obtain ⟨v, r, o, -, -, rfl⟩ := sampleTick_ok h
  rfl

/-! ### R241: the output of a filter at rest -/

/-- Every coefficient is finite. -/
structure Filter.Finite (f : Fmt) (x : Filter) : Prop where
  b0 : Fp.finite f x.b0 = true
  b1 : Fp.finite f x.b1 = true
  b2 : Fp.finite f x.b2 = true
  a1 : Fp.finite f x.a1 = true
  a2 : Fp.finite f x.a2 = true

/-- The input and the history are zeros, of either sign. -/
structure Filter.AtRest (f : Fmt) (x : Filter) : Prop where
  inp : Fp.isZero f x.inp = true
  x1 : Fp.isZero f x.x1 = true
  x2 : Fp.isZero f x.x2 = true
  y1 : Fp.isZero f x.y1 = true
  y2 : Fp.isZero f x.y2 = true

theorem Filter.atRest_iff (f : Fmt) (x : Filter) :
    [x.inp, x.x1, x.x2, x.y1, x.y2].all (Fp.isZero f) = true ↔ x.AtRest f := by
  simp only [List.all_cons, List.all_nil, Bool.and_true, Bool.and_eq_true]
  exact ⟨fun ⟨hinp, hx1, hx2, hy1, hy2⟩ => ⟨hinp, hx1, hx2, hy1, hy2⟩,
    fun ⟨hinp, hx1, hx2, hy1, hy2⟩ => ⟨hinp, hx1, hx2, hy1, hy2⟩⟩

/-- The output at rest is a zero. It is −0.0 exactly where the three feedforward products are and the two feedback products
are +0.0. -/
theorem Filter.AtRest.output_eq {f : Fmt} {x : Filter} (h : x.AtRest f) (hc : x.Finite f) :
    x.output f = Fp.pack f ((Fp.sign f x.b0 != Fp.sign f x.inp) && (Fp.sign f x.b1 != Fp.sign f x.x1) &&
      (Fp.sign f x.b2 != Fp.sign f x.x2) && !(Fp.sign f x.a1 != Fp.sign f x.y1) &&
      !(Fp.sign f x.a2 != Fp.sign f x.y2)) 0 := by
  rw [Filter.output, Fp.mul_of_isZero_right f hc.b0 h.inp, Fp.mul_of_isZero_right f hc.b1 h.x1,
    Fp.mul_of_isZero_right f hc.b2 h.x2, Fp.mul_of_isZero_right f hc.a1 h.y1, Fp.mul_of_isZero_right f hc.a2 h.y2]
  simp only [Fp.add_of_isZero f (Fp.isZero_pack f _) (Fp.isZero_pack f _),
    Fp.sub_of_isZero f (Fp.isZero_pack f _) (Fp.isZero_pack f _), Fp.sign_pack_zero]

end Sys2Proof.Machine

namespace Sys2Proof.Claims

open Sys2Proof Sys2Proof.Machine

/-! ### R231, R232, R233: the three parameters -/

/-- WPARAM of a real register whose write rule is one check, which refuses every word that is not finite. -/
theorem exec_wparam_of_check {u : UnitId} {sel : Byte} {r : Reg} {dw : Word} {s t : State} {bad : Prop} [Decidable bad]
    (hr : regOf u sel = some r) (hw : r.writable = true) (hk : r.kind = .real)
    (hbad : Fp.finite s.cfg.fmt dw = false → bad)
    (h : writeReg r dw s = if bad then .error .invalidParameter else .ok t) :
    exec (.wparam u sel dw) s = .next (if bad then rejected s .invalidParameter else answered t 0#64) := by
  rw [exec_wparam_of_real dw s hr hw hk, h]
  cases hf : Fp.finite s.cfg.fmt dw
  · rw [if_neg Bool.false_ne_true, if_pos (hbad hf)]
  · rw [if_pos rfl]
    split <;> rfl

theorem exec_wparam_filterBase (dw : Word) (s : State) : exec (.wparam .filter 0#8 dw) s =
    .next (if Fp.finite s.cfg.fmt dw = false then rejected s .invalidParameter
      else answered { s with filter := { s.filter with base := dw, dirty := true } } 0#64) :=
  exec_wparam_of_check (r := .filterBase) rfl rfl rfl id rfl

theorem exec_wparam_filterDepth (dw : Word) (s : State) : exec (.wparam .filter 1#8 dw) s =
    .next (if Fp.finite s.cfg.fmt dw = false then rejected s .invalidParameter
      else answered { s with filter := { s.filter with depth := dw, dirty := true } } 0#64) :=
  exec_wparam_of_check (r := .filterDepth) rfl rfl rfl id rfl

theorem exec_wparam_filterQ (dw : Word) (s : State) : exec (.wparam .filter 2#8 dw) s =
    .next (if Fp.finite s.cfg.fmt dw = false ∨ Fp.lt s.cfg.fmt dw s.cfg.qMin = true then rejected s .invalidParameter
      else answered { s with filter := { s.filter with q := dw, dirty := true } } 0#64) :=
  exec_wparam_of_check (r := .filterQ) rfl rfl rfl .inl rfl

/-- Settles O35: BASE and DEPTH by the check that the word is finite, Q by that and by Q_MIN. -/
theorem wparamFilter : Obligations.WparamFilter := by
  intro s dw
  rw [exec_wparam_filterBase, exec_wparam_filterDepth, exec_wparam_filterQ]
  refine ⟨fun hf => ?stored, fun hf hq => ?storedQ, fun hf => ?refused, fun h => ?refusedQ⟩
  case stored =>
    have hok : ¬ Fp.finite s.cfg.fmt dw = false := by rw [hf]; decide
    exact ⟨by rw [if_neg hok], by rw [if_neg hok]⟩
  case storedQ => rw [if_neg (by simp [hf, hq])]
  case refused => exact ⟨by rw [if_pos hf], by rw [if_pos hf]⟩
  case refusedQ => rw [if_pos h]

/-! ### R236 to R241: the tick -/

/-- Settles O60: FILTER after the sample tick is `sampleTick_filter`; where it ticks, the output and the history are
`Filter.tick_out` and `Filter.tick_history`, and the coefficients are kept or recomputed as the filter is clean or dirty. -/
theorem filterInTheTick : Obligations.FilterInTheTick := by
  intro s t h f x y
  have hfilter := sampleTick_filter h
  refine ⟨fun hoff => ?off, fun hon => ?on⟩
  case off => rwa [hoff] at hfilter
  case on =>
    rw [hon, if_pos rfl] at hfilter
    simp only [x, y, hfilter]
    obtain ⟨hbase, hdepth, hq, hinp, hfo, hdirty⟩ := Filter.tick_keeps s.cfg (s.filter.fed t.gain.out t.voice.fo)
    obtain ⟨hx1, hx2, hy1, hy2⟩ := Filter.tick_history s.cfg (s.filter.fed t.gain.out t.voice.fo)
    refine ⟨hinp, hfo, hbase, hdepth, hq, hdirty, Filter.tick_out s.cfg _, hx1, hx2, hy1, hy2,
      fun hd => ?clean, fun hd => ?dirty⟩
    case clean =>
      rw [Filter.tick_of_clean (x := s.filter.fed t.gain.out t.voice.fo) hd]
      exact ⟨rfl, rfl, rfl, rfl, rfl, rfl⟩
    case dirty =>
      rw [Filter.tick_of_dirty (x := s.filter.fed t.gain.out t.voice.fo) hd]
      exact ⟨rfl, rfl, rfl, rfl, rfl, rfl⟩

/-- Settles O59: the output is the zero of `Filter.AtRest.output_eq`; over zeros of sign 0 one feedforward product that is
not negative makes it +0.0. -/
theorem zeroHistoryStaysZero : Obligations.ZeroHistoryStaysZero := by
  intro c x hclean hb0 hb1 hb2 ha1 ha2
  have hfin : x.Finite c.fmt := ⟨hb0, hb1, hb2, ha1, ha2⟩
  rw [Filter.tick_of_clean hclean]
  refine ⟨fun hzero => ?zeros, fun hzero hsign => ?positive⟩
  case zeros =>
    have hrest := (Filter.atRest_iff c.fmt x).1 hzero
    have hout : Fp.isZero c.fmt (x.output c.fmt) = true := by
      rw [hrest.output_eq hfin]; exact Fp.isZero_pack c.fmt _
    simp [Filter.sample, Filter.historyShift, hout, hrest.inp, hrest.x1, hrest.y1]
  case positive =>
    have hrest : x.AtRest c.fmt := by
      rw [← Filter.atRest_iff, hzero]; cases c.fmt <;> decide
    obtain ⟨rinp, rx1, rx2, ry1, ry2⟩ : x.inp = Fp.zero ∧ x.x1 = Fp.zero ∧ x.x2 = Fp.zero ∧ x.y1 = Fp.zero ∧
        x.y2 = Fp.zero := by simpa [List.replicate] using hzero
    have hout : x.output c.fmt = Fp.zero := by
      rw [hrest.output_eq hfin, rinp, rx1, rx2, Fp.sign_zero_eq]
      rcases hsign with h | h | h <;> simp [h, Fp.pack_false_zero]
    simp [Filter.sample, Filter.historyShift, hout, rinp, rx1, rx2, ry1, ry2]

end Sys2Proof.Claims

/-! PROOFS. The wavetables and the oscillator (spec/43_oscillator.md): the commands that load, read and seal TABLE (R262 to
R264), the two registers of OSC (R265, R272), and a sample of it, within the table, the bank and the phase's range (R266 to
R271). -/

namespace Sys2Proof.Machine

/-! ### R49, R84: reads of TABLE -/

theorem State.written_eq_isSome (s : State) (a : Nat) : s.written a = (s.tableRead a).isSome := by
  rw [State.written, State.tableRead_eq_lookup]

/-! ### R267, R269: the four words of a sample -/

/-- Where two computations in turn answer, the first did and the second then answers its value. -/
theorem except_bind_ok {α β : Type} {x : Except Fault α} {k : α → Except Fault β} {r : β} (h : x.bind k = .ok r) :
    ∃ v, x = .ok v ∧ k v = .ok r := by
  cases x with
  | error e => cases h
  | ok v => exact ⟨v, rfl, h⟩

/-- R267: a table's sample interpolates the two words that the phase selects. -/
theorem tableSample_ok {c : Cfg} {table : Memory} {bank : Byte} {phase w : Word} {k : Nat}
    (h : tableSample c table bank phase k = .ok w) : ∃ a b,
      Memory.lookup table (c.taddr bank.toNat k (tableIndex c phase)) = some a ∧
      Memory.lookup table (c.taddr bank.toNat k ((tableIndex c phase + 1) % c.tableLen)) = some b ∧
      w = Fp.lerp c.fmt a b (tableFrac c phase) := by
  rw [tableSample_eq_bind] at h
  obtain ⟨a, ha, h⟩ := except_bind_ok h
  obtain ⟨b, hb, h⟩ := except_bind_ok h
  exact ⟨a, b, tableFetch_ok ha, tableFetch_ok hb, (Except.ok.inj h).symm⟩

/-- R269: the sample interpolates those of the octave's table and of the next one up. -/
theorem octaveSample_ok {c : Cfg} {table : Memory} {bank : Byte} {phase freq w : Word}
    (h : octaveSample c table bank phase freq = .ok w) : ∃ lo hi,
      tableSample c table bank phase (octave c freq).1 = .ok lo ∧
      tableSample c table bank phase (nextTable c (octave c freq).1) = .ok hi ∧
      w = Fp.lerp c.fmt lo hi (octave c freq).2 := by
  rw [octaveSample_eq_bind] at h
  obtain ⟨lo, hlo, h⟩ := except_bind_ok h
  obtain ⟨hi, hhi, h⟩ := except_bind_ok h
  exact ⟨lo, hi, hlo, hhi, (Except.ok.inj h).symm⟩

/-! ### R267, R270: the weight and the phase -/

/-- R270: every advance by a frequency from 0 on wraps into [0, 1), where the sum is finite. -/
theorem IsPhase.advance_of_finite_sum {c : Cfg} {phase freq : Word} (hc : c.valid = true) (hp : IsPhase c.fmt phase)
    (hf : Fp.finite c.fmt freq = true) (h0 : Fp.le c.fmt Fp.zero freq = true)
    (hsum : Fp.finite c.fmt (Fp.add c.fmt phase (Fp.div c.fmt freq c.fs)) = true) :
    IsPhase c.fmt (phaseAdvance c phase freq) := by
  obtain ⟨hfs, -⟩ := fs_eq hc
  have hp0 : Fp.le c.fmt Fp.zero phase = true := (Fp.zero_le_iff _ hp.finite).2 hp.nonneg
  have hstep : Fp.le c.fmt Fp.zero (Fp.div c.fmt freq c.fs) = true := by
    refine Fp.le_div _ hf hfs (fs_val_pos hc) (Fp.finite_zero _) ?_
    rw [Fp.val_zero, zero_mul]
    exact Int.mul_nonneg ((Fp.zero_le_iff _ hf).1 h0) (Fp.scale_pos _).le
  have hsum0 := Fp.le_of_le_of_le hp0 (Fp.le_add_of_nonneg hp0 hstep)
  exact (isPhase_iff _ _).2 (Fp.fraction_mem _ hsum ((Fp.zero_le_iff _ hsum).1 hsum0))

/-- R267: the weight of the next sample is in [0, 1). -/
theorem tableFrac_mem {c : Cfg} {phase : Word} (hc : c.valid = true) (hp : IsPhase c.fmt phase) :
    Fp.le c.fmt Fp.zero (tableFrac c phase) = true ∧ Fp.lt c.fmt (tableFrac c phase) (Fp.one c.fmt) = true := by
  obtain ⟨hfin, hval⟩ := tablePos_exact hc hp
  exact (Fp.fraction_mem _ hfin (hval ▸ Int.mul_nonneg hp.nonneg (Int.natCast_nonneg _))).2

/-! ### R268: the octave, case by case -/

section
variable {c : Cfg} {freq : Word}

theorem octave_of_le_base (h : Fp.le c.fmt freq c.baseFreq = true) : octave c freq = (0, Fp.zero) := if_pos h

theorem octave_of_top_le (h : Fp.le c.fmt freq c.baseFreq = false)
    (ht : Fp.le c.fmt (Fp.ofInt c.fmt (c.numTables - 1 : Nat)) (Fp.log2 c.fmt (Fp.div c.fmt freq c.baseFreq)) = true) :
    octave c freq = (c.numTables - 1, Fp.zero) := by
  rw [octave, h, if_neg Bool.false_ne_true, if_pos ht]

theorem octave_of_between (h : Fp.le c.fmt freq c.baseFreq = false)
    (ht : Fp.le c.fmt (Fp.ofInt c.fmt (c.numTables - 1 : Nat)) (Fp.log2 c.fmt (Fp.div c.fmt freq c.baseFreq)) = false) :
    octave c freq = (Fp.toNat c.fmt (Fp.floor c.fmt (Fp.log2 c.fmt (Fp.div c.fmt freq c.baseFreq))),
      Fp.sub c.fmt (Fp.log2 c.fmt (Fp.div c.fmt freq c.baseFreq))
        (Fp.floor c.fmt (Fp.log2 c.fmt (Fp.div c.fmt freq c.baseFreq)))) := by
  rw [octave, h, if_neg Bool.false_ne_true, ht, if_neg Bool.false_ne_true]

/-- R15, R268: above BASE_FREQ the octave's logarithm is finite and not negative. -/
theorem log2_div_baseFreq_nonneg (hc : c.valid = true) (hf : Fp.finite c.fmt freq = true)
    (hq : Fp.finite c.fmt (Fp.div c.fmt freq c.baseFreq) = true) (h : Fp.le c.fmt freq c.baseFreq = false) :
    Fp.finite c.fmt (Fp.log2 c.fmt (Fp.div c.fmt freq c.baseFreq)) = true ∧
      0 ≤ Fp.val c.fmt (Fp.log2 c.fmt (Fp.div c.fmt freq c.baseFreq)) := by
  obtain ⟨hwords, -, -, -, -, -, hbase, -⟩ := (Claims.valid_iff_legalConfig c).1 hc
  have hbaseFin : Fp.finite c.fmt c.baseFreq = true := (hwords c.baseFreq (by simp)).2
  rw [Claims.realOf_pos_iff] at hbase
  have hval : Fp.val c.fmt c.baseFreq ≤ Fp.val c.fmt freq := by
    rw [Fp.le_of_finite _ hf hbaseFin, decide_eq_false_iff_not] at h
    omega
  have hone : Fp.le c.fmt (Fp.one c.fmt) (Fp.div c.fmt freq c.baseFreq) = true := by
    refine Fp.le_div _ hf hbaseFin hbase (Fp.finite_one _) ?_
    rw [Fp.val_one, mul_comm]
    exact Int.mul_le_mul_of_nonneg_right hval (Fp.scale_pos _).le
  exact Fp.log2_nonneg _ hq ((Fp.one_le_iff _ hq).1 hone)

/-- R268: the fractional octave position is in [0, 1). -/
theorem octave_frac_mem (hc : c.valid = true) (hf : Fp.finite c.fmt freq = true)
    (hq : Fp.finite c.fmt (Fp.div c.fmt freq c.baseFreq) = true) :
    Fp.le c.fmt Fp.zero (octave c freq).2 = true ∧ Fp.lt c.fmt (octave c freq).2 (Fp.one c.fmt) = true := by
  have hzero : Fp.le c.fmt Fp.zero Fp.zero = true ∧ Fp.lt c.fmt Fp.zero (Fp.one c.fmt) = true := by
    cases c.fmt <;> decide +kernel
  cases hlow : Fp.le c.fmt freq c.baseFreq with
  | true => rwa [octave_of_le_base hlow]
  | false =>
    cases htop : Fp.le c.fmt (Fp.ofInt c.fmt (c.numTables - 1 : Nat)) (Fp.log2 c.fmt (Fp.div c.fmt freq c.baseFreq)) with
    | true => rwa [octave_of_top_le hlow htop]
    | false =>
      obtain ⟨hlog, hlog0⟩ := log2_div_baseFreq_nonneg hc hf hq hlow
      rw [octave_of_between hlow htop]
      exact (Fp.fraction_mem _ hlog hlog0).2

end

end Sys2Proof.Machine

namespace Sys2Proof.Claims

open Sys2Proof Sys2Proof.Machine

/-! ### R152, R262, R263, R264: NOP, TWRITE, TREAD and SEAL -/

section
variable {s : State} {a : BitVec 24}

theorem exec_twrite_of_load {dw : Word} (h : s.lifecycle = .load) (ha : a.toNat < s.cfg.tableSize)
    (hdw : Fp.finite s.cfg.fmt dw = true) : exec (.twrite a dw) s = .next (answered (s.tableWrite a.toNat dw) 0#64) := by
  rw [exec, execTwrite, h]
  simp only [if_neg (Nat.not_le.2 ha), if_pos hdw]
  rfl

theorem exec_tread_of_some {w : Word} (ha : a.toNat < s.cfg.tableSize) (hw : s.tableRead a.toNat = some w) :
    exec (.tread a) s = .next (answered s w) := by
  rw [exec, execTread, if_neg (Nat.not_le.2 ha), hw]
  rfl

theorem exec_tread_of_none (ha : a.toNat < s.cfg.tableSize) (hw : s.tableRead a.toNat = none) :
    exec (.tread a) s = .fault .unwrittenTableRead := by
  rw [exec, execTread, if_neg (Nat.not_le.2 ha), hw]

theorem exec_tread_of_outside (ha : s.cfg.tableSize ≤ a.toNat) :
    exec (.tread a) s = .next (rejected s .addressRange) :=
  if_pos ha

theorem exec_seal_of_load (h : s.lifecycle = .load) :
    exec .sealTables s = .next (answered { s with lifecycle := .run } 0#64) := by
  rw [exec, execSeal, h]
  rfl

theorem exec_seal_of_run (h : s.lifecycle = .run) : exec .sealTables s = .next (rejected s .stateError) := by
  rw [exec, execSeal, h]
  rfl

end

/-- Settles O39: TWRITE is `tableWrite`, which the rules of TABLE describe at its own address and at the others; TREAD
answers by the read of its address, which has a word exactly where the written bit is set. -/
theorem tablesHoldWhatIsWritten : Obligations.TablesHoldWhatIsWritten := by
  intro s a
  refine ⟨fun dw hl ha hdw => ?stores, fun ha hw => ?written, fun ha hw => ?unwritten, exec_tread_of_outside⟩
  case stores =>
    have hself : (s.tableWrite a.toNat dw).tableRead a.toNat = some dw := State.tableRead_tableWrite_self s _ _
    refine ⟨(s.tableWrite a.toNat dw).table, exec_twrite_of_load hl ha hdw, hself,
      (State.written_iff _ _).2 ⟨dw, hself⟩, fun b hb => ?_, exec_tread_of_some ha hself⟩
    have hother : (s.tableWrite a.toNat dw).tableRead b = s.tableRead b := State.tableRead_tableWrite_ne s dw hb
    refine ⟨hother, ?_⟩
    rw [State.written_eq_isSome s, ← hother]
    exact State.written_eq_isSome _ _
  case written =>
    obtain ⟨w, hread⟩ := (State.written_iff _ _).1 hw
    exact ⟨w, hread, exec_tread_of_some ha hread⟩
  case unwritten => exact exec_tread_of_none ha ((State.written_false_iff _ _).1 hw)

/-- Settles O40: NOP's only effect is its answer; SEAL by the lifecycle. -/
theorem nopAndSeal : Obligations.NopAndSeal :=
  fun _ => ⟨rfl, exec_seal_of_load, exec_seal_of_run⟩

/-! ### R265, R272: OSC.BANK and OSC.PHASE -/

/-- WPARAM of OSC.BANK answers what its write rule says of the data word. -/
theorem exec_wparam_oscBank (dw : Word) (s : State) :
    exec (.wparam .osc 0#8 dw) s = conclude (writeOscBank dw s) s := rfl

theorem exec_wparam_oscPhase (dw : Word) (s : State) : exec (.wparam .osc 1#8 dw) s =
    .next (if Fp.finite s.cfg.fmt dw = false ∨ Fp.lt s.cfg.fmt dw Fp.zero = true ∨
        Fp.le s.cfg.fmt (Fp.one s.cfg.fmt) dw = true then rejected s .invalidParameter
      else answered { s with osc := { s.osc with phase := dw } } 0#64) :=
  exec_wparam_of_check (r := .oscPhase) rfl rfl rfl .inl rfl

/-- Settles O34: BANK by its bound, which a byte holds as NUM_BANKS is at most 255; PHASE by the check of R272. -/
theorem wparamOscillator : Obligations.WparamOscillator := by
  intro s dw hbanks
  rw [exec_wparam_oscBank, exec_wparam_oscPhase, writeOscBank]
  refine ⟨fun hb => ?bank, fun hb => ?bankRefused, fun hf h0 h1 => ?phase, fun h => ?phaseRefused⟩
  case bank =>
    refine ⟨BitVec.ofNat 8 dw.toNat, Nat.mod_eq_of_lt (by omega), ?_⟩
    rw [if_neg (Nat.not_le.2 hb)]
    rfl
  case bankRefused =>
    rw [if_pos hb]
    rfl
  case phase => rw [if_neg (by simp [hf, h0, h1])]
  case phaseRefused => rw [if_pos h]

/-! ### R266 to R271: the oscillator in the tick -/

/-- Settles O53: the advance is `IsPhase.advance_of_finite_sum`, the index `tableIndex_lt`, the weight `tableFrac_mem`. -/
theorem phaseAndIndexStayInRange : Obligations.PhaseAndIndexStayInRange := by
  intro c phase hc hfin h0 h1
  have hp : IsPhase c.fmt phase := (isPhase_iff _ _).2 ⟨hfin, h0, h1⟩
  exact ⟨fun freq hf hf0 hsum => (isPhase_iff _ _).1 (hp.advance_of_finite_sum hc hf hf0 hsum),
    Nat.le_sub_one_of_lt (tableIndex_lt hc hp), tableFrac_mem hc hp⟩

/-- Settles O55: the three cases are those of `octave`; the index is `octave_lt`, the weight `octave_frac_mem`. -/
theorem octaveStaysInTheBank : Obligations.OctaveStaysInTheBank := by
  intro c freq hc hf hq o top
  exact ⟨octave_of_le_base, octave_of_top_le, octave_of_between, Nat.le_sub_one_of_lt (octave_lt hc hf hq),
    octave_frac_mem hc hf hq⟩

/-- Settles O54: OSC after the tick is `Osc.tick_cases` of the drained voice and the ticked ramp; its output is the sample of
two tables (`octaveSample_ok`), each of two words (`tableSample_ok`). -/
theorem oscillatorSample : Obligations.OscillatorSample := by
  intro s t h f freq x i k row p
  obtain ⟨v, r, o, -, hosc, rfl⟩ := sampleTick_ok h
  obtain ⟨out, hout, rfl⟩ := Osc.tick_cases hosc
  obtain ⟨lo, hi, hlo, hhi, rfl⟩ := octaveSample_ok hout
  obtain ⟨a, b, ha, hb, rfl⟩ := tableSample_ok hlo
  obtain ⟨c, d, hc, hd, rfl⟩ := tableSample_ok hhi
  have hread (adr : Nat) : s.tableRead adr = Memory.lookup s.table adr := State.tableRead_eq_lookup s adr
  exact ⟨a, b, c, d, (hread _).trans ha, (hread _).trans hb, (hread _).trans hc, (hread _).trans hd,
    rfl, rfl, rfl, rfl, rfl, rfl, rfl⟩

end Sys2Proof.Claims

/-! PROOFS. The ramp (spec/44_ramp.md): a jump holds its value (R304), no output overshoots the plan (R310 (a)), and the three
registers VALUE, DURATION and CURVE (R306 to R308). -/

namespace Sys2Proof.Fp

theorem zero_add_zero (f : Fmt) : add f zero zero = zero :=
  add_zero_eq f (finite_zero f) (zero_fits f) (by cases f <;> decide)

/-- A finite number lies between its minimum and its maximum with another. -/
theorem fmin_le_left_le_fmax (f : Fmt) {a b : Word} (ha : finite f a = true) (hb : finite f b = true) :
    le f (fmin f a b) a = true ∧ le f a (fmax f a b) = true := by
  obtain ⟨hmin, hminval⟩ := fmin_val f ha hb
  obtain ⟨hmax, hmaxval⟩ := fmax_val f ha hb
  rw [le_iff_of_finite f hmin ha, le_iff_of_finite f ha hmax, hminval, hmaxval]
  exact ⟨min_le_left _ _, le_max_left _ _⟩

end Sys2Proof.Fp

namespace Sys2Proof.Machine

/-! ### R303: the position that a plan starts from -/

section
variable {f : Fmt} {r : Ramp} {v : Word}

theorem Ramp.startPos_of_lin (h : r.curve = .lin) : r.startPos = r.fromVal := by
  rw [Claims.startPos_eq_ite, if_pos h]

theorem Ramp.finite_startPos (h : Fp.finite f r.fromVal = true) : Fp.finite f r.startPos = true := by
  rw [Claims.startPos_eq_ite]
  split
  · exact h
  · exact Fp.finite_zero f

/-! ### R304: a jump -/

/-- R304: `v`, where `v × EXP2(0)` is that in EXP. -/
theorem Ramp.value_jump (hv : Fp.finite f v = true) (hw : f.fits v = true) : (r.jump v).value f = v := by
  cases h : r.curve
  case lin => simp only [Ramp.value, Ramp.jump, h]
  case exp =>
    simp only [Ramp.value, Ramp.jump, h]
    rw [Fp.exp2_zero, Fp.mul_one_eq f hv hw, Fp.fmin_self, Fp.fmax_self, Fp.clamp_self]

/-- R304: the tick after a jump advances by +0.0, which only −0.0 does not survive. -/
theorem Ramp.tick_jump_pos (hv : Fp.finite f v = true) (hw : f.fits v = true) (hn : v ≠ Fp.neg f Fp.zero) :
    ((r.jump v).tick f).pos = (r.jump v).pos := by
  cases h : r.curve
  case lin =>
    simp only [Ramp.tick, Ramp.jump, Ramp.startPos, h]
    rw [Fp.add_zero_eq f hv hw hn, Fp.fmin_self, Fp.fmax_self, Fp.clamp_self]
  case exp =>
    simp only [Ramp.tick, Ramp.jump, Ramp.startPos, h]
    rw [Fp.zero_add_zero, Fp.fmin_self, Fp.fmax_self, Fp.clamp_self]

/-! ### R310 (a): within the plan -/

/-- `inPlan`, clause by clause. -/
structure Ramp.WithinPlan (f : Fmt) (r : Ramp) : Prop where
  fromVal : Fp.finite f r.fromVal = true
  toVal : Fp.finite f r.toVal = true
  pos : Fp.finite f r.pos = true
  endPos : Fp.finite f r.endPos = true
  speed : Fp.isNaN f r.speed = false
  lin : r.curve = .lin → r.endPos = r.toVal ∧ Fp.le f (Fp.fmin f r.fromVal r.toVal) r.pos = true ∧
    Fp.le f r.pos (Fp.fmax f r.fromVal r.toVal) = true
  exp : r.curve = .exp → Fp.lt f Fp.zero r.fromVal = true ∧ Fp.lt f Fp.zero r.toVal = true

theorem Ramp.inPlan_iff : Claims.inPlan f r = true ↔ r.WithinPlan f := by
  simp only [Claims.inPlan, Bool.and_eq_true, Bool.not_eq_true']
  constructor
  · rintro ⟨⟨⟨⟨⟨hfrom, hto⟩, hpos⟩, hend⟩, hspeed⟩, hcurve⟩
    refine ⟨hfrom, hto, hpos, hend, hspeed, fun h => ?_, fun h => ?_⟩
    · simpa [h, and_assoc] using hcurve
    · simpa [h] using hcurve
  · rintro ⟨hfrom, hto, hpos, hend, hspeed, hlin, hexp⟩
    refine ⟨⟨⟨⟨⟨hfrom, hto⟩, hpos⟩, hend⟩, hspeed⟩, ?_⟩
    cases h : r.curve
    · simpa [and_assoc] using hlin h
    · simpa using hexp h

theorem Ramp.withinPlan_plan {c : Cfg} {a b : Word} (hc : c.valid = true) (ha : Fp.finite c.fmt a = true)
    (hb : Fp.finite c.fmt b = true) (hd : IsDuration c.fmt r.duration)
    (he : r.curve = .exp → expOk c.fmt a b = true) : (r.plan c a b).WithinPlan c.fmt := by
  unfold Ramp.plan
  split
  · rename_i hlin
    exact {
      fromVal := ha, toVal := hb, pos := ha, endPos := hb
      speed := speed_not_isNaN hc hd (Fp.sub_not_isNaN hb ha)
      lin := fun _ => ⟨rfl, Fp.fmin_le_left_le_fmax _ ha hb⟩
      exp := fun h => by rw [hlin] at h; cases h }
  · rename_i hexp
    obtain ⟨ha0, hb0, hlog⟩ := expOk_spec (he hexp)
    exact {
      fromVal := ha, toVal := hb, pos := Fp.finite_zero _, endPos := hlog
      speed := speed_not_isNaN hc hd (Fp.not_isNaN_of_finite _ hlog)
      lin := fun h => by rw [hexp] at h; cases h
      exp := fun _ => ⟨ha0, hb0⟩ }

theorem Ramp.withinPlan_jump (hv : Fp.finite f v = true) (h0 : r.curve = .exp → Fp.lt f Fp.zero v = true) :
    (r.jump v).WithinPlan f := by
  have hzero := Fp.not_isNaN_of_finite f (Fp.finite_zero f)
  unfold Ramp.jump
  split
  · rename_i hlin
    exact {
      fromVal := hv, toVal := hv, pos := hv, endPos := hv, speed := hzero
      lin := fun _ => ⟨rfl, Fp.fmin_le_left_le_fmax _ hv hv⟩
      exp := fun h => by rw [hlin] at h; cases h }
  · rename_i hexp
    exact {
      fromVal := hv, toVal := hv, pos := Fp.finite_zero f, endPos := Fp.finite_zero f, speed := hzero
      lin := fun h => by rw [hexp] at h; cases h
      exp := fun _ => ⟨h0 hexp, h0 hexp⟩ }

/-- R301: in LIN the value is the position, in EXP a clamp between the plan's two values. -/
theorem Ramp.WithinPlan.value_mem (h : r.WithinPlan f) :
    Fp.le f (Fp.fmin f r.fromVal r.toVal) (r.value f) = true ∧ Fp.le f (r.value f) (Fp.fmax f r.fromVal r.toVal) = true := by
  unfold Ramp.value
  split
  · rename_i hlin
    exact (h.lin hlin).2
  · rename_i hexp
    have hne : Fp.val f r.fromVal ≠ 0 := ((Fp.zero_lt_iff f h.fromVal).1 (h.exp hexp).1).ne'
    exact Fp.clamp_fmin_fmax h.fromVal h.toVal (Fp.mul_not_isNaN_right f h.fromVal hne (Fp.exp2_not_isNaN f h.pos))

/-- R303: the advance is clamped between the start and the end of the plan, which in LIN are its two values. -/
theorem Ramp.WithinPlan.tick (h : r.WithinPlan f) : (r.tick f).WithinPlan f := by
  have hsum := Fp.add_not_isNaN_right f h.pos h.speed
  refine { h with
    pos := Fp.finite_clamp_fmin_fmax (finite_startPos h.fromVal) h.endPos hsum
    lin := fun (hlin : r.curve = .lin) => ?_ }
  obtain ⟨hend, -⟩ := h.lin hlin
  have hpos : (r.tick f).pos =
      Fp.clamp f (Fp.add f r.pos r.speed) (Fp.fmin f r.fromVal r.toVal) (Fp.fmax f r.fromVal r.toVal) := by
    rw [Ramp.tick, startPos_of_lin hlin, hend]
  exact ⟨hend, hpos ▸ Fp.clamp_fmin_fmax h.fromVal h.toVal hsum⟩

end

/-! ### R308: the kind a data word names -/

theorem curveOf_eq_some (k : Curve) : curveOf (if k = .lin then 0#64 else 1#64) = some k := by
  cases k <;> rfl

theorem curveOf_eq_none {dw : Word} (h : 1 < dw.toNat) : curveOf dw = none := by
  unfold curveOf
  split
  · omega
  · omega
  · rfl

end Sys2Proof.Machine

namespace Sys2Proof.Claims

open Sys2Proof Sys2Proof.Machine

/-! ### The ramp's rules as the obligations write them out (R301, R302, R304, R305) -/

theorem value_eq_rampNow (f : Fmt) (r : Ramp) : r.value f = rampNow f r := by
  rw [Ramp.value, rampNow]
  cases r.curve <;> rfl

theorem plan_eq_planned (c : Cfg) (a b : Word) (r : Ramp) : r.plan c a b = planned c a b r := by
  obtain ⟨_, _, _, _, _, curve, _, _⟩ := r
  cases curve <;> rfl

theorem jump_eq_jumped (v : Word) (r : Ramp) : r.jump v = jumped v r := by
  obtain ⟨_, _, _, _, _, curve, _, _⟩ := r
  cases curve <;> rfl

/-- The bounds of R305 as powers of two and as quotients. -/
theorem expOk_eq_planOk (f : Fmt) (a b : Word) : expOk f a b = planOk f a b := by
  have hlo : Fp.pow2 f (-126) = Fp.ofRat f 1 (2 ^ 126) := by cases f <;> decide +kernel
  have hhi : Fp.pow2 f 126 = Fp.ofInt f (2 ^ 126) := by cases f <;> decide +kernel
  rw [expOk, hlo, hhi]
  rfl

/-! ### R304, R310 (a): the tick -/

/-- Settles O51: the tick reads the value, which is `v`, and leaves the position where it is; it writes nothing else. -/
theorem jumpHoldsItsValue : Obligations.JumpHoldsItsValue := by
  intro f r v hv hw hn _
  calc (r.jump v).tick f = { r.jump v with out := (r.jump v).value f, pos := ((r.jump v).tick f).pos } := rfl
    _ = { r.jump v with out := v } := by rw [Ramp.value_jump hv hw, Ramp.tick_jump_pos hv hw hn]

/-- Settles O52: a plan and a jump establish `WithinPlan`, a tick keeps it, and the value it outputs lies in the range. -/
theorem rampNeverOvershoots : Obligations.RampNeverOvershoots := by
  simp only [Obligations.RampNeverOvershoots, Ramp.inPlan_iff]
  exact ⟨fun c r a b hc ha hb hd hd0 he => Ramp.withinPlan_plan hc ha hb ⟨hd, hd0⟩ he,
    fun f r v hv h0 => Ramp.withinPlan_jump hv h0,
    fun f r h => ⟨h.tick, h.value_mem⟩⟩

/-! ### R306, R307: RAMP.VALUE and RAMP.DURATION -/

theorem exec_wparam_rampValue (dw : Word) (s : State) : exec (.wparam .ramp 0#8 dw) s =
    .next (if Fp.finite s.cfg.fmt dw = false ∨ Fp.lt s.cfg.fmt dw Fp.zero = true ∨ Fp.lt s.cfg.fmt s.cfg.halfFs dw = true ∨
        (s.ramp.curve = .exp ∧ Fp.lt s.cfg.fmt Fp.zero dw = false) then rejected s .invalidParameter
      else answered { s with ramp := jumped dw s.ramp, voice := { s.voice with inp := dw } } 0#64) := by
  refine exec_wparam_of_check (r := .rampValue) rfl rfl rfl .inl ?_
  rw [writeReg, writeRampValue, jump_eq_jumped]
  simp only [← ite_or, or_assoc]
  rfl

theorem exec_wparam_rampDuration (dw : Word) (s : State) : exec (.wparam .ramp 1#8 dw) s =
    .next (if durationOk s.cfg.fmt dw then answered { s with ramp := { s.ramp with duration := dw } } 0#64
      else rejected s .invalidParameter) :=
  exec_wparam_of_duration (r := .rampDuration) rfl rfl rfl rfl

/-- Settles O32: VALUE by its one check of four grounds, DURATION by the check of a duration. -/
theorem wparamRampValueAndDuration : Obligations.WparamRampValueAndDuration := by
  intro s dw
  rw [exec_wparam_rampValue, exec_wparam_rampDuration]
  refine ⟨fun hf h0 h1 he => ?jumps, fun h => ?refused, fun hf hle => ?stored, fun h => ?refusedDuration⟩
  case jumps =>
    rw [if_neg]
    rintro (h | h | h | ⟨hexp, h⟩)
    · exact Bool.false_ne_true (h.symm.trans hf)
    · exact Bool.false_ne_true (h0.symm.trans h)
    · exact Bool.false_ne_true (h1.symm.trans h)
    · exact Bool.false_ne_true (h.symm.trans (he hexp))
  case refused => rw [if_pos h]
  case stored => rw [if_pos (by rw [durationOk, hf, hle]; rfl)]
  case refusedDuration =>
    rw [(durationOk_eq_false_iff s.cfg.fmt dw).2 h]
    rfl

/-! ### R308: RAMP.CURVE -/

/-- WPARAM of RAMP.CURVE answers what its write rule says of the data word. -/
theorem exec_wparam_rampCurve (dw : Word) (s : State) :
    exec (.wparam .ramp 2#8 dw) s = conclude (writeRampCurve dw s) s := rfl

/-- R308: a word that names no kind. -/
theorem exec_wparam_rampCurve_of_none {dw : Word} (s : State) (h : curveOf dw = none) :
    exec (.wparam .ramp 2#8 dw) s = .next (rejected s .invalidParameter) := by
  rw [exec_wparam_rampCurve, writeRampCurve, h]
  rfl

/-- R308: a word that names the kind `k`. -/
theorem exec_wparam_rampCurve_of_some {dw : Word} {k : Curve} (s : State) (h : curveOf dw = some k) :
    exec (.wparam .ramp 2#8 dw) s =
      .next (if k = s.ramp.curve then answered s 0#64
        else if k = .exp ∧ planOk s.cfg.fmt (rampNow s.cfg.fmt s.ramp) s.ramp.toVal = false then
          rejected s .invalidParameter
        else answered
          { s with ramp := planned s.cfg (rampNow s.cfg.fmt s.ramp) s.ramp.toVal { s.ramp with curve := k } } 0#64) := by
  rw [exec_wparam_rampCurve, writeRampCurve, h]
  simp only [value_eq_rampNow, plan_eq_planned, expOk_eq_planOk]
  split
  · rfl
  · split <;> rfl

/-- Settles O33: by the kind that the word names, if it names one. -/
theorem wparamRampCurveSwitches : Obligations.WparamRampCurveSwitches := by
  intro s dw k
  refine ⟨fun hdw hk => ?same, fun hdw hk he => ?switch, fun hdw hlin hbad => ?refused,
    fun h => exec_wparam_rampCurve_of_none s (curveOf_eq_none h)⟩
  case same =>
    subst hdw
    rw [exec_wparam_rampCurve_of_some s (curveOf_eq_some k), if_pos hk]
  case switch =>
    subst hdw
    have hplan : ¬ (k = .exp ∧ planOk s.cfg.fmt (rampNow s.cfg.fmt s.ramp) s.ramp.toVal = false) :=
      fun ⟨hexp, hbad⟩ => Bool.false_ne_true (hbad.symm.trans (he hexp))
    rw [exec_wparam_rampCurve_of_some s (curveOf_eq_some k), if_neg hk, if_neg hplan]
  case refused =>
    subst hdw
    have hk : ¬ Curve.exp = s.ramp.curve := by rw [hlin]; decide
    rw [exec_wparam_rampCurve_of_some (k := .exp) s rfl, if_neg hk, if_pos ⟨rfl, hbad⟩]

end Sys2Proof.Claims

/-! PROOFS. The voice (spec/45_gain_voice.md): its ports (R332 to R335), VOICE.in as the ramp's target (R336), the drained
events (R338 to R340, R342), the note frequencies (R341) and the wires of a sample tick (R343). -/

namespace Sys2Proof.Machine

/-! ### R302, R304, R338: the target of the ramp -/

@[simp] theorem Ramp.plan_toVal (c : Cfg) (a b : Word) (r : Ramp) : (r.plan c a b).toVal = b := by
  rw [Ramp.plan]
  cases r.curve <;> rfl

@[simp] theorem Ramp.jump_toVal (v : Word) (r : Ramp) : (r.jump v).toVal = v := by
  rw [Ramp.jump]
  cases r.curve <;> rfl

@[simp] theorem Ramp.goto_toVal (c : Cfg) (v : Word) (r : Ramp) : (r.goto c v).toVal = v := by
  rw [Ramp.goto]
  split
  · exact Ramp.jump_toVal v r
  · exact Ramp.plan_toVal c _ v r

/-! ### R336: VOICE.in is the ramp's target -/

/-- R336: VOICE.in = RAMP.to, bit for bit. -/
def State.OnTarget (s : State) : Prop := s.voice.inp = s.ramp.toVal

section
variable {s t : State}

/-- Only a note on moves the voice's frequency, and the ramp goes there with it (R338). -/
theorem State.OnTarget.applyEvent (h : s.OnTarget) (e : BitVec 32) : (applyEvent e s).OnTarget := by
  rcases applyEvent_cases e s with ⟨-, -, he⟩ | ⟨-, he⟩ | ⟨-, -, he⟩
  · rw [he]
    exact (Ramp.goto_toVal s.cfg (noteFreq s.cfg.fmt (evD1 e)) s.ramp).symm
  · rw [he, noteOff]
    split <;> exact h
  · rwa [he]

theorem State.OnTarget.drainStage (h : s.OnTarget) : (drainStage s).OnTarget := by
  rw [Machine.drainStage]
  split
  · exact applyEvents_induct (P := fun _ => True) (fun e _ _ hu => hu.applyEvent e) _ (fun _ _ => trivial) _ h
  · exact h

/-- After the drain a sample tick writes neither VOICE.in nor RAMP.to. -/
theorem State.OnTarget.sampleTick (h : s.OnTarget) (ht : sampleTick s = .ok t) : t.OnTarget := by
  have hdrained := h.drainStage
  obtain ⟨v, r, o, hd, -, rfl⟩ := sampleTick_ok ht
  rwa [hd] at hdrained

theorem State.OnTarget.blockTicks (h : s.OnTarget) {n i : Nat} (ht : blockTicks n i s = .ok t) : t.OnTarget :=
  blockTicks_induct (Inv := State.OnTarget) (fun _ _ v _ _ hu hv => show v.OnTarget from hu.sampleTick hv) h ht

theorem PortEffect.onTarget {dw : Word} (h : PortEffect dw s t) (hs : s.OnTarget) : t.OnTarget := by
  cases h
  case voiceIn => exact (Ramp.plan_toVal _ _ _ _).symm
  all_goals exact hs

/-- A write of RAMP.VALUE takes VOICE.in along (R306); a curve switch plans to the target that stands (R308). -/
theorem RegEffect.onTarget {dw : Word} (h : RegEffect dw s t) (hs : s.OnTarget) : t.OnTarget := by
  cases h
  case rampValue => exact (Ramp.jump_toVal dw s.ramp).symm
  case rampCurve => exact Eq.trans hs (Ramp.plan_toVal _ _ _ _).symm
  all_goals exact hs

theorem effect_onTarget {i : Instr} {r : Response} (h : Effect i s t r) (hs : s.OnTarget) : t.OnTarget := by
  cases h
  case reset => exact rfl
  case tick ht => exact hs.sampleTick ht
  case tickb ht => exact hs.blockTicks ht
  case port hp => exact hp.onTarget hs
  case reg hr => exact hr.onTarget hs
  all_goals exact hs

theorem step_onTarget (hs : s.OnTarget) (h : step s = .next t) : t.OnTarget :=
  step_keeps (Inv := State.OnTarget) (fun _ _ hu => hu) (fun _ _ hu => hu) (fun _ _ _ _ hu he => effect_onTarget he hu) hs h

theorem reachable_onTarget (h : Reachable s) : s.OnTarget := by
  induction h with
  | construct c s h =>
    rw [State.construct] at h
    split at h
    case isTrue => exact Option.some.inj h ▸ rfl
    case isFalse => cases h
  | issue s cmds _ ih => exact ih
  | step s t _ hs ih => exact step_onTarget ih hs

end

/-! ### R337 to R340: one drained event, by its kind -/

section
variable {e : BitVec 32} (s : State)

theorem applyEvent_of_noteOn (hkind : evKind e = 2#4) (hvel : evD2 e ≠ 0#8) : applyEvent e s = noteOn (evD1 e) s := by
  rcases applyEvent_cases e s with ⟨-, -, h⟩ | ⟨hoff | hoff, -⟩ | ⟨-, hother, -⟩
  · exact h
  · rw [hkind] at hoff
    exact absurd hoff (by decide)
  · exact absurd hoff.2 hvel
  · exact absurd hkind hother

theorem applyEvent_of_noteOff (h : evKind e = 1#4 ∨ (evKind e = 2#4 ∧ evD2 e = 0#8)) :
    applyEvent e s = noteOff (evD1 e) s := by
  rcases applyEvent_cases e s with ⟨hkind, hvel, -⟩ | ⟨-, he⟩ | ⟨hoff, hon, -⟩
  · rcases h with h | ⟨-, h⟩
    · rw [hkind] at h
      exact absurd h (by decide)
    · exact absurd h hvel
  · exact he
  · rcases h with h | ⟨h, -⟩
    · exact absurd h hoff
    · exact absurd h hon

theorem applyEvent_of_other (hoff : evKind e ≠ 1#4) (hon : evKind e ≠ 2#4) : applyEvent e s = s := by
  rcases applyEvent_cases e s with ⟨h, -⟩ | ⟨h | ⟨h, -⟩, -⟩ | ⟨-, -, h⟩
  · exact absurd h hon
  · exact absurd h hoff
  · exact absurd h hon
  · exact h

end

/-! ### R341: whole octaves -/

/-- A note `k` octaves from note 69 has the frequency 440 × 2^k, by law (a) of R14. -/
theorem noteFreq_of_octaves {f : Fmt} {n : Byte} {k : Int} (hk : k.natAbs ≤ 126)
    (h : Fp.div f (Fp.sub f (Fp.ofInt f n.toNat) (Fp.ofInt f 69)) (Fp.ofInt f 12) = Fp.ofInt f k) :
    noteFreq f n = Fp.mul f (Fp.ofInt f 440) (Fp.pow2 f k) := by
  rw [noteFreq, h, Fp.exp2_ofInt f hk]

theorem noteFreq_69 (f : Fmt) : noteFreq f 69#8 = Fp.ofInt f 440 := by
  rw [noteFreq_of_octaves (k := 0) (by decide) (by cases f <;> decide +kernel)]
  cases f <;> decide +kernel

theorem noteFreq_57 (f : Fmt) : noteFreq f 57#8 = Fp.ofInt f 220 := by
  rw [noteFreq_of_octaves (k := -1) (by decide) (by cases f <;> decide +kernel)]
  cases f <;> decide +kernel

theorem noteFreq_81 (f : Fmt) : noteFreq f 81#8 = Fp.ofInt f 880 := by
  rw [noteFreq_of_octaves (k := 1) (by decide) (by cases f <;> decide +kernel)]
  cases f <;> decide +kernel

/-! ### R343: the wires of a sample tick -/

theorem Osc.tick_copies {c : Cfg} {table : Memory} {o o' : Osc} (h : o.tick c table = .ok o') :
    o'.inp = o.inp ∧ o'.detune = o.detune := by
  obtain ⟨out, -, rfl⟩ := Osc.tick_cases h
  exact ⟨rfl, rfl⟩

section
variable {s t : State}

/-- The wires into the oscillator, the envelope and the gain stage: each unit's tick keeps the copies it reads. -/
theorem sampleTick_wires (h : sampleTick s = .ok t) :
    t.osc.inp = t.ramp.out ∧ t.env.gate = t.voice.gate ∧ t.osc.detune = t.voice.detune ∧ t.gain.inp = t.osc.out ∧
      t.gain.gain = t.env.amp := by
  obtain ⟨v, r, o, -, ho, rfl⟩ := sampleTick_ok h
  obtain ⟨hinp, hdetune⟩ := Osc.tick_copies ho
  obtain ⟨-, -, -, -, hgate⟩ := Env.tick_keeps s.cfg { s.env with gate := v.gate }
  exact ⟨hinp, hgate, hdetune, rfl, rfl⟩

/-- The wires into the filter; its input is written only where it ticks (R240). -/
theorem sampleTick_filter_wires (h : sampleTick s = .ok t) :
    t.filter.fo = t.voice.fo ∧ (s.ctrl.filterEn = true → t.filter.inp = t.gain.out) := by
  rw [sampleTick_filter h]
  obtain ⟨-, -, -, hinp, hfo, -⟩ := Filter.tick_keeps s.cfg (s.filter.fed t.gain.out t.voice.fo)
  split
  case isTrue => exact ⟨hfo, fun _ => hinp⟩
  case isFalse hoff => exact ⟨rfl, fun hon => absurd hon hoff⟩

/-- The wire into VOICE.out, from the filter or past it. -/
theorem sampleTick_output (h : sampleTick s = .ok t) :
    t.ctrl = s.ctrl ∧ t.voice.out = if s.ctrl.filterEn then t.filter.out else t.gain.out := by
  obtain ⟨v, r, o, -, -, rfl⟩ := sampleTick_ok h
  exact ⟨rfl, rfl⟩

end

end Sys2Proof.Machine

namespace Sys2Proof.Claims

open Sys2Proof Sys2Proof.Machine

/-- Settles O16: every effect keeps VOICE.in on the ramp's target (`effect_onTarget`), where construction puts it. -/
theorem voiceInEqualsRampTo : Obligations.VoiceInEqualsRampTo :=
  ⟨fun _ _ hs h => step_onTarget hs h, fun _ h => reachable_onTarget h⟩

/-- Settles O24: the wires unit by unit (`sampleTick_wires`, `sampleTick_filter_wires`) and the output with the filter on
and off (`sampleTick_output`). -/
theorem wiringFidelity : Obligations.WiringFidelity := by
  intro s t h
  obtain ⟨hosc, henv, hdetune, hgainIn, hgain⟩ := sampleTick_wires h
  obtain ⟨hfo, hfilterIn⟩ := sampleTick_filter_wires h
  obtain ⟨hctrl, hout⟩ := sampleTick_output h
  refine ⟨hosc, henv, hdetune, hfo, hgainIn, hgain, fun hon => ?filtered, fun hoff => ?direct⟩
  case filtered =>
    rw [hctrl] at hon
    exact ⟨hfilterIn hon, by rw [hout, if_pos hon]⟩
  case direct =>
    rw [hctrl] at hoff
    rw [hout, hoff]
    rfl

/-- Settles O50: the rule is `noteFreq`'s definition, the three exact notes lie whole octaves apart
(`noteFreq_of_octaves`), and the range is `noteFreq_bounds`. -/
theorem noteFrequencies : Obligations.NoteFrequencies := by
  refine ⟨fun f n => rfl, fun f => ⟨noteFreq_69 f, noteFreq_57 f, noteFreq_81 f⟩, fun f n hn => ?_⟩
  obtain ⟨hlo, hrange⟩ := noteFreq_bounds f hn
  have h14080 : Fp.IsInt f 14080 := Fp.isInt_of_natAbs_le f (by decide)
  exact ⟨hlo, (Fp.le_iff_of_finite f hrange.finite h14080.finite).2 (h14080.val ▸ hrange.le_hi)⟩

/-! ### R158, R332 to R335: the ports -/

/-- WPORT of a writable port whose write rule is one check, which refuses every word that is not finite. -/
theorem exec_wport_of_check {u : UnitId} {sel : Byte} {p : Port} {dw : Word} {s t : State} {bad : Prop} [Decidable bad]
    (hp : portOf u sel = some p) (hw : p.writable = true) (hbad : Fp.finite s.cfg.fmt dw = false → bad)
    (h : writePort p dw s = if bad then .error .invalidParameter else .ok t) :
    exec (.wport u sel dw) s = .next (if bad then rejected s .invalidParameter else answered t 0#64) := by
  rw [exec, execWport, hp]
  simp only [hw, if_true]
  cases hf : Fp.finite s.cfg.fmt dw
  · rw [if_neg Bool.false_ne_true, if_pos (hbad hf)]
    rfl
  · rw [if_pos rfl, h]
    split <;> rfl

/-- R332: the two checks of VOICE.in as one, of four grounds, and the glide with its plan written out. -/
theorem exec_wport_voiceIn (dw : Word) (s : State) : exec (.wport .voice 0#8 dw) s =
    .next (if Fp.finite s.cfg.fmt dw = false ∨ Fp.lt s.cfg.fmt dw Fp.zero = true ∨ Fp.lt s.cfg.fmt s.cfg.halfFs dw = true ∨
        (s.ramp.curve = .exp ∧ planOk s.cfg.fmt (rampNow s.cfg.fmt s.ramp) dw = false) then rejected s .invalidParameter
      else answered
        { s with ramp := planned s.cfg (rampNow s.cfg.fmt s.ramp) dw s.ramp, voice := { s.voice with inp := dw } } 0#64) := by
  refine exec_wport_of_check (p := .voiceIn) rfl rfl .inl ?_
  rw [writePort, writeVoiceIn, value_eq_rampNow, plan_eq_planned, expOk_eq_planOk]
  simp only [← ite_or, or_assoc]
  rfl

theorem exec_wport_voiceGate (dw : Word) (s : State) : exec (.wport .voice 2#8 dw) s =
    .next (if Fp.finite s.cfg.fmt dw = false then rejected s .invalidParameter
      else answered { s with voice := { s.voice with gate := dw } } 0#64) :=
  exec_wport_of_check (p := .voiceGate) rfl rfl id rfl

theorem exec_wport_voiceDetune (dw : Word) (s : State) : exec (.wport .voice 3#8 dw) s =
    .next (if Fp.finite s.cfg.fmt dw = false ∨ Fp.lt s.cfg.fmt s.cfg.detuneMax (Fp.abs s.cfg.fmt dw) = true then
        rejected s .invalidParameter
      else answered { s with voice := { s.voice with detune := dw } } 0#64) :=
  exec_wport_of_check (p := .voiceDetune) rfl rfl .inl rfl

theorem exec_wport_voiceFilterOffset (dw : Word) (s : State) : exec (.wport .voice 4#8 dw) s =
    .next (if Fp.finite s.cfg.fmt dw = false then rejected s .invalidParameter
      else answered
        { s with voice := { s.voice with fo := dw }, filter := { s.filter with dirty := true } } 0#64) :=
  exec_wport_of_check (p := .voiceFilterOffset) rfl rfl id rfl

/-- Settles O27: by the one check of VOICE.in (`exec_wport_voiceIn`), whose four grounds the two clauses deny and assert. -/
theorem wportVoiceInPlansAGlide : Obligations.WportVoiceInPlansAGlide := by
  intro s dw
  rw [exec_wport_voiceIn]
  refine ⟨fun hf h0 h1 he => ?glides, fun h => by rw [if_pos h]⟩
  rw [if_neg]
  rintro (h | h | h | ⟨hexp, h⟩)
  · exact Bool.false_ne_true (h.symm.trans hf)
  · exact Bool.false_ne_true (h0.symm.trans h)
  · exact Bool.false_ne_true (h1.symm.trans h)
  · exact Bool.false_ne_true (h.symm.trans (he hexp))

/-- Settles O28: the gate and the modulation by the check that the word is finite, the detune by that and by DETUNE_MAX. -/
theorem wportWritesItsLatch : Obligations.WportWritesItsLatch := by
  intro s dw
  rw [exec_wport_voiceGate, exec_wport_voiceDetune, exec_wport_voiceFilterOffset]
  refine ⟨fun hf => ?gate, fun hf hmax => ?detune, fun hf => ?modulation, fun hf => ?refused, fun hmax => ?refusedDetune⟩
  case gate | modulation => rw [if_neg (by simp [hf])]
  case detune => rw [if_neg (by simp [hf, hmax])]
  case refused => exact ⟨by rw [if_pos hf], by rw [if_pos (.inl hf)], by rw [if_pos hf]⟩
  case refusedDetune => rw [if_pos (.inr hmax)]

/-! ### R338 to R340, R342: the drained events -/

/-- R338, R342: the glide or the jump to a frequency, as the obligation writes it out. -/
theorem goto_eq_planned_or_jumped (c : Cfg) (v : Word) (r : Ramp) : r.goto c v =
    if r.curve = .exp ∧ planOk c.fmt (rampNow c.fmt r) v = false then jumped v r
      else planned c (rampNow c.fmt r) v r := by
  rw [Ramp.goto, value_eq_rampNow, plan_eq_planned, jump_eq_jumped, expOk_eq_planOk]

/-- Settles O49: by the kind of the event; a note on moves the ramp by `goto_eq_planned_or_jumped`, a note off is of the
current note or not. -/
theorem drainedEventRule : Obligations.DrainedEventRule := by
  intro s e
  refine ⟨fun hkind hvel => ?noteOn, fun hkind hnote => ?noteOff, fun hkind hnote => ?otherNote,
    fun hoff hon => applyEvent_of_other s hoff hon⟩
  case noteOn =>
    rw [applyEvent_of_noteOn s hkind hvel, noteOn, goto_eq_planned_or_jumped]
    rfl
  case noteOff =>
    rw [applyEvent_of_noteOff s hkind, noteOff, if_pos hnote]
    rfl
  case otherNote => rw [applyEvent_of_noteOff s hkind, noteOff, if_neg hnote]

end Sys2Proof.Claims

/-! PROOFS. The event words, the parser byte by byte, MPUSH, MPOP and MRESET, the messages that a run of bytes makes, and the
bounds of the parser and its queue (spec/46_midi.md R361 to R371, spec/30_encoding.md R125 to R127). -/

namespace Sys2Proof.Machine

open Sys2Proof.Claims (answered rejected word)

/-! ### R366: the decoded event words -/

/-- A channel-voice status byte has one of seven high nibbles. -/
theorem voiceNibble_cases {st : Byte} (hlo : 0x80 ≤ st.toNat) (hhi : st.toNat < 0xF0) :
    st.toNat / 16 = 8 ∨ st.toNat / 16 = 9 ∨ st.toNat / 16 = 10 ∨ st.toNat / 16 = 11 ∨ st.toNat / 16 = 12 ∨
      st.toNat / 16 = 13 ∨ st.toNat / 16 = 14 := by omega

/-- R366: the kinds of the channel-voice messages follow their status nibbles. -/
theorem voiceKind_toNat {st : Byte} (hlo : 0x80 ≤ st.toNat) (hhi : st.toNat < 0xF0) :
    (voiceKind st).toNat = st.toNat / 16 - 7 := by
  unfold voiceKind
  rw [high_nibble]
  obtain h | h | h | h | h | h | h := voiceNibble_cases hlo hhi <;> rw [h] <;> rfl

theorem decodeMsg_of_voice {st : Byte} (d1 d2 : Byte) (h : st.toNat < 0xF0) :
    decodeMsg st d1 d2 = eventWord (voiceKind st) (st.extractLsb' 0 4) st d1 d2 := if_pos h

theorem decodeMsg_of_common {st : Byte} (d1 d2 : Byte) (hlo : 0xF0 ≤ st.toNat) (hhi : st.toNat < 0xF8) :
    decodeMsg st d1 d2 = eventWord 9#4 0#4 st d1 d2 := by
  rw [decodeMsg, if_neg (by omega), if_pos hhi]

theorem decodeMsg_of_realtime {st : Byte} (d1 d2 : Byte) (h : 0xF8 ≤ st.toNat) :
    decodeMsg st d1 d2 = eventWord 10#4 0#4 st 0#8 0#8 := by
  rw [decodeMsg, if_neg (by omega), if_neg (by omega)]

theorem decodeSysex_toNat (n : BitVec 16) : (decodeSysex n).toNat = 8 * 2 ^ 28 + 0xF0 * 2 ^ 16 + n.toNat := by
  have := n.isLt
  rw [decodeSysex, eventWord_toNat, toNat_field, toNat_field]
  simp
  omega

theorem eventOk_eventWord {k : BitVec 4} (c : BitVec 4) (st : Byte) {d1 d2 : Byte} (hk : 1 ≤ k.toNat ∧ k.toNat ≤ 10)
    (hd : k.toNat = 8 ∨ d1.toNat < 128 ∧ d2.toNat < 128) : eventOk (eventWord k c st d1 d2) = true := by
  obtain ⟨hkind, hd1, hd2⟩ := eventWord_fields k c st d1 d2
  simpa [eventOk, hkind, hd1, hd2] using ⟨hk, hd⟩

/-- R366: a message of 7-bit data bytes decodes to a well-formed event, whatever its status byte. -/
theorem eventOk_decodeMsg (st : Byte) {d1 d2 : Byte} (h1 : d1.toNat < 128) (h2 : d2.toNat < 128) :
    eventOk (decodeMsg st d1 d2) = true := by
  unfold decodeMsg
  split
  · obtain ⟨hlo, hhi⟩ := voiceKind_range st
    exact eventOk_eventWord _ st ⟨hlo, by omega⟩ (.inr ⟨h1, h2⟩)
  · split
    · exact eventOk_eventWord _ st (by decide) (.inr ⟨h1, h2⟩)
    · exact eventOk_eventWord _ st (by decide) (.inr (by decide))

theorem eventOk_decodeSysex (n : BitVec 16) : eventOk (decodeSysex n) = true :=
  eventOk_eventWord _ _ (by decide) (.inl rfl)

theorem eventOk_completeMsg {m : Midi} {b : Byte} (hbuf : m.buf1.toNat < 128) (hb : b.toNat < 128) :
    eventOk (completeMsg b m) = true := by
  unfold completeMsg
  split
  · exact eventOk_decodeMsg _ hb (by decide)
  · exact eventOk_decodeMsg _ hbuf hb
  · exact eventOk_decodeMsg _ (by decide) (by decide)

/-! ### R362 to R364: what each byte does in each state -/

/-- R362: a status byte that starts a message of two or three bytes. -/
def StartsMessage (b : Byte) : Prop := 0x80 ≤ b.toNat ∧ (b.toNat < 0xF0 ∨ b = 0xF1#8 ∨ b = 0xF2#8 ∨ b = 0xF3#8)

/-- R362: the length of the message that a status byte starts. -/
def messageLength (b : Byte) : BitVec 2 :=
  if (0xC0 ≤ b.toNat ∧ b.toNat < 0xE0) ∨ b = 0xF1#8 ∨ b = 0xF3#8 then 2#2 else 3#2

/-- R362: the byte is a message of its own. -/
def IsOneByteMessage (b : Byte) : Prop := b = 0xF6#8 ∨ 0xF8 ≤ b.toNat

/-- R362: the bytes that no message starts with. -/
def BreaksIdle (b : Byte) : Prop := b.toNat < 0x80 ∨ b = 0xF4#8 ∨ b = 0xF5#8 ∨ b = 0xF7#8

theorem messageLength_of_two {b : Byte} (h : (0xC0 ≤ b.toNat ∧ b.toNat < 0xE0) ∨ b = 0xF1#8 ∨ b = 0xF3#8) :
    messageLength b = 2#2 := if_pos h

theorem messageLength_of_three {b : Byte} (h : ¬ ((0xC0 ≤ b.toNat ∧ b.toNat < 0xE0) ∨ b = 0xF1#8 ∨ b = 0xF3#8)) :
    messageLength b = 3#2 := if_neg h

theorem messageLength_range (b : Byte) : 1 < (messageLength b).toNat := by
  unfold messageLength
  split <;> decide

section
variable {d : Nat} {b : Byte} {m : Midi}

/-- A channel-voice status byte starts a message of three bytes, with the nibbles C and D of two. -/
theorem idleByte_of_voice (hlo : 0x80 ≤ b.toNat) (hhi : b.toNat < 0xF0) :
    idleByte d b m = startMsg b (messageLength b) m := by
  unfold idleByte
  rw [high_nibble]
  obtain h | h | h | h | h | h | h := voiceNibble_cases hlo hhi <;> simp only [h]
  case inr.inr.inr.inr.inl | inr.inr.inr.inr.inr.inl => rw [messageLength_of_two (.inl (by omega))]
  all_goals rw [messageLength_of_three (by bv_omega)]

theorem idleByte_of_start (h : StartsMessage b) : idleByte d b m = startMsg b (messageLength b) m := by
  obtain ⟨hlo, hvoice | rfl | rfl | rfl⟩ := h
  · exact idleByte_of_voice hlo hvoice
  all_goals rfl

theorem idleByte_of_sysex : idleByte d 0xF0#8 m = .taken { m with pstate := .sysex, sxlen := 0#16 } := rfl

theorem idleByte_of_oneByte (h : IsOneByteMessage b) : idleByte d b m = emitEvent d (decodeMsg b 0#8 0#8) m := by
  obtain rfl | hreal := h
  · rfl
  · have hlt := b.isLt
    have hnibble : (b.extractLsb' 4 4).toNat = 0xF := by rw [high_nibble]; omega
    simp only [idleByte, hnibble]
    split
    case h_9 => rfl
    all_goals omega

theorem idleByte_of_breaks (h : BreaksIdle b) : idleByte d b m = .broken := by
  obtain hdata | rfl | rfl | rfl := h
  · unfold idleByte
    rw [high_nibble]
    split
    case h_9 => rfl
    all_goals omega
  all_goals rfl

/-- R362: every byte is of one of the four kinds. -/
theorem idleByte_kinds (b : Byte) : StartsMessage b ∨ b = 0xF0#8 ∨ IsOneByteMessage b ∨ BreaksIdle b := by
  unfold StartsMessage IsOneByteMessage BreaksIdle
  bv_omega

theorem msgByte_of_status (h : 0x80 ≤ b.toNat) : msgByte d b m = .broken := if_pos h

theorem msgByte_of_last (h : b.toNat < 0x80) (hlast : m.blen.toNat + 1 = m.need.toNat) :
    msgByte d b m = emitEvent d (completeMsg b m) (clearBuf m) := by
  rw [msgByte, if_neg (by omega), if_pos hlast]

theorem msgByte_of_not_last (h : b.toNat < 0x80) (hlast : m.blen.toNat + 1 ≠ m.need.toNat) :
    msgByte d b m = .taken { storeByte b m with blen := m.blen + 1#2 } := by
  rw [msgByte, if_neg (by omega), if_neg hlast]

theorem storeByte_of_one (h : m.blen = 1#2) : storeByte b m = { m with buf1 := b } := by
  rw [storeByte, h]
  rfl

/-- R363: a data byte that does not complete a message is the second of three. -/
theorem msgByte_of_second (h : b.toNat < 0x80) (hblen : m.blen = 1#2) (hneed : m.need = 3#2) :
    msgByte d b m = .taken { m with buf1 := b, blen := 2#2 } := by
  rw [msgByte_of_not_last h (by rw [hblen, hneed]; decide), storeByte_of_one hblen, hblen]
  rfl

theorem completeMsg_of_one (h : m.blen = 1#2) : completeMsg b m = decodeMsg m.buf0 b 0#8 := by
  rw [completeMsg, h]
  rfl

theorem completeMsg_of_two (h : m.blen = 2#2) : completeMsg b m = decodeMsg m.buf0 m.buf1 b := by
  rw [completeMsg, h]
  rfl

theorem sysexByte_of_end :
    sysexByte d 0xF7#8 m = emitEvent d (decodeSysex m.sxlen) { m with sxlen := 0#16, pstate := .idle } := rfl

theorem sysexByte_of_status (h : 0x80 ≤ b.toNat) (hend : b ≠ 0xF7#8) : sysexByte d b m = .broken := by
  rw [sysexByte, if_neg hend, if_pos h]

theorem sysexByte_of_data (h : b.toNat < 0x80) : sysexByte d b m = .taken { m with sxlen := sysexCount m.sxlen } := by
  rw [sysexByte, if_neg (by bv_omega), if_neg (by omega)]

theorem sysexCount_toNat (n : BitVec 16) : (sysexCount n).toNat = min (n.toNat + 1) 0xFFFF := by
  rw [sysexCount, BitVec.toNat_ofNat, Nat.mod_eq_of_lt (by omega)]

end

/-! ### R361, R365, R367: what MPUSH answers -/

section
variable {s : State} {b : Byte}

theorem exec_mpush_of_error (h : s.midi.pstate = .error) : exec (.mpush b) s = .next (rejected s .protocolDecodeError) :=
  if_pos h

theorem exec_mpush_of_taken {m : Midi} (hs : s.midi.pstate ≠ .error) (h : parseByte s.cfg.evqDepth b s.midi = .taken m) :
    exec (.mpush b) s = .next (answered { s with midi := m } (word m.q.length)) := by
  rw [exec, execMpush_eq b hs, h]
  rfl

theorem exec_mpush_of_broken (hs : s.midi.pstate ≠ .error) (h : parseByte s.cfg.evqDepth b s.midi = .broken) :
    exec (.mpush b) s = .next (rejected
      { s with midi := ⟨.error, 0#8, 0#8, 0#8, 0#2, 0#2, 0#16, s.midi.q⟩ } .protocolDecodeError) := by
  rw [exec, execMpush_eq b hs, h]
  rfl

section
variable {e : BitVec 32} {m : Midi} (hs : s.midi.pstate ≠ .error)
  (h : parseByte s.cfg.evqDepth b s.midi = emitEvent s.cfg.evqDepth e m) (hq : m.q = s.midi.q)
include hs h hq

theorem exec_mpush_of_emit (hroom : s.midi.q.length ≠ s.cfg.evqDepth) :
    exec (.mpush b) s = .next (answered
      { s with midi := { m with q := s.midi.q ++ [e] } } (word (s.midi.q.length + 1))) := by
  rw [emitEvent_of_room (hq ▸ hroom), hq] at h
  rw [exec_mpush_of_taken hs h, List.length_append, List.length_singleton]

/-- R365: at a full queue the byte is not consumed. -/
theorem exec_mpush_of_emit_full (hfull : s.midi.q.length = s.cfg.evqDepth) :
    exec (.mpush b) s = .next (rejected s .queueFull) := by
  rw [emitEvent_of_full (hq ▸ hfull)] at h
  rw [exec, execMpush_eq b hs, h]
  rfl

end

end

end Sys2Proof.Machine

namespace Sys2Proof.Claims

open Sys2Proof Sys2Proof.Machine

/-- Settles O45: the words are `eventWord_toNat` of the kinds that `decodeMsg` gives. -/
theorem eventWordFields : Obligations.EventWordFields := by
  refine ⟨fun st d1 d2 => ⟨fun hlo hhi => ?voice, fun hcommon => ?common, fun hreal => ?realtime⟩, decodeSysex_toNat⟩
  case voice => rw [decodeMsg_of_voice d1 d2 hhi, eventWord_toNat, voiceKind_toNat hlo hhi, low_nibble]
  case common =>
    obtain ⟨hlo, hhi⟩ : 0xF0 ≤ st.toNat ∧ st.toNat < 0xF8 := by bv_omega
    rw [decodeMsg_of_common d1 d2 hlo hhi, eventWord_toNat]
    simp
  case realtime =>
    rw [decodeMsg_of_realtime d1 d2 hreal, eventWord_toNat]
    simp

/-- Settles O41: by the kind of the byte. -/
theorem idleByteRule : Obligations.IdleByteRule := by
  intro s b hidle
  have hs : s.midi.pstate ≠ .error := by simp [hidle]
  have hparse := parseByte_idle s.cfg.evqDepth b hidle
  refine ⟨fun hlo hstart => ?start, fun hb => ?sysex, fun hone hroom => ?oneByte, fun hbreak => ?breaks⟩
  case start => exact exec_mpush_of_taken hs (hparse.trans (idleByte_of_start ⟨hlo, hstart⟩))
  case sysex =>
    subst hb
    exact exec_mpush_of_taken hs (hparse.trans idleByte_of_sysex)
  case oneByte =>
    refine ⟨_, exec_mpush_of_emit hs (hparse.trans (idleByte_of_oneByte hone)) rfl hroom, ?_⟩
    obtain ⟨-, hcommon, hreal⟩ := eventWordFields.1 b 0#8 0#8
    split
    case isTrue hb => exact hcommon (.inr (.inr (.inr hb)))
    case isFalse hb => exact hreal (hone.resolve_left hb)
  case breaks => exact exec_mpush_of_broken hs (hparse.trans (idleByte_of_breaks hbreak))

/-- Settles O42: a data byte is the message's last or its second of three. -/
theorem messageByteRule : Obligations.MessageByteRule := by
  intro s b hmsg
  have hs : s.midi.pstate ≠ .error := by simp [hmsg]
  have hparse := parseByte_msg s.cfg.evqDepth b hmsg
  refine ⟨fun hstatus => ?status, fun hb hblen hneed => ?stored, fun hb hblen hneed hroom => ?lastOfTwo,
    fun hb hblen hneed hroom => ?lastOfThree⟩
  case status => exact exec_mpush_of_broken hs (hparse.trans (msgByte_of_status hstatus))
  case stored => exact exec_mpush_of_taken hs (hparse.trans (msgByte_of_second hb hblen hneed))
  case lastOfTwo =>
    have hlast := msgByte_of_last (d := s.cfg.evqDepth) hb (by rw [hblen, hneed]; rfl)
    rw [completeMsg_of_one hblen] at hlast
    exact exec_mpush_of_emit hs (hparse.trans hlast) rfl hroom
  case lastOfThree =>
    have hlast := msgByte_of_last (d := s.cfg.evqDepth) hb (by rw [hblen, hneed]; rfl)
    rw [completeMsg_of_two hblen] at hlast
    exact exec_mpush_of_emit hs (hparse.trans hlast) rfl hroom

/-- Settles O43: the byte ends the SysEx, breaks the stream or is counted. -/
theorem sysexByteRule : Obligations.SysexByteRule := by
  intro s b hsysex
  have hs : s.midi.pstate ≠ .error := by simp [hsysex]
  have hparse := parseByte_sysex s.cfg.evqDepth b hsysex
  refine ⟨fun hb hroom => ?ends, fun hstatus hb => ?status, fun hb => ?data⟩
  case ends =>
    subst hb
    exact ⟨_, exec_mpush_of_emit hs (hparse.trans sysexByte_of_end) rfl hroom, decodeSysex_toNat _⟩
  case status => exact exec_mpush_of_broken hs (hparse.trans (sysexByte_of_status hstatus hb))
  case data =>
    exact ⟨_, sysexCount_toNat _, exec_mpush_of_taken hs (hparse.trans (sysexByte_of_data hb))⟩

/-- Settles O44: in each parser state the byte named emits an event, which a full queue refuses. -/
theorem rejectedBytesAreNotConsumed : Obligations.RejectedBytesAreNotConsumed := by
  intro s b
  refine ⟨exec_mpush_of_error, fun hidle hone hfull => ?oneByte, fun hmsg hb hlast hfull => ?last,
    fun hsysex hb hfull => ?ends⟩
  case oneByte =>
    exact exec_mpush_of_emit_full (by simp [hidle]) ((parseByte_idle _ b hidle).trans (idleByte_of_oneByte hone)) rfl hfull
  case last =>
    exact exec_mpush_of_emit_full (by simp [hmsg]) ((parseByte_msg _ b hmsg).trans (msgByte_of_last hb hlast)) rfl hfull
  case ends =>
    subst hb
    exact exec_mpush_of_emit_full (by simp [hsysex]) ((parseByte_sysex _ _ hsysex).trans sysexByte_of_end) rfl hfull

/-- Settles O48: MPOP by the two forms of the queue; MRESET is its definition. -/
theorem mpopAndMreset : Obligations.MpopAndMreset := by
  refine fun s => ⟨fun e rest hq => ?pops, fun hq => ?empty, rfl⟩
  case pops =>
    rw [exec, execMpop, hq]
    rfl
  case empty =>
    rw [exec, execMpop, hq]
    rfl

/-! ### R370, R364: runs of bytes -/

/-- A byte that the parser takes is pushed with answer OK, and the bytes after it from the parser it leaves. -/
theorem pushes_cons_of_taken {b : Byte} {s : State} {m : Midi} (hs : s.midi.pstate ≠ .error)
    (h : parseByte s.cfg.evqDepth b s.midi = .taken m) :
    ∃ t, (∀ bs, pushes (b :: bs) s = ((pushes bs t).1, some .ok :: (pushes bs t).2)) ∧ t.cfg = s.cfg ∧ t.midi = m := by
  refine ⟨answered { s with midi := m } (word m.q.length), fun bs => ?_, rfl, rfl⟩
  rw [pushes, after, exec_mpush_of_taken hs h]
  rfl

/-- R370: the three bytes of a message queue its event and leave the parser in IDLE, from where the bytes after it go on. -/
theorem pushes_of_threeByteMessage {s : State} {st d1 d2 : Byte} (hidle : s.midi.pstate = .idle)
    (hroom : s.midi.q.length ≠ s.cfg.evqDepth) (hst : StartsMessage st) (hthree : messageLength st = 3#2)
    (h1 : d1.toNat < 0x80) (h2 : d2.toNat < 0x80) :
    ∃ t, (∀ bs, pushes (st :: d1 :: d2 :: bs) s = ((pushes bs t).1, some .ok :: some .ok :: some .ok :: (pushes bs t).2)) ∧
      t.midi.pstate = .idle ∧ t.midi.q = s.midi.q ++ [decodeMsg st d1 d2] := by
  have hstart := (parseByte_idle s.cfg.evqDepth st hidle).trans (idleByte_of_start hst)
  rw [hthree] at hstart
  obtain ⟨t, ht, htcfg, htmidi⟩ := pushes_cons_of_taken (by simp [hidle]) hstart
  have hsecond : parseByte t.cfg.evqDepth d1 t.midi = _ :=
    (parseByte_msg _ d1 (by rw [htmidi])).trans (msgByte_of_second h1 (by rw [htmidi]) (by rw [htmidi]))
  obtain ⟨u, hu, hucfg, humidi⟩ := pushes_cons_of_taken (by simp [htmidi]) hsecond
  have hthird : parseByte u.cfg.evqDepth d2 u.midi = _ :=
    (parseByte_msg _ d2 (by rw [humidi, htmidi])).trans (msgByte_of_last h2 (by rw [humidi, htmidi]; rfl))
  rw [completeMsg_of_two (by rw [humidi]), emitEvent_of_room (by rw [humidi, htmidi, hucfg, htcfg]; exact hroom)] at hthird
  obtain ⟨v, hv, -, hvmidi⟩ := pushes_cons_of_taken (by simp [humidi, htmidi]) hthird
  refine ⟨v, fun bs => by rw [ht, hu, hv], by rw [hvmidi]; rfl, ?_⟩
  rw [hvmidi, humidi, htmidi]
  rfl

/-- Settles O46: the message by `pushes_of_threeByteMessage`; from IDLE the data byte after it breaks the stream. -/
theorem noteOnBytesGiveOneEvent : Obligations.NoteOnBytesGiveOneEvent := by
  intro s st n v x hidle hroom hst hn hv hx
  have hstatus : StartsMessage st := ⟨by omega, .inl (by omega)⟩
  have hthree : messageLength st = 3#2 := messageLength_of_three (by bv_omega)
  obtain ⟨t, ht, htidle, htq⟩ := pushes_of_threeByteMessage hidle hroom.ne hstatus hthree hn hv
  obtain ⟨-, -, -, hbreak⟩ := idleByteRule t x htidle
  have hfourth : pushes [x] t = (rejected { t with midi := ⟨.error, 0#8, 0#8, 0#8, 0#2, 0#2, 0#16, t.midi.q⟩ }
      .protocolDecodeError, [some .protocolDecodeError]) := by
    rw [pushes, after, hbreak (.inl hx)]
    rfl
  rw [ht, ht, hfourth]
  exact ⟨rfl, htq, htidle, rfl, htq, rfl⟩

/-- R364: from SYSEX with room, data bytes and 0xF7 queue one event, which carries the bytes counted before and now. -/
theorem pushes_of_sysexData (bs : List Byte) (hbs : ∀ b ∈ bs, b.toNat < 0x80) (s : State) (hsysex : s.midi.pstate = .sysex)
    (hroom : s.midi.q.length ≠ s.cfg.evqDepth) :
    (pushes (bs ++ [0xF7#8]) s).2 = List.replicate (bs.length + 1) (some .ok) ∧
    (pushes (bs ++ [0xF7#8]) s).1.midi.pstate = .idle ∧
    ∃ n : BitVec 16, n.toNat = min (s.midi.sxlen.toNat + bs.length) 0xFFFF ∧
      (pushes (bs ++ [0xF7#8]) s).1.midi.q = s.midi.q ++ [decodeSysex n] := by
  induction bs generalizing s with
  | nil =>
    have hend := (parseByte_sysex s.cfg.evqDepth _ hsysex).trans sysexByte_of_end
    rw [emitEvent_of_room (m := { s.midi with sxlen := 0#16, pstate := .idle }) hroom] at hend
    obtain ⟨t, ht, -, htmidi⟩ := pushes_cons_of_taken (by simp [hsysex]) hend
    have hlt := s.midi.sxlen.isLt
    rw [List.nil_append, ht]
    exact ⟨rfl, by rw [pushes, htmidi], s.midi.sxlen, (Nat.min_eq_left (by omega)).symm, by rw [pushes, htmidi]⟩
  | cons b bs ih =>
    obtain ⟨hb, hbs⟩ := List.forall_mem_cons.1 hbs
    obtain ⟨t, ht, htcfg, htmidi⟩ := pushes_cons_of_taken (by simp [hsysex])
      ((parseByte_sysex s.cfg.evqDepth b hsysex).trans (sysexByte_of_data hb))
    have htsysex : t.midi.pstate = .sysex := by rw [htmidi]; exact hsysex
    obtain ⟨hok, hidle, n, hn, hq⟩ := ih hbs t htsysex (by rw [htmidi, htcfg]; exact hroom)
    rw [List.cons_append, ht]
    refine ⟨by rw [hok]; rfl, hidle, n, ?_, by rw [hq, htmidi]⟩
    rw [hn, htmidi, sysexCount_toNat, List.length_cons]
    omega

theorem decodeSysex_eq_ofNat {n : BitVec 16} {k : Nat} (h : n.toNat = k) :
    decodeSysex n = BitVec.ofNat 32 (0x80F00000 + k) := by
  apply BitVec.eq_of_toNat_eq
  rw [decodeSysex_toNat, BitVec.toNat_ofNat, ← h]
  have := n.isLt
  omega

/-- Settles O47: 0xF0 starts the count from 0, and the rest is `pushes_of_sysexData`. -/
theorem sysexOfAnyLength : Obligations.SysexOfAnyLength := by
  intro s bs hidle hroom hbs
  obtain ⟨t, ht, htcfg, htmidi⟩ := pushes_cons_of_taken (by simp [hidle])
    ((parseByte_idle s.cfg.evqDepth _ hidle).trans idleByte_of_sysex)
  obtain ⟨hok, htidle, n, hn, hq⟩ := pushes_of_sysexData bs hbs t (by rw [htmidi]) (by rw [htmidi, htcfg]; exact hroom.ne)
  rw [htmidi, show (0#16).toNat = 0 from rfl, Nat.zero_add] at hn
  rw [List.append_assoc, List.singleton_append, ht]
  exact ⟨by rw [hok]; rfl, htidle, by rw [hq, htmidi, decodeSysex_eq_ofNat hn]⟩

end Sys2Proof.Claims

namespace Sys2Proof.Machine

/-! ### R371 (c), R126: the bounds of the parser and its queue -/

/-- `midiInv` of a parser with a queue of `depth` events, part by part. -/
structure Midi.Bounded (depth : Nat) (m : Midi) : Prop where
  count : m.q.length ≤ depth
  events : ∀ e ∈ m.q, eventOk e = true
  second : m.buf1.toNat < 128
  inMessage : m.pstate = .msg → 1 ≤ m.blen.toNat ∧ m.blen.toNat < m.need.toNat ∧ 2 ≤ m.need.toNat
  outside : m.pstate ≠ .msg → m.blen = 0#2 ∧ m.need = 0#2

theorem State.midiInv_iff (s : State) : s.midiInv = true ↔ s.midi.Bounded s.cfg.evqDepth := by
  simp only [State.midiInv, Bool.and_eq_true, List.all_eq_true, decide_eq_true_eq]
  constructor
  · rintro ⟨⟨⟨hcount, hevents⟩, hsecond⟩, hstate⟩
    refine ⟨hcount, hevents, hsecond, fun h => ?_, fun h => ?_⟩
    · rw [if_pos h] at hstate
      exact of_decide_eq_true hstate
    · rw [if_neg h] at hstate
      exact of_decide_eq_true hstate
  · rintro ⟨hcount, hevents, hsecond, hin, hout⟩
    refine ⟨⟨⟨hcount, hevents⟩, hsecond⟩, ?_⟩
    split
    case isTrue h => exact decide_eq_true (hin h)
    case isFalse h => exact decide_eq_true (hout h)

section
variable {d : Nat} {b : Byte} {m m' : Midi}

theorem Midi.bounded_reset (d : Nat) : Midi.reset.Bounded d :=
  ⟨Nat.zero_le d, nofun, by decide, nofun, fun _ => ⟨rfl, rfl⟩⟩

/-- A cleared parser that is not in a message is bounded with any bounded queue. -/
theorem Midi.Bounded.cleared (h : m.Bounded d) {p : PState} (hp : p ≠ .msg) :
    Midi.Bounded d { Midi.reset with pstate := p, q := m.q } :=
  ⟨h.count, h.events, (Midi.bounded_reset d).second, fun hmsg => absurd hmsg hp, fun _ => ⟨rfl, rfl⟩⟩

theorem Midi.Bounded.clearBuf (h : m.Bounded d) : (clearBuf m).Bounded d :=
  { h.cleared (p := .idle) nofun with }

theorem Midi.Bounded.tail (h : m.Bounded d) {e : BitVec 32} {rest : List (BitVec 32)} (hq : m.q = e :: rest) :
    Midi.Bounded d { m with q := rest } where
  count := by have := h.count; rw [hq, List.length_cons] at this; exact Nat.le_of_succ_le this
  events e' he' := h.events e' (hq ▸ List.mem_cons_of_mem _ he')
  second := h.second
  inMessage := h.inMessage
  outside := h.outside

/-- R365: a well-formed event is emitted only where there is room. -/
theorem Midi.Bounded.emitEvent (h : m.Bounded d) {e : BitVec 32} (he : eventOk e = true)
    (ht : emitEvent d e m = .taken m') : m'.Bounded d := by
  obtain ⟨hroom, rfl⟩ := emitEvent_taken ht
  refine ⟨?_, fun e' he' => ?_, h.second, h.inMessage, h.outside⟩
  · have := h.count
    rw [List.length_append, List.length_singleton]
    omega
  · obtain hold | hnew := List.mem_append.1 he'
    · exact h.events e' hold
    · exact List.mem_singleton.1 hnew ▸ he

theorem Midi.Bounded.startMsg (h : m.Bounded d) {n : BitVec 2} (hn : 1 < n.toNat) (ht : startMsg b n m = .taken m') :
    m'.Bounded d := by
  obtain rfl := ByteResult.taken.inj ht
  exact ⟨h.count, h.events, h.second, fun _ => ⟨le_rfl, hn, hn⟩, fun hmsg => absurd rfl hmsg⟩

theorem Midi.Bounded.idleByte (h : m.Bounded d) (hidle : m.pstate = .idle) (ht : idleByte d b m = .taken m') :
    m'.Bounded d := by
  obtain hstart | rfl | hone | hbreak := idleByte_kinds b
  · exact h.startMsg (messageLength_range b) (idleByte_of_start hstart ▸ ht)
  · obtain rfl := ByteResult.taken.inj ht
    exact ⟨h.count, h.events, h.second, nofun, fun _ => h.outside (by simp [hidle])⟩
  · exact h.emitEvent (eventOk_decodeMsg b (by decide) (by decide)) (idleByte_of_oneByte hone ▸ ht)
  · rw [idleByte_of_breaks hbreak] at ht
    cases ht

/-- R363: between bytes of a message that lacks more than its last, the one data byte stored is the second of three. -/
theorem Midi.Bounded.second_of_three (h : m.Bounded d) (hmsg : m.pstate = .msg)
    (hlast : m.blen.toNat + 1 ≠ m.need.toNat) : m.blen = 1#2 ∧ m.need = 3#2 := by
  obtain ⟨hpos, hlt, -⟩ := h.inMessage hmsg
  bv_omega

theorem Midi.Bounded.msgByte (h : m.Bounded d) (hmsg : m.pstate = .msg) (ht : msgByte d b m = .taken m') :
    m'.Bounded d := by
  by_cases hb : b.toNat < 0x80
  case neg =>
    rw [msgByte_of_status (by omega)] at ht
    cases ht
  by_cases hlast : m.blen.toNat + 1 = m.need.toNat
  case pos => exact h.clearBuf.emitEvent (eventOk_completeMsg h.second hb) (msgByte_of_last hb hlast ▸ ht)
  case neg =>
    obtain ⟨hblen, hneed⟩ := h.second_of_three hmsg hlast
    rw [msgByte_of_second hb hblen hneed] at ht
    obtain rfl := ByteResult.taken.inj ht
    exact ⟨h.count, h.events, hb, fun _ => by simp [hneed], fun hout => absurd hmsg hout⟩

theorem Midi.Bounded.sysexByte (h : m.Bounded d) (hsysex : m.pstate = .sysex) (ht : sysexByte d b m = .taken m') :
    m'.Bounded d := by
  have hout := h.outside (by simp [hsysex])
  by_cases hend : b = 0xF7#8
  case pos =>
    subst hend
    have hidle : Midi.Bounded d { m with sxlen := 0#16, pstate := .idle } :=
      ⟨h.count, h.events, h.second, nofun, fun _ => hout⟩
    exact hidle.emitEvent (eventOk_decodeSysex _) (sysexByte_of_end ▸ ht)
  by_cases hb : b.toNat < 0x80
  case pos =>
    rw [sysexByte_of_data hb] at ht
    obtain rfl := ByteResult.taken.inj ht
    exact { h with }
  case neg =>
    rw [sysexByte_of_status (by omega) hend] at ht
    cases ht

theorem Midi.Bounded.parseByte (h : m.Bounded d) (ht : parseByte d b m = .taken m') : m'.Bounded d := by
  cases hp : m.pstate with
  | idle => exact h.idleByte hp (parseByte_idle d b hp ▸ ht)
  | msg => exact h.msgByte hp (parseByte_msg d b hp ▸ ht)
  | sysex => exact h.sysexByte hp (parseByte_sysex d b hp ▸ ht)
  | error =>
    rw [Machine.parseByte, hp] at ht
    cases ht

/-- R126, R371 (c): the bounds in the words of the rules. -/
theorem Midi.Bounded.ranges (h : m.Bounded d) :
    m.blen.toNat ≤ 2 ∧ (m.need = 0#2 ∨ m.need = 2#2 ∨ m.need = 3#2) := by
  by_cases hmsg : m.pstate = .msg
  · obtain ⟨hpos, hlt, -⟩ := h.inMessage hmsg
    bv_omega
  · obtain ⟨hblen, hneed⟩ := h.outside hmsg
    exact ⟨by simp [hblen], .inl hneed⟩

/-- R126: a well-formed event has KIND 1 to 10, so it is not 0. -/
theorem kind_range_of_eventOk {e : BitVec 32} (h : eventOk e = true) :
    1 ≤ (evKind e).toNat ∧ (evKind e).toNat ≤ 10 ∧ e ≠ 0#32 := by
  rw [eventOk, Bool.and_eq_true, decide_eq_true_eq] at h
  obtain ⟨⟨hlo, hhi⟩, -⟩ := h
  refine ⟨hlo, hhi, ?_⟩
  rintro rfl
  exact absurd hlo (by decide)

end

section
variable {s t : State}

theorem sampleTick_midiInv (hs : s.midiInv = true) (h : sampleTick s = .ok t) : t.midiInv = true := by
  obtain ⟨v, r, o, -, -, rfl⟩ := sampleTick_ok h
  exact midiInv_drained hs s.ctrl.midiDrive rfl rfl

theorem blockTicks_midiInv {n i : Nat} (hs : s.midiInv = true) (h : blockTicks n i s = .ok t) : t.midiInv = true :=
  blockTicks_induct (Inv := fun u => u.midiInv = true) (fun _ _ v _ _ hu hv => show v.midiInv = true from
    sampleTick_midiInv hu hv) hs h

theorem PortEffect.midiInv {dw : Word} (h : PortEffect dw s t) (hs : s.midiInv = true) : t.midiInv = true := by
  cases h <;> exact hs

theorem RegEffect.midiInv {dw : Word} (h : RegEffect dw s t) (hs : s.midiInv = true) : t.midiInv = true := by
  cases h <;> exact hs

/-- RESET, the drain of a tick, MPUSH, MPOP and MRESET write the parser or the queue. -/
theorem effect_midiInv {i : Instr} {r : Response} (h : Effect i s t r) (hs : s.midiInv = true) : t.midiInv = true := by
  have hb := (State.midiInv_iff s).1 hs
  cases h
  case reset => exact (State.midiInv_iff _).2 (Midi.bounded_reset _)
  case tick ht => exact sampleTick_midiInv hs ht
  case tickb ht => exact blockTicks_midiInv hs ht
  case port hp => exact hp.midiInv hs
  case reg hr => exact hr.midiInv hs
  case byte hp => exact (State.midiInv_iff _).2 (hb.parseByte hp)
  case broken | mreset => exact (State.midiInv_iff _).2 (hb.cleared nofun)
  case pop hq => exact (State.midiInv_iff _).2 (hb.tail hq)
  all_goals exact hs

theorem step_midiInv (hs : s.midiInv = true) (h : step s = .next t) : t.midiInv = true :=
  step_keeps (Inv := fun u => u.midiInv = true) (fun _ _ hu => hu) (fun _ _ hu => hu)
    (fun _ _ _ _ hu he => effect_midiInv he hu) hs h

theorem powerOn_midiInv (c : Cfg) : (State.powerOn c).midiInv = true :=
  (State.midiInv_iff _).2 (Midi.bounded_reset _)

theorem reachable_midiInv (h : Reachable s) : s.midiInv = true := by
  induction h with
  | construct c s h =>
    rw [State.construct] at h
    split at h
    case isTrue => exact Option.some.inj h ▸ powerOn_midiInv c
    case isFalse => cases h
  | issue s cmds _ ih => exact ih
  | step s t _ hs ih => exact step_midiInv ih hs

end

end Sys2Proof.Machine

namespace Sys2Proof.Claims

open Sys2Proof Sys2Proof.Machine

/-- Settles O17: every effect keeps `midiInv` (`effect_midiInv`), construction gives it, and its parts are the bounds
(`Midi.Bounded.ranges`, `kind_range_of_eventOk`). -/
theorem parserStateIsBounded : Obligations.ParserStateIsBounded := by
  refine ⟨fun s t hs h => step_midiInv hs h, fun s h => ?_⟩
  have hb := (State.midiInv_iff s).1 (reachable_midiInv h)
  obtain ⟨hblen, hneed⟩ := hb.ranges
  exact ⟨hblen, hneed, hb.count, fun e he => kind_range_of_eventOk (hb.events e he)⟩

end Sys2Proof.Claims

/-! PROOFS. Statuses, errors and the model's fault (spec/60_exceptions.md): the statuses of each command (R402, R403), the
order of its checks (R405), what an error leaves (R406, R407), and where the fault comes from (R417). -/

namespace Sys2Proof.Machine

/-! ### R417: where a command can fault -/

theorem mayFault_of_exec_fault {i : Instr} {s : State} {e : Fault} (h : exec i s = .fault e) : mayFault i = true := by
  cases i with
  | tick | tickb | tread => rfl
  | nop | reset | mreset => cases h
  | rdbuf =>
    rw [exec, execRdbuf] at h
    split at h <;> cases h
  | wport unit sel dw =>
    rw [exec, execWport] at h
    split at h
    · cases h
    · split at h
      · split at h
        · exact absurd h (conclude_ne_fault _ _ _)
        · cases h
      · cases h
  | rport =>
    rw [exec, execRport] at h
    split at h <;> cases h
  | wparam =>
    rw [exec, execWparam] at h
    split at h
    · cases h
    · split at h
      · split at h
        · cases h
        · exact absurd h (conclude_ne_fault _ _ _)
      · cases h
  | rparam =>
    rw [exec, execRparam] at h
    split at h <;> cases h
  | twrite =>
    rw [exec, execTwrite] at h
    split at h
    · cases h
    · split at h
      · cases h
      · split at h <;> cases h
  | sealTables =>
    rw [exec, execSeal] at h
    split at h <;> cases h
  | mpush =>
    rw [exec, execMpush] at h
    split at h
    · cases h
    · split at h <;> cases h
  | mpop =>
    rw [exec, execMpop] at h
    split at h <;> cases h

theorem AnswersIff.of_eq_error {α : Type} {ok : Bool} {x : Except Fault α} {e : Fault} (hx : AnswersIff ok x)
    (h : x = .error e) : ok = false ∧ e = .unwrittenTableRead := by
  cases ok
  · exact ⟨rfl, Except.error.inj (h.symm.trans (hx.faults rfl))⟩
  · obtain ⟨v, hv⟩ := hx.answers rfl
    rw [hv] at h
    cases h

/-- A block that faults does so at one of its samples, after those before it completed. -/
theorem blockTicks_error {n : Nat} {s : State} {e : Fault} (h : blockTicks n 0 s = .error e) :
    ∃ k u, k < n ∧ blockTicks k 0 s = .ok u ∧ sampleTick u = .error e := by
  induction n with
  | zero => cases h
  | succ n ih =>
    rw [blockTicks_succ] at h
    cases hn : blockTicks n 0 s with
    | error e' =>
      rw [hn] at h
      obtain ⟨k, u, hk, hu, he⟩ := ih (hn.trans h)
      exact ⟨k, u, by omega, hu, he⟩
    | ok u =>
      simp only [hn] at h
      cases hu : sampleTick u with
      | error e' =>
        rw [hu] at h
        exact ⟨n, u, by omega, hn, hu.trans (congrArg _ (Except.error.inj h))⟩
      | ok v =>
        rw [hu] at h
        cases h

end Sys2Proof.Machine

namespace Sys2Proof.Claims

open Sys2Proof Sys2Proof.Machine

/-! ### R402, R403, R406, R407: the answers -/

/-- An effect that answers an error changes nothing, but for a parser that breaks. -/
inductive ErrorEffect (s : State) : State → Response → Prop where
  | unchanged (st : Status) (hd : st = .protocolDecodeError → s.midi.pstate = .error) : ErrorEffect s s ⟨st, 0#64⟩
  | broken (hs : s.midi.pstate ≠ .error) :
      ErrorEffect s (s.setMidi { Midi.reset with pstate := .error, q := s.midi.q }) ⟨.protocolDecodeError, 0#64⟩

theorem effect_of_error {i : Instr} {s u : State} {r : Response} (h : Effect i s u r) (hr : r.st ≠ .ok) :
    ErrorEffect s u r := by
  cases h
  case error st _ _ hd => exact .unchanged st hd
  case broken hs _ => exact .broken hs
  all_goals exact absurd rfl hr

theorem ErrorEffect.rw_eq_zero {s u : State} {r : Response} (h : ErrorEffect s u r) : r.rw = 0#64 := by
  cases h <;> rfl

/-- R402: no row of R403 has BACKEND_ERROR. -/
theorem not_mayAnswer_backendError (i : Instr) : mayAnswer i .backendError = false := by
  cases i <;> rfl

/-- Settles O8: the status is one of the command's row (`mayAnswer_of_exec`), and an error answers RW = 0
(`effect_of_error`). -/
theorem commandsAnswerTheirStatuses : Obligations.CommandsAnswerTheirStatuses := by
  intro i s t h
  obtain ⟨u, r, he, rfl⟩ := exec_effect h
  have hmay : mayAnswer i r.st = true := mayAnswer_of_exec h rfl
  refine ⟨r, rfl, hmay, fun hst => ?_, fun hne => (effect_of_error he hne).rw_eq_zero⟩
  rw [hst, not_mayAnswer_backendError] at hmay
  cases hmay

/-- Settles O7: an illegal encoding changes nothing, and a decoded command's error is an `ErrorEffect`. -/
theorem errorsArePrecise : Obligations.ErrorsArePrecise := by
  intro s t c rest st hhost h hst hne
  rcases step_cases h with ⟨hnil, -⟩ | ⟨c', rest', i, hhost', -, hx⟩ | ⟨c', rest', e, hhost', -, rfl⟩
  · rw [hnil] at hhost
    cases hhost
  · obtain ⟨-, rfl⟩ := List.cons.inj (hhost.symm.trans hhost')
    obtain ⟨u, r, he, rfl⟩ := exec_effect hx
    obtain rfl : r.st = st := Option.some.inj hst
    cases effect_of_error he hne
    case unchanged hd => exact ⟨fun _ => rfl, fun _ _ => rfl, fun hpde hs => absurd (hd hpde) hs⟩
    case broken hs => exact ⟨fun hpde => absurd rfl hpde, fun _ herr => absurd herr hs, fun _ _ => rfl⟩
  · obtain ⟨-, rfl⟩ := List.cons.inj (hhost.symm.trans hhost')
    obtain rfl : Status.illegalCommand = st := Option.some.inj hst
    exact ⟨fun _ => rfl, nofun, nofun⟩

/-! ### R405: the order of the checks -/

theorem exec_twrite_of_run {s : State} (a : BitVec 24) (dw : Word) (h : s.lifecycle = .run) :
    exec (.twrite a dw) s = .next (rejected s .stateError) := by
  rw [exec, execTwrite, h]
  rfl

theorem exec_twrite_of_outside {s : State} {a : BitVec 24} (dw : Word) (h : s.lifecycle = .load)
    (ha : s.cfg.tableSize ≤ a.toNat) : exec (.twrite a dw) s = .next (rejected s .addressRange) := by
  rw [exec, execTwrite, h]
  exact if_pos ha

theorem exec_twrite_of_not_finite {s : State} {a : BitVec 24} {dw : Word} (h : s.lifecycle = .load)
    (ha : a.toNat < s.cfg.tableSize) (hdw : Fp.finite s.cfg.fmt dw = false) :
    exec (.twrite a dw) s = .next (rejected s .invalidParameter) := by
  rw [exec, execTwrite, h]
  simp only [if_neg (Nat.not_le.2 ha), hdw]
  rfl

theorem exec_wport_of_not_finite {u : UnitId} {sel : Byte} {dw : Word} {s : State}
    (h : (portOf u sel).any Port.writable = true) (hdw : Fp.finite s.cfg.fmt dw = false) :
    exec (.wport u sel dw) s = .next (rejected s .invalidParameter) := by
  obtain ⟨p, hp, hw⟩ := (Option.any_eq_true _ _).1 h
  simp only [exec, execWport, hp, hw, hdw]
  rfl

/-- The rows of R45 marked writable are the writable registers. -/
theorem mem_registerRows_writable_iff (u : UnitId) (sel : Byte) :
    (u.code.toNat, sel.toNat, true) ∈ registerRows ↔ (regOf u sel).any Reg.writable = true := by
  rw [← registerRows_any_eq_writable, List.any_eq_true]
  constructor
  · exact fun h => ⟨_, h, by simp⟩
  · rintro ⟨⟨unit, id, writable⟩, hmem, hrow⟩
    simp only [Bool.and_eq_true, beq_iff_eq] at hrow
    obtain ⟨⟨rfl, rfl⟩, rfl⟩ := hrow
    exact hmem

/-- Settles O9: each clause is the first check that fails, in the order in which the command makes them. -/
theorem firstErrorIsReported : Obligations.FirstErrorIsReported := by
  refine ⟨fun _ a dw => exec_twrite_of_run a dw, fun _ _ dw => exec_twrite_of_outside dw,
    fun _ _ _ => exec_twrite_of_not_finite, fun s u sel dw h => ?_, fun s u sel dw h => ?_, fun s u sel dw h => ?_⟩
  · exact exec_wport_of_not_writable dw s (mt (mem_portWrites_iff u sel).2 h)
  · exact exec_wport_of_not_finite ((mem_portWrites_iff u sel).1 h)
  · rw [mem_registerRows_writable_iff, Bool.not_eq_true] at h
    exact exec_of_refusesRegister s (by rw [refusesRegister, h]; rfl)

/-! ### R417: the fault -/

/-- Settles O10: by the three commands that can fault; a sample tick does so only at an unwritten entry
(`sampleTick_answersIff`), and a block only in one of its sample ticks (`blockTicks_error`). -/
theorem faultsNeedAnUnwrittenEntry : Obligations.FaultsNeedAnUnwrittenEntry := by
  intro i s e h
  have hmay := mayFault_of_exec_fault h
  cases i with
  | tread a =>
    rw [exec, execTread] at h
    split at h
    · cases h
    · rename_i ha
      split at h
      · cases h
      · rename_i hread
        exact ⟨(Host.Outcome.fault.inj h).symm,
          .inl ⟨a, rfl, Nat.not_le.1 ha, (State.written_false_iff _ _).2 hread⟩⟩
  | tick =>
    rw [exec, execTick] at h
    split at h
    · cases h
    · rename_i hrun
      split at h
      · cases h
      · rename_i e' htick
        obtain rfl := Host.Outcome.fault.inj h
        obtain ⟨hw, rfl⟩ := (sampleTick_answersIff s).of_eq_error htick
        exact ⟨rfl, .inr (.inl ⟨rfl, hrun, hw⟩)⟩
  | tickb =>
    rw [exec, execTickb] at h
    split at h
    · cases h
    · rename_i hrun
      split at h
      · cases h
      · rename_i e' hblock
        obtain rfl := Host.Outcome.fault.inj h
        obtain ⟨n, u, hn, hu, htick⟩ := blockTicks_error hblock
        obtain ⟨hw, rfl⟩ := (sampleTick_answersIff u).of_eq_error htick
        exact ⟨rfl, .inr (.inr ⟨rfl, hrun, n, u, hn, hu, hw⟩)⟩
  | _ => cases hmay

end Sys2Proof.Claims

/-! PROOFS. Reset and the loaded block (spec/70_reset_and_hazards.md): the state after RESET (R441, R442) and after
construction (R440), and a block whose tables are written, which answers every command (R444). -/

namespace Sys2Proof.Machine

/-! ### Reset -/

theorem Ramp.carries_reset {c : Cfg} (hc : c.valid = true) : (Ramp.reset c.fmt).Carries c := by
  have hzero := Fp.finite_zero c.fmt
  obtain ⟨-, -, hnote, -⟩ := maxFreq_bounds hc
  have h0 : freqOk c Fp.zero = true := by
    rw [freqOk_iff hc, Fp.val_zero]
    exact ⟨hzero, le_rfl, le_trans (by positivity) hnote⟩
  exact ⟨h0, h0, hzero, hzero, Fp.not_isNaN_of_finite _ hzero, fun _ => ⟨h0, h0⟩, nofun⟩

theorem isPhase_zero (f : Fmt) : IsPhase f Fp.zero where
  finite := Fp.finite_zero f
  nonneg := (Fp.val_zero f).ge
  lt_one := by rw [Fp.val_zero]; exact_mod_cast Fp.scale_pos f

theorem State.Audio.softReset {s : State} (hc : s.cfg.valid = true) (hb : Cfg.baseOk s.cfg = true) :
    (softReset s).Audio where
  valid := hc
  baseOk := hb
  midi := (State.midiInv_iff _).2 (Midi.bounded_reset _)
  legal := State.Legal.softReset hc
  ramp := Ramp.carries_reset hc
  phase := isPhase_zero _

theorem State.realsFit_powerOn (c : Cfg) : (State.powerOn c).RealsFit where
  voice := Voice.fits_reset _
  ramp := Ramp.fits_reset _
  osc := Osc.fits_reset _
  env := Env.fits_reset _
  gain := Gain.fits_reset _
  filter := Filter.fits_reset _
  table := rfl
  outbuf := rfl

/-- The default configuration meets R5, and its BASE_FREQ keeps LOG2 within its laws (notes/assumptions/11.md). -/
theorem Cfg.valid_default : Cfg.default.valid = true ∧ Cfg.baseOk Cfg.default = true := by decide +kernel

/-! ### The writes of the host -/

section
variable {s t : State} {dw : Word}

/-- R306, R332: what the two frequency writes accept is a frequency of the ramp. -/
theorem freqOk_of_not_lt {c : Cfg} (hc : c.valid = true) (hf : Fp.finite c.fmt dw = true)
    (h0 : Fp.lt c.fmt dw Fp.zero = false) (h1 : Fp.lt c.fmt c.halfFs dw = false) : freqOk c dw = true := by
  obtain ⟨-, hhalf, -⟩ := maxFreq_bounds hc
  rw [Fp.lt_of_finite _ hf (Fp.finite_zero _), decide_eq_false_iff_not, Fp.val_zero] at h0
  rw [Fp.lt_of_finite _ (halfFs_inRange hc).finite hf, decide_eq_false_iff_not] at h1
  exact (freqOk_iff hc dw).2 ⟨hf, by omega, by omega⟩

/-- R272: what the write of the phase accepts is a phase. -/
theorem isPhase_of_not_lt {f : Fmt} (hf : Fp.finite f dw = true) (h0 : Fp.lt f dw Fp.zero = false)
    (h1 : Fp.le f (Fp.one f) dw = false) : IsPhase f dw := by
  rw [Fp.lt_of_finite f hf (Fp.finite_zero f), decide_eq_false_iff_not, Fp.val_zero] at h0
  rw [Fp.le_of_finite f (Fp.finite_one f) hf, decide_eq_false_iff_not, Fp.val_one] at h1
  exact ⟨hf, by omega, by omega⟩

/-- The port that plans a glide is VOICE.in (R332). -/
theorem PortEffect.carries (h : PortEffect dw s t) (hs : s.Audio) : t.ramp.Carries s.cfg := by
  cases h
  case voiceIn hf h0 h1 he =>
    exact Ramp.carries_plan hs.valid (hs.ramp.value hs.valid).1 (freqOk_of_not_lt hs.valid hf h0 h1) hs.legal.duration he
  all_goals exact hs.ramp

/-- The registers that write the ramp are VALUE, DURATION and CURVE (R306 to R308). -/
theorem RegEffect.carries (h : RegEffect dw s t) (hs : s.Audio) : t.ramp.Carries s.cfg := by
  cases h
  case rampValue hf h0 h1 he => exact Ramp.carries_jump hs.valid (freqOk_of_not_lt hs.valid hf h0 h1) he
  case rampDuration => exact { hs.ramp with }
  case rampCurve k _ he =>
    exact Ramp.carries_plan (r := { s.ramp with curve := k }) hs.valid (hs.ramp.value hs.valid).1 hs.ramp.toVal
      hs.legal.duration he
  all_goals exact hs.ramp

theorem RegEffect.isPhase (h : RegEffect dw s t) (hs : s.Audio) : IsPhase s.cfg.fmt t.osc.phase := by
  cases h
  case oscPhase hf h0 h1 => exact isPhase_of_not_lt hf h0 h1
  all_goals exact hs.phase

theorem State.Audio.of_cfg (hs : s.Audio) (hcfg : t.cfg = s.cfg) (hmidi : t.midiInv = true) (hlegal : t.Legal)
    (hramp : t.ramp.Carries s.cfg) (hphase : IsPhase s.cfg.fmt t.osc.phase) : t.Audio :=
  ⟨hcfg ▸ hs.valid, hcfg ▸ hs.baseOk, hmidi, hlegal, hcfg ▸ hramp, hcfg ▸ hphase⟩

theorem PortEffect.audio (h : PortEffect dw s t) (hs : s.Audio) : t.Audio := by
  have hosc : t.osc = s.osc := by cases h <;> rfl
  exact hs.of_cfg (Claims.portEffect_keepsTables h).cfg (h.midiInv hs.midi) (h.legal hs.legal) (h.carries hs)
    (hosc ▸ hs.phase)

theorem RegEffect.audio (h : RegEffect dw s t) (hs : s.Audio) : t.Audio :=
  hs.of_cfg (Claims.regEffect_keepsTables h).cfg (h.midiInv hs.midi) (h.legal hs.legal) (h.carries hs) (h.isPhase hs)

/-! ### R444: a loaded block -/

theorem State.Audio.setHost (hs : s.Audio) (l : List Cmd) : (s.setHost l).Audio :=
  { hs with legal := { hs.legal with } }

theorem State.Audio.setResp (hs : s.Audio) (r : Option Response) : (s.setResp r).Audio :=
  { hs with legal := { hs.legal with } }

theorem State.Audio.setOutbuf (hs : s.Audio) (m : Memory) : (s.setOutbuf m).Audio :=
  { hs with legal := { hs.legal with } }

theorem State.Audio.blockTicks (hs : s.Audio) {n i : Nat} (h : blockTicks n i s = .ok t) : t.Audio :=
  blockTicks_induct (Inv := State.Audio) (fun _ _ _ _ _ hu hv => (hu.sampleTick hv).setOutbuf _) hs h

/-- A command that writes the host's registers, RESET and the ticks reach what `Audio` speaks of; the MIDI commands its
parser; the others nothing of it. -/
theorem effect_audio {i : Instr} {r : Response} (h : Effect i s t r) (hs : s.Audio) : t.Audio := by
  have hmidi := effect_midiInv h hs.midi
  cases h
  case reset => exact State.Audio.softReset hs.valid hs.baseOk
  case tick ht => exact hs.sampleTick ht
  case tickb ht => exact hs.blockTicks ht
  case port hp => exact hp.audio hs
  case reg hr => exact hr.audio hs
  case twrite | sealed | byte | broken | pop | mreset => exact { hs with midi := hmidi, legal := { hs.legal with } }
  all_goals exact hs

end

/-- A loaded block: `Audio`, and every TABLE entry written. -/
structure State.Loaded (s : State) : Prop where
  audio : s.Audio
  full : s.tableFull

section
variable {s t : State}

/-- TABLE stays full where no written bit is cleared (R49). -/
theorem State.tableFull_of_governs {isSeal : Prop} (h : Claims.LifecycleGoverns isSeal s t) (hs : s.tableFull) :
    t.tableFull :=
  fun a ha => h.written a (hs a (h.cfg ▸ ha))

theorem State.Loaded.setHost (hs : s.Loaded) (l : List Cmd) : (s.setHost l).Loaded :=
  ⟨hs.audio.setHost l, hs.full⟩

theorem effect_loaded {i : Instr} {r : Response} (h : Effect i s t r) (hs : s.Loaded) : t.Loaded :=
  ⟨effect_audio h hs.audio, State.tableFull_of_governs (Claims.effect_governs h) hs.full⟩

theorem step_loaded (hs : s.Loaded) (h : step s = .next t) : t.Loaded :=
  step_keeps (Inv := State.Loaded) (fun _ r hu => ⟨hu.audio.setResp r, hu.full⟩) (fun _ l hu => hu.setHost l)
    (fun _ _ _ _ hu he => effect_loaded he hu) hs h

/-- No read of a loaded block is of an unwritten entry. -/
theorem exec_ne_fault_of_loaded (hs : s.Loaded) (i : Instr) (e : Fault) : exec i s ≠ .fault e := by
  intro h
  obtain ⟨-, ⟨a, -, ha, hw⟩ | ⟨-, -, hw⟩ | ⟨-, -, n, u, -, hu, hw⟩⟩ := Claims.faultsNeedAnUnwrittenEntry i s e h
  · rw [hs.full _ ha] at hw
    cases hw
  · rw [hs.audio.oscEntriesWritten hs.full] at hw
    cases hw
  · have hfull := State.tableFull_of_governs (Claims.blockTicks_keepsTables hu).governs (isSeal := False) hs.full
    rw [(hs.audio.blockTicks hu).oscEntriesWritten hfull] at hw
    cases hw

theorem exec_answers_of_loaded (hs : s.Loaded) (i : Instr) : ∃ t, exec i s = .next t := by
  cases h : exec i s with
  | next t => exact ⟨t, rfl⟩
  | fault e => exact absurd h (exec_ne_fault_of_loaded hs i e)
  | refused r => exact absurd h (exec_not_refused i s r)

theorem step_answers_of_loaded (hs : s.Loaded) : ∃ t, step s = .next t := by
  rw [step_eq]
  split
  · exact ⟨s, rfl⟩
  · rename_i c rest _
    split
    · exact exec_answers_of_loaded (hs.setHost rest) _
    · exact ⟨_, rfl⟩

end

end Sys2Proof.Machine

namespace Sys2Proof.Claims

open Sys2Proof Sys2Proof.Machine

/-- Settles O11: a loaded block answers every command (`step_answers_of_loaded`), and every effect keeps it loaded
(`step_loaded`). -/
theorem loadedBlockNeverFaults : Obligations.LoadedBlockNeverFaults := by
  intro s haudio hfull
  have hs : s.Loaded := ⟨(State.audioInv_iff s).1 haudio, hfull⟩
  obtain ⟨t, ht⟩ := step_answers_of_loaded hs
  have hloaded := step_loaded hs ht
  exact ⟨t, ht, (State.audioInv_iff t).2 hloaded.audio, hloaded.full⟩

/-- Settles O12: the soft reset is the power-on state with LIFECYCLE and TABLE kept, by its definition. -/
theorem resetCommandRestores : Obligations.ResetCommandRestores :=
  fun _ => rfl

/-- Settles O14: the reset values of each unit meet the invariants in every legal configuration, and so in the default
one. -/
theorem resetMeetsTheInvariants : Obligations.ResetMeetsTheInvariants := by
  obtain ⟨hvalid, hbase⟩ := Cfg.valid_default
  have haudio : State.reset.Audio := State.Audio.softReset (s := State.reset) hvalid hbase
  refine ⟨rfl, powerOn_midiInv _, decide_eq_true rfl, ?_, (State.paramInv_iff _).2 haudio.legal,
    (State.audioInv_iff _).2 haudio⟩
  exact (State.fitsInv_iff _).2 ⟨State.realsFit_powerOn _, nofun⟩

end Sys2Proof.Claims

/-! PROOFS. The byte transport (spec/20_memory.md R86, notes/assumptions/23.md) and command words written out from the
formats (spec/30_encoding.md R112 to R118). -/

namespace Sys2Proof.Claims

open Sys2Proof Sys2Proof.Machine

/-- R110: the data word that is sent, 0 where there is none, has FMT_BITS bits. -/
theorem fits_encode_dw {f : Fmt} {i : Instr} (h : i.wf f = true) : f.fits (encode i).dw = true := by
  cases i with
  | wport | wparam | twrite => exact h
  | _ => exact Fp.zero_fits f

/-- The bytes of a data word spell it. -/
theorem leNat_dataBytes {f : Fmt} {w : Word} (h : f.fits w = true) : leNat (leBytes (f.bits / 8) w.toNat) = w.toNat := by
  have hpow : 256 ^ (f.bits / 8) = 2 ^ f.bits := by cases f <;> rfl
  rw [leNat_leBytes, hpow]
  exact Nat.mod_eq_of_lt (of_decide_eq_true h)

/-- The framing: the first 4 bytes are CW, the next FMT_BITS / 8 are DW, and what follows is left. -/
theorem ofBytes_toBytes {f : Fmt} {c : Cmd} (rest : List Byte) (h : f.fits c.dw = true) :
    Cmd.ofBytes f (c.toBytes f ++ rest) = some (c, rest) := by
  have hcw : leNat (leBytes 4 c.cw.toNat) = c.cw.toNat := by
    rw [leNat_leBytes]
    exact Nat.mod_eq_of_lt c.cw.isLt
  have hlen : (c.toBytes f).length = 4 + f.bits / 8 := by simp [Cmd.toBytes]
  rw [Cmd.ofBytes, if_neg (by rw [List.length_append]; omega), ← hlen, List.drop_left, Cmd.toBytes, List.append_assoc,
    List.take_left' (leBytes_length 4 _), List.drop_left' (leBytes_length 4 _), List.take_left' (leBytes_length _ _),
    hcw, leNat_dataBytes h]
  simp

/-- Settles O6: the bytes are framed as they are read (`ofBytes_toBytes`), and the words decode to their command
(`decodeOfEncodeIsIdentity`). -/
theorem byteStreamRoundTrip : Obligations.ByteStreamRoundTrip := by
  intro f i rest hwf
  rw [decodeBytes, encodeBytes, ofBytes_toBytes rest (fits_encode_dw hwf)]
  simp only [decodeOfEncodeIsIdentity f i hwf]

/-- Settles O2: eleven closed words, each decoded. -/
theorem writtenWordsDecode : Obligations.WrittenWordsDecode := by
  unfold Obligations.WrittenWordsDecode
  decide

end Sys2Proof.Claims
